-- ==== Sys2Proof/Word.lean ====
section
/-!
DEFINITION. The word types of the FX16: 64-bit operation words and scalars (R53, R87), bytes (R1) and
the widths of the register fields of an operation word (Table enc 2, Table enc 11).
-/

namespace Sys2Proof

/-- A 64-bit scalar value or operation word (R53, R87). -/
abbrev Word := BitVec 64

/-- One byte; bit 0 is the least significant (R1). -/
abbrev Byte := BitVec 8

/-- Scalar register number, s0-s31 (R87). -/
abbrev Reg := BitVec 5

/-- Predicate number, q0-q7 (R93). -/
abbrev Prd := BitVec 3

/-- Panel number, p0-p31 (R144). -/
abbrev Pan := BitVec 5

/-- Semaphore number, k0-k255 (R225). -/
abbrev Sem := BitVec 8

/-- Circuit handle, h0-h63 (R366). -/
abbrev Hnd := BitVec 6

end Sys2Proof
end

