-- ==== Sys2Proof/Syntax.lean ====
section
/-!
DEFINITION. The syntax of the FX16: the operand codes of Tables enc 1-5, enc 7-10 and formats 1 and 3, and `Instr`, one
constructor per row of the opcode table. The first part of `Instr` is the operation words of the classes S, B, M, V,
E and Y (R53, R65-R74); the second part is the indivisible steps of the machine's other units and the inputs from
outside, which no operation word encodes.
-/

namespace Sys2Proof

/-- Header of an operation word: E, the guard's negate bit and predicate (Table enc 1, R54). -/
structure Hdr where
  e : Bool
  neg : Bool
  pred : Prd
  deriving DecidableEq, Repr

/-- Rounding codes 0-6 (Table formats 3); 7 is reserved. -/
inductive Rnd where
  | dyn | rne | rz | ru | rd | rna | sr
  deriving DecidableEq, Repr

/-- Type codes 0-12 (Table formats 1). -/
inductive Ty where
  | f32 | bf16 | f16 | e4m3 | e5m2 | e2m1 | i8 | n8 | i16 | i32 | n32 | i64 | i4
  deriving DecidableEq, Repr

/-- Space codes 0-2 (Table enc 3). -/
inductive Spc where
  | virt | ls | tsm
  deriving DecidableEq, Repr

/-- Size codes 0-6 (Table enc 3). -/
inductive Siz where
  | n8 | n16 | n32 | i64 | i8 | i16 | i32
  deriving DecidableEq, Repr

/-- Scope codes 0-4 (Table enc 3). -/
inductive Scp where
  | core | tile | mod | fab | sys
  deriving DecidableEq, Repr

/-- Order codes 0-4 (Table enc 3). -/
inductive MOrd where
  | plain | acq | rel | ar | sc
  deriving DecidableEq, Repr

/-- Joined modes 0-2 (Table enc 3, Table flow 3). -/
inductive JMode where
  | uni | any | all
  deriving DecidableEq, Repr

/-- Panel states 0-4 (Table enc 3). -/
inductive PSt where
  | empty | filling | ready | busy | draining
  deriving DecidableEq, Repr

/-- Conditions of CMP and CMPI (Table enc 5). -/
inductive ICond where
  | eq | ne | lt | ge | ltn | gen | any | none
  deriving DecidableEq, Repr

/-- Conditions of SFCMP and VCMP (Table enc 5). -/
inductive FCond where
  | eq | ne | lt | le | gt | ge | un | ord
  deriving DecidableEq, Repr

/-- SFCVT conversion codes 0-13 (Table enc 5), named source first. -/
inductive CvtCode where
  | f32_i32 | f32_n32 | f32_i64 | i32_f32 | n32_f32 | i64_f32 | f32_bf16 | bf16_f32
  | f32_f16 | f16_f32 | f32_e4m3 | e4m3_f32 | f32_e5m2 | e5m2_f32
  deriving DecidableEq, Repr

/-- CID selectors 0-3 (Table enc 5). -/
inductive CidSel where
  | cluster | core | tile | module
  deriving DecidableEq, Repr

/-- Reduction operations 0-2 of BRED and CPYRED (Table enc 7, Table enc 9). -/
inductive RedOp where
  | add | min | max
  deriving DecidableEq, Repr

/-- Reduction types 0-2 of BRED and CPYRED (Table enc 7, Table enc 9). -/
inductive RedTy where
  | i32 | f32 | bf16
  deriving DecidableEq, Repr

/-- A 7-bit row select (R64): an immediate row or a scalar that holds it. -/
inductive RowSel where
  | imm (r : BitVec 6)
  | reg (s : Reg)
  deriving DecidableEq, Repr

/-- A panel row operand `p<n>[<row>]` (R149). -/
structure RowRef where
  p : Pan
  r : RowSel
  deriving DecidableEq, Repr

/-- Operand b of a V-class operation: a row (S = 0) or a scalar (S = 1), R70. -/
inductive VB where
  | row (r : RowRef)
  | scalar (s : Reg)
  deriving DecidableEq, Repr

/-- The fields of an M-line access: size, space, base, signed offset, order and scope (Table enc 2). -/
structure Acc where
  sz : Siz
  sp : Spc
  base : Reg
  off : BitVec 18
  ord : MOrd
  scp : Scp
  deriving DecidableEq, Repr

/-- The synchronisation fields of an E-class operation (Table enc 2, R72). -/
structure Sync where
  wsem : Sem
  wcnt : BitVec 4
  ssem : Sem
  sinc : BitVec 4
  acq : Bool
  rel : Bool
  scp : Scp
  deriving DecidableEq, Repr

/-- The four engine rings of a core (R287). -/
inductive Eng where
  | matrix | proj | courier | port
  deriving DecidableEq, Repr

/-- A cluster of a context bank of a core: the coordinates of one stream (R12, R210). -/
structure StreamId where
  tile : Nat
  core : Nat
  bank : Nat
  cl : Fin 4
  deriving DecidableEq, Repr

/-- The instructions: one constructor per row of the opcode table. -/
inductive Instr where
  -- S class: Table enc 4
  | add (h : Hdr) (d a b : Reg)
  | sub (h : Hdr) (d a b : Reg)
  | addi (h : Hdr) (d a : Reg) (imm : BitVec 32)
  | addsh (h : Hdr) (d a b : Reg) (sh : BitVec 3)
  | mul (h : Hdr) (d a b : Reg)
  | mulh (h : Hdr) (d a b : Reg)
  | mulhn (h : Hdr) (d a b : Reg)
  | div (h : Hdr) (d a b : Reg)
  | divn (h : Hdr) (d a b : Reg)
  | rem (h : Hdr) (d a b : Reg)
  | remn (h : Hdr) (d a b : Reg)
  | and (h : Hdr) (d a b : Reg)
  | or (h : Hdr) (d a b : Reg)
  | xor (h : Hdr) (d a b : Reg)
  | andn (h : Hdr) (d a b : Reg)
  | andi (h : Hdr) (d a : Reg) (imm : BitVec 32)
  | ori (h : Hdr) (d a : Reg) (imm : BitVec 32)
  | xori (h : Hdr) (d a : Reg) (imm : BitVec 32)
  | shl (h : Hdr) (d a b : Reg)
  | shr (h : Hdr) (d a b : Reg)
  | sra (h : Hdr) (d a b : Reg)
  | rotr (h : Hdr) (d a b : Reg)
  | shli (h : Hdr) (d a : Reg) (n : BitVec 6)
  | shri (h : Hdr) (d a : Reg) (n : BitVec 6)
  | srai (h : Hdr) (d a : Reg) (n : BitVec 6)
  | min (h : Hdr) (d a b : Reg)
  | max (h : Hdr) (d a b : Reg)
  | minn (h : Hdr) (d a b : Reg)
  | maxn (h : Hdr) (d a b : Reg)
  | clz (h : Hdr) (d a : Reg)
  | popc (h : Hdr) (d a : Reg)
  | bfx (h : Hdr) (d a : Reg) (pos : BitVec 6) (w : BitVec 7)
  | bfxs (h : Hdr) (d a : Reg) (pos : BitVec 6) (w : BitVec 7)
  | bfi (h : Hdr) (d a : Reg) (pos : BitVec 6) (w : BitVec 7)
  | sel (h : Hdr) (d : Reg) (q : Prd) (a b : Reg)
  | movi (h : Hdr) (d : Reg) (imm : BitVec 32)
  | movhi (h : Hdr) (d : Reg) (imm : BitVec 32)
  | mov (h : Hdr) (d a : Reg)
  | cmp (h : Hdr) (c : ICond) (q : Prd) (a b : Reg)
  | cmpi (h : Hdr) (c : ICond) (q : Prd) (a : Reg) (imm : BitVec 32)
  | tstd (h : Hdr) (q : Prd) (a : Reg)
  | qand (h : Hdr) (d a b : Prd)
  | qor (h : Hdr) (d a b : Prd)
  | qxor (h : Hdr) (d a b : Prd)
  | qandn (h : Hdr) (d a b : Prd)
  | qmov (h : Hdr) (d a : Prd)
  | qtos (h : Hdr) (d : Reg)
  | sfadd (h : Hdr) (rm : Rnd) (d a b : Reg)
  | sfsub (h : Hdr) (rm : Rnd) (d a b : Reg)
  | sfmul (h : Hdr) (rm : Rnd) (d a b : Reg)
  | sfma (h : Hdr) (rm : Rnd) (d a b : Reg)
  | sfcmp (h : Hdr) (c : FCond) (q : Prd) (a b : Reg)
  | sfcvt (h : Hdr) (c : CvtCode) (rm : Rnd) (d a : Reg)
  | sfmin (h : Hdr) (d a b : Reg)
  | sfmax (h : Hdr) (d a b : Reg)
  | setps (h : Hdr) (p : Pan) (ready : Bool)
  | getps (h : Hdr) (d : Reg) (p : Pan)
  | pstat (h : Hdr) (q : Prd) (p : Pan) (st : PSt)
  | semadd (h : Hdr) (d : Reg) (k : Sem) (a : Reg)
  | semget (h : Hdr) (d : Reg) (k : Sem)
  | semset (h : Hdr) (k : Sem) (a : Reg)
  | clrd (h : Hdr) (d : Reg)
  | rdtick (h : Hdr) (d : Reg)
  | rdclk (h : Hdr) (d : Reg)
  | cid (h : Hdr) (d : Reg) (sel : CidSel)
  -- B class: Table enc 6
  | br (h : Hdr) (m : JMode) (disp : BitVec 32)
  | bri (h : Hdr) (m : JMode) (a : Reg)
  | call (h : Hdr) (m : JMode) (disp : BitVec 32)
  | calli (h : Hdr) (m : JMode) (a : Reg)
  | ret (h : Hdr) (m : JMode)
  | chk (h : Hdr) (m : JMode) (a : Reg) (disp : BitVec 32)
  | fork (h : Hdr) (disp : BitVec 32)
  | join (h : Hdr) (set : BitVec 3) (mask : BitVec 4)
  | loop (h : Hdr) (lvl : BitVec 2) (a : Reg) (disp : BitVec 32)
  | loopi (h : Hdr) (lvl : BitVec 2) (count disp : BitVec 16)
  | exit (h : Hdr)
  | returnStackFill (id : Nat)
  -- M class: Table enc 7
  | ld (h : Hdr) (d : Reg) (m : Acc)
  | ldx (h : Hdr) (d : Reg) (m : Acc) (idx : Reg) (sh : BitVec 3)
  | st (h : Hdr) (d : Reg) (m : Acc)
  | stx (h : Hdr) (d : Reg) (m : Acc) (idx : Reg) (sh : BitVec 3)
  | lds (h : Hdr) (d : Reg) (sz : Siz) (sp : Spc) (base : Reg) (off : BitVec 18)
  | ldm (h : Hdr) (d : Reg) (cnt1 : BitVec 5) (sp : Spc) (base : Reg) (off : BitVec 18)
  | stm (h : Hdr) (d : Reg) (cnt1 : BitVec 5) (sp : Spc) (base : Reg) (off : BitVec 18)
  | ldmStmSecondPiece (id : StreamId)
  | ldrow (h : Hdr) (r : RowRef) (sp : Spc) (base idx : Reg) (sh : BitVec 3) (off : BitVec 18)
  | strow (h : Hdr) (r : RowRef) (sp : Spc) (base idx : Reg) (sh : BitVec 3) (off : BitVec 18)
  | pf (h : Hdr) (base idx : Reg) (sh : BitVec 3) (off : BitVec 18)
  | aadd (h : Hdr) (d : Reg) (m : Acc) (a : Reg) (comb : Bool)
  | afadd (h : Hdr) (d : Reg) (m : Acc) (a : Reg) (comb : Bool)
  | amin (h : Hdr) (d : Reg) (m : Acc) (a : Reg)
  | amax (h : Hdr) (d : Reg) (m : Acc) (a : Reg)
  | aminn (h : Hdr) (d : Reg) (m : Acc) (a : Reg)
  | amaxn (h : Hdr) (d : Reg) (m : Acc) (a : Reg)
  | aand (h : Hdr) (d : Reg) (m : Acc) (a : Reg)
  | aor (h : Hdr) (d : Reg) (m : Acc) (a : Reg)
  | axor (h : Hdr) (d : Reg) (m : Acc) (a : Reg)
  | axchg (h : Hdr) (d : Reg) (m : Acc) (a : Reg)
  | acas (h : Hdr) (d : Reg) (m : Acc) (a : Reg)
  | bred (h : Hdr) (r : RowRef) (op : RedOp) (t : RedTy) (base : Reg) (off : BitVec 18)
  | fence (h : Hdr) (scp : Scp) (ord : MOrd)
  | barinit (h : Hdr) (o : BitVec 12) (a : Reg)
  | bara (h : Hdr) (o : BitVec 12)
  | barw (h : Hdr) (o : BitVec 12)
  | barp (h : Hdr) (o : BitVec 12) (a : Reg) (cnt : BitVec 4)
  | barrot (h : Hdr)
  -- V class: Table enc 8
  | vadd (h : Hdr) (t : Ty) (rm : Rnd) (d a : RowRef) (b : VB)
  | vsub (h : Hdr) (t : Ty) (rm : Rnd) (d a : RowRef) (b : VB)
  | vmul (h : Hdr) (t : Ty) (rm : Rnd) (d a : RowRef) (b : VB)
  | vfma (h : Hdr) (t : Ty) (rm : Rnd) (d a : RowRef) (b : VB)
  | vmax (h : Hdr) (t : Ty) (d a : RowRef) (b : VB)
  | vmin (h : Hdr) (t : Ty) (d a : RowRef) (b : VB)
  | vabs (h : Hdr) (t : Ty) (d a : RowRef)
  | vneg (h : Hdr) (t : Ty) (d a : RowRef)
  | vscale (h : Hdr) (t : Ty) (rm : Rnd) (d a : RowRef) (b : VB)
  | vexp2 (h : Hdr) (t : Ty) (rm : Rnd) (d a : RowRef)
  | vlog2 (h : Hdr) (t : Ty) (rm : Rnd) (d a : RowRef)
  | vrcp (h : Hdr) (t : Ty) (rm : Rnd) (d a : RowRef)
  | vrsq (h : Hdr) (t : Ty) (rm : Rnd) (d a : RowRef)
  | vcvt (h : Hdr) (dt t : Ty) (rm : Rnd) (d a : RowRef)
  | vcmp (h : Hdr) (t : Ty) (c : FCond) (d a : RowRef) (b : VB)
  | vsel (h : Hdr) (t : Ty) (d a : RowRef) (b : VB)
  | viadd (h : Hdr) (t : Ty) (sat : Bool) (d a : RowRef) (b : VB)
  | visub (h : Hdr) (t : Ty) (sat : Bool) (d a : RowRef) (b : VB)
  | vimul (h : Hdr) (t : Ty) (d a : RowRef) (b : VB)
  | vimac (h : Hdr) (t : Ty) (d a : RowRef) (b : VB)
  | vrshr (h : Hdr) (t : Ty) (rm : Rnd) (d a : RowRef) (b : VB)
  | vsatn (h : Hdr) (dt t : Ty) (d a : RowRef)
  | vand (h : Hdr) (t : Ty) (d a : RowRef) (b : VB)
  | vor (h : Hdr) (t : Ty) (d a : RowRef) (b : VB)
  | vxor (h : Hdr) (t : Ty) (d a : RowRef) (b : VB)
  | vshl (h : Hdr) (t : Ty) (d a : RowRef) (b : VB)
  | vshr (h : Hdr) (t : Ty) (arith : Bool) (d a : RowRef) (b : VB)
  | vimax (h : Hdr) (t : Ty) (d a : RowRef) (b : VB)
  | vimin (h : Hdr) (t : Ty) (d a : RowRef) (b : VB)
  | vmov (h : Hdr) (t : Ty) (d a : RowRef)
  | vbcast (h : Hdr) (t : Ty) (d : RowRef) (a : Reg)
  | vext (h : Hdr) (t : Ty) (d : Reg) (a : RowRef) (idx : Reg)
  | vins (h : Hdr) (t : Ty) (d : RowRef) (a idx : Reg)
  | vslide (h : Hdr) (t : Ty) (up : Bool) (d a : RowRef) (cnt : Reg)
  | vperm (h : Hdr) (t : Ty) (d a b : RowRef)
  | viota (h : Hdr) (t : Ty) (d : RowRef)
  | vrsum (h : Hdr) (t : Ty) (rm : Rnd) (d : Reg) (a : RowRef)
  | vrisum (h : Hdr) (t : Ty) (d : Reg) (a : RowRef)
  | vrmax (h : Hdr) (t : Ty) (d : Reg) (a : RowRef)
  | vrmin (h : Hdr) (t : Ty) (d : Reg) (a : RowRef)
  | vargmax (h : Hdr) (t : Ty) (d i : Reg) (a : RowRef)
  -- E class: Table enc 9
  | mma (h : Hdr) (y : Sync) (d a b : Pan) (t : Ty)
  | mzero (h : Hdr) (y : Sync) (d : Pan)
  | mcvt (h : Hdr) (y : Sync) (d a : Pan) (rm : Rnd) (t : Ty)
  | mtrn (h : Hdr) (y : Sync) (d a : Pan) (t : Ty)
  | vpinit (h : Hdr) (y : Sync) (p : Pan) (a : Reg)
  | vproj (h : Hdr) (y : Sync) (p p2 : Pan) (a : Reg)
  | vpback (h : Hdr) (y : Sync) (p p2 : Pan) (a : Reg)
  | vpmerge (h : Hdr) (y : Sync) (p p2 : Pan)
  | vpemit (h : Hdr) (y : Sync) (p : Pan) (a : Reg)
  | cpylp (h : Hdr) (y : Sync) (d : Pan) (src cnt : Reg)
  | cpysp (h : Hdr) (y : Sync) (dst : Reg) (p : Pan) (cnt : Reg)
  | cpymm (h : Hdr) (y : Sync) (dst src cnt : Reg)
  | cpygp (h : Hdr) (y : Sync) (d : Pan) (list cnt : Reg)
  | cpyred (h : Hdr) (y : Sync) (dst src cnt : Reg) (op : RedOp) (t : RedTy)
  | cpyz (h : Hdr) (y : Sync) (dst cnt : Reg)
  | migr (h : Hdr) (y : Sync) (page target deadline : Reg)
  | send (h : Hdr) (y : Sync) (hd : Hnd) (src cnt : Reg) (hold : Bool)
  | recv (h : Hdr) (y : Sync) (hd : Hnd) (dst cnt : Reg)
  | pwr (h : Hdr) (y : Sync) (hd : Hnd) (desc : Reg)
  | pwred (h : Hdr) (y : Sync) (hd : Hnd) (desc : Reg) (relay : Bool)
  | arm (h : Hdr) (y : Sync) (desc : Reg)
  -- Y class: Table enc 10
  | trap (h : Hdr) (n : BitVec 6)
  | rett (h : Hdr)
  | mfcr (h : Hdr) (d : Reg) (idx : BitVec 8)
  | mtcr (h : Hdr) (a : Reg) (idx : BitVec 8)
  | mtcrRstop (h : Hdr) (a : Reg)
  | mtcrBarbase (h : Hdr) (a : Reg)
  | mtcrRdbase (h : Hdr) (a : Reg)
  | mtcrFqbase (h : Hdr) (a : Reg) (n : BitVec 2)
  | tlbinvPage (h : Hdr) (a : Reg)
  | tlbinvLarge (h : Hdr) (a : Reg)
  | tlbinvCtx (h : Hdr)
  | tlbinvAll (h : Hdr)
  | mscopWriteback (h : Hdr) (a b : Reg)
  | mscopInvalidate (h : Hdr) (a b : Reg)
  | mscopRetain (h : Hdr) (a b : Reg)
  | mscopEvictFirst (h : Hdr) (a b : Reg)
  | launch (h : Hdr) (d a : Reg) (q : BitVec 4)
  | trigger (h : Hdr)
  | waitdep (h : Hdr)
  | waitx (h : Hdr) (a : Reg) (cnt : BitVec 4) (disp : BitVec 32)
  | postx (h : Hdr) (a : Reg)
  | yield (h : Hdr)
  | cueq (h : Hdr) (d : Reg) (hd : Hnd)
  | cuewait (h : Hdr) (hd : Hnd)
  | cuesel (h : Hdr) (a : Reg)
  | faultack (h : Hdr) (a : Reg)
  | perfrd (h : Hdr) (d a : Reg)
  | hint (h : Hdr) (kind : BitVec 5) (a : Reg)
  | frameopRead (h : Hdr) (d a b : Reg)
  | frameopAdjust (h : Hdr) (d a b : Reg)
  | frameopFlags (h : Hdr) (d a b : Reg)
  | frameopPush (h : Hdr) (d a b : Reg)
  | frameopPop (h : Hdr) (d a b : Reg)
  | frameopShoot (h : Hdr) (d a b : Reg)
  -- steps of the streams' own pipelines
  | resultWriteback (id : StreamId)
  | illop (addr : Word) (priv : Bool)
  | instructionFetchFault (prot : Bool) (blk : Word) (aux : BitVec 32)
  | longLoadReturn (id : Nat)
  | atomicReply (id : Nat)
  | atomicReplyTimeout (id : Nat)
  | streamResume (id : StreamId)
  -- engines of a core
  | matrixWindowEntry (t c : Nat)
  | matrixEntryStart (t c : Nat)
  | matrixEntryComplete (t c : Nat)
  | projectionStart (t c : Nat)
  | projectionGroup (t c : Nat)
  | projectionComplete (t c : Nat)
  | courierTake (t c : Nat)
  | courierPart (t c : Nat)
  | courierComplete (t c : Nat)
  | cowCopyComplete (t c : Nat)
  | migrationLineCopy (t slot : Nat)
  | migrationSwitch (t slot : Nat)
  | migrationArrival (t slot : Nat)
  | engineSignal (t c : Nat) (g : Eng)
  -- port engine of a tile
  | portRingTake (t c : Nat)
  | sendBlock (t h : Nat)
  | blockArrival (id : Nat)
  | sendAcknowledged (t h : Nat)
  | packetArrival (id : Nat)
  | firedEntryEnqueue (t : Nat)
  | workEntryTimeout (t n : Nat) (armed : Bool)
  -- memory units, routers
  | frameTableStep (t : Nat)
  | tsmBankStep (t b : Nat)
  | atomicUnitStep (t u : Nat)
  | calendarSlot (t : Nat)
  | routerRequest (id : Nat)
  | combineArrival (id : Nat)
  | combinedSend (t e : Nat)
  | combinedReply (t e : Nat)
  | combiningEntryTimeout (t e : Nat)
  -- launch distributor, schedulers, continuation store, pre-emption
  | taskPlacement (t c : Nat)
  | taskStart (t c b : Nat)
  | bankExchange (t c : Nat)
  | bankExchangeEnd (t c : Nat)
  | preemptionSaveWrite (t co : Nat)
  -- rows that name no unit
  | preemptionRequest
  | preemptionDeadline
  | preemptionRestore
  | mscFilterClear
  | distributorTake
  | taskAging
  | continuationRegistration
  | postApply
  | faultRecordDeliver
  -- stage manager, ports, lasers, power
  | sceneStart
  | liveTick
  | darkPoint
  | rotationEnd
  | droopBubble (t c : Nat) (mask : BitVec 4)
  | laneFailure (t p lane : Nat)
  | ringtune (t p lane : Nat)
  | laser (n : Nat)
  | laserSwitchover
  | lossRecordReceipt
  | powerRegrant
  -- host and control die
  | hostQueueConfigWrite (q word : Nat) (v : Word)
  | hostTailWrite (q : Nat) (v : Word)
  | cueLoad (v : Word)
  | cueStart (v : Word)
  | cueChange (v : Word)
  | cueStop (v : Word)
  | calendarConfigWrite (t word : Nat) (v : Word)
  | faultAnswer (v : Word)
  | hostFrameRead (a b : Word)
  | hostFrameAdjust (a b : Word)
  | hostFrameFlags (a b : Word)
  | hostFramePush (a b : Word)
  | hostFramePop (a b : Word)
  | hostFrameShoot (a b : Word)
  | hostRegisterWrite (off : Nat) (v : Word)
  | hostMemoryAccess (wr : Bool) (addr n : Nat) (data : List Byte)
  | pldmPowerSet (which v : Nat)
  | attestationRequest (nonce : BitVec 256)
  | thermalHold (t : Nat)
  | thermalTrip (t : Nat)
  | thermalRelease (t : Nat)
  | coldReset
  | bringupStage
  deriving DecidableEq, Repr

end Sys2Proof
end

