-- ==== Sys2Proof/WellFormed.lean ====
section
/-!
DEFINITION. Which terms of `Instr` are instructions: the limits that the class tables state beyond the codes that
`Syntax` already excludes (R69-R75). A term that breaks one has no encoding that decodes, and the decoder refuses it.
-/

namespace Sys2Proof

/-- Guard 0b1000 is not an instruction (R54, R75). -/
def Hdr.wf (h : Hdr) : Bool := !(h.neg && h.pred == 0)

/-- A plain order carries scope 0 (R69). -/
def Acc.wf (m : Acc) : Bool := m.ord != .plain || m.scp == .core

/-- LD, LDX: orders plain, acq and sc (Table enc 7). -/
def Acc.loadWf (m : Acc) : Bool := m.wf && (m.ord == .plain || m.ord == .acq || m.ord == .sc)

/-- ST, STX: sizes 0-3, orders plain, rel and sc (Table enc 7). -/
def Acc.storeWf (m : Acc) : Bool :=
  m.wf && (m.ord == .plain || m.ord == .rel || m.ord == .sc) &&
    (m.sz == .n8 || m.sz == .n16 || m.sz == .n32 || m.sz == .i64)

/-- Integer atomics: sizes 2 and 3, spaces 0 and 2 (Table enc 7). -/
def Acc.atomWf (m : Acc) : Bool := m.wf && m.sp != .ls && (m.sz == .n32 || m.sz == .i64)

/-- AFADD: sizes 1 and 2, spaces 0 and 2 (Table enc 7). -/
def Acc.fatomWf (m : Acc) : Bool := m.wf && m.sp != .ls && (m.sz == .n16 || m.sz == .n32)

/-- The limits of R72 on the synchronisation fields. -/
def Sync.wf (y : Sync) : Bool :=
  (y.wcnt != 0 || y.wsem == 0) && (y.sinc != 0 || y.ssem == 0) && (y.acq || y.rel || y.scp == .core)

/-- Matrix operations carry neither acquire nor release nor a scope (R171). -/
def Sync.matWf (y : Sync) : Bool := y.wf && !y.acq && !y.rel && y.scp == .core

/-- Types 0-2. -/
def Ty.fp (t : Ty) : Bool := t == .f32 || t == .bf16 || t == .f16

/-- Types 0-4 and 6-11: every type of at least 8 bits a lane. -/
def Ty.wide (t : Ty) : Bool := t != .e2m1 && t != .i4

/-- Types 6-10. -/
def Ty.int10 (t : Ty) : Bool := t == .i8 || t == .n8 || t == .i16 || t == .i32 || t == .n32

/-- Types 6-11. -/
def Ty.int11 (t : Ty) : Bool := t.int10 || t == .i64

/-- Types 0-4 and 6-9, of MCVT destinations and MTRN (Table enc 9). -/
def Ty.mat (t : Ty) : Bool := t != .e2m1 && t != .n32 && t != .i64 && t != .i4

/-- Types 0-7, of MMA (Table enc 9). -/
def Ty.mma (t : Ty) : Bool :=
  t == .f32 || t == .bf16 || t == .f16 || t == .e4m3 || t == .e5m2 || t == .e2m1 || t == .i8 || t == .n8

/-- Width 1-64 and position + width at most 64 (Table enc 4, R105). -/
def bfWf (pos : BitVec 6) (w : BitVec 7) : Bool := 1 ≤ w.toNat && pos.toNat + w.toNat ≤ 64

/-- The assigned control-register indices (Table ctx 1). -/
def crAssigned (i : Nat) : Bool :=
  i ≤ 0x0A || (0x10 ≤ i && i ≤ 0x1B) || (0x20 ≤ i && i ≤ 0x24) || (0x40 ≤ i && i ≤ 0x47)

/-- The indices of the general MTCR row: assigned, not CIDR, not one of the rows of their own (Table ctx 1). -/
def crPlainWrite (i : Nat) : Bool :=
  crAssigned i && i != 0x0A && i != 0x08 && i != 0x20 && i != 0x46 && !(0x42 ≤ i && i ≤ 0x45)

/-- A tile or core number (R12). -/
def u16 (n : Nat) : Bool := n < 16

/-- Coordinates of a cluster of a bank (R12, R210). -/
def StreamId.wf (i : StreamId) : Bool := u16 i.tile && u16 i.core && i.bank < 2

/-- The header of an operation word; none for a step of another unit. -/
def Instr.hdr? : Instr → Option Hdr
  | .add h .. | .sub h .. | .addi h .. | .addsh h .. | .mul h .. | .mulh h .. | .mulhn h .. | .div h .. | .divn h ..
  | .rem h .. | .remn h .. | .and h .. | .or h .. | .xor h .. | .andn h .. | .andi h .. | .ori h .. | .xori h ..
  | .shl h .. | .shr h .. | .sra h .. | .rotr h .. | .shli h .. | .shri h .. | .srai h .. | .min h .. | .max h ..
  | .minn h .. | .maxn h .. | .clz h .. | .popc h .. | .bfx h .. | .bfxs h .. | .bfi h .. | .sel h .. | .movi h ..
  | .movhi h .. | .mov h .. | .cmp h .. | .cmpi h .. | .tstd h .. | .qand h .. | .qor h .. | .qxor h .. | .qandn h ..
  | .qmov h .. | .qtos h .. | .sfadd h .. | .sfsub h .. | .sfmul h .. | .sfma h .. | .sfcmp h .. | .sfcvt h ..
  | .sfmin h .. | .sfmax h .. | .setps h .. | .getps h .. | .pstat h .. | .semadd h .. | .semget h .. | .semset h ..
  | .clrd h .. | .rdtick h .. | .rdclk h .. | .cid h .. | .br h .. | .bri h .. | .call h .. | .calli h .. | .ret h ..
  | .chk h .. | .fork h .. | .join h .. | .loop h .. | .loopi h .. | .exit h .. | .ld h .. | .ldx h .. | .st h ..
  | .stx h .. | .lds h .. | .ldm h .. | .stm h .. | .ldrow h .. | .strow h .. | .pf h .. | .aadd h .. | .afadd h ..
  | .amin h .. | .amax h .. | .aminn h .. | .amaxn h .. | .aand h .. | .aor h .. | .axor h .. | .axchg h ..
  | .acas h .. | .bred h .. | .fence h .. | .barinit h .. | .bara h .. | .barw h .. | .barp h .. | .barrot h ..
  | .vadd h .. | .vsub h .. | .vmul h .. | .vfma h .. | .vmax h .. | .vmin h .. | .vabs h .. | .vneg h ..
  | .vscale h .. | .vexp2 h .. | .vlog2 h .. | .vrcp h .. | .vrsq h .. | .vcvt h .. | .vcmp h .. | .vsel h ..
  | .viadd h .. | .visub h .. | .vimul h .. | .vimac h .. | .vrshr h .. | .vsatn h .. | .vand h .. | .vor h ..
  | .vxor h .. | .vshl h .. | .vshr h .. | .vimax h .. | .vimin h .. | .vmov h .. | .vbcast h .. | .vext h ..
  | .vins h .. | .vslide h .. | .vperm h .. | .viota h .. | .vrsum h .. | .vrisum h .. | .vrmax h .. | .vrmin h ..
  | .vargmax h .. | .mma h .. | .mzero h .. | .mcvt h .. | .mtrn h .. | .vpinit h .. | .vproj h .. | .vpback h ..
  | .vpmerge h .. | .vpemit h .. | .cpylp h .. | .cpysp h .. | .cpymm h .. | .cpygp h .. | .cpyred h .. | .cpyz h ..
  | .migr h .. | .send h .. | .recv h .. | .pwr h .. | .pwred h .. | .arm h .. | .trap h .. | .rett h .. | .mfcr h ..
  | .mtcr h .. | .mtcrRstop h .. | .mtcrBarbase h .. | .mtcrRdbase h .. | .mtcrFqbase h .. | .tlbinvPage h ..
  | .tlbinvLarge h .. | .tlbinvCtx h .. | .tlbinvAll h .. | .mscopWriteback h .. | .mscopInvalidate h ..
  | .mscopRetain h .. | .mscopEvictFirst h .. | .launch h .. | .trigger h .. | .waitdep h .. | .waitx h ..
  | .postx h .. | .yield h .. | .cueq h .. | .cuewait h .. | .cuesel h .. | .faultack h .. | .perfrd h ..
  | .hint h .. | .frameopRead h .. | .frameopAdjust h .. | .frameopFlags h .. | .frameopPush h .. | .frameopPop h ..
  | .frameopShoot h .. => some h
  | _ => none

/-- The operand limits of an operation word beyond its header (Tables enc 4-10). -/
def Instr.limits : Instr → Bool
  -- S class
  | .bfx _ _ _ pos w | .bfxs _ _ _ pos w | .bfi _ _ _ pos w => bfWf pos w
  -- B class
  | .join _ _ mask => mask != 0
  -- M class
  | .ld _ _ m | .ldx _ _ m _ _ => m.loadWf
  | .st _ _ m | .stx _ _ m _ _ => m.storeWf
  | .ldm _ d cnt1 _ base _ =>
    d.toNat + cnt1.toNat ≤ 31 && !(d.toNat ≤ base.toNat && base.toNat ≤ d.toNat + cnt1.toNat)
  | .stm _ d cnt1 _ _ _ => d.toNat + cnt1.toNat ≤ 31
  | .aadd _ _ m _ comb => m.atomWf && (!comb || m.sp == .virt)
  | .afadd _ _ m _ comb => m.fatomWf && (!comb || m.sp == .virt)
  | .amin _ _ m _ | .amax _ _ m _ | .aminn _ _ m _ | .amaxn _ _ m _ | .aand _ _ m _ | .aor _ _ m _
  | .axor _ _ m _ | .axchg _ _ m _ | .acas _ _ m _ => m.atomWf
  | .fence _ _ ord => ord != .plain
  | .barp _ _ _ cnt => cnt.toNat ≤ 8
  -- V class
  | .vadd _ t .. | .vsub _ t .. | .vmul _ t .. | .vfma _ t .. | .vmax _ t .. | .vmin _ t .. | .vabs _ t ..
  | .vneg _ t .. | .vscale _ t .. | .vexp2 _ t .. | .vlog2 _ t .. | .vrcp _ t .. | .vrsq _ t .. | .vrsum _ t .. => t.fp
  | .vcmp _ t .. | .vbcast _ t .. | .vext _ t .. | .vins _ t .. | .vperm _ t .. | .vrmax _ t .. | .vrmin _ t ..
  | .vargmax _ t .. => t.wide
  | .vsel _ t .. => t != .e2m1
  | .viadd _ t .. | .visub _ t .. | .vimul _ t .. | .vimac _ t .. | .vrisum _ t .. => t.int10
  | .vrshr _ t .. => t == .i16 || t == .i32 || t == .i64
  | .vsatn _ dt t .. => (t == .i16 || t == .i32) && (dt == .i8 || dt == .n8 || dt == .i16 || dt == .i4)
  | .vshl _ t .. | .vshr _ t .. | .vimax _ t .. | .vimin _ t .. | .viota _ t .. => t.int11
  -- E class
  | .mma _ y _ _ b t => y.matWf && !b.getLsbD 0 && t.mma
  | .mzero _ y _ => y.matWf
  | .mcvt _ y _ _ rm t => y.matWf && t.mat && (rm == .dyn || t.fp || t == .e4m3 || t == .e5m2)
  | .mtrn _ y _ _ t => y.matWf && t.mat
  | .vpinit _ y .. | .vproj _ y .. | .vpback _ y .. | .vpmerge _ y .. | .vpemit _ y .. | .cpylp _ y .. | .cpysp _ y ..
  | .cpymm _ y .. | .cpygp _ y .. | .cpyred _ y .. | .cpyz _ y .. | .migr _ y .. | .send _ y .. | .recv _ y ..
  | .pwr _ y .. | .pwred _ y .. | .arm _ y .. => y.wf
  -- Y class
  | .mfcr _ _ idx => crAssigned idx.toNat
  | .mtcr _ _ idx => crPlainWrite idx.toNat
  | .waitx _ _ cnt _ => cnt.toNat ≤ 8
  -- every other row
  | _ => true

/-- The instruction is well formed: its guard is not 0b1000 and its operands meet the limits of its row (R75). -/
def Instr.wf (i : Instr) : Bool := (match i.hdr? with | some h => h.wf | none => true) && i.limits

/-- The operation is a supervisor operation (Table enc 10, R76). -/
def Instr.supervisor : Instr → Bool
  | .rett .. | .tlbinvPage .. | .tlbinvLarge .. | .tlbinvCtx .. | .tlbinvAll .. | .cuesel .. | .faultack ..
  | .frameopRead .. | .frameopAdjust .. | .frameopFlags .. | .frameopPush .. | .frameopPop .. | .frameopShoot ..
  | .mtcrRdbase .. | .mtcrFqbase .. => true
  | .mfcr _ _ idx => 0x40 ≤ idx.toNat
  | .mtcr _ _ idx => 0x40 ≤ idx.toNat
  | _ => false

end Sys2Proof
end

