-- ==== Sys2Proof/Decode.lean ====
section
/-!
DEFINITION. The decoder of operation words, total, which rejects by name, and after it the encoder, both written from
Tables enc 1-10 (R53-R78). Field positions are the manual's bit numbers within the 64-bit word.
-/

namespace Sys2Proof

/-- Why a word is not an instruction (R75). -/
inductive Reject where
  | badClass | badOpcode | badGuard | zeroField | reservedCode | limit
  deriving DecidableEq, Repr

/-- The field of `len` bits at bit `lo` of a word. -/
def fld (w : Word) (lo len : Nat) : BitVec len := w.extractLsb' lo len

/-- Require a condition, else reject. -/
def req (b : Bool) (r : Reject) : Except Reject Unit := if b then .ok () else .error r

/-- Require a zero field (R62, R75). -/
def zf (w : Word) (lo len : Nat) : Except Reject Unit := req (fld w lo len == 0) .zeroField

/-- Require an assigned code. -/
def code {α : Type} (o : Option α) : Except Reject α :=
  match o with
  | some x => .ok x
  | none => .error .reservedCode

/-! ### Codes (Tables enc 3, enc 5, formats 1 and 3) -/

def Rnd.code : Rnd → BitVec 3
  | .dyn => 0 | .rne => 1 | .rz => 2 | .ru => 3 | .rd => 4 | .rna => 5 | .sr => 6

def Rnd.ofCode (c : BitVec 3) : Option Rnd :=
  match c.toNat with
  | 0 => some .dyn | 1 => some .rne | 2 => some .rz | 3 => some .ru | 4 => some .rd | 5 => some .rna | 6 => some .sr
  | _ => none

def Ty.code : Ty → BitVec 4
  | .f32 => 0 | .bf16 => 1 | .f16 => 2 | .e4m3 => 3 | .e5m2 => 4 | .e2m1 => 5 | .i8 => 6 | .n8 => 7 | .i16 => 8
  | .i32 => 9 | .n32 => 10 | .i64 => 11 | .i4 => 12

def Ty.ofCode (c : BitVec 4) : Option Ty :=
  match c.toNat with
  | 0 => some .f32 | 1 => some .bf16 | 2 => some .f16 | 3 => some .e4m3 | 4 => some .e5m2 | 5 => some .e2m1
  | 6 => some .i8 | 7 => some .n8 | 8 => some .i16 | 9 => some .i32 | 10 => some .n32 | 11 => some .i64
  | 12 => some .i4 | _ => none

def Spc.code : Spc → BitVec 2
  | .virt => 0 | .ls => 1 | .tsm => 2

def Spc.ofCode (c : BitVec 2) : Option Spc :=
  match c.toNat with
  | 0 => some .virt | 1 => some .ls | 2 => some .tsm | _ => none

def Siz.code : Siz → BitVec 3
  | .n8 => 0 | .n16 => 1 | .n32 => 2 | .i64 => 3 | .i8 => 4 | .i16 => 5 | .i32 => 6

def Siz.ofCode (c : BitVec 3) : Option Siz :=
  match c.toNat with
  | 0 => some .n8 | 1 => some .n16 | 2 => some .n32 | 3 => some .i64 | 4 => some .i8 | 5 => some .i16
  | 6 => some .i32 | _ => none

def Scp.code : Scp → BitVec 3
  | .core => 0 | .tile => 1 | .mod => 2 | .fab => 3 | .sys => 4

def Scp.ofCode (c : BitVec 3) : Option Scp :=
  match c.toNat with
  | 0 => some .core | 1 => some .tile | 2 => some .mod | 3 => some .fab | 4 => some .sys | _ => none

def MOrd.code : MOrd → BitVec 3
  | .plain => 0 | .acq => 1 | .rel => 2 | .ar => 3 | .sc => 4

def MOrd.ofCode (c : BitVec 3) : Option MOrd :=
  match c.toNat with
  | 0 => some .plain | 1 => some .acq | 2 => some .rel | 3 => some .ar | 4 => some .sc | _ => none

def JMode.code : JMode → BitVec 2
  | .uni => 0 | .any => 1 | .all => 2

def JMode.ofCode (c : BitVec 2) : Option JMode :=
  match c.toNat with
  | 0 => some .uni | 1 => some .any | 2 => some .all | _ => none

def PSt.code : PSt → BitVec 3
  | .empty => 0 | .filling => 1 | .ready => 2 | .busy => 3 | .draining => 4

def PSt.ofCode (c : BitVec 3) : Option PSt :=
  match c.toNat with
  | 0 => some .empty | 1 => some .filling | 2 => some .ready | 3 => some .busy | 4 => some .draining | _ => none

def ICond.code : ICond → BitVec 3
  | .eq => 0 | .ne => 1 | .lt => 2 | .ge => 3 | .ltn => 4 | .gen => 5 | .any => 6 | .none => 7

def ICond.ofCode (c : BitVec 3) : ICond :=
  match c.toNat with
  | 0 => .eq | 1 => .ne | 2 => .lt | 3 => .ge | 4 => .ltn | 5 => .gen | 6 => .any | _ => .none

def FCond.code : FCond → BitVec 3
  | .eq => 0 | .ne => 1 | .lt => 2 | .le => 3 | .gt => 4 | .ge => 5 | .un => 6 | .ord => 7

def FCond.ofCode (c : BitVec 3) : FCond :=
  match c.toNat with
  | 0 => .eq | 1 => .ne | 2 => .lt | 3 => .le | 4 => .gt | 5 => .ge | 6 => .un | _ => .ord

def CvtCode.code : CvtCode → BitVec 5
  | .f32_i32 => 0 | .f32_n32 => 1 | .f32_i64 => 2 | .i32_f32 => 3 | .n32_f32 => 4 | .i64_f32 => 5 | .f32_bf16 => 6
  | .bf16_f32 => 7 | .f32_f16 => 8 | .f16_f32 => 9 | .f32_e4m3 => 10 | .e4m3_f32 => 11 | .f32_e5m2 => 12
  | .e5m2_f32 => 13

def CvtCode.ofCode (c : BitVec 5) : Option CvtCode :=
  match c.toNat with
  | 0 => some .f32_i32 | 1 => some .f32_n32 | 2 => some .f32_i64 | 3 => some .i32_f32 | 4 => some .n32_f32
  | 5 => some .i64_f32 | 6 => some .f32_bf16 | 7 => some .bf16_f32 | 8 => some .f32_f16 | 9 => some .f16_f32
  | 10 => some .f32_e4m3 | 11 => some .e4m3_f32 | 12 => some .f32_e5m2 | 13 => some .e5m2_f32 | _ => none

def CidSel.code : CidSel → BitVec 3
  | .cluster => 0 | .core => 1 | .tile => 2 | .module => 3

def CidSel.ofCode (c : BitVec 3) : Option CidSel :=
  match c.toNat with
  | 0 => some .cluster | 1 => some .core | 2 => some .tile | 3 => some .module | _ => none

def RedOp.code : RedOp → BitVec 2
  | .add => 0 | .min => 1 | .max => 2

def RedOp.ofCode (c : BitVec 2) : Option RedOp :=
  match c.toNat with
  | 0 => some .add | 1 => some .min | 2 => some .max | _ => none

def RedTy.code : RedTy → BitVec 2
  | .i32 => 0 | .f32 => 1 | .bf16 => 2

def RedTy.ofCode (c : BitVec 2) : Option RedTy :=
  match c.toNat with
  | 0 => some .i32 | 1 => some .f32 | 2 => some .bf16 | _ => none

/-- Row select (R64): bit 6 clear, an immediate; bit 6 set, bit 5 zero and a scalar. -/
def RowSel.code : RowSel → BitVec 7
  | .imm r => 0#1 ++ r
  | .reg s => 2#2 ++ s

def RowSel.ofCode (c : BitVec 7) : Option RowSel :=
  if c.getLsbD 6 then (if c.getLsbD 5 then none else some (.reg (c.extractLsb' 0 5)))
  else some (.imm (c.extractLsb' 0 6))

/-! ### The decoder -/

/-- A row operand: panel at `pl`, row select at `rl`. -/
def rowRef (w : Word) (pl rl : Nat) : Except Reject RowRef :=
  match RowSel.ofCode (fld w rl 7) with
  | some r => .ok ⟨fld w pl 5, r⟩
  | none => .error .zeroField

/-- A predicate field of five bits with [4:3] zero. -/
def prdF (w : Word) (lo : Nat) : Except Reject Prd := do
  zf w (lo + 3) 2
  return fld w lo 3

/-- S3 with x = 0 and three scalars. -/
def s3 (w : Word) (k : Reg → Reg → Reg → Instr) : Except Reject Instr := do
  zf w 0 33
  return k (fld w 43 5) (fld w 38 5) (fld w 33 5)

/-- S3 with a scalar source only. -/
def s3a (w : Word) (k : Reg → Reg → Instr) : Except Reject Instr := do
  zf w 0 38
  return k (fld w 43 5) (fld w 38 5)

/-- S3 with a rounding code in x. -/
def s3r (w : Word) (k : Rnd → Reg → Reg → Reg → Instr) : Except Reject Instr := do
  zf w 0 30
  let rm ← code (Rnd.ofCode (fld w 30 3))
  return k rm (fld w 43 5) (fld w 38 5) (fld w 33 5)

/-- SI with a 32-bit immediate. -/
def si (w : Word) (k : Reg → Reg → BitVec 32 → Instr) : Except Reject Instr := do
  zf w 0 6
  return k (fld w 43 5) (fld w 38 5) (fld w 6 32)

/-- SI with a shift immediate of 0-63. -/
def siSh (w : Word) (k : Reg → Reg → BitVec 6 → Instr) : Except Reject Instr := do
  zf w 0 6
  req (fld w 12 26 == 0) .limit
  return k (fld w 43 5) (fld w 38 5) (fld w 6 6)

/-- SI with a bit-field immediate. -/
def siBf (w : Word) (k : Reg → Reg → BitVec 6 → BitVec 7 → Instr) : Except Reject Instr := do
  zf w 0 6
  zf w 19 19
  return k (fld w 43 5) (fld w 38 5) (fld w 6 6) (fld w 12 7)

/-- Three predicates. -/
def q3 (w : Word) (k : Prd → Prd → Prd → Instr) : Except Reject Instr := do
  zf w 0 33
  let d ← prdF w 43
  let a ← prdF w 38
  let b ← prdF w 33
  return k d a b

/-- S class (Table enc 4). -/
def decodeS (op : Nat) (h : Hdr) (w : Word) : Except Reject Instr :=
  match op with
  | 0x00 => s3 w (.add h)
  | 0x01 => s3 w (.sub h)
  | 0x02 => si w (.addi h)
  | 0x03 => do
    zf w 0 30
    return .addsh h (fld w 43 5) (fld w 38 5) (fld w 33 5) (fld w 30 3)
  | 0x04 => s3 w (.mul h)
  | 0x05 => s3 w (.mulh h)
  | 0x06 => s3 w (.mulhn h)
  | 0x07 => s3 w (.div h)
  | 0x08 => s3 w (.divn h)
  | 0x09 => s3 w (.rem h)
  | 0x0A => s3 w (.remn h)
  | 0x0B => s3 w (.and h)
  | 0x0C => s3 w (.or h)
  | 0x0D => s3 w (.xor h)
  | 0x0E => s3 w (.andn h)
  | 0x0F => si w (.andi h)
  | 0x10 => si w (.ori h)
  | 0x11 => si w (.xori h)
  | 0x12 => s3 w (.shl h)
  | 0x13 => s3 w (.shr h)
  | 0x14 => s3 w (.sra h)
  | 0x15 => siSh w (.shli h)
  | 0x16 => siSh w (.shri h)
  | 0x17 => siSh w (.srai h)
  | 0x18 => s3 w (.rotr h)
  | 0x19 => s3 w (.min h)
  | 0x1A => s3 w (.max h)
  | 0x1B => s3 w (.minn h)
  | 0x1C => s3 w (.maxn h)
  | 0x1D => s3a w (.clz h)
  | 0x1E => s3a w (.popc h)
  | 0x1F => siBf w (.bfx h)
  | 0x20 => siBf w (.bfxs h)
  | 0x21 => siBf w (.bfi h)
  | 0x22 => do
    zf w 0 30
    return .sel h (fld w 43 5) (fld w 30 3) (fld w 38 5) (fld w 33 5)
  | 0x23 => do
    zf w 0 6
    zf w 38 5
    return .movi h (fld w 43 5) (fld w 6 32)
  | 0x24 => do
    zf w 0 6
    zf w 38 5
    return .movhi h (fld w 43 5) (fld w 6 32)
  | 0x25 => s3a w (.mov h)
  | 0x40 => do
    zf w 0 30
    let q ← prdF w 43
    return .cmp h (ICond.ofCode (fld w 30 3)) q (fld w 38 5) (fld w 33 5)
  | 0x41 => do
    zf w 3 3
    let q ← prdF w 43
    return .cmpi h (ICond.ofCode (fld w 0 3)) q (fld w 38 5) (fld w 6 32)
  | 0x42 => do
    zf w 0 38
    let q ← prdF w 43
    return .tstd h q (fld w 38 5)
  | 0x50 => q3 w (.qand h)
  | 0x51 => q3 w (.qor h)
  | 0x52 => q3 w (.qxor h)
  | 0x53 => q3 w (.qandn h)
  | 0x54 => do
    zf w 0 38
    let d ← prdF w 43
    let a ← prdF w 38
    return .qmov h d a
  | 0x55 => do
    zf w 0 43
    return .qtos h (fld w 43 5)
  | 0x60 => s3r w (.sfadd h)
  | 0x61 => s3r w (.sfsub h)
  | 0x62 => s3r w (.sfmul h)
  | 0x63 => s3r w (.sfma h)
  | 0x64 => do
    zf w 0 30
    let q ← prdF w 43
    return .sfcmp h (FCond.ofCode (fld w 30 3)) q (fld w 38 5) (fld w 33 5)
  | 0x65 => do
    zf w 0 30
    let rm ← code (Rnd.ofCode (fld w 30 3))
    let c ← code (CvtCode.ofCode (fld w 33 5))
    return .sfcvt h c rm (fld w 43 5) (fld w 38 5)
  | 0x66 => s3 w (.sfmin h)
  | 0x67 => s3 w (.sfmax h)
  | 0x70 => do
    zf w 0 30
    zf w 33 5
    zf w 43 5
    let st ← code (match (fld w 30 3).toNat with | 0 => some false | 2 => some true | _ => none)
    return .setps h (fld w 38 5) st
  | 0x71 => do
    zf w 0 38
    return .getps h (fld w 43 5) (fld w 38 5)
  | 0x72 => do
    zf w 0 30
    zf w 33 5
    let q ← prdF w 43
    let st ← code (PSt.ofCode (fld w 30 3))
    return .pstat h q (fld w 38 5) st
  | 0x73 => do
    zf w 0 6
    zf w 14 24
    return .semadd h (fld w 43 5) (fld w 6 8) (fld w 38 5)
  | 0x74 => do
    zf w 0 6
    zf w 14 24
    zf w 38 5
    return .semget h (fld w 43 5) (fld w 6 8)
  | 0x75 => do
    zf w 0 6
    zf w 14 24
    zf w 43 5
    return .semset h (fld w 6 8) (fld w 38 5)
  | 0x76 => do
    zf w 0 43
    return .clrd h (fld w 43 5)
  | 0x77 => do
    zf w 0 43
    return .rdtick h (fld w 43 5)
  | 0x78 => do
    zf w 0 43
    return .rdclk h (fld w 43 5)
  | 0x79 => do
    zf w 0 30
    zf w 33 10
    let s ← code (CidSel.ofCode (fld w 30 3))
    return .cid h (fld w 43 5) s
  | _ => .error .badOpcode

/-- Joined mode of a B-class word. -/
def bMode (w : Word) : Except Reject JMode := code (JMode.ofCode (fld w 14 2))

/-- B class (Table enc 6). -/
def decodeB (op : Nat) (h : Hdr) (w : Word) : Except Reject Instr :=
  match op with
  | 0x00 => do
    zf w 0 14
    let m ← bMode w
    return .br h m (fld w 16 32)
  | 0x02 => do
    zf w 0 9
    zf w 16 32
    let m ← bMode w
    return .bri h m (fld w 9 5)
  | 0x03 => do
    zf w 0 14
    let m ← bMode w
    return .call h m (fld w 16 32)
  | 0x04 => do
    zf w 0 9
    zf w 16 32
    let m ← bMode w
    return .calli h m (fld w 9 5)
  | 0x05 => do
    zf w 0 14
    zf w 16 32
    let m ← bMode w
    return .ret h m
  | 0x06 => do
    zf w 0 9
    let m ← bMode w
    return .chk h m (fld w 9 5) (fld w 16 32)
  | 0x07 => do
    zf w 0 16
    return .fork h (fld w 16 32)
  | 0x08 => do
    zf w 0 16
    zf w 23 25
    return .join h (fld w 20 3) (fld w 16 4)
  | 0x09 => do
    zf w 0 7
    zf w 14 2
    return .loop h (fld w 7 2) (fld w 9 5) (fld w 16 32)
  | 0x0A => do
    zf w 0 7
    zf w 9 7
    return .loopi h (fld w 7 2) (fld w 32 16) (fld w 16 16)
  | 0x0B => do
    zf w 0 48
    return .exit h
  | _ => .error .badOpcode

/-- Size, space, base, offset, order and scope of the M line. -/
def accF (w : Word) : Except Reject Acc := do
  let sp ← code (Spc.ofCode (fld w 31 2))
  let sz ← code (Siz.ofCode (fld w 28 3))
  let scp ← code (Scp.ofCode (fld w 25 3))
  let ord ← code (MOrd.ofCode (fld w 22 3))
  return ⟨sz, sp, fld w 38 5, fld w 0 18, ord, scp⟩

/-- LD, ST: no index, no shift, not combinable. -/
def mLd (w : Word) (k : Reg → Acc → Instr) : Except Reject Instr := do
  zf w 18 4
  zf w 33 5
  let m ← accF w
  return k (fld w 43 5) m

/-- LDX, STX: index and shift. -/
def mLdx (w : Word) (k : Reg → Acc → Reg → BitVec 3 → Instr) : Except Reject Instr := do
  zf w 18 1
  let m ← accF w
  return k (fld w 43 5) m (fld w 33 5) (fld w 19 3)

/-- LDM, STM: size 3, plain. -/
def mLdm (w : Word) (k : Reg → BitVec 5 → Spc → Reg → BitVec 18 → Instr) : Except Reject Instr := do
  zf w 18 10
  req (fld w 28 3 == 3) .limit
  let sp ← code (Spc.ofCode (fld w 31 2))
  return k (fld w 43 5) (fld w 33 5) sp (fld w 38 5) (fld w 0 18)

/-- The ROW line. -/
def mRow (w : Word) (k : RowRef → Spc → Reg → Reg → BitVec 3 → BitVec 18 → Instr) : Except Reject Instr := do
  zf w 18 3
  let sp ← code (Spc.ofCode (fld w 31 2))
  let r ← rowRef w 43 24
  return k r sp (fld w 38 5) (fld w 33 5) (fld w 21 3) (fld w 0 18)

/-- Atomics without the combinable bit. -/
def mAtom (w : Word) (k : Reg → Acc → Reg → Instr) : Except Reject Instr := do
  zf w 18 4
  let m ← accF w
  return k (fld w 43 5) m (fld w 33 5)

/-- AADD, AFADD. -/
def mAdd (w : Word) (k : Reg → Acc → Reg → Bool → Instr) : Except Reject Instr := do
  zf w 19 3
  let m ← accF w
  return k (fld w 43 5) m (fld w 33 5) (w.getLsbD 18)

/-- M class (Table enc 7). -/
def decodeM (op : Nat) (h : Hdr) (w : Word) : Except Reject Instr :=
  match op with
  | 0x00 => mLd w (.ld h)
  | 0x01 => mLd w (.st h)
  | 0x02 => mLdx w (.ldx h)
  | 0x03 => mLdx w (.stx h)
  | 0x04 => do
    zf w 18 10
    zf w 33 5
    let sp ← code (Spc.ofCode (fld w 31 2))
    let sz ← code (Siz.ofCode (fld w 28 3))
    return .lds h (fld w 43 5) sz sp (fld w 38 5) (fld w 0 18)
  | 0x05 => mLdm w (.ldm h)
  | 0x06 => mLdm w (.stm h)
  | 0x08 => mRow w (.ldrow h)
  | 0x09 => mRow w (.strow h)
  | 0x0A => do
    zf w 18 1
    zf w 22 11
    zf w 43 5
    return .pf h (fld w 38 5) (fld w 33 5) (fld w 19 3) (fld w 0 18)
  | 0x10 => mAdd w (.aadd h)
  | 0x11 => mAdd w (.afadd h)
  | 0x12 => mAtom w (.amin h)
  | 0x13 => mAtom w (.amax h)
  | 0x14 => mAtom w (.aminn h)
  | 0x15 => mAtom w (.amaxn h)
  | 0x16 => mAtom w (.aand h)
  | 0x17 => mAtom w (.aor h)
  | 0x18 => mAtom w (.axor h)
  | 0x19 => mAtom w (.axchg h)
  | 0x1A => mAtom w (.acas h)
  | 0x20 => do
    zf w 18 2
    zf w 33 5
    req (fld w 31 2 == 2) .limit
    let op ← code (RedOp.ofCode (fld w 22 2))
    let t ← code (RedTy.ofCode (fld w 20 2))
    let r ← rowRef w 43 24
    return .bred h r op t (fld w 38 5) (fld w 0 18)
  | 0x28 => do
    zf w 18 25
    req (fld w 12 6 == 0) .limit
    return .barinit h (fld w 0 12) (fld w 43 5)
  | 0x29 => do
    zf w 18 30
    req (fld w 12 6 == 0) .limit
    return .bara h (fld w 0 12)
  | 0x2A => do
    zf w 18 30
    req (fld w 12 6 == 0) .limit
    return .barw h (fld w 0 12)
  | 0x2B => do
    zf w 18 15
    zf w 38 5
    req (fld w 12 6 == 0 && fld w 37 1 == 0) .limit
    return .barp h (fld w 0 12) (fld w 43 5) (fld w 33 4)
  | 0x2C => do
    zf w 0 48
    return .barrot h
  | 0x30 => do
    zf w 0 22
    zf w 28 20
    let scp ← code (Scp.ofCode (fld w 25 3))
    let ord ← code (MOrd.ofCode (fld w 22 3))
    return .fence h scp ord
  | _ => .error .badOpcode

/-- Type field of the V line. -/
def vTy (w : Word) : Except Reject Ty := code (Ty.ofCode (fld w 8 4))

/-- Rounding field of the V line. -/
def vRnd (w : Word) : Except Reject Rnd := code (Rnd.ofCode (fld w 5 3))

/-- Operand b of the V line (R70). -/
def vB (w : Word) : Except Reject VB :=
  if w.getLsbD 4 then do
    zf w 12 7
    return .scalar (fld w 19 5)
  else do
    let r ← rowRef w 19 12
    return .row r

/-- d, a, b with rounding; op field zero. -/
def v3r (w : Word) (k : Ty → Rnd → RowRef → RowRef → VB → Instr) : Except Reject Instr := do
  zf w 0 4
  let t ← vTy w
  let rm ← vRnd w
  let d ← rowRef w 43 36
  let a ← rowRef w 31 24
  let b ← vB w
  return k t rm d a b

/-- d, a, b without rounding; op field zero. -/
def v3 (w : Word) (k : Ty → RowRef → RowRef → VB → Instr) : Except Reject Instr := do
  zf w 0 4
  zf w 5 3
  let t ← vTy w
  let d ← rowRef w 43 36
  let a ← rowRef w 31 24
  let b ← vB w
  return k t d a b

/-- d, a, b and a one-bit option in [0] of the op field. -/
def v3o (w : Word) (k : Ty → Bool → RowRef → RowRef → VB → Instr) : Except Reject Instr := do
  zf w 1 3
  zf w 5 3
  let t ← vTy w
  let d ← rowRef w 43 36
  let a ← rowRef w 31 24
  let b ← vB w
  return k t (w.getLsbD 0) d a b

/-- d, a with rounding. -/
def v2r (w : Word) (k : Ty → Rnd → RowRef → RowRef → Instr) : Except Reject Instr := do
  zf w 0 5
  zf w 12 12
  let t ← vTy w
  let rm ← vRnd w
  let d ← rowRef w 43 36
  let a ← rowRef w 31 24
  return k t rm d a

/-- d, a without rounding. -/
def v2 (w : Word) (k : Ty → RowRef → RowRef → Instr) : Except Reject Instr := do
  zf w 0 8
  zf w 12 12
  let t ← vTy w
  let d ← rowRef w 43 36
  let a ← rowRef w 31 24
  return k t d a

/-- Reductions to a scalar, without rounding. -/
def vRed (w : Word) (k : Ty → Reg → RowRef → Instr) : Except Reject Instr := do
  zf w 0 8
  zf w 12 12
  zf w 36 7
  let t ← vTy w
  let a ← rowRef w 31 24
  return k t (fld w 43 5) a

/-- S = 1 is required. -/
def vS1 (w : Word) : Except Reject Unit := req (w.getLsbD 4) .limit

/-- V class (Table enc 8). -/
def decodeV (op : Nat) (h : Hdr) (w : Word) : Except Reject Instr :=
  match op with
  | 0x00 => v3r w (.vadd h)
  | 0x01 => v3r w (.vsub h)
  | 0x02 => v3r w (.vmul h)
  | 0x03 => v3r w (.vfma h)
  | 0x04 => v3 w (.vmax h)
  | 0x05 => v3 w (.vmin h)
  | 0x06 => v2 w (.vabs h)
  | 0x07 => v2 w (.vneg h)
  | 0x08 => v3r w (.vscale h)
  | 0x09 => v2r w (.vexp2 h)
  | 0x0A => v2r w (.vlog2 h)
  | 0x0B => v2r w (.vrcp h)
  | 0x0C => v2r w (.vrsq h)
  | 0x0D => do
    zf w 4 1
    zf w 12 12
    let dt ← code (Ty.ofCode (fld w 0 4))
    let t ← vTy w
    let rm ← vRnd w
    let d ← rowRef w 43 36
    let a ← rowRef w 31 24
    return .vcvt h dt t rm d a
  | 0x0E => do
    zf w 3 1
    zf w 5 3
    let t ← vTy w
    let d ← rowRef w 43 36
    let a ← rowRef w 31 24
    let b ← vB w
    return .vcmp h t (FCond.ofCode (fld w 0 3)) d a b
  | 0x0F => v3 w (.vsel h)
  | 0x10 => v3o w (.viadd h)
  | 0x11 => v3o w (.visub h)
  | 0x12 => v3 w (.vimul h)
  | 0x13 => v3 w (.vimac h)
  | 0x14 => v3r w (.vrshr h)
  | 0x15 => do
    zf w 4 4
    zf w 12 12
    let dt ← code (Ty.ofCode (fld w 0 4))
    let t ← vTy w
    let d ← rowRef w 43 36
    let a ← rowRef w 31 24
    return .vsatn h dt t d a
  | 0x16 => v3 w (.vand h)
  | 0x17 => v3 w (.vor h)
  | 0x18 => v3 w (.vxor h)
  | 0x19 => v3 w (.vshl h)
  | 0x1A => v3o w (.vshr h)
  | 0x1B => v3 w (.vimax h)
  | 0x1C => v3 w (.vimin h)
  | 0x20 => v2 w (.vmov h)
  | 0x21 => do
    zf w 0 4
    zf w 5 3
    zf w 12 7
    zf w 24 12
    vS1 w
    let t ← vTy w
    let d ← rowRef w 43 36
    return .vbcast h t d (fld w 19 5)
  | 0x22 => do
    zf w 0 4
    zf w 5 3
    zf w 12 7
    zf w 36 7
    vS1 w
    let t ← vTy w
    let a ← rowRef w 31 24
    return .vext h t (fld w 43 5) a (fld w 19 5)
  | 0x23 => do
    zf w 0 4
    zf w 5 3
    zf w 12 7
    zf w 24 7
    vS1 w
    let t ← vTy w
    let d ← rowRef w 43 36
    return .vins h t d (fld w 31 5) (fld w 19 5)
  | 0x24 => do
    zf w 1 3
    zf w 5 3
    zf w 12 7
    vS1 w
    let t ← vTy w
    let d ← rowRef w 43 36
    let a ← rowRef w 31 24
    return .vslide h t (w.getLsbD 0) d a (fld w 19 5)
  | 0x25 => do
    zf w 0 8
    let t ← vTy w
    let d ← rowRef w 43 36
    let a ← rowRef w 31 24
    let b ← rowRef w 19 12
    return .vperm h t d a b
  | 0x26 => do
    zf w 0 8
    zf w 12 24
    let t ← vTy w
    let d ← rowRef w 43 36
    return .viota h t d
  | 0x30 => do
    zf w 0 5
    zf w 12 12
    zf w 36 7
    let t ← vTy w
    let rm ← vRnd w
    let a ← rowRef w 31 24
    return .vrsum h t rm (fld w 43 5) a
  | 0x31 => vRed w (.vrmax h)
  | 0x32 => do
    zf w 0 8
    zf w 12 7
    zf w 36 7
    let t ← vTy w
    let a ← rowRef w 31 24
    return .vargmax h t (fld w 43 5) (fld w 19 5) a
  | 0x33 => vRed w (.vrmin h)
  | 0x34 => vRed w (.vrisum h)
  | _ => .error .badOpcode

/-- The synchronisation fields of the E line (R72). -/
def syncF (w : Word) : Except Reject Sync := do
  let scp ← code (Scp.ofCode (fld w 19 3))
  return ⟨fld w 40 8, fld w 36 4, fld w 28 8, fld w 24 4, w.getLsbD 23, w.getLsbD 22, scp⟩

/-- E class (Table enc 9). -/
def decodeE (op : Nat) (h : Hdr) (w : Word) : Except Reject Instr := do
  let y ← syncF w
  match op with
  | 0x00 => do
    let t ← code (Ty.ofCode (fld w 0 4))
    return .mma h y (fld w 14 5) (fld w 9 5) (fld w 4 5) t
  | 0x02 => do
    zf w 0 14
    return .mzero h y (fld w 14 5)
  | 0x03 => do
    zf w 4 2
    let rm ← code (Rnd.ofCode (fld w 6 3))
    let t ← code (Ty.ofCode (fld w 0 4))
    return .mcvt h y (fld w 14 5) (fld w 9 5) rm t
  | 0x04 => do
    zf w 4 5
    let t ← code (Ty.ofCode (fld w 0 4))
    return .mtrn h y (fld w 14 5) (fld w 9 5) t
  | 0x10 => do
    zf w 0 4
    zf w 9 5
    return .vpinit h y (fld w 14 5) (fld w 4 5)
  | 0x11 => do
    zf w 0 4
    return .vproj h y (fld w 14 5) (fld w 9 5) (fld w 4 5)
  | 0x12 => do
    zf w 0 4
    return .vpback h y (fld w 14 5) (fld w 9 5) (fld w 4 5)
  | 0x13 => do
    zf w 0 9
    return .vpmerge h y (fld w 14 5) (fld w 9 5)
  | 0x14 => do
    zf w 0 4
    zf w 9 5
    return .vpemit h y (fld w 14 5) (fld w 4 5)
  | 0x20 => do
    zf w 0 4
    return .cpylp h y (fld w 14 5) (fld w 9 5) (fld w 4 5)
  | 0x21 => do
    zf w 0 4
    return .cpysp h y (fld w 14 5) (fld w 9 5) (fld w 4 5)
  | 0x22 => do
    zf w 0 4
    return .cpymm h y (fld w 14 5) (fld w 9 5) (fld w 4 5)
  | 0x23 => do
    zf w 0 4
    return .cpygp h y (fld w 14 5) (fld w 9 5) (fld w 4 5)
  | 0x24 => do
    let o ← code (RedOp.ofCode (fld w 2 2))
    let t ← code (RedTy.ofCode (fld w 0 2))
    return .cpyred h y (fld w 14 5) (fld w 9 5) (fld w 4 5) o t
  | 0x25 => do
    zf w 0 4
    zf w 9 5
    return .cpyz h y (fld w 14 5) (fld w 4 5)
  | 0x30 => do
    zf w 0 2
    return .send h y (fld w 13 6) (fld w 8 5) (fld w 3 5) (w.getLsbD 2)
  | 0x31 => do
    zf w 0 3
    return .recv h y (fld w 13 6) (fld w 8 5) (fld w 3 5)
  | 0x32 => do
    zf w 0 8
    return .pwr h y (fld w 13 6) (fld w 8 5)
  | 0x33 => do
    zf w 0 2
    zf w 3 5
    return .pwred h y (fld w 13 6) (fld w 8 5) (w.getLsbD 2)
  | 0x34 => do
    zf w 0 8
    zf w 13 6
    return .arm h y (fld w 8 5)
  | 0x40 => do
    zf w 0 4
    return .migr h y (fld w 14 5) (fld w 9 5) (fld w 4 5)
  | _ => .error .badOpcode

/-- MTCR: the indices with a row of their own, else the general row (Table ctx 1). -/
def mtcrOf (h : Hdr) (a : Reg) (idx : BitVec 8) : Instr :=
  match idx.toNat with
  | 0x08 => .mtcrRstop h a
  | 0x20 => .mtcrBarbase h a
  | 0x42 => .mtcrFqbase h a 0
  | 0x43 => .mtcrFqbase h a 1
  | 0x44 => .mtcrFqbase h a 2
  | 0x45 => .mtcrFqbase h a 3
  | 0x46 => .mtcrRdbase h a
  | _ => .mtcr h a idx

/-- Y class (Table enc 10). -/
def decodeY (op : Nat) (h : Hdr) (w : Word) : Except Reject Instr :=
  match op with
  | 0x00 => do
    zf w 0 40
    zf w 46 2
    return .trap h (fld w 40 6)
  | 0x01 => do
    zf w 0 48
    return .rett h
  | 0x02 => do
    zf w 0 30
    zf w 38 5
    return .mfcr h (fld w 43 5) (fld w 30 8)
  | 0x03 => do
    zf w 0 30
    zf w 43 5
    return mtcrOf h (fld w 38 5) (fld w 30 8)
  | 0x04 => do
    zf w 0 36
    zf w 43 5
    match (fld w 36 2).toNat with
    | 0 => return .tlbinvPage h (fld w 38 5)
    | 1 => return .tlbinvLarge h (fld w 38 5)
    | 2 => do
      zf w 38 5
      return .tlbinvCtx h
    | _ => do
      zf w 38 5
      return .tlbinvAll h
  | 0x05 => do
    zf w 0 30
    zf w 43 5
    match (fld w 30 3).toNat with
    | 0 => return .mscopWriteback h (fld w 38 5) (fld w 33 5)
    | 1 => return .mscopInvalidate h (fld w 38 5) (fld w 33 5)
    | 2 => return .mscopRetain h (fld w 38 5) (fld w 33 5)
    | 3 => return .mscopEvictFirst h (fld w 38 5) (fld w 33 5)
    | _ => .error .reservedCode
  | 0x06 => do
    zf w 0 34
    return .launch h (fld w 43 5) (fld w 38 5) (fld w 34 4)
  | 0x07 => do
    zf w 0 48
    return .trigger h
  | 0x08 => do
    zf w 0 48
    return .waitdep h
  | 0x09 => do
    zf w 0 2
    zf w 43 5
    return .waitx h (fld w 38 5) (fld w 34 4) (fld w 2 32)
  | 0x0A => do
    zf w 0 38
    zf w 43 5
    return .postx h (fld w 38 5)
  | 0x0B => do
    zf w 0 48
    return .yield h
  | 0x0C => do
    zf w 0 37
    return .cueq h (fld w 43 5) (fld w 37 6)
  | 0x0D => do
    zf w 0 37
    zf w 43 5
    return .cuewait h (fld w 37 6)
  | 0x0E => do
    zf w 0 38
    zf w 43 5
    return .cuesel h (fld w 38 5)
  | 0x0F => do
    zf w 0 38
    zf w 43 5
    return .faultack h (fld w 38 5)
  | 0x10 => do
    zf w 0 38
    return .perfrd h (fld w 43 5) (fld w 38 5)
  | 0x11 => do
    zf w 0 33
    zf w 43 5
    return .hint h (fld w 33 5) (fld w 38 5)
  | 0x12 => do
    zf w 0 30
    match (fld w 30 3).toNat with
    | 0 => return .frameopRead h (fld w 43 5) (fld w 38 5) (fld w 33 5)
    | 1 => return .frameopAdjust h (fld w 43 5) (fld w 38 5) (fld w 33 5)
    | 2 => return .frameopFlags h (fld w 43 5) (fld w 38 5) (fld w 33 5)
    | 3 => return .frameopPush h (fld w 43 5) (fld w 38 5) (fld w 33 5)
    | 4 => return .frameopPop h (fld w 43 5) (fld w 38 5) (fld w 33 5)
    | 5 => return .frameopShoot h (fld w 43 5) (fld w 38 5) (fld w 33 5)
    | _ => .error .reservedCode
  | _ => .error .badOpcode

/-- The header fields (Table enc 1). -/
def hdrF (w : Word) : Hdr := ⟨w.getLsbD 63, w.getLsbD 51, fld w 48 3⟩

/-- The instruction a 64-bit word stands for, or why it stands for none (R53-R54, R65-R75). -/
def decodeWord (w : Word) : Except Reject Instr := do
  let h := hdrF w
  let op := (fld w 52 8).toNat
  let i ← match (fld w 60 3).toNat with
    | 0 => decodeS op h w
    | 1 => decodeB op h w
    | 2 => decodeM op h w
    | 3 => decodeV op h w
    | 4 => decodeE op h w
    | 5 => decodeY op h w
    | _ => .error .badClass
  req h.wf .badGuard
  req i.wf .limit
  return i

/-- The instruction and the rest of a list of words; R53: one word each. -/
def decodeWords : List Word → Except Reject (Instr × List Word)
  | [] => .error .limit
  | w :: rest => do
    let i ← decodeWord w
    return (i, rest)

/-- The decoder on a table word: an instruction is one 64-bit word, and bits above the row's are zero. -/
def decodeTableWord (_nbits w : Nat) : Option Instr := (decodeWord (BitVec.ofNat 64 w)).toOption

/-! ### The encoder -/

/-- Assemble a word of a class and opcode from its header and its payload of 48 bits (Table enc 1). -/
def word (h : Hdr) (cls : BitVec 3) (op : BitVec 8) (p : BitVec 48) : Word :=
  BitVec.ofBool h.e ++ cls ++ op ++ BitVec.ofBool h.neg ++ h.pred ++ p

def pS3 (d a b : BitVec 5) (x : BitVec 3) : BitVec 48 := d ++ a ++ b ++ x ++ 0#30
def pSI (d a : BitVec 5) (imm : BitVec 32) (low : BitVec 6) : BitVec 48 := d ++ a ++ imm ++ low
def pQ (q : Prd) : BitVec 5 := 0#2 ++ q
def pB (disp : BitVec 32) (m : JMode) (s : BitVec 5) (lvl : BitVec 2) : BitVec 48 := disp ++ m.code ++ s ++ lvl ++ 0#7

def pM (d idx : BitVec 5) (m : Acc) (sh : BitVec 3) (comb : Bool) : BitVec 48 :=
  d ++ m.base ++ idx ++ m.sp.code ++ m.sz.code ++ m.scp.code ++ m.ord.code ++ sh ++ BitVec.ofBool comb ++ m.off

def pRow (r : RowRef) (base idx : BitVec 5) (sp : BitVec 2) (x6 : BitVec 6) (off : BitVec 18) : BitVec 48 :=
  r.p ++ base ++ idx ++ sp ++ r.r.code ++ x6 ++ off

def VB.pan : VB → BitVec 5
  | .row r => r.p
  | .scalar s => s

def VB.row7 : VB → BitVec 7
  | .row r => r.r.code
  | .scalar _ => 0

def VB.s : VB → Bool
  | .row _ => false
  | .scalar _ => true

def pV (pd : BitVec 5) (rd : BitVec 7) (pa : BitVec 5) (ra : BitVec 7) (pb : BitVec 5) (rb : BitVec 7) (t : Ty)
    (rm : BitVec 3) (s : Bool) (o : BitVec 4) : BitVec 48 :=
  pd ++ rd ++ pa ++ ra ++ pb ++ rb ++ t.code ++ rm ++ BitVec.ofBool s ++ o

def pV3 (t : Ty) (rm : BitVec 3) (d a : RowRef) (b : VB) (o : BitVec 4) : BitVec 48 :=
  pV d.p d.r.code a.p a.r.code b.pan b.row7 t rm b.s o

def pV2 (t : Ty) (rm : BitVec 3) (d a : RowRef) (o : BitVec 4) : BitVec 48 :=
  pV d.p d.r.code a.p a.r.code 0 0 t rm false o

def pE (y : Sync) (o : BitVec 19) : BitVec 48 :=
  y.wsem ++ y.wcnt ++ y.ssem ++ y.sinc ++ BitVec.ofBool y.acq ++ BitVec.ofBool y.rel ++ y.scp.code ++ o

/-- Engine operands of three 5-bit fields and four bits. -/
def o3 (x y z : BitVec 5) (o : BitVec 4) : BitVec 19 := x ++ y ++ z ++ o

/-- Engine operands of the port operations. -/
def oP (hd : Hnd) (x y : BitVec 5) (o : BitVec 3) : BitVec 19 := hd ++ x ++ y ++ o

def pY (d a b : BitVec 5) (low : BitVec 33) : BitVec 48 := d ++ a ++ b ++ low

def pCr (d a : BitVec 5) (idx : BitVec 8) : BitVec 48 := d ++ a ++ idx ++ 0#30

/-- The word of an operation word's term; none for the steps of other units. -/
def encode : Instr → Option Word
  | .add h d a b => some (word h 0 0x00 (pS3 d a b 0))
  | .sub h d a b => some (word h 0 0x01 (pS3 d a b 0))
  | .addi h d a imm => some (word h 0 0x02 (pSI d a imm 0))
  | .addsh h d a b sh => some (word h 0 0x03 (pS3 d a b sh))
  | .mul h d a b => some (word h 0 0x04 (pS3 d a b 0))
  | .mulh h d a b => some (word h 0 0x05 (pS3 d a b 0))
  | .mulhn h d a b => some (word h 0 0x06 (pS3 d a b 0))
  | .div h d a b => some (word h 0 0x07 (pS3 d a b 0))
  | .divn h d a b => some (word h 0 0x08 (pS3 d a b 0))
  | .rem h d a b => some (word h 0 0x09 (pS3 d a b 0))
  | .remn h d a b => some (word h 0 0x0A (pS3 d a b 0))
  | .and h d a b => some (word h 0 0x0B (pS3 d a b 0))
  | .or h d a b => some (word h 0 0x0C (pS3 d a b 0))
  | .xor h d a b => some (word h 0 0x0D (pS3 d a b 0))
  | .andn h d a b => some (word h 0 0x0E (pS3 d a b 0))
  | .andi h d a imm => some (word h 0 0x0F (pSI d a imm 0))
  | .ori h d a imm => some (word h 0 0x10 (pSI d a imm 0))
  | .xori h d a imm => some (word h 0 0x11 (pSI d a imm 0))
  | .shl h d a b => some (word h 0 0x12 (pS3 d a b 0))
  | .shr h d a b => some (word h 0 0x13 (pS3 d a b 0))
  | .sra h d a b => some (word h 0 0x14 (pS3 d a b 0))
  | .shli h d a n => some (word h 0 0x15 (pSI d a (0#26 ++ n) 0))
  | .shri h d a n => some (word h 0 0x16 (pSI d a (0#26 ++ n) 0))
  | .srai h d a n => some (word h 0 0x17 (pSI d a (0#26 ++ n) 0))
  | .rotr h d a b => some (word h 0 0x18 (pS3 d a b 0))
  | .min h d a b => some (word h 0 0x19 (pS3 d a b 0))
  | .max h d a b => some (word h 0 0x1A (pS3 d a b 0))
  | .minn h d a b => some (word h 0 0x1B (pS3 d a b 0))
  | .maxn h d a b => some (word h 0 0x1C (pS3 d a b 0))
  | .clz h d a => some (word h 0 0x1D (pS3 d a 0 0))
  | .popc h d a => some (word h 0 0x1E (pS3 d a 0 0))
  | .bfx h d a pos w => some (word h 0 0x1F (pSI d a (0#19 ++ w ++ pos) 0))
  | .bfxs h d a pos w => some (word h 0 0x20 (pSI d a (0#19 ++ w ++ pos) 0))
  | .bfi h d a pos w => some (word h 0 0x21 (pSI d a (0#19 ++ w ++ pos) 0))
  | .sel h d q a b => some (word h 0 0x22 (pS3 d a b q))
  | .movi h d imm => some (word h 0 0x23 (pSI d 0 imm 0))
  | .movhi h d imm => some (word h 0 0x24 (pSI d 0 imm 0))
  | .mov h d a => some (word h 0 0x25 (pS3 d a 0 0))
  | .cmp h c q a b => some (word h 0 0x40 (pS3 (pQ q) a b c.code))
  | .cmpi h c q a imm => some (word h 0 0x41 (pSI (pQ q) a imm (0#3 ++ c.code)))
  | .tstd h q a => some (word h 0 0x42 (pS3 (pQ q) a 0 0))
  | .qand h d a b => some (word h 0 0x50 (pS3 (pQ d) (pQ a) (pQ b) 0))
  | .qor h d a b => some (word h 0 0x51 (pS3 (pQ d) (pQ a) (pQ b) 0))
  | .qxor h d a b => some (word h 0 0x52 (pS3 (pQ d) (pQ a) (pQ b) 0))
  | .qandn h d a b => some (word h 0 0x53 (pS3 (pQ d) (pQ a) (pQ b) 0))
  | .qmov h d a => some (word h 0 0x54 (pS3 (pQ d) (pQ a) 0 0))
  | .qtos h d => some (word h 0 0x55 (pS3 d 0 0 0))
  | .sfadd h rm d a b => some (word h 0 0x60 (pS3 d a b rm.code))
  | .sfsub h rm d a b => some (word h 0 0x61 (pS3 d a b rm.code))
  | .sfmul h rm d a b => some (word h 0 0x62 (pS3 d a b rm.code))
  | .sfma h rm d a b => some (word h 0 0x63 (pS3 d a b rm.code))
  | .sfcmp h c q a b => some (word h 0 0x64 (pS3 (pQ q) a b c.code))
  | .sfcvt h c rm d a => some (word h 0 0x65 (pS3 d a c.code rm.code))
  | .sfmin h d a b => some (word h 0 0x66 (pS3 d a b 0))
  | .sfmax h d a b => some (word h 0 0x67 (pS3 d a b 0))
  | .setps h p ready => some (word h 0 0x70 (pS3 0 p 0 (if ready then 2 else 0)))
  | .getps h d p => some (word h 0 0x71 (pS3 d p 0 0))
  | .pstat h q p st => some (word h 0 0x72 (pS3 (pQ q) p 0 st.code))
  | .semadd h d k a => some (word h 0 0x73 (pSI d a (0#24 ++ k) 0))
  | .semget h d k => some (word h 0 0x74 (pSI d 0 (0#24 ++ k) 0))
  | .semset h k a => some (word h 0 0x75 (pSI 0 a (0#24 ++ k) 0))
  | .clrd h d => some (word h 0 0x76 (pS3 d 0 0 0))
  | .rdtick h d => some (word h 0 0x77 (pS3 d 0 0 0))
  | .rdclk h d => some (word h 0 0x78 (pS3 d 0 0 0))
  | .cid h d s => some (word h 0 0x79 (pS3 d 0 0 s.code))
  | .br h m disp => some (word h 1 0x00 (pB disp m 0 0))
  | .bri h m a => some (word h 1 0x02 (pB 0 m a 0))
  | .call h m disp => some (word h 1 0x03 (pB disp m 0 0))
  | .calli h m a => some (word h 1 0x04 (pB 0 m a 0))
  | .ret h m => some (word h 1 0x05 (pB 0 m 0 0))
  | .chk h m a disp => some (word h 1 0x06 (pB disp m a 0))
  | .fork h disp => some (word h 1 0x07 (pB disp .uni 0 0))
  | .join h set mask => some (word h 1 0x08 (0#25 ++ set ++ mask ++ 0#16))
  | .loop h lvl a disp => some (word h 1 0x09 (pB disp .uni a lvl))
  | .loopi h lvl count disp => some (word h 1 0x0A (pB (count ++ disp) .uni 0 lvl))
  | .exit h => some (word h 1 0x0B 0)
  | .ld h d m => some (word h 2 0x00 (pM d 0 m 0 false))
  | .st h d m => some (word h 2 0x01 (pM d 0 m 0 false))
  | .ldx h d m idx sh => some (word h 2 0x02 (pM d idx m sh false))
  | .stx h d m idx sh => some (word h 2 0x03 (pM d idx m sh false))
  | .lds h d sz sp base off => some (word h 2 0x04 (pM d 0 ⟨sz, sp, base, off, .plain, .core⟩ 0 false))
  | .ldm h d cnt1 sp base off => some (word h 2 0x05 (pM d cnt1 ⟨.i64, sp, base, off, .plain, .core⟩ 0 false))
  | .stm h d cnt1 sp base off => some (word h 2 0x06 (pM d cnt1 ⟨.i64, sp, base, off, .plain, .core⟩ 0 false))
  | .ldrow h r sp base idx sh off => some (word h 2 0x08 (pRow r base idx sp.code (sh ++ 0#3) off))
  | .strow h r sp base idx sh off => some (word h 2 0x09 (pRow r base idx sp.code (sh ++ 0#3) off))
  | .pf h base idx sh off => some (word h 2 0x0A (pM 0 idx ⟨.n8, .virt, base, off, .plain, .core⟩ sh false))
  | .aadd h d m a comb => some (word h 2 0x10 (pM d a m 0 comb))
  | .afadd h d m a comb => some (word h 2 0x11 (pM d a m 0 comb))
  | .amin h d m a => some (word h 2 0x12 (pM d a m 0 false))
  | .amax h d m a => some (word h 2 0x13 (pM d a m 0 false))
  | .aminn h d m a => some (word h 2 0x14 (pM d a m 0 false))
  | .amaxn h d m a => some (word h 2 0x15 (pM d a m 0 false))
  | .aand h d m a => some (word h 2 0x16 (pM d a m 0 false))
  | .aor h d m a => some (word h 2 0x17 (pM d a m 0 false))
  | .axor h d m a => some (word h 2 0x18 (pM d a m 0 false))
  | .axchg h d m a => some (word h 2 0x19 (pM d a m 0 false))
  | .acas h d m a => some (word h 2 0x1A (pM d a m 0 false))
  | .bred h r op t base off => some (word h 2 0x20 (pRow r base 0 2 (op.code ++ t.code ++ 0#2) off))
  | .barinit h o a => some (word h 2 0x28 (a ++ 0#31 ++ o))
  | .bara h o => some (word h 2 0x29 (0#36 ++ o))
  | .barw h o => some (word h 2 0x2A (0#36 ++ o))
  | .barp h o a cnt => some (word h 2 0x2B (a ++ 0#6 ++ cnt ++ 0#21 ++ o))
  | .barrot h => some (word h 2 0x2C 0)
  | .fence h scp ord => some (word h 2 0x30 (0#20 ++ scp.code ++ ord.code ++ 0#22))
  | .vadd h t rm d a b => some (word h 3 0x00 (pV3 t rm.code d a b 0))
  | .vsub h t rm d a b => some (word h 3 0x01 (pV3 t rm.code d a b 0))
  | .vmul h t rm d a b => some (word h 3 0x02 (pV3 t rm.code d a b 0))
  | .vfma h t rm d a b => some (word h 3 0x03 (pV3 t rm.code d a b 0))
  | .vmax h t d a b => some (word h 3 0x04 (pV3 t 0 d a b 0))
  | .vmin h t d a b => some (word h 3 0x05 (pV3 t 0 d a b 0))
  | .vabs h t d a => some (word h 3 0x06 (pV2 t 0 d a 0))
  | .vneg h t d a => some (word h 3 0x07 (pV2 t 0 d a 0))
  | .vscale h t rm d a b => some (word h 3 0x08 (pV3 t rm.code d a b 0))
  | .vexp2 h t rm d a => some (word h 3 0x09 (pV2 t rm.code d a 0))
  | .vlog2 h t rm d a => some (word h 3 0x0A (pV2 t rm.code d a 0))
  | .vrcp h t rm d a => some (word h 3 0x0B (pV2 t rm.code d a 0))
  | .vrsq h t rm d a => some (word h 3 0x0C (pV2 t rm.code d a 0))
  | .vcvt h dt t rm d a => some (word h 3 0x0D (pV2 t rm.code d a dt.code))
  | .vcmp h t c d a b => some (word h 3 0x0E (pV3 t 0 d a b (0#1 ++ c.code)))
  | .vsel h t d a b => some (word h 3 0x0F (pV3 t 0 d a b 0))
  | .viadd h t sat d a b => some (word h 3 0x10 (pV3 t 0 d a b (0#3 ++ BitVec.ofBool sat)))
  | .visub h t sat d a b => some (word h 3 0x11 (pV3 t 0 d a b (0#3 ++ BitVec.ofBool sat)))
  | .vimul h t d a b => some (word h 3 0x12 (pV3 t 0 d a b 0))
  | .vimac h t d a b => some (word h 3 0x13 (pV3 t 0 d a b 0))
  | .vrshr h t rm d a b => some (word h 3 0x14 (pV3 t rm.code d a b 0))
  | .vsatn h dt t d a => some (word h 3 0x15 (pV2 t 0 d a dt.code))
  | .vand h t d a b => some (word h 3 0x16 (pV3 t 0 d a b 0))
  | .vor h t d a b => some (word h 3 0x17 (pV3 t 0 d a b 0))
  | .vxor h t d a b => some (word h 3 0x18 (pV3 t 0 d a b 0))
  | .vshl h t d a b => some (word h 3 0x19 (pV3 t 0 d a b 0))
  | .vshr h t arith d a b => some (word h 3 0x1A (pV3 t 0 d a b (0#3 ++ BitVec.ofBool arith)))
  | .vimax h t d a b => some (word h 3 0x1B (pV3 t 0 d a b 0))
  | .vimin h t d a b => some (word h 3 0x1C (pV3 t 0 d a b 0))
  | .vmov h t d a => some (word h 3 0x20 (pV2 t 0 d a 0))
  | .vbcast h t d a => some (word h 3 0x21 (pV d.p d.r.code 0 0 a 0 t 0 true 0))
  | .vext h t d a idx => some (word h 3 0x22 (pV d 0 a.p a.r.code idx 0 t 0 true 0))
  | .vins h t d a idx => some (word h 3 0x23 (pV d.p d.r.code a 0 idx 0 t 0 true 0))
  | .vslide h t up d a cnt =>
    some (word h 3 0x24 (pV d.p d.r.code a.p a.r.code cnt 0 t 0 true (0#3 ++ BitVec.ofBool up)))
  | .vperm h t d a b => some (word h 3 0x25 (pV d.p d.r.code a.p a.r.code b.p b.r.code t 0 false 0))
  | .viota h t d => some (word h 3 0x26 (pV d.p d.r.code 0 0 0 0 t 0 false 0))
  | .vrsum h t rm d a => some (word h 3 0x30 (pV d 0 a.p a.r.code 0 0 t rm.code false 0))
  | .vrmax h t d a => some (word h 3 0x31 (pV d 0 a.p a.r.code 0 0 t 0 false 0))
  | .vargmax h t d i a => some (word h 3 0x32 (pV d 0 a.p a.r.code i 0 t 0 false 0))
  | .vrmin h t d a => some (word h 3 0x33 (pV d 0 a.p a.r.code 0 0 t 0 false 0))
  | .vrisum h t d a => some (word h 3 0x34 (pV d 0 a.p a.r.code 0 0 t 0 false 0))
  | .mma h y d a b t => some (word h 4 0x00 (pE y (o3 d a b t.code)))
  | .mzero h y d => some (word h 4 0x02 (pE y (o3 d 0 0 0)))
  | .mcvt h y d a rm t => some (word h 4 0x03 (pE y (o3 d a (rm.code ++ 0#2) t.code)))
  | .mtrn h y d a t => some (word h 4 0x04 (pE y (o3 d a 0 t.code)))
  | .vpinit h y p a => some (word h 4 0x10 (pE y (o3 p 0 a 0)))
  | .vproj h y p p2 a => some (word h 4 0x11 (pE y (o3 p p2 a 0)))
  | .vpback h y p p2 a => some (word h 4 0x12 (pE y (o3 p p2 a 0)))
  | .vpmerge h y p p2 => some (word h 4 0x13 (pE y (o3 p p2 0 0)))
  | .vpemit h y p a => some (word h 4 0x14 (pE y (o3 p 0 a 0)))
  | .cpylp h y d src cnt => some (word h 4 0x20 (pE y (o3 d src cnt 0)))
  | .cpysp h y dst p cnt => some (word h 4 0x21 (pE y (o3 dst p cnt 0)))
  | .cpymm h y dst src cnt => some (word h 4 0x22 (pE y (o3 dst src cnt 0)))
  | .cpygp h y d list cnt => some (word h 4 0x23 (pE y (o3 d list cnt 0)))
  | .cpyred h y dst src cnt op t => some (word h 4 0x24 (pE y (o3 dst src cnt (op.code ++ t.code))))
  | .cpyz h y dst cnt => some (word h 4 0x25 (pE y (o3 dst 0 cnt 0)))
  | .migr h y page target dl => some (word h 4 0x40 (pE y (o3 page target dl 0)))
  | .send h y hd src cnt hold => some (word h 4 0x30 (pE y (oP hd src cnt (BitVec.ofBool hold ++ 0#2))))
  | .recv h y hd dst cnt => some (word h 4 0x31 (pE y (oP hd dst cnt 0)))
  | .pwr h y hd desc => some (word h 4 0x32 (pE y (oP hd desc 0 0)))
  | .pwred h y hd desc relay => some (word h 4 0x33 (pE y (oP hd desc 0 (BitVec.ofBool relay ++ 0#2))))
  | .arm h y desc => some (word h 4 0x34 (pE y (oP 0 desc 0 0)))
  | .trap h n => some (word h 5 0x00 (0#2 ++ n ++ 0#40))
  | .rett h => some (word h 5 0x01 0)
  | .mfcr h d idx => some (word h 5 0x02 (pCr d 0 idx))
  | .mtcr h a idx => some (word h 5 0x03 (pCr 0 a idx))
  | .mtcrRstop h a => some (word h 5 0x03 (pCr 0 a 0x08))
  | .mtcrBarbase h a => some (word h 5 0x03 (pCr 0 a 0x20))
  | .mtcrRdbase h a => some (word h 5 0x03 (pCr 0 a 0x46))
  | .mtcrFqbase h a n => some (word h 5 0x03 (pCr 0 a (0x42 + n.zeroExtend 8)))
  | .tlbinvPage h a => some (word h 5 0x04 (0#5 ++ a ++ 0#38))
  | .tlbinvLarge h a => some (word h 5 0x04 (0#5 ++ a ++ 1#2 ++ 0#36))
  | .tlbinvCtx h => some (word h 5 0x04 (0#10 ++ 2#2 ++ 0#36))
  | .tlbinvAll h => some (word h 5 0x04 (0#10 ++ 3#2 ++ 0#36))
  | .mscopWriteback h a b => some (word h 5 0x05 (pY 0 a b 0))
  | .mscopInvalidate h a b => some (word h 5 0x05 (pY 0 a b (1#3 ++ 0#30)))
  | .mscopRetain h a b => some (word h 5 0x05 (pY 0 a b (2#3 ++ 0#30)))
  | .mscopEvictFirst h a b => some (word h 5 0x05 (pY 0 a b (3#3 ++ 0#30)))
  | .launch h d a q => some (word h 5 0x06 (d ++ a ++ q ++ 0#34))
  | .trigger h => some (word h 5 0x07 0)
  | .waitdep h => some (word h 5 0x08 0)
  | .waitx h a cnt disp => some (word h 5 0x09 (0#5 ++ a ++ cnt ++ disp ++ 0#2))
  | .postx h a => some (word h 5 0x0A (pY 0 a 0 0))
  | .yield h => some (word h 5 0x0B 0)
  | .cueq h d hd => some (word h 5 0x0C (d ++ hd ++ 0#37))
  | .cuewait h hd => some (word h 5 0x0D (0#5 ++ hd ++ 0#37))
  | .cuesel h a => some (word h 5 0x0E (pY 0 a 0 0))
  | .faultack h a => some (word h 5 0x0F (pY 0 a 0 0))
  | .perfrd h d a => some (word h 5 0x10 (pY d a 0 0))
  | .hint h kind a => some (word h 5 0x11 (pY 0 a kind 0))
  | .frameopRead h d a b => some (word h 5 0x12 (pY d a b 0))
  | .frameopAdjust h d a b => some (word h 5 0x12 (pY d a b (1#3 ++ 0#30)))
  | .frameopFlags h d a b => some (word h 5 0x12 (pY d a b (2#3 ++ 0#30)))
  | .frameopPush h d a b => some (word h 5 0x12 (pY d a b (3#3 ++ 0#30)))
  | .frameopPop h d a b => some (word h 5 0x12 (pY d a b (4#3 ++ 0#30)))
  | .frameopShoot h d a b => some (word h 5 0x12 (pY d a b (5#3 ++ 0#30)))
  | _ => none

end Sys2Proof
end

