-- ==== Sys2Proof/Config.lean ====
section
/-!
DEFINITION. What the FX16 manual leaves open: free values. Each is an opaque constant without a body, so that no
proof can learn a value of it; log entry 3 names every one. They are applied to the counter
`State.fresh` of the machine, which the step that reads one advances, or to the operands they depend on.
-/

namespace Sys2Proof.Config

/-- The 0.8 ns intervals that one hop or one service of a memory request, an engine transfer, a scheduler action or
an acknowledgement takes beyond the first: no figure is architected (R241, R259, R295, R314, R369). -/
opaque delay : Nat → Nat

/-- The phase between a tile's core clock and the tick, in units of 1/1250 of a 0.8 ns interval, by the tile and by how
often its rate has been switched: it is not architected, may differ between tiles, and changes at each switch (R3). -/
opaque clockPhase : Nat → Nat → Nat

/-- Ticks that the spare laser chiplet takes to lock; R381 bounds it by 1,000 and gives no figure. -/
opaque switchover : Nat → Nat

/-- Ticks that a loss record takes to the stage manager; R379 bounds it by 2 and gives no figure. -/
opaque lossTravel : Nat → Nat

/-- The body of a save area, whose layout is not architected (R328): the byte at an offset. -/
opaque saveByte : Nat → Nat → BitVec 8

/-- The signature an attestation response carries, by the number of the signature (R422). -/
opaque attestSignature : Nat → Nat

/-- Measurement of a stage image, SHA-256 of bytes the manual does not give (R421). -/
opaque measurement : Nat → BitVec 256

/-- The result of a bring-up stage's physical work: 0 passed, else the failure code (R420). -/
opaque bringupResult : Nat → Nat

/-- The tick count to which the reference module aligns this one in bring-up (R420). -/
opaque masterTick : Nat → Nat

/-- Whether a scheduler action that has no fixed bound happens at this opportunity (R314). -/
opaque soon : Nat → Bool

/-- What stands in the place of uncorrectable bytes that the reader goes on without, which never come (R251): by counter and
offset. -/
opaque lostByte : Nat → Nat → BitVec 8

/-- Bytes that the distributor reads in another module's memory: by counter and offset (R310). -/
opaque farByte : Nat → Nat → BitVec 8

/-- The code version of the boot image against the rollback fuse (R421). -/
opaque imageVersion : Nat → BitVec 64

end Sys2Proof.Config
end

