-- ==== Sys2Proof/Machine/Flags.lean ====
section
/-!
DEFINITION. The sticky floating-point flags (R47), the rounding decision of every mode (R41, R42) and the stochastic
generator (R42).
-/

namespace Sys2Proof.Machine

/-- The five flags at their FSTAT positions: NV [0], DZ [1], OF [2], UF [3], NX [4] (Table ctx 2, R47). -/
abbrev FFlags := BitVec 5

def fNone : FFlags := 0
def fNV : FFlags := 0b00001
def fDZ : FFlags := 0b00010
def fOF : FFlags := 0b00100
def fUF : FFlags := 0b01000
def fNX : FFlags := 0b10000

/-- The flag set when a condition holds. -/
def flagIf (b : Bool) (f : FFlags) : FFlags := if b then f else fNone

/-- What an operation's rounding depends on: the resolved mode, FCTL.SAT, FCTL.FTZ and the draw's u (R41-R44). -/
structure FEnv where
  rm : Rnd
  sat : Bool
  ftz : Bool
  u : Nat
  deriving DecidableEq, Repr

/-- Resolve the rounding field against FCTL.RM: code 0 takes FCTL.RM, and 0 or 7 there means RNE (R41). -/
def resolveRm (rm : Rnd) (fctlRm : BitVec 3) : Rnd :=
  match rm with
  | .dyn =>
    match fctlRm.toNat with
    | 2 => .rz
    | 3 => .ru
    | 4 => .rd
    | 5 => .rna
    | 6 => .sr
    | _ => .rne
  | r => r

/-- One draw of the stochastic generator: the new state x, of which u is x[63:32] (R42). -/
def srDraw (seed : Word) : Word :=
  let x := if seed == 0 then 0x9E3779B97F4A7C15 else seed
  let x := x ^^^ (x <<< 13)
  let x := x ^^^ (x >>> 7)
  x ^^^ (x <<< 17)

/-- u of a draw (R42). -/
def srU (x : Word) : Nat := (x >>> 32).toNat

/-- The state after `n` draws (R42). -/
def srDraws : Nat → Word → Word
  | 0, x => x
  | n + 1, x => srDraws n (srDraw x)

/-- Whether the neighbour of larger magnitude is taken: the discarded part is `rem / 2^s` of the gap, with `st` set when
the exact value lies strictly above it; `odd` is the last bit of the neighbour of smaller magnitude (R41, R42). -/
def roundUp (env : FEnv) (neg odd : Bool) (rem s : Nat) (st : Bool) : Bool :=
  let half := 2 ^ (s - 1)
  match env.rm with
  | .dyn | .rne => s != 0 && (decide (half < rem) || (rem == half && (st || odd)))
  | .rz => false
  | .ru => !neg && (rem != 0 || st)
  | .rd => neg && (rem != 0 || st)
  | .rna => s != 0 && decide (half ≤ rem)
  | .sr => decide (2 ^ 32 ≤ rem * 2 ^ 32 / 2 ^ s + env.u)

/-- Round the magnitude `m * 2^e` (strictly above it when `st`) to a multiple of `2^q`: the multiple and whether the
result is inexact (R41). A discarded part that is far below the gap is cut to a length that decides alike. -/
def roundMag (env : FEnv) (neg : Bool) (m : Nat) (e : Int) (st : Bool) (q : Int) : Nat × Bool :=
  if q ≤ e then (m * 2 ^ (e - q).toNat, st)
  else
    let s := min (q - e).toNat (m.log2 + 40)
    let t := m / 2 ^ s
    let rem := m % 2 ^ s
    (if roundUp env neg (t % 2 == 1) rem s st then t + 1 else t, rem != 0 || st)

end Sys2Proof.Machine
end

