-- ==== Sys2Proof/Machine/Float.lean ====
section
/-!
DEFINITION. The floating-point and integer formats and their arithmetic (spec 02): values are exact dyadic numbers, each
operation computes exactly and rounds once (R41-R47, R471), and the ranking order (R51).
-/

namespace Sys2Proof.Machine

/-- How a format uses its all-ones exponent (R37). -/
inductive FKind where
  | ieee | e4m3 | e2m1
  deriving DecidableEq, Repr

/-- A floating-point format: exponent and fraction widths, bias and use of the top exponent (Table formats 2). -/
structure FFmt where
  ew : Nat
  mw : Nat
  bias : Nat
  kind : FKind
  deriving DecidableEq, Repr

def fmtF32 : FFmt := ⟨8, 23, 127, .ieee⟩
def fmtF16 : FFmt := ⟨5, 10, 15, .ieee⟩
def fmtBF16 : FFmt := ⟨8, 7, 127, .ieee⟩
def fmtE5M2 : FFmt := ⟨5, 2, 15, .ieee⟩
def fmtE4M3 : FFmt := ⟨4, 3, 7, .e4m3⟩
def fmtE2M1 : FFmt := ⟨2, 1, 1, .e2m1⟩

/-- Width of a format in bits. -/
def FFmt.width (f : FFmt) : Nat := 1 + f.ew + f.mw

/-- FTZ applies to FP32, FP16 and BF16 only (R44). -/
def FFmt.flushes (f : FFmt) : Bool := f == fmtF32 || f == fmtF16 || f == fmtBF16

/-- Exponent of the smallest normal. -/
def FFmt.emin (f : FFmt) : Int := 1 - f.bias

/-- Code of the largest finite value, without sign (Table formats 2). -/
def FFmt.maxCode (f : FFmt) : Nat :=
  match f.kind with
  | .ieee => (2 ^ f.ew - 1) * 2 ^ f.mw - 1
  | .e4m3 => 0x7E
  | .e2m1 => 0x7

/-- Code of infinity, without sign. -/
def FFmt.infCode (f : FFmt) : Nat := (2 ^ f.ew - 1) * 2 ^ f.mw

/-- Canonical NaN (Table formats 2); E2M1 has none. -/
def FFmt.nanCode (f : FFmt) : Nat :=
  match f.kind with
  | .ieee => (2 ^ f.ew - 1) * 2 ^ f.mw + 2 ^ (f.mw - 1)
  | .e4m3 => 0x7F
  | .e2m1 => 0

/-- A sign bit in place. -/
def FFmt.withSign (f : FFmt) (neg : Bool) (c : Nat) : Nat := if neg then 2 ^ (f.ew + f.mw) + c else c

/-- A value read: NaN (signalling or not), infinity, or the exact finite value ±m·2^e. -/
inductive FVal where
  | nan (sig : Bool)
  | inf (neg : Bool)
  | fin (neg : Bool) (m : Nat) (e : Int)
  deriving DecidableEq, Repr

/-- The value of a code (R37). -/
def FFmt.read (f : FFmt) (c : Nat) : FVal :=
  let neg := c / 2 ^ (f.ew + f.mw) % 2 == 1
  let ex := c / 2 ^ f.mw % 2 ^ f.ew
  let m := c % 2 ^ f.mw
  let top := ex == 2 ^ f.ew - 1
  if f.kind == .ieee && top then
    if m == 0 then .inf neg else .nan (decide (m < 2 ^ (f.mw - 1)))
  else if f.kind == .e4m3 && top && m == 7 then .nan false
  else if ex == 0 then .fin neg m (f.emin - f.mw)
  else .fin neg (2 ^ f.mw + m) ((ex : Int) - f.bias - f.mw)

/-- A subnormal of a flushing format read under FTZ is zero of its sign (R44). -/
def FFmt.readFtz (f : FFmt) (ftz : Bool) (c : Nat) : FVal :=
  match f.read c with
  | .fin neg m e => if ftz && f.flushes && decide (m < 2 ^ f.mw) then .fin neg 0 e else .fin neg m e
  | v => v

/-- Code of the finite magnitude t·2^q, representable in the format. -/
def FFmt.pack (f : FFmt) (t : Nat) (q : Int) : Nat :=
  if t == 0 then 0
  else
    let ex := (t.log2 : Int) + q
    if ex < f.emin then t * 2 ^ (q - (f.emin - f.mw)).toNat
    else
      let sh := (t.log2 : Int) - f.mw
      let frac := (if sh ≥ 0 then t / 2 ^ sh.toNat else t * 2 ^ (-sh).toNat) - 2 ^ f.mw
      (ex + f.bias).toNat * 2 ^ f.mw + frac

/-- Result of a finite overflow (Table formats 4), with OF and NX. -/
def FFmt.overflow (f : FFmt) (env : FEnv) (neg : Bool) : Nat × FFlags :=
  let ieee :=
    match env.rm with
    | .rz | .sr => f.maxCode
    | .ru => if neg then f.maxCode else f.infCode
    | .rd => if neg then f.infCode else f.maxCode
    | _ => f.infCode
  let c :=
    match f.kind with
    | .e2m1 => f.withSign neg f.maxCode
    | .e4m3 => f.withSign neg (if env.sat then f.nanCode else f.maxCode)
    | .ieee =>
      if f == fmtE5M2 && !env.sat then f.withSign neg f.maxCode else f.withSign neg ieee
  (c, fOF ||| fNX)

/-- Round the nonzero exact value ±m·2^e (strictly above in magnitude when `st`) into a format (R41, R43, R44). -/
def FFmt.roundNZ (f : FFmt) (env : FEnv) (neg : Bool) (m : Nat) (e : Int) (st : Bool) : Nat × FFlags :=
  let ex := (m.log2 : Int) + e
  let qu := ex - f.mw
  let (tu, iu) := roundMag env neg m e st qu
  let exu := (tu.log2 : Int) + qu
  let tiny := decide (exu < f.emin)
  if tiny && env.ftz && f.flushes then (f.withSign neg 0, fUF ||| fNX)
  else if tiny then
    let q := f.emin - f.mw
    let (t, i) := roundMag env neg m e st q
    (f.withSign neg (f.pack t q), flagIf i (fUF ||| fNX))
  else
    let (t, i, q) :=
      if ex < f.emin then
        let q := f.emin - f.mw
        let (t, i) := roundMag env neg m e st q
        (t, i, q)
      else (tu, iu, qu)
    let c := f.pack t q
    if f.maxCode < c then f.overflow env neg else (f.withSign neg c, flagIf i fNX)

/-- Round an exact finite value, zero included. -/
def FFmt.round (f : FFmt) (env : FEnv) (neg : Bool) (m : Nat) (e : Int) : Nat × FFlags :=
  if m == 0 then (f.withSign neg 0, fNone) else f.roundNZ env neg m e false

/-- The canonical NaN, with NV when asked (R45). -/
def FFmt.nan (f : FFmt) (nv : Bool) : Nat × FFlags := (f.nanCode, flagIf nv fNV)

/-- A value is a signalling NaN. -/
def FVal.sig : FVal → Bool
  | .nan s => s
  | _ => false

def FVal.isNan : FVal → Bool
  | .nan _ => true
  | _ => false

/-- The exact finite value as a signed multiple of 2^e0, for e0 at most its exponent. -/
def intAt (neg : Bool) (m : Nat) (e e0 : Int) : Int :=
  let k : Int := (m * 2 ^ (e - e0).toNat : Nat)
  if neg then -k else k

/-- The sign of an exact zero sum whose terms have signs `negs` and are all zero, or which cancelled (R471). -/
def zeroSign (env : FEnv) (allZeroNeg allZeroPos : Bool) : Bool :=
  if allZeroNeg then true else if allZeroPos then false else env.rm == .rd

/-- Round(x + y) of two finite values (R41, R471). -/
def FFmt.addFin (f : FFmt) (env : FEnv) (n1 : Bool) (m1 : Nat) (e1 : Int) (n2 : Bool) (m2 : Nat) (e2 : Int) :
    Nat × FFlags :=
  if m1 == 0 && m2 == 0 then
    (f.withSign (zeroSign env (n1 && n2) (!n1 && !n2)) 0, fNone)
  else if m1 == 0 then f.round env n2 m2 e2
  else if m2 == 0 then f.round env n1 m1 e1
  else
    let e0 := min e1 e2
    let s := intAt n1 m1 e1 e0 + intAt n2 m2 e2 e0
    if s == 0 then (f.withSign (env.rm == .rd) 0, fNone) else f.round env (decide (s < 0)) s.natAbs e0

/-- x + y (R45, R112, R150). -/
def FFmt.add (f : FFmt) (env : FEnv) (x y : FVal) : Nat × FFlags :=
  if x.sig || y.sig then f.nan true
  else
    match x, y with
    | .nan _, _ => f.nan false
    | _, .nan _ => f.nan false
    | .inf a, .inf b => if a == b then (f.withSign a f.infCode, fNone) else f.nan true
    | .inf a, _ => (f.withSign a f.infCode, fNone)
    | _, .inf b => (f.withSign b f.infCode, fNone)
    | .fin n1 m1 e1, .fin n2 m2 e2 => f.addFin env n1 m1 e1 n2 m2 e2

/-- The value with its sign inverted; a NaN stays as it is. -/
def FVal.negate : FVal → FVal
  | .nan s => .nan s
  | .inf n => .inf (!n)
  | .fin n m e => .fin (!n) m e

/-- x - y: an addition with the subtrahend negated (R112, R471). -/
def FFmt.sub (f : FFmt) (env : FEnv) (x y : FVal) : Nat × FFlags := f.add env x y.negate

/-- The exact product: NaN, with whether it is invalid, an infinity or a finite value. -/
def mulVal (x y : FVal) : FVal × Bool :=
  if x.sig || y.sig then (.nan false, true)
  else
    match x, y with
    | .nan _, _ => (.nan false, false)
    | _, .nan _ => (.nan false, false)
    | .inf a, .inf b => (.inf (a != b), false)
    | .inf a, .fin b m _ => if m == 0 then (.nan false, true) else (.inf (a != b), false)
    | .fin a m _, .inf b => if m == 0 then (.nan false, true) else (.inf (a != b), false)
    | .fin a m1 e1, .fin b m2 e2 => (.fin (a != b) (m1 * m2) (e1 + e2), false)

/-- x * y (R112, R150). -/
def FFmt.mul (f : FFmt) (env : FEnv) (x y : FVal) : Nat × FFlags :=
  match mulVal x y with
  | (.nan _, nv) => f.nan nv
  | (.inf n, _) => (f.withSign n f.infCode, fNone)
  | (.fin n m e, _) => f.round env n m e

/-- x * y + z with one rounding; 0 times infinity is invalid even when z is a quiet NaN (R45, R112). -/
def FFmt.fma (f : FFmt) (env : FEnv) (x y z : FVal) : Nat × FFlags :=
  match mulVal x y with
  | (.nan _, nv) => f.nan (nv || z.sig)
  | (p, _) => f.add env p z

/-- The ordering key of min and max, with -0 below +0 (R113). -/
def FFmt.orderKey (f : FFmt) (c : Nat) : Int :=
  let mag : Int := (c % 2 ^ (f.ew + f.mw) : Nat)
  if c / 2 ^ (f.ew + f.mw) % 2 == 1 then -mag - 1 else mag

/-- A code as read: a subnormal under FTZ is the zero code of its sign (R44). -/
def FFmt.flushCode (f : FFmt) (ftz : Bool) (c : Nat) : Nat :=
  let top := 2 ^ (f.ew + f.mw)
  if ftz && f.flushes && c / 2 ^ f.mw % 2 ^ f.ew == 0 then c / top % 2 * top else c

/-- Smaller (`isMax` false) or larger of two codes (R113). -/
def FFmt.minmax (f : FFmt) (isMax ftz : Bool) (a b : Nat) : Nat × FFlags :=
  let x := f.read a
  let y := f.read b
  if x.isNan || y.isNan then f.nan (x.sig || y.sig)
  else
    let a := f.flushCode ftz a
    let b := f.flushCode ftz b
    let ltAB := decide (f.orderKey a < f.orderKey b)
    (if isMax then (if ltAB then b else a) else (if ltAB then a else b), fNone)

/-- The ranking key of Table formats 6 as an integer: higher ranks above. -/
def FFmt.rankKey (f : FFmt) (c : Nat) : Int :=
  match f.read c with
  | .nan _ => 2 ^ 64
  | _ =>
    let mag : Int := (c % 2 ^ (f.ew + f.mw) : Nat)
    if c / 2 ^ (f.ew + f.mw) % 2 == 1 then -mag else mag

/-- SFCMP and VCMP on two values, with the NV rule of Table scalar 7 (R114). -/
def fcmp (c : FCond) (f : FFmt) (ftz : Bool) (a b : Nat) : Bool × FFlags :=
  let x := f.read a
  let y := f.read b
  if x.isNan || y.isNan then
    let quietNv := c == .lt || c == .le || c == .gt || c == .ge
    (c == .ne || c == .un, flagIf (quietNv || x.sig || y.sig) fNV)
  else
    let ka := f.rankKey (f.flushCode ftz a)
    let kb := f.rankKey (f.flushCode ftz b)
    (match c with
     | .eq => ka == kb
     | .ne => ka != kb
     | .lt => decide (ka < kb)
     | .le => decide (ka ≤ kb)
     | .gt => decide (kb < ka)
     | .ge => decide (kb ≤ ka)
     | .un => false
     | .ord => true, fNone)

/-- A value converted to a format: NaN, infinity (R43, R45) and finite values. Pairs of formats of one width round and
saturate as every other pair does, though R154 lists them as exact (the model's choice, log entry 66). -/
def FFmt.ofVal (f : FFmt) (env : FEnv) (v : FVal) : Nat × FFlags :=
  match v with
  | .nan s => f.nan s
  | .inf n =>
    if f.kind != .ieee || (f == fmtE5M2 && !env.sat) then (f.withSign n f.maxCode, fOF ||| fNX)
    else (f.withSign n f.infCode, fNone)
  | .fin n m e => f.round env n m e

/-- An integer converted to a format (R46). -/
def FFmt.ofInt (f : FFmt) (env : FEnv) (z : Int) : Nat × FFlags := f.round env (decide (z < 0)) z.natAbs 0

/-- Round an exact value to an integer (R41, R46): the integer and whether rounding changed it. -/
def roundInt (env : FEnv) (neg : Bool) (m : Nat) (e : Int) : Int × Bool :=
  if m == 0 then (0, false)
  else
    let (t, i) := roundMag env neg m e false 0
    (if neg then -(t : Int) else t, i)

/-- A value converted to an integer within [lo, hi] (R46). -/
def fToInt (env : FEnv) (lo hi : Int) (v : FVal) : Int × FFlags :=
  match v with
  | .nan _ => (0, fNV)
  | .inf n => (if n then lo else hi, fNV)
  | .fin n m e =>
    if m != 0 && decide (80 < (m.log2 : Int) + e) then (if n then lo else hi, fNV)
    else
      let (z, i) := roundInt env n m e
      if z < lo then (lo, fNV) else if hi < z then (hi, fNV) else (z, flagIf i fNX)

/-! ### Functions of one operand (R153) -/

/-- Largest r with r*r at most n: Newton's steps from above. -/
def isqrtLoop : Nat → Nat → Nat → Nat
  | 0, _, x => x
  | k + 1, n, x =>
    let y := (x + n / x) / 2
    if y < x then isqrtLoop k n y else x

def isqrt (n : Nat) : Nat := if n == 0 then 0 else isqrtLoop 1000 n (2 ^ (n.log2 / 2 + 1))

/-- 1/x of a nonzero finite value: quotient bits far beyond the format, and a sticky remainder. -/
def FFmt.rcp (f : FFmt) (env : FEnv) (x : FVal) : Nat × FFlags :=
  match x with
  | .nan s => f.nan s
  | .inf n => (f.withSign n 0, fNone)
  | .fin n m e =>
    if m == 0 then (f.withSign n f.infCode, fDZ)
    else
      let k := m.log2 + 128
      f.roundNZ env n (2 ^ k / m) (-(k : Int) - e) (2 ^ k % m != 0)

/-- 1/sqrt(x) (Table panel 4). -/
def FFmt.rsqrt (f : FFmt) (env : FEnv) (x : FVal) : Nat × FFlags :=
  match x with
  | .nan s => f.nan s
  | .inf n => if n then f.nan true else (0, fNone)
  | .fin n m e =>
    if m == 0 then (f.withSign n f.infCode, fDZ)
    else if n then f.nan true
    else
      let (m, e) := if e % 2 == 0 then (m, e) else (2 * m, e - 1)
      let k := m.log2 + 128
      let r := isqrt (2 ^ (2 * k) / m)
      f.roundNZ env false r (-(k : Int) - e / 2) (r * r * m != 2 ^ (2 * k))

/-- Fixed-point precision of the transcendental functions (log entry 6). -/
def fxP : Nat := 320

/-- floor(ln 2 * 2^320). -/
def fxLn2 : Nat := 0xb17217f7d1cf79abc9e3b39803f2f6af40f343267298b62d8a0d175b8baafa2be7b876206debac98

/-- sum of x^k / k! from the k-th term on, in fixed point. -/
def fxExpLoop : Nat → Nat → Nat → Nat → Nat → Nat
  | 0, _, _, _, acc => acc
  | fuel + 1, x, k, term, acc =>
    if term == 0 then acc
    else fxExpLoop fuel x (k + 1) (term * x / 2 ^ fxP / k) (acc + term)

/-- 2^y in fixed point for a fixed-point y in [0, 1). -/
def fxExp2 (y : Nat) : Nat := fxExpLoop 200 (y * fxLn2 / 2 ^ fxP) 1 (2 ^ fxP) 0

/-- sum of z^(2k+1) / (2k+1) in fixed point, with zz = z*z. -/
def fxAtanhLoop : Nat → Nat → Nat → Nat → Nat → Nat
  | 0, _, _, _, acc => acc
  | fuel + 1, zz, k, p, acc =>
    if p == 0 then acc
    else fxAtanhLoop fuel zz (k + 2) (p * zz / 2 ^ fxP) (acc + p / k)

/-- log2 of m / 2^L in [1, 2), in fixed point. -/
def fxLog2 (m : Nat) : Nat :=
  let l := m.log2
  let z := (m - 2 ^ l) * 2 ^ fxP / (m + 2 ^ l)
  2 * fxAtanhLoop 200 (z * z / 2 ^ fxP) 1 z 0 * 2 ^ fxP / fxLn2

/-- The bounds H and U of VEXP2 (R153). -/
def FFmt.expHi (f : FFmt) : Int := if f == fmtF16 then 16 else 128
def FFmt.expLo (f : FFmt) : Int := if f == fmtF16 then -25 else if f == fmtBF16 then -134 else -150

/-- Whether the exact value ±m·2^e is at least / below an integer. -/
def geInt (neg : Bool) (m : Nat) (e : Int) (z : Int) : Bool :=
  if e ≥ 0 then decide (z ≤ intAt neg m e 0)
  else decide (z * 2 ^ (-e).toNat ≤ intAt neg m 0 0)

/-- 2^x (R153, Table panel 4). -/
def FFmt.exp2 (f : FFmt) (env : FEnv) (x : FVal) : Nat × FFlags :=
  match x with
  | .nan s => f.nan s
  | .inf n => if n then (0, fNone) else (f.infCode, fNone)
  | .fin n m e =>
    if m == 0 then f.round env false 1 0
    else if geInt n m e f.expHi then (f.infCode, fOF ||| fNX)
    else if !geInt n m e f.expLo then (0, fUF ||| fNX)
    else if e ≥ 0 then f.roundNZ env false 1 (intAt n m e 0) false
    else
      let d : Nat := 2 ^ (-e).toNat
      let z := intAt n m 0 0
      let ip := z.fdiv d
      let fp := (z - ip * d).toNat
      if fp == 0 then f.roundNZ env false 1 ip false
      else f.roundNZ env false (fxExp2 (fp * 2 ^ fxP / d)) (ip - fxP) true

/-- log2 x (R153, Table panel 4). -/
def FFmt.log2 (f : FFmt) (env : FEnv) (x : FVal) : Nat × FFlags :=
  match x with
  | .nan s => f.nan s
  | .inf n => if n then f.nan true else (f.infCode, fNone)
  | .fin n m e =>
    if m == 0 then (f.withSign true f.infCode, fDZ)
    else if n then f.nan true
    else
      let ex := (m.log2 : Int) + e
      if m == 2 ^ m.log2 then f.ofInt env ex
      else
        let v : Int := ex * 2 ^ fxP + fxLog2 m
        if 0 ≤ v then f.roundNZ env false v.natAbs (-(fxP : Int)) true
        else f.roundNZ env true (v.natAbs - 1) (-(fxP : Int)) true

/-- x * 2^b (R152). -/
def FFmt.scale (f : FFmt) (env : FEnv) (c : Nat) (b : Int) : Nat × FFlags :=
  match f.readFtz env.ftz c with
  | .nan s => f.nan s
  | .inf n => (f.withSign n f.infCode, fNone)
  | .fin n m e => f.round env n m (e + b)

/-! ### Element types -/

/-- Lane width of a type (Table panel 3). -/
def tyWidth : Ty → Nat
  | .f32 | .i32 | .n32 => 32
  | .bf16 | .f16 | .i16 => 16
  | .e4m3 | .e5m2 | .i8 | .n8 => 8
  | .e2m1 | .i4 => 4
  | .i64 => 64

/-- Lanes of a 512-byte row (Table panel 3). -/
def tyLanes (t : Ty) : Nat := 4096 / tyWidth t

/-- The floating-point format of a type, if it is one. -/
def tyFmt : Ty → Option FFmt
  | .f32 => some fmtF32
  | .bf16 => some fmtBF16
  | .f16 => some fmtF16
  | .e4m3 => some fmtE4M3
  | .e5m2 => some fmtE5M2
  | .e2m1 => some fmtE2M1
  | _ => none

/-- A signed integer type (R40; `.i4` is signed, R154). -/
def tySigned : Ty → Bool
  | .i8 | .i16 | .i32 | .i64 | .i4 => true
  | _ => false

/-- The integer a code of `w` bits stands for. -/
def intOf (signed : Bool) (w c : Nat) : Int :=
  let c := c % 2 ^ w
  if signed && decide (2 ^ (w - 1) ≤ c) then (c : Int) - 2 ^ w else c

/-- The code of `w` bits of an integer modulo 2^w (R40). -/
def codeOf (w : Nat) (z : Int) : Nat := (z.emod (2 ^ w : Nat)).toNat

/-- Range of an integer format. -/
def intLo (signed : Bool) (w : Nat) : Int := if signed then -(2 ^ (w - 1) : Nat) else 0
def intHi (signed : Bool) (w : Nat) : Int := if signed then (2 ^ (w - 1) : Nat) - 1 else (2 ^ w : Nat) - 1

/-- Sat: clamp to the range of a format. -/
def satInt (signed : Bool) (w : Nat) (z : Int) : Int := max (intLo signed w) (min z (intHi signed w))

/-- Ranking key of a lane of any type (R51). -/
def rankKeyTy (t : Ty) (c : Nat) : Int :=
  match tyFmt t with
  | some f => f.rankKey c
  | none => intOf (tySigned t) (tyWidth t) c

/-- Convert one lane between types other than a type-5 source or destination, whose scales the caller applies
(R154, R46). -/
def convLane (env : FEnv) (dt st : Ty) (c : Nat) : Nat × FFlags :=
  match tyFmt dt, tyFmt st with
  | some fd, some fs => fd.ofVal env (fs.readFtz env.ftz c)
  | none, some fs =>
    let (z, fl) := fToInt env (intLo (tySigned dt) (tyWidth dt)) (intHi (tySigned dt) (tyWidth dt))
      (fs.readFtz env.ftz c)
    (codeOf (tyWidth dt) z, fl)
  | some fd, none => fd.ofInt env (intOf (tySigned st) (tyWidth st) c)
  | none, none => (codeOf (tyWidth dt) (intOf (tySigned st) (tyWidth st) c), fNone)

/-- RNE, subnormals kept: the arithmetic of bank ALUs, atomic units, routers and the matrix engine (R242, R49). -/
def envRne : FEnv := ⟨.rne, false, false, 0⟩

/-- Addition of the bank ALUs and atomic units: any NaN operand sets NV (R242). -/
def aluAdd (f : FFmt) (a b : Nat) : Nat × FFlags :=
  let x := f.read a
  let y := f.read b
  if x.isNan || y.isNan then f.nan true else f.add envRne x y

end Sys2Proof.Machine
end

