-- ==== Sys2Proof/Machine/State.lean ====
section
/-!
DEFINITION. The state of the FX16: plain data, every record of the manual (spec 01-21), its value after cold reset
(R424), and the reasons a step can stop. Sparse tables hold only the tiles, cores and entries that differ from reset.
-/

namespace Sys2Proof.Machine

/-- A sparse table: pairs of index and record, indices rising; an absent index holds the reset record. -/
abbrev Tbl (α : Type) := List (Nat × α)

/-- Memory contents: cells at strictly rising addresses, none holding 0; an unlisted byte reads 0 (R236). -/
abbrev Mem := List Host.Cell

/-! ### Clusters and banks -/

/-- Stream State codes 0-4 (Table flow 1). -/
inductive StSt where
  | idle | running | joinWait | exited | parked
  deriving DecidableEq, Repr

/-- A long load as the replay list keeps it (R216): destination, size, space, address, order, scope, speculative. -/
structure LoadRec where
  cl : Fin 4
  d : Reg
  sz : Siz
  sp : Spc
  ea : Word
  ord : MOrd
  scp : Scp
  spec : Bool
  deriving DecidableEq, Repr

/-- What a result in flight writes when its latency expires (R94-R96, R146). -/
inductive FDst where
  | none
  /-- Value and D bit of a scalar. -/
  | reg (r : Reg) (v : Word) (d : Bool)
  /-- CLRD: the D bit alone (R118). -/
  | clearD (r : Reg)
  | pred (q : Prd) (v : Bool)
  /-- Bytes of a panel row from an offset on. -/
  | row (p : Pan) (r off : Nat) (bs : List Byte)
  /-- Scale-tag bytes of a panel row from an offset on. -/
  | tag (p : Pan) (r off : Nat) (bs : List Byte)
  /-- An LS load of an uncorrectable granule: the destination becomes pending and the load is replayed (R251). -/
  | lost (l : LoadRec)
  deriving DecidableEq, Repr

/-- A result in flight: advancing cycles left, destination, FSTAT flags, and the slot of its operation (R96, R212). -/
structure Flight where
  left : Nat
  dst : FDst
  flags : BitVec 5
  slot : Nat
  deriving DecidableEq, Repr

/-- Why a stream that has issued a bundle waits before the next one. -/
inductive Hold where
  | none
  /-- The second piece of an LDM or STM (R258): whether it is a replay, the bundle's address, the operation word, the
  piece's address, the number of registers of the first piece, and the values that an STM read at issue (R89). -/
  | piece (replay : Bool) (bundle op ea : Word) (done : Nat) (vals : List Word)
  /-- BARW waits in barrier `id` (R267); after a restore, until the Generation differs (R329). -/
  | barw (id : Nat)
  | barwGen (id gen : Nat)
  /-- WAITX waits for its results before it registers (R322): entry, live count, key register. -/
  | waitx (entry : Word) (cnt : Nat) (key : Reg)
  deriving DecidableEq, Repr

/-- Data that a bundle waits for before it issues (LDROW, LAUNCH: R259, R318). -/
inductive Buf where
  | idle
  /-- `n` requests, numbered from `id` on, bring its parts. -/
  | sent (id n : Nat)
  | got (bs : List Byte)
  /-- The data was dropped as uncorrectable and its record awaits an answer. -/
  | lost
  deriving DecidableEq, Repr

/-- One cluster of a context bank (R87-R93, R121, R129, R134, R207). -/
structure Cluster where
  regs : Tbl Word
  dbits : BitVec 32
  pbits : BitVec 32
  preds : BitVec 8
  pc : Word
  st : StSt
  rstack : List Word
  rstop : Nat
  spillp : Word
  lc : List (BitVec 32)
  lb : List Word
  le : List Word
  priv : Bool
  lt : Bool
  ti : Bool
  ppriv : Bool
  causeCode : BitVec 8
  causeAux : BitVec 32
  epc : Word
  eaddr : Word
  fctl : BitVec 5
  fstat : BitVec 5
  /-- Flags raised since the last advancing cycle, which an MTCR of FSTAT does not clear (R48, R95). -/
  flagsNow : BitVec 5
  /-- The number that the next request had at the stream's latest FENCE with release: a later write is performed after every
  access with a lower one (R275). -/
  fenced : Nat
  /-- Flags that a reply raised in the present core cycle, which an MTCR of FSTAT does not clear either (R48, R262). -/
  flagsCyc : BitVec 5
  srseed : Word
  /-- XFER, and the second piece's address, bundle and next bundle that the bank keeps with it (R258). -/
  xfer : Nat
  xferAddr : Word
  xferOp : Word
  xferNext : Word
  flights : List Flight
  hold : Hold
  buf : Buf
  /-- The record that a LAUNCH waits for (R318). -/
  lbuf : Buf
  /-- The return-stack fill that a RET waits for (R131). -/
  fill : Buf
  /-- The fetch block asked for, by its fabric address (R17, R61). -/
  code : Buf
  codeAt : Nat
  /-- The stream stalls on a register, row or record whose data awaits an answer (R219). -/
  waitAns : Bool
  /-- LS accesses of the stalled bundle already granted (R238). -/
  lsHeld : Bool
  /-- Droop bubbles still to be taken (R27). -/
  bubbles : Nat
  /-- The core cycle before which a resumed stream issues nothing (R217); the quantum at which a placed task's state is
  loaded (R314). -/
  resumeAt : Nat
  /-- The record this parked stream waits for has been answered, and the tick of the answer (R217). -/
  answered : Bool
  ansTick : Nat
  /-- What the stream does before its next bundle, once nothing holds it: an EXIT behind a second piece (R143, R258), a TRAP
  or RETT behind a JOIN (R142, R221); with STAT.TI as it stood, so that a local handler does not take it over. -/
  after : Option (Bool × Instr)
  deriving DecidableEq, Repr

/-- The four clusters of a bank. -/
structure Quad (α : Type) where
  c0 : α
  c1 : α
  c2 : α
  c3 : α
  deriving DecidableEq, Repr

/-- Join set (Table flow 8). -/
structure JoinSet where
  busy : Bool
  expected : BitVec 4
  arrived : BitVec 4
  addr : Word
  deriving DecidableEq, Repr

/-- What the scheduler and the launch chapter attach to a task (R311-R321). -/
structure Task where
  launch : Nat
  company : Nat
  dIdx : Nat
  cIdx : Nat
  deps : List Nat
  early : Bool
  triggered : Bool
  cue : Option Nat
  /-- The counted level of R233. -/
  counted : Option Nat
  panels : BitVec 32
  deriving DecidableEq, Repr

/-- One entry of the pending-write buffer: the cluster and the result (R212). -/
structure PwEnt where
  cl : Fin 4
  fl : Flight
  deriving DecidableEq, Repr

/-- A context bank (R210). -/
structure Bank where
  occ : Bool
  joined : Bool
  cl : Quad Cluster
  joins : Tbl JoinSet
  barBase : Nat
  barDepth : Nat
  taskid : BitVec 32
  company : BitVec 32
  pwb : List PwEnt
  replay : List LoadRec
  done : Nat
  total : Nat
  cycles : Nat
  task : Option Task
  /-- The placed task's start state is fully loaded (R314). -/
  started : Bool
  /-- The core's cycle count when the task was placed, 0 for a restored one: entries enqueued since are its own (R48). -/
  since : Nat
  deriving DecidableEq, Repr

/-! ### Engines of a core -/

/-- A ring slot's words 0-6; word 7 is zero (Table eq 2). -/
structure Slot where
  w0 : Word
  w1 : Word
  w2 : Word
  w3 : Word
  w4 : Word
  w5 : Word
  w6 : Word
  deriving DecidableEq, Repr

/-- Ring record (Table eq 3). -/
structure Ring where
  head : Nat
  tail : Nat
  count : Nat
  deriving DecidableEq, Repr

/-- Window entry: its slot number and what the ring slot held (Table matrix 1). -/
structure MEnt where
  n : Nat
  e : Slot
  deriving DecidableEq, Repr

/-- Matrix window, oldest entry first; `running` is a slot number or 4 (Table matrix 1). -/
structure MWin where
  ents : List MEnt
  running : Nat
  remaining : Nat
  deriving DecidableEq, Repr

/-- Projection unit (Table proj 5), with the parameter block it read, the cycles its present step still takes, the
states its panels had before start (R192), and the hidden-gradient sums in progress, row by row (R201). An entry that is
taken and whose block is not read yet has an empty `par`. -/
structure Proj where
  busy : Bool
  e : Slot
  par : List Byte
  group : Nat
  row : Nat
  suspended : Bool
  rng : Word
  wait : Nat
  before : List (Pan × PSt)
  gacc : List Nat
  flags : BitVec 5
  /-- The spill fields of the block are read again before the row's group is processed (R200). -/
  reread : Bool
  deriving DecidableEq, Repr

/-- A copy-on-write copy that a courier makes (R405): old and new frame, the block entry's physical address, lines asked for
and lines copied. -/
structure Cow where
  f : Nat
  f2 : Nat
  ent : Nat
  asked : Nat
  line : Nat
  deriving DecidableEq, Repr

/-- Courier (Table eq 5), with the cycles before it goes on. -/
structure Cour where
  busy : Bool
  e : Slot
  progress : Nat
  suspended : Bool
  wait : Nat
  cow : List Cow
  /-- Migration slot in use: home tile and slot number (R407). -/
  mig : Option (Nat × Nat)
  /-- 64-byte transfers of the present row already made (R295). -/
  sub : Nat
  /-- Migrate actions of the cue sheet to be taken: page, target, deadline and the action's tick (R372, R409); the running
  entry is one. -/
  acts : List (Word × Word × Word × Nat)
  act : Bool
  /-- The tick from which the running entry's deadline counts: at which it was taken, or the action's (R372, R409). -/
  taken : Nat
  deriving DecidableEq, Repr

/-- An engine's access to LS: the banks it asked for in vain, the cycles it has waited, and whether they are kept for it in
the present cycle (R239). -/
structure LsAsk where
  want : BitVec 32
  starve : Nat
  given : Bool
  deriving DecidableEq, Repr

/-- A completed entry's signal not yet added (R227, R337). -/
structure Sig where
  sem : Sem
  inc : BitVec 4
  cl : Fin 4
  bank : Nat
  deriving DecidableEq, Repr

/-- Signals of one engine in order, and whether the first is held by SEMOVF (R228). -/
structure Sigs where
  q : List Sig
  held : Bool
  deriving DecidableEq, Repr

/-- A change that takes effect at the end of the cycle (R116, R208, R234). -/
inductive EndFx where
  | setps (p : Pan) (ready : Bool)
  | barbase (bank : Nat) (v : Word)
  | barrot (bank : Nat)
  | tileReg (idx : Nat) (v : Word)
  | marker (v : Word)
  deriving DecidableEq, Repr

/-- A cached translation (R398): the virtual page or block entry it names, the leaf, and write-ok. -/
structure TlbEnt where
  /-- 0 a page leaf, 1 a block entry. -/
  kind : Nat
  key : Nat
  large : Bool
  leaf : Word
  writeOk : Bool
  deriving DecidableEq, Repr

/-- One core (R12). -/
structure Core where
  b0 : Bank
  b1 : Bank
  fg : Nat
  xcnt : Nat
  /-- Cycles left of a bank exchange (R211). -/
  exch : Nat
  ls : Mem
  /-- Panel data: byte address 32768 * panel + 512 * row + byte. -/
  panels : Mem
  /-- Scale tags: byte address 2048 * panel + 32 * row + byte. -/
  tags : Mem
  pstate : Tbl PSt
  sems : Tbl Nat
  /-- Semaphores, panel states and the foreground task's Done as they stood at the start of the cycle (R117, R227, R235). -/
  sems0 : Tbl Nat
  pst0 : Tbl PSt
  done0 : Nat
  rings : Quad Ring
  mwin : MWin
  proj : Proj
  cour : Cour
  sigs : Quad Sigs
  /-- LS banks granted in the present cycle, one bit per bank (R238), and what each engine asks for (R239). -/
  lsUsed : BitVec 32
  lsEng : Quad LsAsk
  /-- The L1 TLB, the latest use last (R398). -/
  tlb : List TlbEnt
  /-- The instruction cache: fetch blocks by fabric address div 64, the latest fill last (R12, R61). -/
  icache : List (Nat × List Byte)
  /-- A stream stalled on an LS bank in the present cycle (R238). -/
  lsStallNow : Bool
  endFx : List EndFx
  lsStalls : Word
  bubbles : Word
  marker : Word
  markers : Word
  ecc : Word
  deriving DecidableEq, Repr

/-! ### Tile tables -/

/-- Task entry (Table launch 6); restored tasks carry the number of their saved image. -/
structure TaskEnt where
  taskid : Nat
  company : Nat
  core : Nat
  kind : Nat
  prio : Nat
  tick : Nat
  order : Nat
  cont : Nat
  broken : Bool
  dIdx : Nat
  cIdx : Nat
  launch : Nat
  deriving DecidableEq, Repr

/-- Handle entry (Table cue 2). -/
structure Handle where
  st : Nat
  port : Nat
  cross : Bool
  far : BitVec 16
  nextLive : Nat
  dark : Nat
  deriving DecidableEq, Repr

/-- A port-engine entry (R330): its kind (0 SEND, 1 PWR, 2 PWRED, 3 RECV), the ring slot's fields and the descriptor. -/
structure PEnt where
  id : Nat
  kind : Nat
  core : Nat
  bank : Nat
  cl : Fin 4
  company : Nat
  priv : Bool
  /-- The sheet its company is bound to (R366). -/
  cue : Option Nat
  hold : Bool
  relay : Bool
  /-- It acquires or releases: its reads follow its stream's earlier stores; the cycle of its enqueue (R279, R337). -/
  sync : Bool
  cyc : Nat
  /-- Source or destination address; the LS address of a work entry's descriptor. -/
  addr : Word
  cnt : Nat
  desc : List Word
  fired : Bool
  /-- Source bytes acknowledged, whether all blocks have been sent, elements that were NaN, tick at which it became the
  transmitting entry. -/
  acked : Nat
  sentAll : Bool
  nans : Nat
  headTick : Option Nat
  /-- A SEND with hold clear has been judged (R334). -/
  asked : Bool
  /-- Bytes already sent or filled when the entry was saved under pre-emption (R347). -/
  start : Nat
  /-- A record of the entry awaits its answer: its send queue is suspended (Table port 2). -/
  waits : Bool
  /-- The entry has ended with this status, and its completion record is still to be written (R346). -/
  fin : Option Nat
  deriving DecidableEq, Repr

/-- Port entries of a tile in ring or firing order; a completed one waits for the earlier ones (R337). -/
structure PortOrd where
  id : Nat
  core : Nat
  sig : Sig
  fired : Bool
  done : Bool
  deriving DecidableEq, Repr

/-- Queues of one handle (Table port 2), and whether the receive list waits for an answer (R336). -/
structure HQ where
  send : List PEnt
  prog : Nat
  recv : List PEnt
  fill : Nat
  rsusp : Bool
  deriving DecidableEq, Repr

/-- Arrival counter (Table count 4). -/
structure Arrival where
  value : Nat
  sat : Bool
  deriving DecidableEq, Repr

/-- Armed slot (Table count 5), with what the arming entry carried. -/
structure Armed where
  ctr : Nat
  thr : Nat
  addr : Nat
  core : Nat
  company : Nat
  bank : Nat
  cl : Fin 4
  priv : Bool
  cue : Option Nat
  tick : Nat
  timeout : Nat
  deriving DecidableEq, Repr

/-- A fired entry (R342, R343): in the execution queue, or in the bucket hold with its bucket and the tick it entered. -/
structure Fired where
  e : PEnt
  handle : Nat
  bucket : Nat
  tick : Nat
  deriving DecidableEq, Repr

/-- Port modes (R15) and counters (R234): mode 0 Normal, 1 Erasure, 2 Degraded, 3 Failed. -/
structure Port where
  mode : Nat
  lanes : List Nat
  erasures : Word
  corrected : Word
  dropped : Word
  /-- Block times taken out of the port, by tick (R333). -/
  times : List (Nat × Nat)
  /-- The block time, counted from tick 0, from which on a request packet may take one (R369). -/
  reqAt : Nat
  deriving DecidableEq, Repr

/-- Reply slip (Table comb 2): the request it answers and its prefix. -/
structure Slip where
  req : Nat
  input : Nat
  pre : Word
  deriving DecidableEq, Repr

/-- Combining entry (Table comb 1), the merged request it sent, and the slip that its reply answers next (R391). -/
structure CEnt where
  sent : Bool
  afadd : Bool
  sz : Siz
  scp : Scp
  ord : MOrd
  output : Nat
  addr : Nat
  acc : Word
  sentTick : Nat
  slips : List Slip
  merged : Nat
  nextSlip : Nat
  deriving DecidableEq, Repr

/-- MSC line (R246-R247), with the quantum at which its bytes have come from the stack (R360). -/
structure MscLine where
  data : List Byte
  dirty : Bool
  used : Nat
  ready : Nat
  /-- The data way of its set, 0-15 (R247). -/
  way : Nat
  retain : Bool
  evict : Bool
  deriving DecidableEq, Repr

/-- A write queued at a pseudo-channel (R244), with its requester: 0-15 a core, 16 ingress. -/
structure WEnt where
  addr : Nat
  data : List Byte
  owner : Nat
  due : Nat
  deriving DecidableEq, Repr

/-- Migration slot (R407): frame and target, lines asked for and copied, the mapping entry, the courier that waits, phase. -/
structure Mig where
  f : Nat
  f2 : Nat
  toPool : Bool
  fromPool : Bool
  asked : Nat
  line : Nat
  phase : Nat
  ent : Nat
  courier : Option (Nat × Nat)
  tile : Nat
  deadline : Nat
  taken : Nat
  vpage : Nat
  deriving DecidableEq, Repr

/-- Tile counters of Table count 10. -/
structure TileCnt where
  combOver : Word
  lostSlips : Word
  migSlips : Word
  ecc : Word
  hbmEcc : Word
  mscHits : Word
  mscMisses : Word
  mscAllocs : Word
  droppedRecs : Word
  deriving DecidableEq, Repr

/-- Clock record: cycles before quantum `since`, the rate in MHz, and how often the rate has been switched: each switch
gives a new phase (R3). -/
structure Clk where
  base : Nat
  since : Nat
  mhz : Nat
  switches : Nat
  deriving DecidableEq, Repr

/-- Fault queue register (Table ctx 7). -/
structure FqReg where
  base : Nat
  size : Nat
  deriving DecidableEq, Repr

/-- One tile (R12). -/
structure Tile where
  cores : Tbl Core
  tsm : Mem
  /-- TSM banks that have performed an operation in the present cycle (R241). -/
  bankUsed : List Nat
  bankFlags : Tbl (BitVec 5)
  unitFlags : Tbl (BitVec 5)
  ttbase : Nat
  ptroot : Nat
  fqbase : Quad FqReg
  rdbase : Nat
  tvec : Nat
  redir : Tbl Word
  ready : List TaskEnt
  taskCtr : Nat
  handles : Tbl Handle
  relays : Tbl Nat
  hq : Tbl HQ
  arrivals : Tbl Arrival
  armed : Tbl Armed
  execq : List Fired
  buckets : List Fired
  /-- Entries that have ended outside a send queue and whose completion record is still to be written (R339, R341, R344). -/
  ends : List PEnt
  portOrd : List PortOrd
  ports : Tbl Port
  comb : Tbl CEnt
  cal : List (BitVec 5)
  calNext : Option (List (BitVec 5))
  msc : Tbl MscLine
  bloom : List (Nat × Nat)
  wq : List WEnt
  tlb : List TlbEnt
  freeHead : Nat
  freeCount : Nat
  migs : Tbl Mig
  cnt : TileCnt
  /-- The counters as they stood at the start of the cycle (R235). -/
  cnt0 : TileCnt
  point : Nat
  pointNext : Option Nat
  ceiling : Nat
  floor : Nat
  hot : Bool
  hint0 : Bool
  hint3 : Bool
  busyCycles : Nat
  intervalCycles : Nat
  clk : Clk
  deriving DecidableEq, Repr

/-! ### Module -/

/-- An uncorrectable granule (R251): the memory, its coordinates and the byte address. -/
inductive BadCell where
  | panel (t c addr : Nat)
  /-- A row's scale tag, by its byte address among the tags. -/
  | tag (t c addr : Nat)
  | ls (t c addr : Nat)
  | tsm (t addr : Nat)
  | hbm (addr : Nat)
  | msc (addr : Nat)
  /-- A block of an instruction cache, by fabric address div 64. -/
  | code (t c blk : Nat)
  | comb (t e : Nat)
  deriving DecidableEq, Repr

/-- Where a request is performed: a tile's TSM, module HBM, or a fabric address of another module. -/
inductive Loc where
  | tsm (tile off : Nat)
  | hbm (a : Nat)
  | far (fa : Nat)
  deriving DecidableEq, Repr

/-- Atomic operations (Table memop 3). -/
inductive AOp where
  | add | fadd | min | max | minn | maxn | and | or | xor | xchg | cas
  deriving DecidableEq, Repr

/-- What a request does at its home. -/
inductive MemOp where
  | read (n : Nat)
  | write (bs : List Byte)
  | atom (op : AOp) (sz : Siz) (b cmp : Word)
  | red (op : RedOp) (t : RedTy) (bs : List Byte)
  /-- The home step of a PWRED packet: `n` destination bytes and the lanes on the wire (R340). -/
  | redWire (op : RedOp) (t : RedTy) (n : Nat) (bs : List Byte)
  /-- PF: the line enters its home's MSC (R260). -/
  | pf
  /-- A flag-window write (R240). -/
  | flag (v : BitVec 5)
  /-- A frame-table step of FRAMEOP: operation, frame or tile, operand (R402, R413). -/
  | frame (op f : Nat) (b : Word)
  /-- MSCOP of a run of bytes (R412). -/
  | mscop (op n : Nat)
  deriving DecidableEq, Repr

/-- Where the answer of a request goes. -/
inductive RDst where
  | none
  | load (l : LoadRec)
  /-- The old value of an atomic; its flags when AFADD. -/
  | atom (d : Reg)
  /-- A return-stack fill. -/
  | fill
  /-- A fetch block. -/
  | code
  /-- Row data, or a launch record, awaited by a stalled bundle. -/
  | buf
  | lbuf
  /-- A speculative load: an uncorrectable error gives the deferred fault (R257). -/
  | spec (l : LoadRec)
  /-- FRAMEOP. -/
  | frame (d : Reg)
  /-- A merged request: the combining entry that waits. -/
  | comb (tile e : Nat)
  /-- A request of another module. -/
  | remote
  /-- Data or acknowledgement that an engine waits for. -/
  | engine
  /-- A read of the host through its window (R415). -/
  | host
  deriving DecidableEq, Repr

/-- Who made a request. -/
inductive Who where
  | stream (id : StreamId)
  | router (tile : Nat)
  | remote (tile : Nat)
  /-- An engine's access: the core it counts for (16: ingress) and, for the port engine, the entry or block (R359). -/
  | engine (t c : Nat) (g : Eng) (n : Nat)
  | host
  deriving DecidableEq, Repr

/-- Stage of a request on its way. -/
inductive Stage where
  /-- Issued and not yet allowed or able to leave. -/
  | wait
  /-- At the combining stage of a tile's router (R385). -/
  | router (tile : Nat)
  /-- In the output queues of a tile's router (R369, R388). -/
  | out (tile : Nat)
  /-- A slip of a combining entry. -/
  | slip (tile e : Nat)
  /-- At its home, or beyond the module. -/
  | home
  /-- At the base-die atomic unit: a calendar slot has served it. -/
  | unit
  /-- A load whose data was dropped as uncorrectable: it is performed anew once its record is answered (R216, R251). -/
  | lost
  /-- Performed; the answer is on its way. -/
  | reply (bs : List Byte) (nv bad : Bool)
  deriving DecidableEq, Repr

/-- A memory request in flight (R241-R245, R255, R270). -/
structure Req where
  id : Nat
  who : Who
  op : MemOp
  loc : Loc
  dst : RDst
  ord : MOrd
  scp : Scp
  comb : Bool
  /-- Lines of memory-side pages bypass the MSC. -/
  memside : Bool
  stage : Stage
  due : Nat
  tick : Nat
  /-- Core cycle of a stream's access. -/
  cyc : Nat
  /-- The answer is to be discarded: the stream trapped or its task ended (R143, R216). -/
  drop : Bool
  /-- The uncorrectable granule for which a read was dropped, or an atomic found nothing (R251, R252). -/
  cell : Option BadCell
  /-- A write after a FENCE with release: every access of its stream with a lower number precedes it (R275). -/
  after : Nat
  /-- The line is allocated in the MSC once the read has been served (R248). -/
  alloc : Bool
  /-- The port by which it arrived at the router where it is, 8 for a core of the tile (Table comb 2); the outputs that it has
  taken at the routers behind it (R369). -/
  input : Nat
  via : List (Nat × Nat)
  deriving DecidableEq, Repr

/-- A block in flight on a circuit (R333): the tile and handle it reaches, its bytes, and what it belongs to. -/
structure Block where
  id : Nat
  tile : Nat
  handle : Nat
  due : Nat
  data : List Byte
  /-- 0 a SEND block, 1 a packet of a work entry. -/
  kind : Nat
  /-- Sending tile, handle and entry; none for another module's. -/
  src : Option (Nat × Nat × Nat)
  /-- Packet: destination courier address, element offset, counter, increment, operation, to relay, company privilege. -/
  dst : Word
  off : Nat
  ctr : Nat
  inc : Nat
  red : Option (RedOp × RedTy)
  toRelay : Bool
  priv : Bool
  dropped : Bool
  /-- To be sent again (R334). -/
  again : Bool
  /-- Bytes whose writes have been made; they may still have to be performed (R282). -/
  put : Nat
  /-- Cores and numbers of the RECVs that it fills up (R335). -/
  fills : List (Nat × Nat)
  deriving DecidableEq, Repr

/-- An acknowledgement on its way to a sending tile (R334, R369): the tile where it is, 16 for the edge relay; tile, handle,
entry, bytes, due quantum. -/
structure Ack where
  at_ : Nat
  tile : Nat
  handle : Nat
  ent : Nat
  bytes : Nat
  due : Nat
  deriving DecidableEq, Repr

/-- Whom a fault record's answer resumes (R352). -/
inductive Waiter where
  | none
  | stream (id : StreamId)
  /-- A parked stream of a saved bank: tile, task id, cluster (R328). -/
  | image (tile taskid : Nat) (cl : Fin 4)
  | load (id : StreamId) (l : LoadRec)
  | buf (id : StreamId)
  | lbuf (id : StreamId)
  /-- A stream whose fetch block was uncorrectable in memory. -/
  | fetch (id : StreamId)
  | proj (t c : Nat)
  | cour (t c : Nat)
  | sig (t c : Nat) (g : Eng)
  | send (t h id : Nat)
  | recv (t h : Nat)
  | packet (b : Block)
  deriving DecidableEq, Repr

/-- Where a record is sent (Table tab 7). -/
inductive Dest where
  | host (vector : Nat)
  | queue (tile q : Nat)
  | stage (vector : Nat)
  | drop
  deriving DecidableEq, Repr

/-- Fault record (Table port 5), its destination and who waits for it. -/
structure FRec where
  cause : Nat
  tile : Nat
  core : Nat
  cl : Nat
  bank : Nat
  kind : Nat
  source : Nat
  aux : BitVec 32
  pc : Word
  addr : Word
  tick : Nat
  dest : Dest
  waiter : Waiter
  /-- The second of two records that nothing may separate (R394). -/
  paired : Bool
  deriving DecidableEq, Repr

/-- A delivered record that awaits its answer: `n` is the address of its queue slot, or the number of the host's record. -/
structure Posted where
  dest : Dest
  n : Nat
  cause : Nat
  waiter : Waiter
  deriving DecidableEq, Repr

/-- The record at a queue's head, judged once (R310): its bytes, the levels of its loop table (kind, count, first and last
block) and the refusal code, 0 for none. -/
structure HeadRec where
  recd : List Byte
  levels : List (Nat × Nat × Word × Word)
  code : Nat
  deriving DecidableEq, Repr

/-- Launch queue (Table launch 1), and its judged head. -/
structure LQ where
  base : Nat
  size : Nat
  fed : Bool
  head : Nat
  tail : Nat
  cbase : Nat
  vector : Nat
  overrun : Bool
  judged : Option HeadRec
  deriving DecidableEq, Repr

/-- A lineage of a company (R320): its C index, whether it has ended and whether it is triggered. -/
structure Lineage where
  cIdx : Nat
  ended : Bool
  triggered : Bool
  deriving DecidableEq, Repr

/-- A company (R311): launch, tile, D index, the levels of its loop table, lineages; saved and pre-emption marks. -/
structure Company where
  launch : Nat
  tile : Nat
  dIdx : Nat
  id : Nat
  levels : List (Nat × Nat × Word × Word)
  lineages : List Lineage
  saved : Bool
  /-- 0 none, 1 draining, 2 discarding, 3 saving. -/
  preempt : Nat
  deriving DecidableEq, Repr

/-- A launch that has been taken (R308-R320): its record's 64 bytes, loop levels, and whether it has retired. -/
structure Launch where
  id : Nat
  recd : List Byte
  levels : List (Nat × Nat × Word × Word)
  refused : Bool
  retired : Bool
  deriving DecidableEq, Repr

/-- Values a cluster carries through a long wait (Table launch 8). -/
structure ContCl where
  vals : List Word
  fctl : BitVec 5
  fstat : BitVec 5
  srseed : Word
  spillp : Word
  deriving DecidableEq, Repr

/-- Continuation record (Table launch 8), with the task's launch data. -/
structure Cont where
  entry : Word
  n : Nat
  cls : Quad ContCl
  barBase : Nat
  barDepth : Nat
  done : Nat
  total : Nat
  triggered : Bool
  company : Nat
  tile : Nat
  core : Nat
  /-- none: a barrier of the tile; some key. -/
  key : Option Word
  bar : Nat
  next : Nat
  task : Task
  priv : Bool
  compReg : BitVec 32
  deriving DecidableEq, Repr

/-- Key entry (Table launch 9): pending posts and waiting records in registration order. -/
structure KeyEnt where
  key : Word
  pending : Nat
  waiters : List Nat
  deriving DecidableEq, Repr

/-- A registration on its way to the store (R316): tick, place and record number; it follows the named requests (R286). -/
structure RegMsg where
  tick : Nat
  tile : Nat
  core : Nat
  num : Nat
  after : List Nat
  deriving DecidableEq, Repr

/-- A post on its way (R316, R323): it leaves after the named requests are performed. -/
structure PostMsg where
  tick : Nat
  tile : Nat
  core : Nat
  cl : Nat
  key : Word
  after : List Nat
  deriving DecidableEq, Repr

/-- A TRIGGER, or the end of a lineage, that takes effect once the named requests are performed (R286, R319): launch, tile and
C index of the task. -/
structure TrigMsg where
  launch : Nat
  tile : Nat
  cIdx : Nat
  after : List Nat
  ends : Bool
  deriving DecidableEq, Repr

/-- A company's task image saved under pre-emption (R328): its core, its bank, the bank's number as its engine entries carry
it, and the core's cycle count at the save. -/
structure Saved where
  launch : Nat
  tile : Nat
  core : Nat
  no : Nat
  cyc : Nat
  bank : Bank
  deriving DecidableEq, Repr

/-- What pre-emption saves of a core beside its banks (R328): panels with states, LS window, ring and window entries. After the
restore, the entries for which a ring or unit has no room yet. -/
structure SavedCore where
  launch : Nat
  tile : Nat
  core : Nat
  panels : Mem
  tags : Mem
  pstate : Tbl PSt
  lsStart : Nat
  ls : Mem
  lsLen : Nat
  rings : Quad (List Slot)
  proj : Option Proj
  cour : Option Cour
  deriving DecidableEq, Repr

/-- What pre-emption saves of a tile (R328, R347): task entries, and the entries of the handles' queues in queue order, each
with its handle, and with their places in the signal order. -/
structure SavedTile where
  launch : Nat
  tile : Nat
  ents : List TaskEnt
  ports : List (Nat × PEnt)
  ords : List PortOrd
  deriving DecidableEq, Repr

/-- A pre-emption in progress on one tile (R326-R328). -/
structure Preempt where
  id : Nat
  launch : Nat
  tile : Nat
  action : Nat
  deadline : Nat
  offset : Nat
  late : Bool
  deriving DecidableEq, Repr

/-- A kind-1 or kind-2 record taken and not yet completed: its launch id and record. -/
structure PreRec where
  id : Nat
  kind : Nat
  recd : List Byte
  tick : Nat
  actions : List (Nat × Nat × Bool)
  deriving DecidableEq, Repr

/-- A loaded cue sheet (R370): id and entries as pairs of words. -/
structure Sheet where
  id : Nat
  ents : List (Word × Word)
  deriving DecidableEq, Repr

/-- A circuit made by the sheet in play (R365): handle, endpoints, whether it leaves the module, made in the present scene,
failed, and its settle bound. -/
structure Circuit where
  h : Nat
  a : BitVec 16
  b : BitVec 16
  cross : Bool
  fresh : Bool
  failed : Bool
  settle : Nat
  deriving DecidableEq, Repr

/-- Stage manager (Table cue 4), with the pending start, the scene selected and its times. -/
structure StageMgr where
  playing : Option Nat
  next : Option Nat
  stopping : Bool
  pend : Option (Nat × Nat)
  rotStart : Nat
  scene : Nat
  sceneIdx : Option Nat
  sceneAt : Nat
  sceneLen : Nat
  blackout : Nat
  lost : List (Nat × Nat)
  forced : List (Nat × Nat × Nat)
  forcing : List (Word × Nat)
  deriving DecidableEq, Repr

/-- Laser chiplets (R381): failed ones, the spare's place, the switch-over in progress. -/
structure Lasers where
  failed : List Nat
  spareFor : Option Nat
  switching : Option (Nat × Nat)
  lockTick : Option (Nat × Nat)
  deriving DecidableEq, Repr

/-- Control window (Table host 1). -/
structure CtlWin where
  identity : Word
  /-- The host has written Identity since cold reset (R420, stage 7). -/
  named : Bool
  stage : Nat
  failCode : Nat
  edges : BitVec 6
  master : Word
  quiesce : Bool
  cueStatus : Nat
  cueLen : Nat
  fring : Word
  ftail : Nat
  fhead : Nat
  answered : List Nat
  frame : Word
  frameB : Word
  frameR : Word
  /-- Data that the host's last read of the device-memory window returned; address and length of a read under way (R415). -/
  readData : List Byte
  reading : Option (Nat × Nat)
  deriving DecidableEq, Repr

/-- Root of trust (R421, R422). -/
structure Rot where
  keyFuse : BitVec 256
  versionFuse : Word
  measures : List (BitVec 256)
  sigsLeft : Nat
  response : List Byte
  status : Nat
  deriving DecidableEq, Repr

/-- What reaches the module from outside, beside the rows that are inputs themselves. -/
inductive Input where
  | row (i : Instr)
  /-- A frame step of the host that waits: its operation and arguments; of a shootdown that has dropped its entries, the number
  below which the requests lie that it waits for (R413). -/
  | frame (op : Nat) (a b : Word) (below : Nat)
  /-- An access of the host to device memory that waits for a read under way. -/
  | access (wr : Bool) (addr n : Nat) (data : List Byte)
  /-- A block from another module on a cross circuit. -/
  | block (b : Block)
  | ack (a : Ack)
  /-- The reply of another module to request `id`. -/
  | reply (id : Nat) (bs : List Byte) (nv bad : Bool)
  /-- A request of another module. -/
  | request (r : Req)
  /-- A physical error: an uncorrectable granule, a corrected one, corrected symbols, a dropped block. -/
  | bad (b : BadCell)
  | corrected (t : Nat) (c : Option Nat) (hbm : Bool)
  | symbols (t p n : Nat)
  | dropBlock (id : Nat)
  /-- Some lane of a tile's port is not locked to the far end's carrier at its circuit's next live tick. -/
  | noLock (t p : Nat)
  /-- The circuit of a tile's handle fails at its end in another module, for this reason. -/
  | farFailed (t h reason : Nat)
  /-- Data of the CXL pool, as the host changes it. -/
  | pool (addr : Nat) (bs : List Byte)
  /-- The host fabric refuses accesses to a line of the pool from now on, or allows them again (R416). -/
  | poolRefuses (line : Nat) (yes : Bool)
  deriving DecidableEq, Repr

/-- How the bundle being issued came out so far. -/
inductive OpRes where
  | ok
  | stall
  /-- Does not issue; it waits for results in flight, which therefore go on (R97, R222). -/
  | drain
  /-- A trap: its cause, the reporting cluster, EADDR, aux. -/
  | trap (cause : Nat) (cl : Fin 4) (eaddr : Word) (aux : BitVec 32)
  deriving DecidableEq, Repr

/-- Context of the bundle being issued: its address, the operation's address, the following bundle, whether control has
been transferred, the outcome so far, the clusters as the bundle found them (R89, R97), the clusters that the operation is
restricted to (R227, R139), and the number of the bundle's first request: earlier accesses have lower ones. -/
structure Issue where
  bundle : Word
  addr : Word
  next : Word
  moved : Bool
  res : OpRes
  start : Option (Quad Cluster)
  only : Option (List (Fin 4))
  below : Option Nat
  deriving DecidableEq, Repr

/-- The module. -/
structure State where
  tiles : Tbl Tile
  hbm : Mem
  /-- Global tick count (R19, R232). -/
  tick : Nat
  /-- Quanta of 0.8 ns since cold reset, and the part of the present tick already past, in 0.1 ns (log entry 1). -/
  quantum : Nat
  sub : Nat
  /-- The tick of the present quantum has begun: the tiles whose cycle starts after the boundary run (R3). -/
  late : Bool
  phase : Nat
  agenda : List Instr
  turn : List StreamId
  inputs : List (Nat × Input)
  fresh : Nat
  cur : StreamId
  iss : Issue
  reqs : List Req
  nextId : Nat
  blocks : List Block
  acks : List Ack
  lq : Tbl LQ
  launches : List Launch
  companies : List Company
  conts : Tbl Cont
  keys : List KeyEnt
  regsPending : List RegMsg
  posts : List PostMsg
  trigs : List TrigMsg
  preRecs : List PreRec
  preempts : List Preempt
  saved : List Saved
  savedCores : List SavedCore
  savedTiles : List SavedTile
  sheets : List Sheet
  sm : StageMgr
  circuits : List Circuit
  lasers : Lasers
  budget : Nat
  cw : CtlWin
  vectors : List Nat
  hostMem : Mem
  pool : Mem
  records : List FRec
  posted : List Posted
  /-- Records on their way to the stage manager: tick of receipt, port 6t + i when it is lost by it (R379), vector (R378). -/
  losses : List (Nat × Option Nat × Nat)
  rot : Rot
  bad : List BadCell
  /-- Ports whose lanes are not all locked (R374). -/
  noLocks : List (Nat × Nat)
  /-- Lines of the CXL pool to which the host fabric refuses accesses (R416). -/
  refused : List Nat
  deriving DecidableEq, Repr

/-! ### Reset values (R424) -/

def Cluster.reset : Cluster :=
  { regs := [], dbits := 0, pbits := 0, preds := 1, pc := 0, st := .idle, rstack := List.replicate 16 0, rstop := 0,
    spillp := 0, lc := List.replicate 4 0, lb := List.replicate 4 0, le := List.replicate 4 0, priv := false,
    lt := false, ti := false, ppriv := false, causeCode := 0, causeAux := 0, epc := 0, eaddr := 0, fctl := 0,
    fstat := 0, flagsNow := 0, fenced := 0, flagsCyc := 0, srseed := 0, xfer := 0, xferAddr := 0, xferOp := 0,
      xferNext := 0, flights := [], hold := .none,
    buf := .idle, lbuf := .idle, fill := .idle, code := .idle, codeAt := 0, waitAns := false, lsHeld := false,
      bubbles := 0, resumeAt := 0, answered := false, ansTick := 0,
    after := none }

def Quad.all {α : Type} (x : α) : Quad α := ⟨x, x, x, x⟩

def JoinSet.reset : JoinSet := ⟨false, 0, 0, 0⟩

def Bank.reset : Bank :=
  { occ := false, joined := true, cl := Quad.all Cluster.reset, joins := [], barBase := 0, barDepth := 0, taskid := 0,
    company := 0, pwb := [], replay := [], done := 0, total := 0, cycles := 0, task := none, started := false, since := 0 }

def Slot.reset : Slot := ⟨0, 0, 0, 0, 0, 0, 0⟩

def Proj.reset : Proj :=
  { busy := false, e := Slot.reset, par := [], group := 0, row := 0, suspended := false, rng := 0, wait := 0,
    before := [], gacc := [], flags := 0, reread := false }

def Cour.reset : Cour :=
  { busy := false, e := Slot.reset, progress := 0, suspended := false, wait := 0, cow := [], mig := none,
    sub := 0, acts := [], act := false, taken := 0 }

def Core.reset : Core :=
  { b0 := Bank.reset, b1 := Bank.reset, fg := 0, xcnt := 0, exch := 0, ls := [], panels := [], tags := [],
    pstate := [], sems := [], sems0 := [], pst0 := [], done0 := 0, rings := Quad.all ⟨0, 0, 0⟩, mwin := ⟨[], 4, 0⟩,
      proj := Proj.reset,
    cour := Cour.reset, sigs := Quad.all ⟨[], false⟩, lsUsed := 0, lsEng := Quad.all ⟨0, 0, false⟩, tlb := [],
      icache := [], lsStallNow := false, endFx := [],
    lsStalls := 0, bubbles := 0, marker := 0, markers := 0, ecc := 0 }

def Handle.reset : Handle := ⟨0, 0, false, 0, 0, 0⟩
def HQ.reset : HQ := ⟨[], 0, [], 0, false⟩
def Arrival.reset : Arrival := ⟨0, false⟩
def Port.reset : Port := ⟨0, [], 0, 0, 0, [], 0⟩

/-- Slot s belongs to core s div 2 (Table tab 5). -/
def calReset : List (BitVec 5) := (List.range 32).map fun s => BitVec.ofNat 5 (s / 2)

def Tile.reset : Tile :=
  { cores := [], tsm := [], bankUsed := [], bankFlags := [], unitFlags := [], ttbase := 0, ptroot := 0,
    fqbase := Quad.all ⟨0, 0⟩,
    rdbase := 0, tvec := 0, redir := [], ready := [], taskCtr := 0, handles := [], relays := [], hq := [],
    arrivals := [], armed := [], execq := [], buckets := [], ends := [], portOrd := [], ports := [], comb := [],
      cal := calReset, calNext := none,
    msc := [], bloom := [], wq := [], tlb := [], freeHead := 0, freeCount := 0, migs := [],
    cnt := ⟨0, 0, 0, 0, 0, 0, 0, 0, 0⟩, cnt0 := ⟨0, 0, 0, 0, 0, 0, 0, 0, 0⟩, point := 5, pointNext := none,
      ceiling := 5, floor := 0, hot := false,
    hint0 := false, hint3 := false, busyCycles := 0, intervalCycles := 0, clk := ⟨0, 0, 1250, 0⟩ }

def LQ.reset : LQ := ⟨0, 0, false, 0, 0, 0, 0, false, none⟩

def StageMgr.reset : StageMgr :=
  { playing := none, next := none, stopping := false, pend := none, rotStart := 0, scene := 0xFFFF, sceneIdx := none,
    sceneAt := 0, sceneLen := 0, blackout := 0, lost := [], forced := [], forcing := [] }

def CtlWin.reset : CtlWin :=
  { identity := 0, named := false, stage := 0, failCode := 0, edges := 0, master := 0, quiesce := false, cueStatus := 0,
    cueLen := 0,
    fring := 0, ftail := 0, fhead := 0, answered := [], frame := 0, frameB := 0, frameR := 0,
    readData := [], reading := none }

/-- Fuses, measurement registers and the attestation key: the manual gives no reset value (log entry 12). -/
def Rot.reset : Rot :=
  { keyFuse := 0, versionFuse := 0, measures := List.replicate 8 0, sigsLeft := 32768, response := [], status := 0 }

def StreamId.zero : StreamId := ⟨0, 0, 0, 0⟩

def Issue.reset : Issue := ⟨0, 0, 0, false, .ok, none, none, none⟩

/-- The machine after cold reset, bring-up at its start (R420, R424). -/
def State.reset : State :=
  { tiles := [], hbm := [], tick := 0, quantum := 0, sub := 0, late := false, phase := 0, agenda := [], turn := [],
    inputs := [],
    fresh := 0, cur := StreamId.zero, iss := Issue.reset, reqs := [], nextId := 0, blocks := [], acks := [], lq := [],
    launches := [], companies := [], conts := [], keys := [], regsPending := [], posts := [], trigs := [], preRecs := [],
    preempts := [], saved := [], savedCores := [], savedTiles := [], sheets := [], sm := StageMgr.reset, circuits := [],
    lasers := ⟨[], none, none, none⟩, budget := 4080, cw := CtlWin.reset, vectors := [], hostMem := [], pool := [],
    records := [], posted := [], losses := [], rot := Rot.reset, bad := [], noLocks := [], refused := [] }

/-! ### Reasons to stop -/

/-- Faults of a step. -/
inductive Fault where
  /-- Raised by a unit step whose operands name a tile, core, bank, port or handle the module does not have (R12): no
  such step exists. Safe. -/
  | noSuchUnit
  deriving DecidableEq, Repr

/-- Refusals of a step. -/
inductive Refusal where
  /-- Raised by an arm of `exec` that has no meaning yet. Safe. -/
  | notModelled (mnemonic : String)
  deriving DecidableEq, Repr

end Sys2Proof.Machine
end

