-- ==== Sys2Proof/Machine/Ops.lean ====
section
/-!
DEFINITION. The named operations over tables, memory and registers, the results in flight (R94-R96), raising fault
records (R348-R351, R361-R362), taking a trap (R212, R214-R216) and returning from one (R213, R217, R222).
-/

namespace Sys2Proof.Machine

/-- What a meaning answers. -/
abbrev Out := Host.Outcome State Fault Refusal

/-- The tiles have been released: what host and management path are offered becomes usable (R420, chapter 21's opening). -/
def State.up (s : State) : Bool := s.cw.stage == 8

/-! ### Tables -/

/-- Entry of a sparse table, else the default. -/
def tget {α : Type} (d : α) (t : Tbl α) (k : Nat) : α :=
  match t.find? (fun e => e.1 == k) with
  | some e => e.2
  | none => d

/-- Set an entry, keeping the indices rising. -/
def tset {α : Type} (t : Tbl α) (k : Nat) (v : α) : Tbl α :=
  t.filter (fun e => decide (e.1 < k)) ++ (k, v) :: t.filter (fun e => decide (k < e.1))

/-- Change an entry. -/
def tmod {α : Type} (d : α) (t : Tbl α) (k : Nat) (f : α → α) : Tbl α := tset t k (f (tget d t k))

/-- Remove an entry. -/
def tdel {α : Type} (t : Tbl α) (k : Nat) : Tbl α := t.filter (fun e => e.1 != k)

def Quad.get {α : Type} (q : Quad α) (i : Fin 4) : α :=
  match i with
  | 0 => q.c0
  | 1 => q.c1
  | 2 => q.c2
  | 3 => q.c3

def Quad.set {α : Type} (q : Quad α) (i : Fin 4) (x : α) : Quad α :=
  match i with
  | 0 => { q with c0 := x }
  | 1 => { q with c1 := x }
  | 2 => { q with c2 := x }
  | 3 => { q with c3 := x }

def Quad.map {α β : Type} (q : Quad α) (f : α → β) : Quad β := ⟨f q.c0, f q.c1, f q.c2, f q.c3⟩

/-- The four clusters in ascending order. -/
def cls4 : List (Fin 4) := [0, 1, 2, 3]

/-- Index of an engine's ring (Table eq 1) and its code in records (R228). -/
def engIdx : Eng → Fin 4
  | .matrix => 0
  | .proj => 1
  | .courier => 2
  | .port => 3

/-! ### Memory -/

/-- One byte; an unlisted byte reads 0. -/
def mget (m : Mem) (a : Nat) : Byte :=
  match m.find? (fun c => c.1 == a) with
  | some c => c.2
  | none => 0

/-- `n` bytes from `a` on. -/
def mgets (m : Mem) (a n : Nat) : List Byte :=
  let w := m.filter (fun c => decide (a ≤ c.1) && decide (c.1 < a + n))
  (List.range n).map fun i => mget w (a + i)

/-- The cells of bytes laid from `a` on, zero bytes left out. -/
def cellsOf : Nat → List Byte → Mem
  | _, [] => []
  | a, b :: bs => if b == 0 then cellsOf (a + 1) bs else (a, b) :: cellsOf (a + 1) bs

/-- Write bytes from `a` on, keeping the canonical form. -/
def mputs (m : Mem) (a : Nat) (bs : List Byte) : Mem :=
  m.filter (fun c => decide (c.1 < a)) ++ cellsOf a bs ++ m.filter (fun c => decide (a + bs.length ≤ c.1))

/-- The canonical form: addresses strictly rising, no zero byte listed. -/
abbrev Memory.wf (m : Mem) : Prop := m.Pairwise (fun x y => x.1 < y.1) ∧ ∀ c ∈ m, c.2 ≠ 0

/-- Little-endian value of bytes (R1). -/
def leNat : List Byte → Nat
  | [] => 0
  | b :: bs => b.toNat + 256 * leNat bs

/-- `n` little-endian bytes of a value (R1). -/
def leBytes : Nat → Nat → List Byte
  | 0, _ => []
  | n + 1, v => BitVec.ofNat 8 v :: leBytes n (v / 256)

def mword (m : Mem) (a : Nat) : Word := BitVec.ofNat 64 (leNat (mgets m a 8))

/-! ### Places -/

def State.tile (s : State) (t : Nat) : Tile := tget Tile.reset s.tiles t
def State.modTile (s : State) (t : Nat) (f : Tile → Tile) : State := { s with tiles := tmod Tile.reset s.tiles t f }

def Tile.core (x : Tile) (c : Nat) : Core := tget Core.reset x.cores c
def State.core (s : State) (t c : Nat) : Core := (s.tile t).core c
def State.modCore (s : State) (t c : Nat) (f : Core → Core) : State :=
  s.modTile t fun x => { x with cores := tmod Core.reset x.cores c f }

def Core.bank (x : Core) (b : Nat) : Bank := if b == 0 then x.b0 else x.b1
def Core.modBank (x : Core) (b : Nat) (f : Bank → Bank) : Core :=
  if b == 0 then { x with b0 := f x.b0 } else { x with b1 := f x.b1 }

def State.bank (s : State) (i : StreamId) : Bank := (s.core i.tile i.core).bank i.bank
def State.modBank (s : State) (i : StreamId) (f : Bank → Bank) : State :=
  s.modCore i.tile i.core fun x => x.modBank i.bank f

def Bank.modCl (b : Bank) (k : Fin 4) (f : Cluster → Cluster) : Bank := { b with cl := b.cl.set k (f (b.cl.get k)) }

def State.cl (s : State) (i : StreamId) : Cluster := (s.bank i).cl.get i.cl
def State.modCl (s : State) (i : StreamId) (f : Cluster → Cluster) : State := s.modBank i fun b => b.modCl i.cl f

/-- The present stream's bank and core. -/
def State.curBank (s : State) : Bank := s.bank s.cur
def State.curCore (s : State) : Core := s.core s.cur.tile s.cur.core
def State.curTile (s : State) : Tile := s.tile s.cur.tile

/-- Stream coordinates of another cluster of the same bank. -/
def onCl (i : StreamId) (k : Fin 4) : StreamId := { i with cl := k }

/-- A cluster of the present stream's bank. -/
def State.curCl (s : State) (k : Fin 4) : Cluster := s.cl (onCl s.cur k)
def State.modCurCl (s : State) (k : Fin 4) (f : Cluster → Cluster) : State := s.modCl (onCl s.cur k) f

/-- The clusters of a stream: all four of a joined bank, else its own (R121). -/
def State.clsOf (s : State) (i : StreamId) : List (Fin 4) := if (s.bank i).joined then cls4 else [i.cl]

def State.active (s : State) : List (Fin 4) :=
  match s.iss.only with
  | some ks => cls4.filter ks.contains
  | none => s.clsOf s.cur

/-- Change every cluster of a list. -/
def State.modCls (s : State) (i : StreamId) (ks : List (Fin 4)) (f : Cluster → Cluster) : State :=
  ks.foldl (fun s k => s.modCl (onCl i k) f) s

/-! ### Scalars and predicates (R87, R88, R93) -/

def Cluster.reg (c : Cluster) (r : Reg) : Word := if r == 0 then 0 else tget 0 c.regs r.toNat
def Cluster.setReg (c : Cluster) (r : Reg) (v : Word) : Cluster :=
  if r == 0 then c else { c with regs := tset c.regs r.toNat v }

def Cluster.d (c : Cluster) (r : Reg) : Bool := r != 0 && c.dbits.getLsbD r.toNat
def Cluster.p (c : Cluster) (r : Reg) : Bool := r != 0 && c.pbits.getLsbD r.toNat

/-- A vector with one bit set to a value. -/
def setBit {w : Nat} (x : BitVec w) (i : Nat) (b : Bool) : BitVec w :=
  if b then x ||| BitVec.twoPow w i else x &&& ~~~(BitVec.twoPow w i)

def Cluster.setD (c : Cluster) (r : Reg) (b : Bool) : Cluster :=
  if r == 0 then c else { c with dbits := setBit c.dbits r.toNat b }
def Cluster.setP (c : Cluster) (r : Reg) (b : Bool) : Cluster :=
  if r == 0 then c else { c with pbits := setBit c.pbits r.toNat b }

def Cluster.q (c : Cluster) (q : Prd) : Bool := q == 0 || c.preds.getLsbD q.toNat
def Cluster.setQ (c : Cluster) (q : Prd) (b : Bool) : Cluster :=
  if q == 0 then c else { c with preds := setBit c.preds q.toNat b }

/-! ### Panels and their states (R144, R353) -/

def panAddr (p : Pan) (r : Nat) : Nat := p.toNat * 32768 + r * 512
def tagAddr (p : Pan) (r : Nat) : Nat := p.toNat * 2048 + r * 32

def Core.row (x : Core) (p : Pan) (r : Nat) : List Byte := mgets x.panels (panAddr p r) 512
def Core.tagRow (x : Core) (p : Pan) (r : Nat) : List Byte := mgets x.tags (tagAddr p r) 32
def Core.putRow (x : Core) (p : Pan) (r off : Nat) (bs : List Byte) : Core :=
  { x with panels := mputs x.panels (panAddr p r + off) bs }
def Core.putTag (x : Core) (p : Pan) (r off : Nat) (bs : List Byte) : Core :=
  { x with tags := mputs x.tags (tagAddr p r + off) bs }

def Core.pst (x : Core) (p : Pan) : PSt := tget .empty x.pstate p.toNat
def Core.setPst (x : Core) (p : Pan) (st : PSt) : Core := { x with pstate := tset x.pstate p.toNat st }

def Core.sem (x : Core) (k : Sem) : Nat := tget 0 x.sems k.toNat
def Core.setSem (x : Core) (k : Sem) (v : Nat) : Core := { x with sems := tset x.sems k.toNat v }

/-! ### Time (R3, R19, R232) -/

/-- 1/1250 of a cycle that a tile's clock has run since its latest switch, from the phase on that the switch gave it. -/
def State.clockRun (s : State) (t : Nat) : Nat :=
  let k := (s.tile t).clk
  Config.clockPhase t k.switches % 1250 + (s.quantum - k.since) * k.mhz

/-- Core clock cycles of a tile since cold reset: the record's cycles and those of its rate since. -/
def State.cycles (s : State) (t : Nat) : Nat := (s.tile t).clk.base + s.clockRun t / 1250

/-- A cycle that starts in the present quantum starts at or after the tick boundary that the quantum spans (R3). -/
def State.afterBoundary (s : State) (t : Nat) : Bool :=
  let f := (s.tile t).clk.mhz
  decide (100 * f ≤ s.sub * f + 8 * (1250 - s.clockRun t % 1250))

/-- A free value that counts up: take it and advance the counter (log entry 3). -/
def State.freshVal (s : State) : Nat × State := (s.fresh, { s with fresh := s.fresh + 1 })

/-- The quantum at which something that takes a time the manual leaves open happens: at least one from now. -/
def State.later (s : State) : Nat × State :=
  (s.quantum + 1 + Config.delay s.fresh, { s with fresh := s.fresh + 1 })

/-! ### Fault records (R348-R351, R361, R362) -/

/-- The destination a tile's redirection copy gives a record; `priv` marks a stream at supervisor level. -/
def State.route (s : State) (t cause kind : Nat) (priv : Bool) : Dest :=
  let w := tget 0 (s.tile t).redir cause
  let vec := (w.extractLsb' 8 8).toNat
  if w.extractLsb' 16 48 != 0 then .host 0
  else
    match (w.extractLsb' 0 2).toNat with
    | 0 => .host vec
    | 1 =>
      let q := (w.extractLsb' 2 2).toNat
      let qt := (w.extractLsb' 4 4).toNat
      let size := ((s.tile qt).fqbase.get (Fin.ofNat 4 q)).size
      if size == 0 || priv then .host vec else .queue qt q
    | 2 => if kind == 0 || kind == 1 then .host vec else .stage vec
    | _ => .drop

/-- Kinds of Table ctx 6. -/
def kindS : Nat := 0
def kindU : Nat := 1
def kindF : Nat := 2
def kindV : Nat := 3

/-- A record with its routed destination joins those waiting for delivery; drop-and-count counts it (R349). -/
def State.raise (s : State) (priv : Bool) (r : FRec) : State :=
  let d := s.route r.tile r.cause r.kind priv
  match d with
  | .drop => s.modTile r.tile fun x => { x with cnt := { x.cnt with droppedRecs := x.cnt.droppedRecs + 1 } }
  | d => { s with records := s.records ++ [{ r with dest := d, tick := s.tick }] }

/-- A record without pc or waiter: failures and events of a tile (kinds F and V). -/
def mkRec (cause tile core kind source : Nat) (aux : BitVec 32) (addr : Word) : FRec :=
  { cause, tile, core, cl := 0, bank := 0, kind, source, aux, pc := 0, addr, tick := 0, dest := .host 0,
    waiter := .none, paired := false }

/-! ### Cause codes (Table ctx 6) -/

def cILLOP : Nat := 0x01
def cALIGN : Nat := 0x02
def cPRIV : Nat := 0x03
def cDIVERGE : Nat := 0x04
def cJOINMIS : Nat := 0x05
def cRSPILL : Nat := 0x06
def cPAGE : Nat := 0x10
def cNOFRAME : Nat := 0x11
def cPROT : Nat := 0x12
def cTBOUND : Nat := 0x13
def cDALIGN : Nat := 0x14
def cUECC : Nat := 0x15
def cNOCIRC : Nat := 0x20
def cCIRCLOST : Nat := 0x21
def cLANEERASE : Nat := 0x22
def cLASER : Nat := 0x23
def cRINGTUNE : Nat := 0x24
def cSLIPLOST : Nat := 0x25
def cPKTDROP : Nat := 0x26
def cHEAPSPILL : Nat := 0x30
def cPSHAPE : Nat := 0x31
def cSEMOVF : Nat := 0x32
def cBARBUSY : Nat := 0x33
def cBARBROKEN : Nat := 0x34

/-! ### The bundle being issued -/

/-- The operation does not issue this cycle (R95). -/
def State.stall (s : State) : State := { s with iss := { s.iss with res := .stall } }

/-- The operation waits for results in flight, which go on meanwhile (R97, R222). -/
def State.drains (s : State) : State := { s with iss := { s.iss with res := .drain } }

def OpRes.isTrap : OpRes → Bool
  | .trap .. => true
  | _ => false

/-! ### Results in flight (R94-R96, R146) -/

/-- Put a result in flight for a cluster of a stream. -/
def State.fly (s : State) (i : StreamId) (lat : Nat) (dst : FDst) (fl : FFlags) : State :=
  s.modCl i fun c => { c with flights := c.flights ++ [⟨lat, dst, fl, 0⟩] }

/-- The aux word of a UECC record of a panel row (R252). -/
def ueccPanelAux (p : Pan) (r : Nat) : BitVec 32 := BitVec.ofNat 32 (4 + p.toNat * 16 + r * 512)

/-- A row of a panel holds the uncorrectable cell. -/
def BadCell.inRow (b : BadCell) (t c : Nat) (p : Pan) (r : Nat) : Bool :=
  match b with
  | .panel t' c' a => t' == t && c' == c && decide (panAddr p r ≤ a) && decide (a < panAddr p r + 512)
  | _ => false

/-- A row's scale tag holds the uncorrectable cell. -/
def BadCell.inTag (b : BadCell) (t c : Nat) (p : Pan) (r : Nat) : Bool :=
  match b with
  | .tag t' c' a => t' == t && c' == c && decide (tagAddr p r ≤ a) && decide (a < tagAddr p r + 32)
  | _ => false

/-- Before a write to a granule of the panel file: an uncorrectable one, picked by `f`, is fresh again, and where it is not
written whole it becomes zero first, with a record (R144, R251; log entry 51). The record's address is the row's byte offset
in the panel file, for its tag too: R252 names no address for a panel (the model's choice, log entry 51). -/
def State.refresh (s : State) (t c : Nat) (p : Pan) (r : Nat) (f : BadCell → Bool) (whole : Bool) (zero : Core → Core) :
    State :=
  if s.bad.any f then
    let s := { s with bad := s.bad.filter fun b => !f b }
    if whole then s
    else (s.modCore t c zero).raise false
      (mkRec cUECC t c kindF 7 (ueccPanelAux p r ||| 0x8000) (BitVec.ofNat 64 (panAddr p r)))
  else s

/-- Write bytes of a panel row (R144). -/
def State.putPanel (s : State) (t c : Nat) (p : Pan) (r off : Nat) (bs : List Byte) : State :=
  (s.refresh t c p r (fun b => b.inRow t c p r) (bs.length == 512) fun x => x.putRow p r 0 (List.replicate 512 0)).modCore
    t c fun x => x.putRow p r off bs

/-- Write bytes of a row's scale tag (R144). -/
def State.putTag (s : State) (t c : Nat) (p : Pan) (r off : Nat) (bs : List Byte) : State :=
  (s.refresh t c p r (fun b => b.inTag t c p r) (bs.length == 32) fun x => x.putTag p r 0 (List.replicate 32 0)).modCore
    t c fun x => x.putTag p r off bs

/-- A result becomes visible: its destination and its flags (R95, R48). -/
def State.land (s : State) (i : StreamId) (f : Flight) : State :=
  let s := s.modCl i fun c => { c with fstat := c.fstat ||| f.flags, flagsNow := c.flagsNow ||| f.flags }
  match f.dst with
  | .none => s
  | .reg r v d => s.modCl i fun c => (c.setReg r v).setD r d
  | .clearD r => s.modCl i fun c => c.setD r false
  | .pred q v => s.modCl i fun c => c.setQ q v
  | .row p r off bs => s.putPanel i.tile i.core p r off bs
  | .tag p r off bs => s.putTag i.tile i.core p r off bs
  | .lost l => s.modCl i fun c => c.setP l.d true

/-- A V-class or LDROW result of any stream of the core is in flight to the panel (R147, R355). -/
def Flight.toPanel (p : Pan) (f : Flight) : Bool :=
  match f.dst with
  | .row q .. | .tag q .. => q == p
  | _ => false

def Bank.flying (b : Bank) (p : Pan) : Bool :=
  (cls4.any fun k => (b.cl.get k).flights.any (Flight.toPanel p)) || b.pwb.any fun e => Flight.toPanel p e.fl
def Core.flying (x : Core) (p : Pan) : Bool := x.b0.flying p || x.b1.flying p

/-! ### Requests of a stream -/

def Who.isStream (w : Who) (i : StreamId) (ks : List (Fin 4)) : Bool :=
  match w with
  | .stream j => j.tile == i.tile && j.core == i.core && j.bank == i.bank && ks.contains j.cl
  | _ => false

def Stage.isReply : Stage → Bool
  | .reply .. => true
  | _ => false

/-- Requests of a stream's clusters. -/
def State.reqsOf (s : State) (i : StreamId) (ks : List (Fin 4)) : List Req := s.reqs.filter fun r => r.who.isStream i ks

/-- Requests of a stream's clusters that are older than the bundle being issued. -/
def State.earlier (s : State) (i : StreamId) (ks : List (Fin 4)) : List Req :=
  (s.reqsOf i ks).filter fun r =>
    match s.iss.below with
    | some n => decide (r.id < n)
    | none => true

/-- A request changes memory. -/
def MemOp.writes : MemOp → Bool
  | .read _ | .pf | .mscop .. => false
  | _ => true

/-- The request stands performed. A load whose data was dropped as uncorrectable does not: it is made anew (R216, R251). -/
def Req.performed (r : Req) : Bool :=
  match r.stage, r.dst with
  | .reply _ _ bad, .load _ => !bad
  | .reply .., _ => true
  | _, _ => false

/-- Every earlier store, atomic and reduction of the clusters has been performed; a combinable atomic counts until its
reply arrives or times out (R264, R285). -/
def State.storesDone (s : State) (i : StreamId) (ks : List (Fin 4)) : Bool :=
  (s.earlier i ks).all fun r => !r.op.writes || (r.stage.isReply && !r.comb) || (r.comb && r.drop)

/-- Every earlier load and atomic of the clusters has returned its data (R264). -/
def State.loadsDone (s : State) (i : StreamId) (ks : List (Fin 4)) : Bool :=
  (s.earlier i ks).all fun r => r.dst == .none || r.drop

/-- Every earlier access of the clusters has been performed. -/
def State.accessesDone (s : State) (i : StreamId) (ks : List (Fin 4)) : Bool :=
  (s.earlier i ks).all Req.performed

/-! ### Taking a trap (R212, R214-R216) -/

/-- The results of a cluster move from its pipeline into the pending-write buffer (R212); those of no advancing cycle left
become visible at the end of the present cycle (R95). -/
def Bank.drain (b : Bank) (k : Fin 4) : Bank :=
  let c := b.cl.get k
  { (b.modCl k fun c => { c with flights := c.flights.filter fun f => f.left == 0, buf := .idle, lbuf := .idle, fill := .idle,
                                 code := .idle, waitAns := false, lsHeld := false, hold := .none, after := none }) with
    pwb := b.pwb ++ (c.flights.filter fun f => f.left != 0).map (fun f => ⟨k, f⟩) }

/-- The answer of a request is to be discarded. -/
def State.dropReq (s : State) (id : Nat) : State :=
  { s with reqs := s.reqs.map fun (q : Req) => if q.id == id then { q with drop := true } else q }

/-- A load of a parked stream is performed anew at its place among the stream's accesses (R216, R273). -/
def State.loseReq (s : State) (id : Nat) : State :=
  { s with reqs := s.reqs.map fun (q : Req) => if q.id == id then { q with stage := .lost } else q }

/-- Outstanding long loads enter the replay list in issue order; their P bits move with them and any data they return
is discarded (R216). Behind a local handler nothing keeps their place. An atomic is left alone, and so is a load whose
record awaits an answer: it keeps its P bit, and the answer reissues it. -/
def State.recordLoads (s : State) (i : StreamId) (ks : List (Fin 4)) (loc : Bool) : State :=
  s.reqs.foldl (fun s r =>
    if r.who.isStream i ks && !r.drop && r.stage != .lost then
      match r.dst with
      | .load l | .spec l =>
        let s := if loc then s.dropReq r.id else s.loseReq r.id
        (s.modCl (onCl i l.cl) fun c => c.setP l.d false).modBank i fun b => { b with replay := b.replay ++ [l] }
      | .buf | .lbuf | .fill | .code => s.dropReq r.id
      | _ => s
    else s) s

/-- The clusters of the stream keep cause, address and value of the trap (R215). -/
def Cluster.note (c : Cluster) (cause : Nat) (aux : BitVec 32) (epc eaddr : Word) : Cluster :=
  { c with causeCode := BitVec.ofNat 8 cause, causeAux := aux, epc := epc &&& 0x007FFFFFFFFFFFF8, eaddr := eaddr }

/-- Local delivery is possible for the stream (R215). -/
def State.localTrap (s : State) (i : StreamId) : Bool :=
  !(s.bank i).joined && (s.cl i).lt && !(s.cl i).ti

/-- The bank field of a UECC record that reports an MSC line or an HBM granule (R252). -/
def ueccBank (cause : Nat) (aux : BitVec 32) (addr : Word) : Word :=
  if cause != cUECC then 0
  else
    match (aux.extractLsb' 0 4).toNat with
    | 2 => BitVec.ofNat 64 (addr.toNat / 64 % 32 * 2 ^ 55)
    | 3 => BitVec.ofNat 64 (addr.toNat / 256 % 64 * 2 ^ 55)
    | _ => 0

/-- Take a trap of kind S on stream `i`: drain, record long loads, write CAUSE, EPC and EADDR while TI = 0, and continue
at the local handler, or park the stream and route its record (R212, R214-R216). -/
def State.takeTrap (s : State) (i : StreamId) (cause : Nat) (rep : Fin 4) (epc eaddr : Word) (aux : BitVec 32) :
    State :=
  let ks := s.clsOf i
  let loc := s.localTrap i
  let ti := (s.cl (onCl i rep)).ti
  let priv := (s.cl (onCl i rep)).priv
  let s := s.recordLoads i ks loc
  let s := s.modBank i fun b => ks.foldl (fun b k => b.drain k) b
  let s := if ti then s else s.modCls i ks fun c => c.note cause aux epc eaddr
  if loc then
    s.modCl i fun c =>
      { c with st := .running, ppriv := c.priv, priv := true, ti := true,
               pc := BitVec.ofNat 64 ((s.tile i.tile).tvec + 256 * i.cl.val) }
  else
    let s := s.modCls i ks fun c => { c with st := .parked, pc := epc, answered := false }
    s.raise priv
      { cause, tile := i.tile, core := i.core, cl := rep.val, bank := i.bank, kind := kindS, source := 0, aux,
        pc := (epc &&& 0x007FFFFFFFFFFFFF) ||| ueccBank cause aux eaddr, addr := eaddr, tick := 0, dest := .host 0, waiter := .stream (onCl i rep),
        paired := false }

/-- The present operation raises a trap: the bundle takes no effect and the trap is taken (R214). -/
def State.trapOp (s : State) (cause : Nat) (k : Fin 4) (eaddr : Word) (aux : BitVec 32) : State :=
  let s' := s.takeTrap s.cur cause k s.iss.bundle eaddr aux
  { s' with iss := { s.iss with res := .trap cause k eaddr aux } }

/-! ### Returning (R213, R217, R222) -/

/-- Re-insert the clusters' results of the pending-write buffer: their bundles issued before every one whose results are in
flight (R96, R213). -/
def Bank.reinsert (b : Bank) (ks : List (Fin 4)) : Bank :=
  let mine := b.pwb.filter fun e => ks.contains e.cl
  let b := { b with pwb := b.pwb.filter fun e => !ks.contains e.cl }
  mine.reverse.foldl (fun b e => b.modCl e.cl fun c => { c with flights := e.fl :: c.flights }) b

/-- Take the clusters' entries off the replay list. -/
def Bank.takeReplay (b : Bank) (ks : List (Fin 4)) : List LoadRec × Bank :=
  (b.replay.filter fun l => ks.contains l.cl, { b with replay := b.replay.filter fun l => !ks.contains l.cl })

end Sys2Proof.Machine
end

