-- ==== Sys2Proof/Machine/Operands.lean ====
section
/-!
DEFINITION. Operand forms: guards (R54), scalar sources and their pending bits (R89, R97), joined decisions (R123), row
selects and row operands (R64, R148), lanes (R35, R145), address formation (R253), LS banks (R238) and courier
addresses (Table eq 7).
-/

namespace Sys2Proof.Machine

/-! ### Completing, stalling, trapping -/

/-- The operation has taken effect. -/
def State.done (s : State) : Out := .next { s with iss := { s.iss with res := .ok } }

/-- The operation does not issue this cycle: nothing changes (R95). -/
def State.stalled (s : State) : Out := .next s.stall

/-- The operation waits for results in flight (R97). -/
def State.drained (s : State) : Out := .next s.drains

/-- The operation raises a trap of kind S, reported for cluster `k` (R214). -/
def State.trapped (s : State) (cause : Nat) (k : Fin 4) (eaddr : Word) (aux : BitVec 32) : Out :=
  .next (s.trapOp cause k eaddr aux)

/-! ### Guards -/

/-- The guard of an operation in a cluster (R54). -/
def Cluster.guard (c : Cluster) (h : Hdr) : Bool := c.q h.pred != h.neg

/-- The clusters of the present stream whose guard is true, ascending (R54). -/
def State.on (s : State) (h : Hdr) : List (Fin 4) := s.active.filter fun k => (s.curCl k).guard h

/-- Four bits, one a cluster (R124). -/
def maskOf (ks : List (Fin 4)) : BitVec 32 := ks.foldl (fun m k => m ||| BitVec.twoPow 32 k.val) 0

/-- A decision of the clusters of a stream. -/
inductive Decision where
  | yes | no | diverge
  deriving DecidableEq, Repr

/-- The joined decision of Table flow 3 over the clusters whose bit is set; a forked stream uses its own bit (R123). -/
def State.joint (s : State) (m : JMode) (on : List (Fin 4)) : Decision :=
  if !s.curBank.joined then (if on.isEmpty then .no else .yes)
  else
    match m with
    | .uni => if on.length == 4 then .yes else if on.isEmpty then .no else .diverge
    | .any => if on.isEmpty then .no else .yes
    | .all => if on.length == 4 then .yes else .no

/-! ### Scalar sources -/

/-- Some register of the list is pending in a cluster (R97). -/
def Cluster.pendAny (c : Cluster) (rs : List Reg) : Bool := rs.any c.p

/-- A cluster as the bundle being issued found it (R89). -/
def State.startCl (s : State) (k : Fin 4) : Cluster :=
  match s.iss.start with
  | some q => q.get k
  | none => s.curCl k

/-- Some register of the list is pending in one of the clusters. -/
def State.pendOn (s : State) (ks : List (Fin 4)) (rs : List Reg) : Bool := ks.any fun k => (s.startCl k).pendAny rs

/-- A fixed-latency result to the register is in flight in a cluster (R97). -/
def Cluster.inFlight (c : Cluster) (r : Reg) : Bool :=
  c.flights.any fun f =>
    match f.dst with
    | .reg q .. | .clearD q => q == r && r != 0
    | .lost l => l.d == r && r != 0
    | _ => false

/-- Perform `f` in each cluster of a list. -/
def State.each (s : State) (ks : List (Fin 4)) (f : State → Fin 4 → State) : State := ks.foldl f s

/-- An operation whose true clusters read `srcs`, write `dsts` and put the results of `f` in flight (R89, R94, R97). -/
def scalarOp (h : Hdr) (srcs dsts : List Reg) (lat : Nat) (f : Cluster → FDst) (s : State) : Out :=
  let ks := s.on h
  if s.pendOn ks (srcs ++ dsts) then s.stalled
  else (s.each ks fun s k => s.fly (onCl s.cur k) lat (f (s.curCl k)) fNone).done

/-- The D bit of an S-class result: the OR of its sources' (R91). -/
def Cluster.dOr (c : Cluster) (rs : List Reg) : Bool := rs.any c.d

/-! ### Rounding environment -/

/-- The rounding environment of a cluster and its state after one draw when the mode is stochastic (R41, R42). -/
def Cluster.draw1 (c : Cluster) (rm : Rnd) : FEnv × Cluster :=
  let m := resolveRm rm (c.fctl.extractLsb' 0 3)
  if m == .sr then
    let x := srDraw c.srseed
    (⟨m, c.fctl.getLsbD 3, c.fctl.getLsbD 4, srU x⟩, { c with srseed := x })
  else (⟨m, c.fctl.getLsbD 3, c.fctl.getLsbD 4, 0⟩, c)

/-- The environment before any draw. -/
def Cluster.env (c : Cluster) (rm : Rnd) : FEnv :=
  ⟨resolveRm rm (c.fctl.extractLsb' 0 3), c.fctl.getLsbD 3, c.fctl.getLsbD 4, 0⟩

/-- Apply an operation to each element in ascending order, drawing once for each in mode 6, and collect results, flags
and the generator's state (R42, R47). -/
def mapDraw {α : Type} (env : FEnv) (f : FEnv → α → Nat × FFlags) : Word → List α → List Nat × FFlags × Word
  | seed, [] => ([], fNone, seed)
  | seed, x :: xs =>
    let seed' := if env.rm == .sr then srDraw seed else seed
    let (v, fl) := f { env with u := if env.rm == .sr then srU seed' else 0 } x
    let (vs, fls, sd) := mapDraw env f seed' xs
    (v :: vs, fl ||| fls, sd)

/-! ### Lanes (R35, R145) -/

/-- Split bytes into `n` groups of `k`. -/
def chunks : Nat → Nat → List Byte → List (List Byte)
  | 0, _, _ => []
  | n + 1, k, bs => bs.take k :: chunks n k (bs.drop k)

/-- The lanes of width `w` of a row's bytes, lowest first; four-bit lanes low nibble first. -/
def lanesOf (w : Nat) (bs : List Byte) : List Nat :=
  if w == 4 then bs.flatMap fun b => [b.toNat % 16, b.toNat / 16]
  else (chunks (bs.length * 8 / w) (w / 8) bs).map leNat

/-- Pair nibbles into bytes. -/
def nibbles : List Nat → List Byte
  | a :: b :: r => BitVec.ofNat 8 (a % 16 + 16 * b) :: nibbles r
  | [a] => [BitVec.ofNat 8 (a % 16)]
  | [] => []

/-- The bytes of lanes of width `w`. -/
def bytesOf (w : Nat) (ls : List Nat) : List Byte :=
  if w == 4 then nibbles ls else ls.flatMap fun v => leBytes (w / 8) v

/-! ### Rows (R64, R146-R148) -/

/-- The row a select names in a cluster (R64). -/
def Cluster.rowSel (c : Cluster) (r : RowSel) : Nat :=
  match r with
  | .imm n => n.toNat
  | .reg x => (c.reg x).toNat

/-- The scalars that row selects read. -/
def selRegs (rs : List RowSel) : List Reg :=
  rs.filterMap fun r =>
    match r with
    | .imm _ => none
    | .reg x => some x

/-- The lowest cluster in which a select exceeds 63, with the value (R148). Of several such selects of a cluster it is the
first in the order d, a, b: which one the record shows is the model's choice (log entry 60). -/
def State.badRow (s : State) (ks : List (Fin 4)) (rs : List RowSel) : Option (Fin 4 × Nat) :=
  ks.findSome? fun k =>
    rs.findSome? fun r =>
      let v := (s.curCl k).rowSel r
      if 63 < v then some (k, v) else none

/-- A panel row, or where the reader takes it its scale tag, holds an uncorrectable error (R144). -/
def State.badPanelRow (s : State) (t c : Nat) (p : Pan) (r : Nat) (tags : Bool := false) : Bool :=
  s.bad.any fun b => b.inRow t c p r || (tags && b.inTag t c p r)

/-- The checks of an operation that names panel rows: panels READY (R147), row selects (R148), readable rows (R144);
`srcs` are the rows it reads, with their scale tags where `tags`. -/
inductive RowChk where
  | go
  | wait
  | trap (cause : Nat) (k : Fin 4) (eaddr : Word) (aux : BitVec 32)
  deriving DecidableEq, Repr

/-- The check in a state. A PSHAPE record of a row select has EADDR 0, and a UECC record of a row the row's byte offset in
the panel file: R148 and R252 give neither (the model's choices, log entries 60 and 51). -/
def State.rowCheck (s : State) (ks : List (Fin 4)) (all srcs : List RowRef) (tags : Bool := false) : RowChk :=
  if ks.isEmpty then .go
  else if all.any fun r => s.curCore.pst r.p != .ready then .wait
  else
    match s.badRow ks (all.map (·.r)) with
    | some (k, v) => .trap cPSHAPE k 0 (BitVec.ofNat 32 v)
    | none =>
      match ks.findSome? fun k => srcs.findSome? fun r =>
          let n := (s.curCl k).rowSel r.r
          if s.badPanelRow s.cur.tile s.cur.core r.p n tags then some (k, r.p, n) else none with
      | some (k, p, n) => .trap cUECC k (BitVec.ofNat 64 (panAddr p n)) (ueccPanelAux p n)
      | none => .go

/-! ### Addresses -/

/-- ea = X[base] + (X[index] << shift) + SExt(offset) (R253). -/
def Cluster.ea (c : Cluster) (base idx : Reg) (sh : BitVec 3) (off : BitVec 18) : Word :=
  c.reg base + (c.reg idx <<< sh.toNat) + off.signExtend 64

/-- Bytes of an access size (Table enc 3). -/
def sizBytes : Siz → Nat
  | .n8 | .i8 => 1
  | .n16 | .i16 => 2
  | .n32 | .i32 => 4
  | .i64 => 8

/-- The value a load writes (R256). -/
def loadVal (sz : Siz) (bs : List Byte) : Word :=
  let v := leNat bs
  match sz with
  | .i8 => (BitVec.ofNat 8 v).signExtend 64
  | .i16 => (BitVec.ofNat 16 v).signExtend 64
  | .i32 => (BitVec.ofNat 32 v).signExtend 64
  | _ => BitVec.ofNat 64 v

/-- The LS banks of an access, one bit a bank (R236, R238). -/
def lsBanks (a n : Nat) : BitVec 32 :=
  (List.range (min 32 ((a % 16 + n + 15) / 16))).foldl (fun m i => m ||| BitVec.twoPow 32 ((a / 16 + i) % 32)) 0

/-- The ring region of an LS (R289). -/
def inRing (a n : Nat) : Bool := decide (0x1FC000 < a + n) && decide (a ≤ 0x1FFFFF) && n != 0

/-! ### Courier addresses (Table eq 7) -/

inductive CAddr where
  | virt (va : Nat)
  | ls (off : Nat)
  | tsm (off : Nat)
  | tensor (desc idx : Nat)
  deriving DecidableEq, Repr

/-- Read a courier address; none when a zero field is set. -/
def cAddr (w : Word) : Option CAddr :=
  let v := w.toNat
  match v / 2 ^ 62 with
  | 0 => if v < 2 ^ 55 then some (.virt v) else none
  | 1 => if v % 2 ^ 62 < 2 ^ 21 then some (.ls (v % 2 ^ 21)) else none
  | 2 => if v % 2 ^ 62 < 2 ^ 27 then some (.tsm (v % 2 ^ 27)) else none
  | _ => some (.tensor (v / 2 ^ 50 % 2 ^ 12) (v % 2 ^ 50))

end Sys2Proof.Machine
end

