-- ==== Sys2Proof/Machine/Memory.lean ====
section
/-!
DEFINITION. Memories and translation: HBM at its home with write queues, MSC and migrating frames (R243-R248, R408), the
frame table (R402), page tables, descriptors and block entries (R395-R401), the arithmetic of the memory units (R242,
R261-R263) and the making of requests (R255, R274).
-/

namespace Sys2Proof.Machine

/-! ### HBM bytes at their home (R243, R244, R246) -/

/-- Home tile of a module physical address (R250). -/
def paTile (a : Nat) : Nat := a / 2 ^ 36 % 16
/-- Offset within the home tile's stack (R250). -/
def paOff (a : Nat) : Nat := a % 2 ^ 36
/-- The address lies in the reserved region of its stack (R402). -/
def paReserved (a : Nat) : Bool := decide (0xFFF000000 ≤ paOff a)
/-- Pseudo-channel of an address (R243). -/
def paChan (a : Nat) : Nat := a / 256 % 64
/-- Base-die unit of an address: its channel (R243, R245). -/
def paUnit (a : Nat) : Nat := a / 512 % 32

/-- Bytes `bs` at `a` with those of `cs` at `b` laid over them. -/
def overlay (a : Nat) (bs : List Byte) (b : Nat) (cs : List Byte) : List Byte :=
  bs.zipIdx.map fun (x, i) => if b ≤ a + i && a + i < b + cs.length then cs.getD (a + i - b) 0 else x

/-- Two byte ranges overlap. -/
def overlaps (a n b m : Nat) : Bool := decide (a < b + m) && decide (b < a + n)

/-- Bytes of a stack beside its MSC: what is stored, under the queued writes. -/
def State.queueBytes (s : State) (a n : Nat) : List Byte :=
  (s.tile (paTile a)).wq.foldl
    (fun bs e => if overlaps a n e.addr e.data.length then overlay a bs e.addr e.data else bs) (mgets s.hbm a n)

/-- Current bytes of a stack: what is stored, under the queued writes, under the MSC's lines. -/
def State.stackBytes (s : State) (a n : Nat) : List Byte :=
  let bs := s.queueBytes a n
  (s.tile (paTile a)).msc.foldl (fun bs e =>
    let b := paTile a * 2 ^ 36 + e.1 * 64
    if overlaps a n b 64 then overlay a bs b e.2.data else bs) bs

/-- The migration of the frame that holds an address, if one is under way at its home (R407). -/
def State.migOf (s : State) (a : Nat) : Option Mig :=
  ((s.tile (paTile a)).migs.find? fun e => !e.2.fromPool && e.2.f == a / 65536).map (·.2)

/-- Where accesses to an address are performed: the target once its frame has switched to HBM (R408). -/
def State.homeAddr (s : State) (a : Nat) : Nat :=
  match s.migOf a with
  | some m => if 2 ≤ m.phase && !m.toPool then m.f2 * 65536 + a % 65536 else a
  | none => a

/-- Read bytes of one frame in home order (R271). -/
def State.homeRead (s : State) (a n : Nat) : List Byte := s.stackBytes (s.homeAddr a) n

def State.homeWord (s : State) (a : Nat) : Nat := leNat (s.homeRead a 8)

/-! ### MSC lines (R246-R248) -/

/-- MSC set of a line number: slice and set within it (R247). -/
def mscSet (line : Nat) : Nat := line % 32 + 32 * (line / 32 % 1536)

/-- A line is compressible (R247). -/
def compressible (data : List Byte) : Bool :=
  let ws := lanesOf 64 data
  match ws with
  | [] => true
  | w0 :: _ => ws.all fun w =>
      let d := (BitVec.ofNat 64 w - BitVec.ofNat 64 w0).toInt
      decide (-(2 ^ 23 : Int) ≤ d) && decide (d ≤ 2 ^ 23 - 1)

/-- Queue a write at a home's pseudo-channel (R244). -/
def State.queueWrite (s : State) (a : Nat) (bs : List Byte) (owner : Nat) : State :=
  s.modTile (paTile a) fun x => { x with wq := x.wq ++ [⟨a, bs, owner, s.quantum⟩] }

/-- Drop a line, writing it back when dirty (R246). -/
def State.mscEvict (s : State) (t line owner : Nat) : State :=
  match (s.tile t).msc.find? fun e => e.1 == line with
  | none => s
  | some (_, l) =>
    let s := s.modTile t fun x => { x with msc := tdel x.msc line }
    if l.dirty then s.queueWrite (t * 2 ^ 36 + line * 64) l.data owner else s

/-- Latest use mark of a tile's lines. -/
def Tile.mscClock (x : Tile) : Nat := x.msc.foldl (fun m e => max m e.2.used) 0

/-- The lines of a way of a set. -/
def Tile.mscWay (x : Tile) (set way : Nat) : Tbl MscLine :=
  x.msc.filter fun e => mscSet e.1 == set && e.2.way == way

/-- The least recently used of some lines, with its use mark. -/
def lruOf (l : Tbl MscLine) : Option (Nat × Nat) :=
  l.foldl (fun (m : Option (Nat × Nat)) (e : Nat × MscLine) =>
    match m with
    | none => some (e.1, e.2.used)
    | some (k, u) => if e.2.used < u then some (e.1, e.2.used) else some (k, u)) none

/-- Victim of a set and the lines passed over for it: a line marked evict-first, else the least recently used line that HINT
kind 1 does not pass over, and among lines that all are passed over the least recently used (R247). -/
def Tile.mscVictim (x : Tile) (set : Nat) : Option (Nat × List Nat) :=
  let ls := x.msc.filter fun e => mscSet e.1 == set
  match lruOf (ls.filter fun e => e.2.evict) with
  | some (k, _) => some (k, [])
  | none =>
    match lruOf (ls.filter fun e => !e.2.retain) with
    | some (k, u) => some (k, (ls.filter fun e => e.2.retain && decide (e.2.used < u)).map (·.1))
    | none => (lruOf ls).map fun (k, _) => (k, ls.map (·.1))

/-- The way can take one more line, compressed or not. -/
def Tile.mscFits (x : Tile) (set : Nat) (comp : Bool) (way : Nat) : Bool :=
  match x.mscWay set way with
  | [] => true
  | [(_, l)] => comp && compressible l.data
  | _ => false

/-- Put a line into its set: a half-filled way for a compressible line, else an empty way, else the victim's way (R247).
`counted` marks an allocation under second touch (R234); the bytes come from the stack at quantum `ready`. -/
def State.mscInsert (s : State) (t line : Nat) (data : List Byte) (owner ready : Nat) (counted : Bool) : State :=
  let x := s.tile t
  let set := mscSet line
  let comp := compressible data
  let put := fun (s : State) (w : Nat) => s.modTile t fun x =>
    { x with msc := tset x.msc line ⟨data, false, x.mscClock + 1, ready, w, false, false⟩,
             cnt := if counted then { x.cnt with mscAllocs := x.cnt.mscAllocs + 1 } else x.cnt }
  let ways := List.range 16
  match ways.find? fun w => x.mscFits set comp w && (!(x.mscWay set w).isEmpty) with
  | some w => put s w
  | none =>
    match ways.find? fun w => (x.mscWay set w).isEmpty with
    | some w => put s w
    | none =>
      match x.mscVictim set with
      | none => put s 0
      | some (v, past) =>
        let w := (tget (⟨[], false, 0, 0, 0, false, false⟩ : MscLine) x.msc v).way
        let s := s.modTile t fun x =>
          { x with msc := x.msc.map fun e => if past.contains e.1 then (e.1, { e.2 with retain := false }) else e }
        let s := s.mscEvict t v owner
        let s := if (s.tile t).mscFits set comp w then s
          else ((s.tile t).mscWay set w).foldl (fun s e => s.mscEvict t e.1 owner) s
        put s w

/-- Bloom indices of a line (R248). -/
def bloomIdx (line : Nat) : Nat × Nat :=
  let x := line / 32
  (x % 16384, (x / 16384 ^^^ x) % 16384)

/-- The MSC's line that holds an address. -/
def State.mscLine (s : State) (a : Nat) : Option MscLine :=
  ((s.tile (paTile a)).msc.find? fun e => e.1 == paOff a / 64).map (·.2)

/-- A lookup that hits: the line is the latest used (R247). -/
def State.mscHit (s : State) (a : Nat) : State :=
  let line := paOff a / 64
  s.modTile (paTile a) fun x =>
    { x with msc := x.msc.map (fun e => if e.1 == line then (e.1, { e.2 with used := x.mscClock + 1 }) else e),
             cnt := { x.cnt with mscHits := x.cnt.mscHits + 1 } }

/-- A lookup that misses is counted. -/
def State.mscMiss (s : State) (a : Nat) : State :=
  s.modTile (paTile a) fun x => { x with cnt := { x.cnt with mscMisses := x.cnt.mscMisses + 1 } }

/-- A read miss: whether its line is to be allocated after the read, on the second miss within a window; any other one sets
both bits of the slice's filter (R248). -/
def State.mscTouch (s : State) (a : Nat) (memside : Bool) : Bool × State :=
  let line := paOff a / 64
  let (h1, h2) := bloomIdx line
  let sl := line % 32
  let t := paTile a
  let s := s.mscMiss a
  if (s.tile t).bloom.contains (sl, h1) && (s.tile t).bloom.contains (sl, h2) then (!memside, s)
  else
    (false, s.modTile t fun x =>
      { x with bloom := (sl, h1) :: (sl, h2) :: x.bloom.filter fun e => e != (sl, h1) && e != (sl, h2) })

/-- A write within one line: the MSC's copy if it holds the line, else the write queue (R244, R246). -/
def State.lineWrite (s : State) (a : Nat) (bs : List Byte) (owner : Nat) : State :=
  let t := paTile a
  let line := paOff a / 64
  match s.mscLine a with
  | none => (s.mscMiss a).queueWrite a bs owner
  | some l =>
    let data := overlay (t * 2 ^ 36 + line * 64) l.data a bs
    let s := s.modTile t fun x =>
      { x with msc := tset x.msc line { l with data, dirty := true, used := x.mscClock + 1 },
               cnt := { x.cnt with mscHits := x.cnt.mscHits + 1 } }
    -- a paired line that no longer compresses evicts the other line of its way
    if compressible data then s
    else ((s.tile t).mscWay (mscSet line) l.way).foldl
      (fun s e => if e.1 == line then s else s.mscEvict t e.1 owner) s

/-! ### Uncorrectable granules (R251) -/

/-- The HBM or MSC granules of a range that are uncorrectable. -/
def State.badHbm (s : State) (a n : Nat) : List BadCell :=
  s.bad.filter fun b =>
    match b with
    | .hbm g => overlaps a n (g / 8 * 8) 8 && !((s.tile (paTile a)).msc.any fun e => e.1 == paOff g / 64)
    | .msc g => overlaps a n (g / 64 * 64) 64
    | _ => false

/-- Base and size of the granule of an uncorrectable cell (R251, Table mem 1). -/
def BadCell.span : BadCell → Nat × Nat
  | .panel _ _ a => (a / 512 * 512, 512)
  | .tag _ _ a => (a / 32 * 32, 32)
  | .ls _ _ a => (a / 16 * 16, 16)
  | .tsm _ a => (a / 64 * 64, 64)
  | .hbm a => (a / 8 * 8, 8)
  | .msc a => (a / 64 * 64, 64)
  | .comb _ e => (e, 1)
  | .code _ _ b => (b * 64, 64)

/-- Memory code of a UECC record (R252). -/
def BadCell.mem : BadCell → Nat
  | .ls .. => 0
  | .tsm .. => 1
  | .msc .. => 2
  | .hbm .. => 3
  | .panel .. | .tag .. | .code .. => 4
  | .comb .. => 5

/-- Bank field of a UECC record: the bank, pseudo-channel or slice that holds the granule (R252). -/
def BadCell.bank (b : BadCell) : Nat :=
  match b with
  | .ls _ _ a => a / 16 % 32
  | .tsm _ a => a / 64 % 512
  | .hbm a => paChan a
  | .msc a => paOff a / 64 % 32
  | _ => 0

/-- The line's granule in the MSC is uncorrectable, in a clean line or none: it leaves the MSC, counted as a correction, and
the stack has its bytes (R251). -/
def State.mscScrub (s : State) (a n : Nat) : State :=
  s.bad.foldl (fun s b =>
    match b with
    | .msc g =>
      if overlaps a n (g / 64 * 64) 64 && !((s.mscLine g).map (·.dirty)).getD false then
        { s with bad := s.bad.filter fun c => c != b }.modTile (paTile g) fun x =>
          { x with msc := tdel x.msc (paOff g / 64), cnt := { x.cnt with ecc := x.cnt.ecc + 1 } }
      else s
    | _ => s) s

/-- A line fetched from the stack enters the MSC, if it has not come already and none of its granules is uncorrectable
(R248, R251). -/
def State.mscFill (s : State) (a owner ready : Nat) (counted : Bool) : State :=
  let la := a / 64 * 64
  if (s.mscLine a).isSome || !(s.badHbm la 64).isEmpty then s
  else s.mscInsert (paTile a) (paOff a / 64) (s.queueBytes la 64) owner ready counted

/-- An uncorrectable dirty line leaves the MSC without write-back, its latest writes lost (R246, R251). -/
def State.mscLose (s : State) (a : Nat) : Option BadCell × State :=
  match s.bad.find? fun b => (match b with | .msc g => g / 64 == a / 64 | _ => false) with
  | none => (none, s)
  | some b =>
    (some b, { s with bad := s.bad.filter fun c => c != b }.modTile (paTile a) fun x =>
      { x with msc := tdel x.msc (paOff a / 64) })

/-- A UECC record of a granule (R252): `rew` says that it was rewritten. -/
def ueccRec (b : BadCell) (tile core kind source : Nat) (rew : Bool) : FRec :=
  { mkRec cUECC tile core kind source (BitVec.ofNat 32 (b.mem + if rew then 32768 else 0))
      (BitVec.ofNat 64 b.span.1) with pc := BitVec.ofNat 64 (b.bank * 2 ^ 55) }

/-- An uncorrectable granule that a reader has met: a dirty line is lost. -/
def State.loseCell (s : State) (b : BadCell) : State :=
  match b with
  | .msc a => (s.mscLose a).2
  | _ => s

/-- The same, of a failed access of a stream, which its cause, aux and address name. -/
def State.loseLine (s : State) (cause : Nat) (aux : BitVec 32) (addr : Word) : State :=
  if cause == cUECC && aux.extractLsb' 0 4 == 2 then (s.mscLose addr.toNat).2 else s

/-- The uncorrectable granules that a read at a home meets; a clean line of the MSC has the stack's bytes (R251). -/
def State.badHome (s : State) (a n : Nat) : List BadCell :=
  (s.badHbm (s.homeAddr a) n).filter fun b =>
    match b with
    | .msc g => ((s.mscLine g).map (·.dirty)).getD false
    | _ => true

/-- Bytes that a unit of the module reads at their home for itself. Those of an uncorrectable granule never come: free values
stand in their place, with a record of kind F (R251, R252; log entry 17). -/
def State.unitRead (s : State) (a n : Nat) : List Byte × State :=
  match s.badHome a n with
  | [] => (s.homeRead a n, s)
  | bs =>
    let h := s.homeAddr a
    let lost := fun (i : Nat) => bs.any fun b => overlaps (h + i) 1 b.span.1 b.span.2
    ((s.homeRead a n).zipIdx.map fun (x, i) => if lost i then Config.lostByte s.fresh i else x,
      bs.foldl (fun s b => (s.loseCell b).raise false (ueccRec b (paTile h) 0 kindF 7 false)) { s with fresh := s.fresh + 1 })

/-- The granule has fresh check bits again. -/
def State.heal (s : State) (b : BadCell) : State := { s with bad := s.bad.filter fun c => c != b }

/-- What a write does to the uncorrectable granules it touches: one covered whole is fresh; of one covered in part the
rest becomes zero, with a record (R251). The result is the bytes to write and where. -/
def fixWrite (b : BadCell) (a : Nat) (bs : List Byte) : Nat × List Byte :=
  let (g, k) := b.span
  let lo := min a g
  let hi := max (a + bs.length) (g + k)
  (lo, overlay lo (List.replicate (hi - lo) 0) a bs)

/-- Heal the granules that a write touches (R251). -/
def State.healWrite (s : State) (bad : List BadCell) (t c a : Nat) (bs : List Byte) : Nat × List Byte × State :=
  bad.foldl
    (fun (acc : Nat × List Byte × State) b =>
      let (a, bs, s) := acc
      let (g, k) := b.span
      if a ≤ g && g + k ≤ a + bs.length then (a, bs, s.heal b)
      else
        let (a', bs') := fixWrite b a bs
        (a', bs', (s.heal b).raise false (ueccRec b t c kindF 7 true))) (a, bs, s)

/-! ### Writing at the home -/

/-- Split a range into pieces that do not cross a multiple of `k`; the fuel bounds the number of pieces. -/
def piecesAux (k : Nat) : Nat → Nat → List Byte → List (Nat × List Byte)
  | 0, _, _ => []
  | _ + 1, _, [] => []
  | f + 1, a, b :: bs =>
    let n := min (k - a % k) (bs.length + 1)
    (a, (b :: bs).take n) :: piecesAux k f (a + n) ((b :: bs).drop n)

def pieces (k a : Nat) (bs : List Byte) : List (Nat × List Byte) := piecesAux k (bs.length / k + 2) a bs

/-- Write bytes at a home, with what a migration forwards (R408); `put` writes the frame's own bytes. -/
def State.homePut (s : State) (put : State → Nat → List Byte → State) (a : Nat) (bs : List Byte) (owner : Nat) : State :=
  let h := s.homeAddr a
  let s := s.mscScrub h bs.length
  let (h', bs, s) := s.healWrite (s.badHbm h bs.length) (paTile h) 0 h bs
  let a := a + h' - h
  match s.migOf a with
  | none => put s a bs
  | some m =>
    let goal := m.f2 * 65536 + a % 65536
    if 2 ≤ m.phase then
      if m.toPool then { put s a bs with pool := mputs s.pool goal bs }
      else put s goal bs
    else
      -- copying: lines whose bitmap bit is set are forwarded
      (pieces 64 a bs).foldl (fun s (p : Nat × List Byte) =>
        let s := put s p.1 p.2
        if p.1 % 65536 / 64 < m.line then
          let q := m.f2 * 65536 + p.1 % 65536
          if m.toPool then { s with pool := mputs s.pool q p.2 } else s.lineWrite q p.2 owner
        else s) s

/-- Write bytes at a home, through the MSC or the write queue (R244, R246). -/
def State.homeWrite (s : State) (a : Nat) (bs : List Byte) (owner : Nat) : State :=
  s.homePut (fun s a bs => (pieces 64 a bs).foldl (fun s (p : Nat × List Byte) => s.lineWrite p.1 p.2 owner) s) a bs owner

/-- The write of a base-die unit's step goes to the stack itself: the line has left the MSC, and no queued write overlaps it
(R245, R359). -/
def State.unitWrite (s : State) (a : Nat) (bs : List Byte) (owner : Nat) : State :=
  s.homePut (fun s a bs => { s with hbm := mputs s.hbm a bs }) a bs owner

/-! ### The frame table (R402) -/

/-- Address of a frame's entry; a frame is a fabric address div 65,536 (R402). -/
def frameEntAddr (f : Nat) : Nat := f / 2 ^ 20 % 16 * 2 ^ 36 + 0xFFF000000 + 8 * (f % 2 ^ 20)

def State.frameEnt (s : State) (f : Nat) : Nat := leNat (mgets s.hbm (frameEntAddr f) 8)

/-- Write a frame's entry. -/
def State.putFrame (s : State) (f v : Nat) : State := { s with hbm := mputs s.hbm (frameEntAddr f) (leBytes 8 v) }

def feCount (v : Nat) : Nat := v % 65536
def feCow (v : Nat) : Bool := v / 2 ^ 16 % 2 == 1
def feBusy (v : Nat) : Bool := v / 2 ^ 17 % 2 == 1
def feMig (v : Nat) : Nat := v / 2 ^ 18 % 4
def feFree (v : Nat) : Bool := v / 2 ^ 20 % 2 == 1

/-- Replace the field of `w` bits at `p` of a value. -/
def setField (v p w x : Nat) : Nat := v / 2 ^ (p + w) * 2 ^ (p + w) + x % 2 ^ w * 2 ^ p + v % 2 ^ p

/-- A frame shared under copy-on-write (R404). -/
def feShared (v : Nat) : Bool := feCow v && decide (1 < feCount v)

/-- Push a frame to its home tile's free list: done, and the new count (R403). -/
def State.pushFrame (s : State) (f : Nat) : Bool × State :=
  let t := f / 2 ^ 20 % 16
  let x := s.tile t
  if x.freeCount == 2 ^ 20 then (false, s)
  else
    let slot := (x.freeHead + x.freeCount) % 2 ^ 20
    let s := { s with hbm := mputs s.hbm (t * 2 ^ 36 + 0xFFF800000 + 4 * slot) (leBytes 4 (f % 2 ^ 20)) }
    let s := s.modTile t fun x => { x with freeCount := x.freeCount + 1 }
    (true, s.putFrame f (setField (s.frameEnt f) 20 1 1))

/-- Pop a frame of a tile's free list (R403). -/
def State.popFrame (s : State) (t : Nat) : Option Nat × State :=
  let x := s.tile t
  if x.freeCount == 0 then (none, s)
  else
    let f := t * 2 ^ 20 + leNat (mgets s.hbm (t * 2 ^ 36 + 0xFFF800000 + 4 * x.freeHead) 4) % 2 ^ 20
    let s := s.modTile t fun x =>
      { x with freeHead := (x.freeHead + 1) % 2 ^ 20, freeCount := x.freeCount - 1 }
    (some f, s.putFrame f (setField (setField (setField (s.frameEnt f) 0 16 1) 16 1 0) 20 1 0))

/-! ### Translation (R395-R399) -/

/-- An access to translate: context tile, address, kind, privilege, and what a record carries beside (R399). -/
structure XReq where
  tile : Nat
  va : Nat
  wr : Bool
  fetch : Bool
  user : Bool
  desc : Nat
  op : Nat
  /-- The core whose L1 TLB is used; 16 for none. -/
  core : Nat
  deriving DecidableEq, Repr

/-- Where a translated access goes: the block entry it came through, unless the translation carries write-ok (R404). -/
structure Place where
  loc : Loc
  memside : Bool
  blk : Option Nat
  deriving DecidableEq, Repr

/-- Why an access does not translate: a fault with its cause and aux, or an uncorrectable granule of a table, a descriptor or
a block entry (R251, R399). -/
inductive XErr where
  | fault (cause : Nat) (aux : BitVec 32)
  | lost (b : BadCell)
  deriving DecidableEq, Repr

/-- aux of a translation fault (R399). -/
def XReq.aux (x : XReq) (tier level reason : Nat) : BitVec 32 :=
  BitVec.ofNat 32 (tier + (if x.wr then 4 else 0) + (if x.fetch then 8 else 0) + level * 16 + reason * 256 +
    x.desc * 4096 + x.op * 2 ^ 24)

/-- The module id is one of the configured system (R250). -/
def State.moduleExists (s : State) (m : Nat) : Bool :=
  let w := s.cw.identity.toNat
  decide (m % 16 ≤ w / 2 ^ 12 % 16) && decide (m / 16 % 16 ≤ w / 2 ^ 16 % 16) && decide (m / 256 ≤ w / 2 ^ 20 % 16)

/-- Module id of this module (R8). -/
def State.moduleId (s : State) : Nat := s.cw.identity.toNat % 4096

/-- The location of a fabric address (R250). -/
def State.locOf (s : State) (fa : Nat) : Loc :=
  if fa / 2 ^ 40 == s.moduleId then .hbm (fa % 2 ^ 40) else .far fa

/-- The outcome of a walk: a leaf of any tier with its entry's address, its size and level, or the fault. -/
inductive Walk where
  | leaf (ent pte : Nat) (large : Bool) (level : Nat)
  | bad (cause tier level reason : Nat)
  | lost (b : BadCell)
  deriving DecidableEq, Repr

/-- Walk the page tables from a table; `k` levels are left (R396, R397 checks 2-3). -/
def State.walk (s : State) (va : Nat) : Nat → Nat → Walk
  | 0, _ => .bad cPROT 0 2 1
  | k + 1, base =>
    let lvl := 2 - k
    let a := base + 8 * (va / 2 ^ (16 + 13 * k) % 8192)
    let e := s.homeWord a
    let tier := e / 64 % 4
    match (s.badHome a 8).head? with
    | some b => .lost b
    | none =>
    if e % 2 == 0 then .bad cPAGE 0 lvl 0
    else if e / 2 % 2 == 0 then
      if k == 0 || e / 4 % 2 ^ 14 != 0 || e / 2 ^ 40 % 2 ^ 12 != 0 then .bad cPROT 0 lvl 1
      else s.walk va k (e / 2 ^ 16 % 2 ^ 24 * 65536)
    else if lvl == 0 || tier == 3 || e / 256 % 256 != 0 || (k == 1 && (tier != 0 || e / 2 ^ 16 % 2 ^ 13 != 0)) then
      .bad cPROT tier lvl 1
    else .leaf a e (k == 1) lvl

/-- The permission, reserved-region and shared-frame checks of a leaf (R397 checks 5, 6): place and write-ok. -/
def State.useLeaf (s : State) (x : XReq) (pte : Nat) (large : Bool) (lvl : Nat) (wok : Bool) :
    Except XErr (Place × Bool) :=
  let off := if large then x.va % 2 ^ 29 else x.va % 2 ^ 16
  let fa := pte / 2 ^ 16 % 2 ^ 36 * 65536 + off
  if x.user && pte / 8 % 2 == 0 then .error (.fault cPROT (x.aux 0 lvl 2))
  else if x.wr && pte / 4 % 2 == 0 then .error (.fault cPROT (x.aux 0 lvl 3))
  else if x.fetch && pte / 16 % 2 == 0 then .error (.fault cPROT (x.aux 0 lvl 4))
  else if paReserved fa then .error (.fault cPROT (x.aux 0 lvl 5))
  else if !s.moduleExists (fa / 2 ^ 40) then .error (.fault cPROT (x.aux 0 lvl 7))
  else
    let p : Place := ⟨s.locOf fa, pte / 32 % 2 == 1, none⟩
    if x.wr && !large && !wok && fa / 2 ^ 40 == s.moduleId then
      if feShared (s.frameEnt (fa % 2 ^ 40 / 65536)) then .error (.fault cPROT (x.aux 0 lvl 6)) else .ok (p, true)
    else .ok (p, wok)

/-- Cache a translation as the latest in place of an older one of the same key; beyond its capacity a TLB drops the one used
least recently (R398, log entry 14). -/
def tlbAdd (cap : Nat) (l : List TlbEnt) (e : TlbEnt) : List TlbEnt :=
  let l := l.filter (fun f => !(f.kind == e.kind && f.key == e.key && f.large == e.large)) ++ [e]
  l.drop (l.length - cap)

/-- A core's L1 TLB, then the tile's last-level TLB (R12, R398). -/
def Tile.tlbFind (x : Tile) (c : Nat) (f : TlbEnt → Bool) : Option TlbEnt :=
  (((tget Core.reset x.cores c).tlb.reverse).find? f).orElse fun _ => x.tlb.find? f

/-- The cached leaf of an address (R398). -/
def Tile.tlbLeaf (x : Tile) (c va : Nat) : Option TlbEnt :=
  x.tlbFind c fun e => e.kind == 0 && (if e.large then e.key == va / 2 ^ 29 else e.key == va / 2 ^ 16)

/-- Cache a translation in both levels: 512 entries a core, 16,384 a tile (R398). -/
def Tile.tlbPut (x : Tile) (c : Nat) (e : TlbEnt) : Tile :=
  let x := { x with tlb := tlbAdd 16384 x.tlb e }
  if c < 16 then { x with cores := tmod Core.reset x.cores c fun y => { y with tlb := tlbAdd 512 y.tlb e } } else x

/-- Change every cached translation of a tile. -/
def Tile.mapTlb (x : Tile) (f : List TlbEnt → List TlbEnt) : Tile :=
  { x with tlb := f x.tlb, cores := x.cores.map fun e => (e.1, { e.2 with tlb := f e.2.tlb }) }

/-- Translate a virtual address through the page tables, or the cached leaf (R396-R398). -/
def State.xl (s : State) (x : XReq) : Except XErr (Place × State) :=
  if 2 ^ 55 ≤ x.va then .error (.fault cPROT (x.aux 0 0 0))
  else
    let hit : Option (Place × State) :=
      match (s.tile x.tile).tlbLeaf x.core x.va with
      | none => none
      | some e =>
        match s.useLeaf x e.leaf.toNat e.large (if e.large then 1 else 2) e.writeOk with
        | .ok (p, wok) => some (p, s.modTile x.tile fun t => t.tlbPut x.core { e with writeOk := wok })
        | .error _ => none
    match hit with
    | some r => .ok r
    | none =>
      let root := (s.tile x.tile).ptroot
      if root % 65536 != 0 then .error (.fault cPROT (x.aux 0 0 1))
      else
        match s.walk x.va 3 root with
        | .bad c tier lvl reason => .error (.fault c (x.aux tier lvl reason))
        | .lost b => .error (.lost b)
        | .leaf _ pte large lvl =>
          if pte / 64 % 4 != 0 then .error (.fault cPAGE (x.aux (pte / 64 % 4) lvl 1))
          else match s.useLeaf x pte large lvl false with
          | .error e => .error e
          | .ok (p, wok) =>
            .ok (p, s.modTile x.tile fun t =>
              t.tlbPut x.core ⟨0, x.va / 2 ^ (if large then 29 else 16), large, BitVec.ofNat 64 pte, wok⟩)

/-! ### The layout unit (R400, R401) -/

/-- Tensor descriptor fields (Table xlat 4). -/
structure TDesc where
  layout : Nat
  esize : Nat
  valid : Bool
  write : Bool
  user : Bool
  count : Nat
  cols : Nat
  pitch : Nat
  base : Nat
  blocks : Nat
  ok : Bool
  deriving DecidableEq, Repr

/-- Read descriptor `n` of a tile's tensor table (R400). -/
def State.tdesc (s : State) (t n : Nat) : TDesc :=
  let ws := lanesOf 64 (s.homeRead ((s.tile t).ttbase + 64 * n) 64)
  let w := fun i => ws.getD i 0
  let esize := 2 ^ (w 0 / 4 % 4)
  let layout := w 0 % 4
  let cols := w 2 % 2 ^ 32
  let pitch := w 2 / 2 ^ 32
  let zero := w 0 / 128 == 0 && w 1 / 2 ^ 50 == 0 && w 4 / 2 ^ 32 == 0 && w 5 == 0 && w 6 == 0 && w 7 == 0 &&
    (if layout == 0 then w 3 / 2 ^ 55 == 0 else w 3 / 2 ^ 40 == 0 && w 3 % 8 == 0)
  { layout, esize, valid := w 0 / 16 % 2 == 1, write := w 0 / 32 % 2 == 1, user := w 0 / 64 % 2 == 1,
    count := w 1 % 2 ^ 50, cols, pitch, base := w 3, blocks := w 4 % 2 ^ 32,
    ok := zero && layout < 2 && w 0 / 16 % 2 == 1 && (cols == 0 || (cols * esize ≤ pitch && pitch % esize == 0)) }

/-- Map byte `byte` of element `i` of a descriptor (R401). -/
def State.xlElem (s : State) (x : XReq) (i byte : Nat) : Except XErr (Place × State) :=
  let d := s.tdesc x.tile x.desc
  match (s.badHome ((s.tile x.tile).ttbase + 64 * x.desc) 64).head? with
  | some b => .error (.lost b)
  | none =>
  if !d.ok then .error (.fault cPROT (x.aux 0 3 8))
  else if x.user && !d.user then .error (.fault cPROT (x.aux 0 3 2))
  else if x.wr && !d.write then .error (.fault cPROT (x.aux 0 3 3))
  else if d.count ≤ i then .error (.fault cTBOUND (x.aux 0 3 0))
  else
    let p := (if d.cols == 0 then i * d.esize else i / d.cols * d.pitch + i % d.cols * d.esize) + byte
    if d.layout == 0 then s.xl { x with va := d.base + p }
    else
      let b := p / 65536
      if d.blocks ≤ b then .error (.fault cTBOUND (x.aux 0 3 1))
      else
        let ea := d.base + 8 * b
        let cached := (s.tile x.tile).tlbFind x.core fun e => e.kind == 1 && e.key == ea
        let ent := match cached with
          | some e => e.leaf.toNat
          | none => s.homeWord ea
        let bad := match cached with
          | some _ => none
          | none => (s.badHome ea 8).head?
        let wok := match cached with
          | some e => e.writeOk
          | none => false
        let fa := ent / 2 ^ 16 % 2 ^ 36 * 65536 + p % 65536
        match bad with
        | some b => .error (.lost b)
        | none =>
        if ent % 2 == 0 then .error (.fault cPAGE (x.aux 0 3 2))
        else if ent / 2 % 2 ^ 15 != 0 || ent / 2 ^ 52 != 0 then .error (.fault cPROT (x.aux 0 3 1))
        else if fa / 2 ^ 40 != s.moduleId then .error (.fault cPROT (x.aux 0 3 7))
        else if paReserved fa then .error (.fault cPROT (x.aux 0 3 5))
        else
          .ok (⟨.hbm (fa % 2 ^ 40), false, if wok then none else some ea⟩,
            s.modTile x.tile fun t => t.tlbPut x.core ⟨1, ea, false, BitVec.ofNat 64 ent, wok⟩)

/-- Set write-ok on a cached block entry (R404 case 3). -/
def State.blockOk (s : State) (t ea : Nat) : State :=
  s.modTile t fun x => x.mapTlb fun l => l.map fun e => if e.kind == 1 && e.key == ea then { e with writeOk := true } else e

/-- Change every tile. -/
def State.allTiles (s : State) (f : Tile → Tile) : State :=
  (List.range 16).foldl (fun s t => s.modTile t f) s

/-- Drop every cached copy of a block entry (R405). -/
def State.dropBlock (s : State) (ea : Nat) : State :=
  s.allTiles fun x => x.mapTlb fun l => l.filter fun e => !(e.kind == 1 && e.key == ea)

/-- Frame a cached translation names covers frame `f`, a fabric address div 65,536 (R413). -/
def TlbEnt.names (e : TlbEnt) (f : Nat) : Bool :=
  let g := e.leaf.toNat / 2 ^ 16 % 2 ^ 36
  if e.large then g ≤ f && f < g + 8192 else g == f

/-- Drop every cached translation that names a frame (R413 op 5). -/
def State.shoot (s : State) (f : Nat) : State :=
  s.allTiles fun x => x.mapTlb fun l => l.filter fun e => !e.names f

/-! ### Arithmetic of the memory units (R242, R261-R263) -/

/-- New value, if one is written, and flags of an atomic on `w`-bit codes (Table memop 3, Table memop 4). -/
def atomStep (op : AOp) (sz : Siz) (old b cmp : Nat) : Option Nat × FFlags :=
  let w := 8 * sizBytes sz
  let f := if w == 16 then fmtBF16 else fmtF32
  let pick := fun (sg isMax : Bool) =>
    let x := intOf sg w old
    let y := intOf sg w b
    if isMax then (if x < y then b else old) else (if y < x then b else old)
  match op with
  | .add => (some ((old + b) % 2 ^ w), fNone)
  | .fadd => let (v, fl) := aluAdd f old b; (some v, fl)
  | .min => (some (pick true false), fNone)
  | .max => (some (pick true true), fNone)
  | .minn => (some (pick false false), fNone)
  | .maxn => (some (pick false true), fNone)
  | .and => (some (old &&& b), fNone)
  | .or => (some (old ||| b), fNone)
  | .xor => (some (old ^^^ b), fNone)
  | .xchg => (some b, fNone)
  | .cas => (if old == cmp then some b else none, fNone)

/-- One lane of a reduction (R242, R263). -/
def redLane (op : RedOp) (t : RedTy) (x y : Nat) : Nat × FFlags :=
  match t with
  | .i32 =>
    let a := intOf true 32 x
    let b := intOf true 32 y
    match op with
    | .add => ((x + y) % 2 ^ 32, fNone)
    | .min => (if b < a then y else x, fNone)
    | .max => (if a < b then y else x, fNone)
  | t =>
    let f := if t == .bf16 then fmtBF16 else fmtF32
    match op with
    | .add => aluAdd f x y
    | .min => f.minmax false false x y
    | .max => f.minmax true false x y

/-- Bytes of an element of a reduction type. -/
def redBytes : RedTy → Nat
  | .bf16 => 2
  | _ => 4

/-- Reduce bytes lane by lane. -/
def redStep (op : RedOp) (t : RedTy) (old src : List Byte) : List Byte × FFlags :=
  let w := 8 * redBytes t
  let rs := (lanesOf w old).zipWith (fun x y => redLane op t x y) (lanesOf w src)
  (bytesOf w (rs.map (·.1)), rs.foldl (fun f r => f ||| r.2) fNone)

/-- The reduction of a packet's lanes into destination bytes at the home (R340). -/
def homeStep (op : RedOp) (ty : RedTy) (old wire : List Byte) : List Byte × FFlags :=
  match ty with
  | .bf16 =>
    let rs := (lanesOf 16 old).zipWith (fun d w =>
      let x := fmtBF16.read d
      let y := fmtF32.read w
      match op with
      | .add => if x.isNan || y.isNan then fmtBF16.nan true else fmtBF16.add envRne x y
      | .min => fmtBF16.minmax false false d (fmtBF16.ofVal envRne y).1
      | .max => fmtBF16.minmax true false d (fmtBF16.ofVal envRne y).1) (lanesOf 32 wire)
    (bytesOf 16 (rs.map (·.1)), rs.foldl (fun f r => f ||| r.2) fNone)
  | ty => redStep op ty old wire

/-- Flags joined into the flag word of a base-die unit (Table mem 4). -/
def State.unitFlag (s : State) (t u : Nat) (f : FFlags) : State :=
  s.modTile t fun x => { x with unitFlags := tmod 0 x.unitFlags u fun g => g ||| f }

def State.tsmFlag (s : State) (t b : Nat) (f : FFlags) : State :=
  s.modTile t fun x => { x with bankFlags := tmod 0 x.bankFlags b fun g => g ||| f }

/-! ### TSM layout (R240, R241) -/

/-- All bytes lie in TSM data. -/
def inTsm (off n : Nat) : Bool := decide (off + n ≤ 0x4000000)

/-- The flag word an offset names: bank ALU or base-die unit. -/
inductive FlagWin where
  | bank (b : Nat)
  | unit (u : Nat)
  deriving DecidableEq, Repr

def flagWin (off : Nat) : Option FlagWin :=
  if 0x4000000 ≤ off && off < 0x4001000 then some (.bank ((off - 0x4000000) / 8))
  else if 0x4001000 ≤ off && off < 0x4001100 then some (.unit ((off - 0x4001000) / 8))
  else none

/-- The bank whose turn serves an offset: the unit's flag word is served at the bank of the same number. -/
def tsmBank (off : Nat) : Nat :=
  match flagWin off with
  | some (.bank b) => b
  | some (.unit u) => u
  | none => off / 64 % 512

/-- The value of a flag word. -/
def Tile.flagWord (x : Tile) (w : FlagWin) : BitVec 5 :=
  match w with
  | .bank b => tget 0 x.bankFlags b
  | .unit u => tget 0 x.unitFlags u

def Tile.setFlagWord (x : Tile) (w : FlagWin) (v : BitVec 5) : Tile :=
  match w with
  | .bank b => { x with bankFlags := tset x.bankFlags b v }
  | .unit u => { x with unitFlags := tset x.unitFlags u v }

/-- Uncorrectable TSM or LS granules of a range. -/
def State.badTsm (s : State) (t a n : Nat) : List BadCell :=
  s.bad.filter fun b =>
    match b with
    | .tsm t' g => t' == t && overlaps a n (g / 64 * 64) 64
    | _ => false

def State.badLs (s : State) (t c a n : Nat) : List BadCell :=
  s.bad.filter fun b =>
    match b with
    | .ls t' c' g => t' == t && c' == c && overlaps a n (g / 16 * 16) 16
    | _ => false

/-- Write LS bytes of a core (R237, R251). -/
def State.lsWrite (s : State) (t c a : Nat) (bs : List Byte) : State :=
  let (a, bs, s) := s.healWrite (s.badLs t c a bs.length) t c a bs
  s.modCore t c fun x => { x with ls := mputs x.ls a bs }

/-! ### Requests -/

/-- The core that a request counts for: the stream's or the engine's. -/
def Who.coreOf : Who → Option (Nat × Nat)
  | .stream i => some (i.tile, i.core)
  | .engine t c _ _ => some (t, c)
  | _ => none

/-- The fabric address of a place (R250). -/
def State.fabric (s : State) (l : Loc) : Nat :=
  match l with
  | .hbm a => s.moduleId * 2 ^ 40 + a
  | .far fa => fa
  | .tsm _ a => a

/-- Home tile of a place within the module. -/
def Loc.home : Loc → Option Nat
  | .tsm t _ => some t
  | .hbm a => some (paTile a)
  | .far _ => none

/-- Two places are ordered at one point: a TSM bank, a home tile, or the way to the other modules (R241, R245). -/
def Loc.samePoint (l m : Loc) : Bool :=
  match l, m with
  | .tsm t a, .tsm u b => t == u && tsmBank a == tsmBank b
  | .hbm a, .hbm b => paTile a == paTile b
  | .far _, .far _ => true
  | _, _ => false

/-- Requests that one core made in one cycle reach their common point in the order in which they were made (R255, R258, R261,
R263): a request that stands at `st` from quantum `due` on stands there no sooner than those before it. -/
def State.behind (s : State) (r : Req) (st : Stage) (due : Nat) : Nat :=
  s.reqs.foldl (fun n q =>
    if q.id < r.id && q.stage == st && q.cyc == r.cyc && q.who.coreOf == r.who.coreOf && q.who.coreOf.isSome &&
      q.loc.samePoint r.loc then max n q.due else n) due

/-- Add a request; it carries the next number. -/
def State.request (s : State) (who : Who) (op : MemOp) (loc : Loc) (dst : RDst) (ord : MOrd) (scp : Scp)
    (comb memside : Bool) : State :=
  let (due, s) := s.later
  let r : Req :=
    { id := s.nextId, who, op, loc, dst, ord, scp, comb, memside, stage := .wait, due, tick := s.tick,
      cyc := match who with | .stream i => s.cycles i.tile | .engine t .. => s.cycles t | _ => 0,
      drop := false, cell := none,
      after := match who with | .stream i => if op.writes then (s.cl i).fenced else 0 | _ => 0,
      alloc := false, input := 8, via := [] }
  { s with reqs := s.reqs ++ [{ r with due := s.behind r .wait due }], nextId := s.nextId + 1 }

/-- Bytes a request touches. -/
def MemOp.size : MemOp → Nat
  | .read n => n
  | .write bs => bs.length
  | .atom _ sz _ _ => sizBytes sz
  | .red _ _ bs => bs.length
  | .redWire _ _ n _ => n
  | .pf => 64
  | .flag _ => 8
  | .frame .. => 8
  | .mscop _ n => n

/-- The operation is one step of a bank ALU or base-die unit. -/
def MemOp.steps : MemOp → Bool
  | .atom .. | .red .. | .redWire .. => true
  | _ => false

/-- Two places share a byte. -/
def Loc.meets (l : Loc) (n : Nat) (m : Loc) (k : Nat) : Bool :=
  match l, m with
  | .tsm t a, .tsm u b => t == u && overlaps a n b k
  | .hbm a, .hbm b => overlaps a n b k
  | .far a, .far b => overlaps a n b k
  | _, _ => false

def ordAcq : MOrd → Bool
  | .acq | .ar | .sc => true
  | _ => false

def ordRel : MOrd → Bool
  | .rel | .ar | .sc => true
  | _ => false

/-- The clusters of one stream of the same bank (R13). -/
def Who.sameStream (s : State) (w v : Who) : Bool :=
  match w, v with
  | .stream i, .stream j => i.tile == j.tile && i.core == j.core && i.bank == j.bank && ((s.bank i).joined || i.cl == j.cl)
  | .engine .., .engine .. => w == v
  | _, _ => false

/-- A request may be performed: of the earlier ones of its stream or engine entry, none to a byte of its own, no acquire,
for a release none at all, and for a write after a FENCE with release none before the fence is still to be performed (R273,
R274, R275). -/
def State.mayPerform (s : State) (r : Req) : Bool :=
  (s.reqs.takeWhile fun q => q.id != r.id).all fun q =>
    q.performed || (q.comb && q.drop) || !(q.who.sameStream s r.who) ||
      !(q.loc.meets q.op.size r.loc r.op.size || ordAcq q.ord || ordRel r.ord || decide (q.id < r.after))

/-- Replace a request by the changed one. -/
def State.modReq (s : State) (id : Nat) (f : Req → Req) : State :=
  { s with reqs := s.reqs.map fun q => if q.id == id then f q else q }

def State.delReq (s : State) (id : Nat) : State := { s with reqs := s.reqs.filter fun q => q.id != id }

def State.findReq (s : State) (id : Nat) : Option Req := s.reqs.find? fun q => q.id == id

/-- An agent of the module as Table cons 1 places it: an engine counts as an agent of the core it serves. -/
inductive Agent where
  | stream (t c : Nat)
  | engine (t c : Nat)
  | manager
  | host
  /-- An agent of another module. -/
  | far
  deriving DecidableEq, Repr

/-- Agent `y` lies in the scope instance of agent `x` (Table cons 1). -/
def Agent.sees (sc : Scp) (x y : Agent) : Bool :=
  let place := fun (z : Agent) =>
    match z with
    | .stream t c | .engine t c => some (t, c)
    | _ => none
  match x with
  | .host => true
  | .manager => sc == .sys || (y != .host && (sc == .fab || y != .far))
  | .far => sc == .sys || (sc == .fab && y != .host)
  | _ =>
    match sc with
    | .core => place x == place y
    | .tile => (place x).map (·.1) == (place y).map (·.1)
    | .mod => y != .host && y != .far
    | .fab => y != .host
    | .sys => true

/-- A release by `x` at one scope and an acquire by `y` at another synchronise: each lies in the other's scope instance (R275).
The model performs a release or an acquire alike at every scope (R270, log entry 22). -/
def synchronises (x y : Agent) (sx sy : Scp) : Bool := x.sees sx y && y.sees sy x

/-- The answer of a performed request sets out, or the request is done when nothing awaits it. -/
def State.answer (s : State) (r : Req) (bs : List Byte) (nv bad : Bool) : State :=
  if r.dst == .none || r.dst == .remote then s.delReq r.id
  else
    let (due, s) := s.later
    s.modReq r.id fun q => { q with stage := .reply bs nv bad, due }

/-- The data of a read is dropped: its answer names the uncorrectable granule (R251, R252). -/
def State.answerLost (s : State) (r : Req) (b : BadCell) : State :=
  (s.answer r [] false true).modReq r.id fun q => { q with cell := some b }

end Sys2Proof.Machine
end

