-- ==== Sys2Proof/Machine/Barrier.lean ====
section
/-!
DEFINITION. The release of continuations (R316), barrier records and their steps (R265-R268, R325), and writes to TSM with
what they do to a barrier record that has waiters (R268).
-/

namespace Sys2Proof.Machine

/-! ### Continuations become ready (R316) -/

/-- An empty record, for indices that hold none. -/
def ContCl.reset : ContCl := ⟨[], 0, 0, 0, 0⟩
def Task.reset : Task := ⟨0, 0, 0, 0, [], false, false, none, none, 0⟩
def Cont.reset : Cont :=
  ⟨0, 0, Quad.all ContCl.reset, 0, 0, 0, 0, false, 0, 0, 0, none, 0, 0, Task.reset, false, 0⟩

/-- The next task id of a tile (R312). -/
def State.takeTaskId (s : State) (t : Nat) : Nat × State :=
  let n := (s.tile t).taskCtr
  (n, s.modTile t fun x => { x with taskCtr := (n + 1) % 2 ^ 32 })

/-- Release record `n` as position `pos` of its list: a kind-1 entry on the record's core (R316). -/
def State.releaseCont (s : State) (n pos : Nat) (broken : Bool) : State :=
  let c := tget Cont.reset s.conts n
  let (id, s) := s.takeTaskId c.tile
  s.modTile c.tile fun x =>
    { x with ready := x.ready ++ [{ taskid := id, company := c.company, core := c.core, kind := 1,
                                    prio := (c.compReg.extractLsb' 16 2).toNat, tick := s.tick, order := pos, cont := n,
                                    broken, dIdx := c.task.dIdx, cIdx := c.task.cIdx, launch := c.task.launch }] }

/-! ### Barrier records (Table memop 5) -/

structure BarRec where
  count : Nat
  arrived : Nat
  gen : Nat
  stalled : Word
  head : Nat
  parked : Nat
  deriving DecidableEq, Repr

def State.barRec (s : State) (t b : Nat) : BarRec :=
  let m := (s.tile t).tsm
  let n := fun o k => leNat (mgets m (64 * b + o) k)
  ⟨n 0 2, n 2 2, n 4 2, BitVec.ofNat 64 (n 8 8), n 16 4, n 20 2⟩

/-- Write the fields of a record; its zero fields keep what they hold. -/
def State.putBar (s : State) (t b : Nat) (r : BarRec) : State :=
  s.modTile t fun x =>
    let m := mputs x.tsm (64 * b) (leBytes 2 r.count ++ leBytes 2 r.arrived ++ leBytes 2 r.gen)
    { x with tsm := mputs m (64 * b + 8) (leBytes 8 r.stalled.toNat ++ leBytes 4 r.head ++ leBytes 2 r.parked) }

def BarRec.waiters (r : BarRec) : Bool := r.stalled != 0 || r.parked != 0

/-- Wake a stream that waits in BARW of barrier `b`; a broken barrier sets q7 in it (R267, R268). -/
def Bank.wake (x : Bank) (k : Fin 4) (b : Nat) (broken : Bool) : Bank :=
  if (x.cl.get k).hold == .barw b then
    let x := x.modCl k fun c => { c with hold := .none }
    if broken then
      (if x.joined then cls4 else [k]).foldl (fun x j => x.modCl j fun c => c.setQ 7 true) x
    else x
  else x

/-- Release the list of continuations from record `n` on, `k` of them, from list position `pos` (R325). Where software has
written the fields and no continuation is stored under a number, the list ends. -/
def State.releaseList (s : State) (broken : Bool) : Nat → Nat → Nat → State
  | 0, _, _ => s
  | k + 1, n, pos =>
    match s.conts.find? fun c => c.1 == n with
    | some (_, c) => (s.releaseCont n pos broken).releaseList broken k c.next (pos + 1)
    | none => s

/-- Release the waiters of `r`, the record of barrier `b` as it stood, and clear their fields (R267, R268). -/
def State.barRelease (s : State) (t b : Nat) (r : BarRec) (broken : Bool) : State :=
  let s := (List.range 64).foldl (fun s n =>
    if r.stalled.getLsbD n then
      s.modCore t (n / 4) fun x =>
        let k : Fin 4 := Fin.ofNat 4 n
        { x with b0 := x.b0.wake k b broken, b1 := x.b1.wake k b broken }
    else s) s
  let s := s.releaseList broken r.parked r.head 0
  s.putBar t b { s.barRec t b with stalled := 0, head := 0, parked := 0 }

/-- An arrival at a barrier: whether it completed the generation (R267). -/
def State.barArrive (s : State) (t b : Nat) : Bool × State :=
  let r := s.barRec t b
  if r.count == 0 then
    (true, (s.putBar t b { r with arrived := 0, gen := (r.gen + 1) % 65536 }).barRelease t b r false)
  else if (r.arrived + 1) % 65536 == r.count then
    (true, (s.putBar t b { r with arrived := 0, gen := (r.gen + 1) % 65536 }).barRelease t b r false)
  else (false, s.putBar t b { r with arrived := (r.arrived + 1) % 65536 })

/-! ### Writes to TSM -/

/-- A stream stands in BARW under a Stalled bit of the record, or a continuation parked at the barrier under its Parked head:
data that only looks like waiters is no waiter (log entry 18). -/
def State.barWaited (s : State) (t b : Nat) (r : BarRec) : Bool :=
  ((List.range 64).any fun n =>
    r.stalled.getLsbD n &&
      (let x := s.core t (n / 4)
       let k : Fin 4 := Fin.ofNat 4 n
       (x.b0.cl.get k).hold == .barw b || (x.b1.cl.get k).hold == .barw b)) ||
    (r.parked != 0 && s.conts.any fun c => c.1 == r.head && c.2.key.isNone && c.2.tile == t && c.2.bar == b)

/-- The barriers of which a write to TSM changes bytes, those with waiters (R268). -/
def State.broken (s : State) (t a n : Nat) : List Nat :=
  if n == 0 then []
  else ((List.range ((a + n - 1) / 64 + 1 - a / 64)).map fun i => a / 64 + i).filter fun b =>
    decide (b < 4096) && (s.barRec t b).waiters && s.barWaited t b (s.barRec t b)

/-- Write bytes of TSM data; a write to a barrier record that has waiters breaks it: the bytes are written, then its
waiters are released (R241, R268, R251). -/
def State.tsmWrite (s : State) (t a : Nat) (bs : List Byte) : State :=
  let (a, bs, s) := s.healWrite (s.badTsm t a bs.length) t 0 a bs
  let old := s
  (old.broken t a bs.length).foldl (fun s b =>
    (s.barRelease t b (old.barRec t b) true).raise false (mkRec cBARBROKEN t 0 kindV 7 (BitVec.ofNat 32 b) 0))
    (s.modTile t fun x => { x with tsm := mputs x.tsm a bs })

def State.tsmRead (s : State) (t a n : Nat) : List Byte := mgets (s.tile t).tsm a n

end Sys2Proof.Machine
end

