-- ==== Sys2Proof/Machine/Tasks.lean ====
section
/-!
DEFINITION. Tasks, lineages, companies and launches as the streams see them: the end of a task (R143), triggering and
retirement (R319, R320, R308), and the registration of continuations (R315, R316).
-/

namespace Sys2Proof.Machine

/-! ### Launches and companies (R308, R311, R320) -/

def lqOf (launch : Nat) : Nat := launch / 2 ^ 28 % 16
def seqOf (launch : Nat) : Nat := launch % 2 ^ 28

/-- Company id of a launch (R308). -/
def companyId (launch : Nat) : Nat := lqOf launch * 4096 + launch % 4096

def Lineage.open (l : Lineage) : Bool := !l.ended

/-- Every lineage of the company has ended. -/
def Company.over (c : Company) : Bool := c.lineages.all (·.ended)

/-- The company of a launch on a tile. -/
def State.companyOf (s : State) (launch t : Nat) : Option Company :=
  s.companies.find? fun c => c.launch == launch && c.tile == t

/-- Change the lineage of a task. -/
def State.modLineage (s : State) (launch t cIdx : Nat) (f : Lineage → Lineage) : State :=
  { s with companies := s.companies.map fun c =>
      if c.launch == launch && c.tile == t then
        { c with lineages := c.lineages.map fun l => if l.cIdx == cIdx then f l else l }
      else c }

/-- Raise an interrupt vector; one that is still unsent is merged (R419). -/
def State.vector (s : State) (v : Nat) : State :=
  if v == 0 || s.vectors.contains v then s else { s with vectors := s.vectors ++ [v] }

/-- Write a launch's completion record and raise the queue's vector (R308). -/
def State.completion (s : State) (launch status kind late actions : Nat) : State :=
  let q := tget LQ.reset s.lq (lqOf launch)
  let a := q.cbase + 16 * (seqOf launch % 2 ^ q.size)
  let w0 := launch + status % 256 * 2 ^ 32 + kind % 4 * 2 ^ 40 + late % 65536 * 2 ^ 48
  (s.homeWrite a (leBytes 8 w0 ++ leBytes 8 (actions % 2 ^ 32)) 16).vector q.vector

/-- A launch retires once every lineage of every company has ended and no company is saved (R320). -/
def State.retire (s : State) (launch : Nat) : State :=
  let mine := s.companies.filter fun c => c.launch == launch
  if (s.launches.any fun l => l.id == launch && !l.retired) && mine.all (fun c => c.over && !c.saved) then
    let s := { s with launches := s.launches.map fun (l : Launch) => if l.id == launch then { l with retired := true } else l,
                      companies := s.companies.filter fun c => c.launch != launch }
    s.completion launch 0 0 0 0
  else s

/-- A lineage ends (R320). -/
def State.endLineage (s : State) (launch t cIdx : Nat) : State :=
  (s.modLineage launch t cIdx fun l => { l with ended := true }).retire launch

/-- A record has been pushed and still waits in its queue, `d` records behind Tail: what is known of its id is of an older
launch. -/
def LQ.waits (q : LQ) (d : Nat) : Bool := decide (d ≤ (q.tail + 2 ^ 28 - q.head) % 2 ^ 28)

/-- A launch is triggered (R320). -/
def State.triggered (s : State) (launch : Nat) : Bool :=
  let q := tget LQ.reset s.lq (lqOf launch)
  let d := (q.tail + 2 ^ 28 - seqOf launch) % 2 ^ 28
  if d == 0 || decide (2 ^ 27 < d) then false
  else if d == 2 ^ 27 then true
  else if q.waits d then false
  else
    match s.launches.find? fun l => l.id == launch with
    | none => false
    | some l =>
      l.refused || l.retired ||
        (s.companies.filter fun c => c.launch == launch).all fun c => c.lineages.all fun x => x.ended || x.triggered

/-! ### The end of a task (R143) -/

/-- A waiter that belongs to a bank. -/
def Waiter.ofBank (w : Waiter) (i : StreamId) : Bool :=
  match w with
  | .stream j | .load j _ | .buf j | .lbuf j | .fetch j => j.tile == i.tile && j.core == i.core && j.bank == i.bank
  | _ => false

/-- Writes of a stream's clusters that are still to be performed. -/
def State.unwritten (s : State) (i : StreamId) (ks : List (Fin 4)) : List Nat :=
  ((s.reqsOf i ks).filter fun r => r.op.writes && !r.performed).map (·.id)

/-- Answers still due to a bank's streams are discarded on arrival, loads to be made anew are not, and answered records resume
none of them. -/
def State.forget (s : State) (i : StreamId) : State :=
  { s with
    reqs := (s.reqs.filter fun q => !(q.who.isStream i cls4 && q.stage == .lost)).map fun q =>
      if q.who.isStream i cls4 && q.dst != .none then { q with drop := true } else q,
    records := s.records.map (fun r => if r.waiter.ofBank i then { r with waiter := .none } else r),
    posted := s.posted.map (fun p => if p.waiter.ofBank i then { p with waiter := .none } else p) }

/-- A cluster after its task has ended: idle, and nothing of the task left that runs (R143). -/
def Cluster.clear (c : Cluster) : Cluster :=
  { c with st := .idle, flights := [], hold := .none, buf := .idle, lbuf := .idle, fill := .idle, code := .idle,
           waitAns := false, lsHeld := false, after := none, rstop := 0,
           rstack := List.replicate 16 0, lc := List.replicate 4 0, lb := List.replicate 4 0, le := List.replicate 4 0,
           pbits := 0 }

/-- A level of the loop table is counted for the task (R233). -/
def Bank.counts (b : Bank) : Bool := (b.task.bind (·.counted)).isSome

/-- The bank becomes free; Done of a task without a counted level becomes 1 (R233). The joined bit stays (Table flow 2). -/
def Bank.freed (b : Bank) : Bank :=
  { b with occ := false, cl := b.cl.map Cluster.clear, joins := [], pwb := [], replay := [],
           done := if b.task.isSome && !b.counts then 1 else b.done, task := none, started := false }

/-- The task of a bank ends; its lineage goes on when `goesOn`, and else ends once the task's writes have been performed (R143,
R286, R320, R322). -/
def State.endTask (s : State) (i : StreamId) (goesOn : Bool) : State :=
  let task := (s.bank i).task
  let left := s.unwritten i cls4
  let s := (s.forget i).modBank i Bank.freed
  match task with
  | none => s
  | some k =>
    if goesOn then s
    else if left.isEmpty then s.endLineage k.launch i.tile k.cIdx
    else { s with trigs := s.trigs ++ [⟨k.launch, i.tile, k.cIdx, left, true⟩] }

/-! ### Continuations (R315, R316) -/

/-- The lowest free record of the store. -/
def State.freeCont (s : State) : Option Nat :=
  (List.range (s.conts.length + 1)).find? fun n => n < 16384 && !(s.conts.any fun e => e.1 == n)

/-- The live values and floating-point state a cluster carries (R322). -/
def Cluster.carry (c : Cluster) (n : Nat) : ContCl :=
  ⟨(List.range n).map (fun k => c.reg (BitVec.ofNat 5 (k + 1))), c.fctl, c.fstat, c.srseed, c.spillp⟩

/-- The continuation record of a task (R322). -/
def State.contOf (s : State) (i : StreamId) (entry : Word) (n : Nat) (key : Option Word) (bar : Nat) : Cont :=
  let b := s.bank i
  let task := b.task.getD Task.reset
  { entry := entry &&& 0x007FFFFFFFFFFFC0, n, cls := b.cl.map fun c => c.carry n, barBase := b.barBase,
    barDepth := b.barDepth, done := b.done, total := b.total, triggered := task.triggered,
    company := b.company.toNat % 65536, tile := i.tile, core := i.core, key, bar, next := 0, task,
    priv := b.company.getLsbD 19, compReg := b.company }

/-- A key has an entry or one is free, those that messages on their way may need counted (R316). -/
def State.keyRoom (s : State) (key : Word) : Bool :=
  (s.keys.any fun (e : KeyEnt) => e.key == key) || decide (s.keys.length + s.regsPending.length + s.posts.length < 4096)

/-- WAITX registers the continuation of a joined task whose results have all landed, and the task ends (R322); none while
no record or key entry is free (R316). -/
def State.waitxRegister (s : State) (i : StreamId) (entry : Word) (n : Nat) (key : Reg) : Option State :=
  let k := (s.cl (onCl i 0)).reg key
  match s.freeCont with
  | none => none
  | some m =>
    if s.keyRoom k then
      let s' := { s with conts := tset s.conts m (s.contOf i entry n (some k) 0),
                         regsPending := s.regsPending ++ [(⟨s.tick + Config.delay s.fresh, i.tile, i.core, m,
                           s.unwritten i cls4⟩ : RegMsg)],
                         fresh := s.fresh + 1 }
      some (s'.endTask i true)
    else none

/-- Append a record to a barrier's list (R325). -/
def State.parkAt (s : State) (t b n : Nat) : State :=
  let r := s.barRec t b
  if r.parked == 0 then s.putBar t b { r with head := n, parked := 1 }
  else
    let last := (List.range (r.parked - 1)).foldl (fun m _ => (tget Cont.reset s.conts m).next) r.head
    let s := { s with conts := tmod Cont.reset s.conts last fun c => { c with next := n } }
    s.putBar t b { r with parked := (r.parked + 1) % 65536 }

end Sys2Proof.Machine
end

