-- ==== Sys2Proof/Machine/Loads.lean ====
section
/-!
DEFINITION. The M class (spec 12, R253-R268): access checks, LS bank grants, loads, stores, multiple registers, rows,
prefetch, atomics, bank reductions, fences and barriers; and the arrival of long-load and atomic replies (R216, R392).
-/

namespace Sys2Proof.Machine

/-! ### Access checks (Table memop 1) -/

/-- Where a checked access goes: an LS offset, or places with the bytes at each. -/
inductive Tgt where
  | ls (a : Nat)
  | mem (ps : List (Place × Nat))
  deriving DecidableEq, Repr

/-- A cause with the address and aux it reports. -/
abbrev AErr := Nat × Word × BitVec 32

/-- What an access at an address reports that does not translate: a fault, or UECC of the granule (R252, R399). -/
def XErr.report (e : XErr) (va : Word) : AErr :=
  match e with
  | .fault c aux => (c, va, aux)
  | .lost b => (cUECC, BitVec.ofNat 64 b.span.1, BitVec.ofNat 32 b.mem)

/-- What a flag window accepts of an operation (R240). -/
inductive FlagUse where
  | none | read | write
  deriving DecidableEq, Repr

/-- Translate a range page by page (R254, R259). -/
def xlRange (x : XReq) : List (Nat × List Byte) → State → Except AErr (List (Place × Nat) × State)
  | [], s => .ok ([], s)
  | (va, bs) :: ps, s =>
    match s.xl { x with va } with
    | .error e => .error (e.report (BitVec.ofNat 64 va))
    | .ok (p, s) =>
      match xlRange x ps s with
      | .error e => .error e
      | .ok (r, s) => .ok ((p, bs.length) :: r, s)

/-- Check an access of `n` bytes of cluster `k`, in the order of Table memop 1. -/
def State.accessCheck (s : State) (k : Fin 4) (sp : Spc) (ea : Word) (n gran : Nat) (wr : Bool) (fw : FlagUse) :
    Except AErr (Tgt × State) :=
  let a := ea.toNat
  if a % gran != 0 then .error (cDALIGN, ea, 0)
  else
    match sp with
    | .ls =>
      if 0x200000 < a + n || (wr && inRing a n) then .error (cPROT, ea, 0) else .ok (.ls a, s)
    | .tsm =>
      if inTsm a n then .ok (.mem [(⟨.tsm s.cur.tile a, false, none⟩, n)], s)
      else if (flagWin a).isSome && (fw == .read || (fw == .write && (s.curCl k).priv)) then
        .ok (.mem [(⟨.tsm s.cur.tile a, false, none⟩, n)], s)
      else .error (cPROT, ea, 0)
    | .virt =>
      let x : XReq := ⟨s.cur.tile, a, wr, false, !(s.curCl k).priv, 0, 0, s.cur.core⟩
      if 2 ^ 55 ≤ a then .error (cPROT, ea, x.aux 0 0 0)
      else
        match xlRange x (pieces 65536 a (List.replicate n 0)) s with
        | .error e => .error e
        | .ok (ps, s) => .ok (.mem ps, s)

/-- A cluster's checked access. -/
structure MAcc where
  k : Fin 4
  ea : Word
  tgt : Tgt
  deriving DecidableEq, Repr

/-- Check the access of every cluster of a list; the first that fails is the lowest (R254). -/
def State.checkAll (sp : Spc) (n gran : Nat) (wr : Bool) (fw : FlagUse) (ea : Cluster → Word) :
    List (Fin 4) → State → Except (Fin 4 × AErr) (List MAcc × State)
  | [], s => .ok ([], s)
  | k :: ks, s =>
    match s.accessCheck k sp (ea (s.curCl k)) n gran wr fw with
    | .error e => .error (k, e)
    | .ok (t, s') =>
      match checkAll sp n gran wr fw ea ks s' with
      | .error e => .error e
      | .ok (r, s'') => .ok (⟨k, ea (s.curCl k), t⟩ :: r, s'')

/-! ### LS bank grants (R238) -/

/-- Ask for the banks of each cluster's access: whether all are granted, and the grants (R238). -/
def State.lsAsk (s : State) (need : List (Fin 4 × BitVec 32)) : Bool × State :=
  let s := need.foldl (fun s (k, b) =>
    let x := s.curCore
    if (s.curCl k).lsHeld || x.lsUsed &&& b != 0 then s
    else
      (s.modCore s.cur.tile s.cur.core fun x => { x with lsUsed := x.lsUsed ||| b }).modCurCl k fun c =>
        { c with lsHeld := true }) s
  if need.all fun e => (s.curCl e.1).lsHeld then
    (true, need.foldl (fun s e => s.modCurCl e.1 fun c => { c with lsHeld := false }) s)
  else (false, s.modCore s.cur.tile s.cur.core fun x => { x with lsStallNow := true })

/-- Every access before the stream's latest FENCE with release has been performed (R275). -/
def State.fenceDone (s : State) (ks : List (Fin 4)) : Bool :=
  (s.reqsOf s.cur s.active).all fun r => r.performed || ks.all fun k => decide ((s.curCl k).fenced ≤ r.id)

/-- Perform the LS accesses of a bundle when its banks are granted and a release, or a write after a fence, may be performed
(R238, R274, R275). -/
def lsOp (ks : List (Fin 4)) (ord : MOrd) (wr : Bool) (need : List (Fin 4 × BitVec 32)) (act : State →
  State) (s : State) : Out :=
  if ordRel ord && !ks.isEmpty && !s.accessesDone s.cur s.active then s.stalled
  else if wr && !s.fenceDone ks then s.stalled
  else
    match s.lsAsk need with
    | (false, s) => s.stalled
    | (true, s) => (act s).done

/-! ### Loads (R256, R257) -/

/-- The LS load of one cluster: its value after 6 cycles, or the loss of an uncorrectable granule (R251, R256). -/
def State.lsLoad (s : State) (l : LoadRec) (a n : Nat) : State :=
  let i := onCl s.cur l.cl
  match s.badLs i.tile i.core a n with
  | [] => s.fly i 6 (.reg l.d (loadVal l.sz (mgets s.curCore.ls a n)) false) fNone
  | b :: _ =>
    if l.spec then
      (s.raise (s.cl i).priv { ueccRec b i.tile i.core kindF 0 false with cl := i.cl.val, bank := i.bank }).fly i 6
        (.reg l.d 0 true) fNone
    else s.fly i 6 (.lost l) fNone

/-- Issue the long load of one cluster: its destination becomes pending (R97, R256). -/
def State.longLoad (s : State) (i : StreamId) (l : LoadRec) (p : Place) (n : Nat) : State :=
  (s.modCl i fun c => c.setP l.d true).request (.stream i) (.read n) p.loc (if l.spec then .spec l else .load l) l.ord
    l.scp false p.memside

/-- The first place of a target. -/
def Tgt.place : Tgt → Option Place
  | .mem ((p, _) :: _) => some p
  | _ => none

def Tgt.lsAt : Tgt → Nat
  | .ls a => a
  | _ => 0

/-- LD and LDX (R256). -/
def loadOp (h : Hdr) (d : Reg) (m : Acc) (idx : Reg) (sh : BitVec 3) (s : State) : Out :=
  let ks := s.on h
  let n := sizBytes m.sz
  let fw := if m.sz == .i64 && m.ord == .plain then FlagUse.read else FlagUse.none
  if s.pendOn ks [d, m.base, idx] then s.stalled
  else
    match State.checkAll m.sp n n false fw (fun c => c.ea m.base idx sh m.off) ks s with
    | .error (k, c, e, aux) => s.trapped c k e aux
    | .ok (accs, s) =>
      let recOf := fun (x : MAcc) => (⟨x.k, d, m.sz, m.sp, x.ea, m.ord, m.scp, false⟩ : LoadRec)
      if m.sp == .ls then
        lsOp ks m.ord false (accs.map fun x => (x.k, lsBanks x.tgt.lsAt n))
          (fun s => accs.foldl (fun s x => s.lsLoad (recOf x) x.tgt.lsAt n) s) s
      else if ks.any fun k => (s.startCl k).inFlight d then s.drained
      else
        (accs.foldl (fun s x =>
          match x.tgt.place with
          | some p => s.longLoad (onCl s.cur x.k) (recOf x) p n
          | none => s) s).done

def execLd (h : Hdr) (d : Reg) (m : Acc) (s : State) : Out := loadOp h d m 0 0 s
def execLdx (h : Hdr) (d : Reg) (m : Acc) (idx : Reg) (sh : BitVec 3) (s : State) : Out := loadOp h d m idx sh s

/-- A speculative load does not translate: its destination takes 0 with D = 1; an uncorrectable granule has its record, on
which nothing waits (R252, R257). -/
def State.deferLoad (s : State) (i : StreamId) (l : LoadRec) (e : AErr) : State :=
  let (c, a, aux) := e
  let s := if c != cUECC then s
    else (s.loseLine c aux a).raise (s.cl i).priv
      { mkRec cUECC i.tile i.core kindF 0 aux a with cl := i.cl.val, bank := i.bank, pc := ueccBank c aux a }
  s.fly i 6 (.reg l.d 0 true) fNone

/-- One cluster of an LDS whose checks are done: deferred, or loaded (R257). -/
def State.ldsOne (s : State) (k : Fin 4) (l : LoadRec) (n : Nat) (t : Except AErr (Tgt × State)) : State :=
  match t with
  | .error e => s.deferLoad (onCl s.cur k) l e
  | .ok (.ls a, _) => s.lsLoad l a n
  | .ok (.mem ((p, _) :: _), _) => s.longLoad (onCl s.cur k) l p n
  | .ok (.mem [], _) => s

def execLds (h : Hdr) (d : Reg) (sz : Siz) (sp : Spc) (base : Reg) (off : BitVec 18) (s : State) : Out :=
  let ks := s.on h
  let n := sizBytes sz
  if s.pendOn ks [d, base] then s.stalled
  else if sp != .ls && ks.any fun k => (s.startCl k).inFlight d then s.drained
  else
    let ts := ks.map fun k => (k, s.accessCheck k sp ((s.curCl k).ea base 0 0 off) n n false .none)
    let need := ts.filterMap fun x =>
      match x.2 with
      | .ok (.ls a, _) => some (x.1, lsBanks a n)
      | _ => none
    let act := fun (s : State) => ts.foldl (fun s x =>
      s.ldsOne x.1 ⟨x.1, d, sz, sp, (s.curCl x.1).ea base 0 0 off, .plain, .core, true⟩ n x.2) s
    if need.isEmpty then (act s).done else lsOp ks .plain false need act s

/-! ### Stores (R256) -/

/-- Low bytes of a scalar. -/
def regBytes (n : Nat) (v : Word) : List Byte := leBytes n v.toNat

/-- A posted write of a stream (R256). -/
def State.postWrite (s : State) (i : StreamId) (p : Place) (bs : List Byte) (ord : MOrd) (scp : Scp) : State :=
  let op := match p.loc with
    | .tsm _ a => if (flagWin a).isSome then MemOp.flag (BitVec.ofNat 5 (leNat bs)) else MemOp.write bs
    | _ => MemOp.write bs
  s.request (.stream i) op p.loc .none ord scp false p.memside

/-- ST and STX (R256). -/
def storeOp (h : Hdr) (d : Reg) (m : Acc) (idx : Reg) (sh : BitVec 3) (s : State) : Out :=
  let ks := s.on h
  let n := sizBytes m.sz
  let fw := if m.sz == .i64 && m.ord == .plain then FlagUse.write else FlagUse.none
  if s.pendOn ks [d, m.base, idx] then s.stalled
  else
    match State.checkAll m.sp n n true fw (fun c => c.ea m.base idx sh m.off) ks s with
    | .error (k, c, e, aux) => s.trapped c k e aux
    | .ok (accs, s) =>
      if m.sp == .ls then
        lsOp ks m.ord true (accs.map fun x => (x.k, lsBanks x.tgt.lsAt n))
          (fun s => accs.foldl (fun s x =>
            s.lsWrite s.cur.tile s.cur.core x.tgt.lsAt (regBytes n ((s.curCl x.k).reg d))) s) s
      else
        (accs.foldl (fun s x =>
          match x.tgt.place with
          | some p => s.postWrite (onCl s.cur x.k) p (regBytes n ((s.curCl x.k).reg d)) m.ord m.scp
          | none => s) s).done

def execSt (h : Hdr) (d : Reg) (m : Acc) (s : State) : Out := storeOp h d m 0 0 s
def execStx (h : Hdr) (d : Reg) (m : Acc) (idx : Reg) (sh : BitVec 3) (s : State) : Out := storeOp h d m idx sh s

/-! ### Multiple registers (R258) -/

/-- The registers of a transfer: `cnt` from `first` on. -/
def regRun (first : Reg) (cnt : Nat) : List Reg := (List.range cnt).map fun i => first + BitVec.ofNat 5 i

/-- Registers in the first piece of a range: those below the first multiple of 65,536 above the address (R258). -/
def firstPiece (ea : Word) (cnt : Nat) : Nat :=
  let b := (ea.toNat / 65536 + 1) * 65536
  if b < ea.toNat + 8 * cnt then (b - ea.toNat) / 8 else cnt

/-- A piece of one cluster: its first register, count and address, and the values that it stores. -/
structure Piece where
  k : Fin 4
  first : Reg
  cnt : Nat
  ea : Word
  vals : List Word
  deriving DecidableEq, Repr

/-- The values of `cnt` registers from `first` on. -/
def Cluster.regVals (c : Cluster) (first : Reg) (cnt : Nat) : List Word := (regRun first cnt).map c.reg

/-- One cluster's transfer of a piece: registers from the first on, in ascending order, at a checked target (R258). -/
def State.pieceMove (s : State) (load : Bool) (sp : Spc) (x : Piece) (t : Tgt) : State :=
  let k := x.k
  let i := onCl s.cur k
  let ea := x.ea
  (List.range x.cnt).foldl (fun s j =>
    let r := x.first + BitVec.ofNat 5 j
    let v := regBytes 8 (x.vals.getD j 0)
    let a := ea + BitVec.ofNat 64 (8 * j)
    let l : LoadRec := ⟨k, r, .i64, sp, a, .plain, .core, false⟩
    match t with
    | .ls b =>
      if load then s.lsLoad l (b + 8 * j) 8
      else s.lsWrite i.tile i.core (b + 8 * j) v
    | .mem ((p, _) :: _) =>
      let loc := match p.loc with
        | .tsm t a => Loc.tsm t (a + 8 * j)
        | .hbm a => .hbm (a + 8 * j)
        | .far a => .far (a + 8 * j)
      if load then s.longLoad i l { p with loc } 8 else s.postWrite i { p with loc } v .plain .core
    | .mem [] => s) s

/-- Check every cluster's piece in ascending order (R258). -/
def checkPieces (load : Bool) (sp : Spc) : List Piece → State → Except (Fin 4 × AErr) (List (Piece × Tgt) × State)
  | [], s => .ok ([], s)
  | p :: ps, s =>
    match s.accessCheck p.k sp p.ea (8 * p.cnt) 8 (!load) .none with
    | .error e => .error (p.k, e)
    | .ok (t, s) =>
      match checkPieces load sp ps s with
      | .error e => .error e
      | .ok (r, s) => .ok ((p, t) :: r, s)

/-- Perform checked pieces: LS ones when their banks are granted. -/
def movePieces (load : Bool) (sp : Spc) (xs : List (Piece × Tgt)) (after : State → State) (s : State) : Out :=
  let act := fun (s : State) =>
    after (xs.foldl (fun s x => s.pieceMove load sp x.1 x.2) s)
  if sp == .ls then
    lsOp (xs.map (·.1.k)) .plain (!load) (xs.map fun x => (x.1.k, lsBanks x.2.lsAt (8 * x.1.cnt))) act s
  else (act s).done

/-- LDM and STM: the first piece is performed at issue, the second is held for the next advancing cycle (R258). -/
def multiOp (load : Bool) (i : Instr) (h : Hdr) (d : Reg) (cnt1 : BitVec 5) (sp : Spc) (base : Reg) (off : BitVec 18)
    (s : State) : Out :=
  let ks := s.on h
  let cnt := cnt1.toNat + 1
  let run := regRun d cnt
  if s.pendOn ks (base :: run) then s.stalled
  else if load && sp != .ls && ks.any (fun k => run.any (s.startCl k).inFlight) then s.drained
  else
    let ps := ks.map fun k =>
      let ea := (s.curCl k).ea base 0 0 off
      (⟨k, d, firstPiece ea cnt, ea, (s.curCl k).regVals d cnt⟩ : Piece)
    match checkPieces load sp ps s with
    | .error (k, c, e, aux) => s.trapped c k e aux
    | .ok (xs, s) =>
      movePieces load sp xs
        (fun s => xs.foldl (fun s x =>
          if x.1.cnt < cnt then
            s.modCurCl x.1.k fun c =>
              { c with hold := .piece false s.iss.bundle ((encode i).getD 0)
                                 (x.1.ea + BitVec.ofNat 64 (8 * x.1.cnt)) x.1.cnt (x.1.vals.drop x.1.cnt) }
          else s) s) s

def execLdm (h : Hdr) (d : Reg) (cnt1 : BitVec 5) (sp : Spc) (base : Reg) (off : BitVec 18) (s : State) : Out :=
  multiOp true (.ldm h d cnt1 sp base off) h d cnt1 sp base off s
def execStm (h : Hdr) (d : Reg) (cnt1 : BitVec 5) (sp : Spc) (base : Reg) (off : BitVec 18) (s : State) : Out :=
  multiOp false (.stm h d cnt1 sp base off) h d cnt1 sp base off s

/-- What a kept operation word of an LDM or STM asks for: load, first register, count, space. -/
def multiWord (w : Word) : Option (Bool × Reg × Nat × Spc) :=
  match decodeWord w with
  | .ok (.ldm _ d c sp _ _) => some (true, d, c.toNat + 1, sp)
  | .ok (.stm _ d c sp _ _) => some (false, d, c.toNat + 1, sp)
  | _ => none

/-- The second piece a cluster still has to perform. -/
def Cluster.pieceLeft (c : Cluster) : Option (Bool × Word × Word × Word × Nat × List Word) :=
  match c.hold with
  | .piece rp b op ea done vals => some (rp, b, op, ea, done, vals)
  | _ => none

/-- The second piece is done: a replayed one clears XFER (R258). -/
def Cluster.pieceDone (c : Cluster) : Cluster :=
  match c.hold with
  | .piece rp .. => { c with hold := .none, xfer := if rp then 0 else c.xfer }
  | _ => c

/-- The continuation of a stream's LDM or STM: its second pieces are checked and performed, or trap alone (R258). -/
def execLdmStmSecondPiece (id : StreamId) (s : State) : Out :=
  let s0 := { s with cur := id }
  let ks := s0.clsOf id
  let ps := ks.filterMap fun k =>
    match (s0.curCl k).pieceLeft with
    | some (rp, _, op, ea, done, vals) =>
      match multiWord op with
      | some (load, d, cnt, sp) =>
        let first := d + BitVec.ofNat 5 done
        -- a replay transfers the registers as they stand
        let vals := if rp then (s0.curCl k).regVals first (cnt - done) else vals
        some (load, sp, (⟨k, first, cnt - done, ea, vals⟩ : Piece))
      | none => none
    | none => none
  match ps with
  | [] => s0.done
  | (load, sp, _) :: _ =>
    match checkPieces load sp (ps.map (·.2.2)) s0 with
    | .ok (xs, s1) =>
      movePieces load sp xs (fun s => ks.foldl (fun s k => s.modCurCl k Cluster.pieceDone) s) s1
    | .error (k, c, e, aux) =>
      let left := ks.map fun j => (j, (s0.curCl j).pieceLeft)
      let bundle := (left.findSome? fun x => x.2.map (·.2.1)).getD 0
      let next := (s0.cl id).pc
      let s1 := (s0.loseLine c aux e).takeTrap id c k bundle e aux
      let s2 := left.foldl (fun s (j, p) =>
        match p with
        | some (_, _, op, ea, done, _) =>
          s.modCurCl j fun c =>
            { c with xfer := done, xferAddr := ea, xferOp := op, xferNext := next,
                     hold := if c.st == .parked then .piece true bundle op ea done [] else .none,
                     after := (s0.curCl j).after }
        | none => s.modCurCl j fun c => { c with xferNext := next, after := (s0.curCl j).after }) s1
      .next { s2 with iss := { s2.iss with res := .trap c k e aux } }

/-! ### Rows (R259) -/

/-- Pieces of a row: offset and length at each place, cut at 64 bytes (R272). -/
def rowParts (ps : List (Place × Nat)) : List (Place × Nat) :=
  ps.flatMap fun (p, n) => (List.range (n / 64)).map fun i =>
    let loc := match p.loc with
      | .tsm t a => Loc.tsm t (a + 64 * i)
      | .hbm a => .hbm (a + 64 * i)
      | .far a => .far (a + 64 * i)
    ({ p with loc }, 64)

/-- Send the requests of a cluster's row; they bring the data of the stalled bundle (R259). -/
def State.rowRequest (s : State) (k : Fin 4) (ps : List (Place × Nat)) (dst : RDst) (put : Buf → Cluster → Cluster) :
    State :=
  let parts := rowParts ps
  let first := s.nextId
  (parts.foldl (fun s (p, n) =>
    s.request (.stream (onCl s.cur k)) (.read n) p.loc dst .plain .core false p.memside) s).modCurCl k
      (put (.sent first parts.length))

def execLdrow (h : Hdr) (r : RowRef) (sp : Spc) (base idx : Reg) (sh : BitVec 3) (off : BitVec 18) (s : State) : Out :=
  let ks := s.on h
  if s.pendOn ks (base :: idx :: selRegs [r.r]) then s.stalled
  else
    match s.rowCheck ks [r] [] with
    | .wait => s.stalled
    | .trap c k e aux => s.trapped c k e aux
    | .go =>
      match State.checkAll sp 512 64 false .none (fun c => c.ea base idx sh off) ks s with
      | .error (k, c, e, aux) => s.trapped c k e aux
      | .ok (accs, s) =>
        let row := fun (s : State) (k : Fin 4) => (s.curCl k).rowSel r.r
        if sp == .ls then
          match accs.findSome? fun x =>
              ((s.badLs s.cur.tile s.cur.core x.tgt.lsAt 512).head?).map fun b => (x.k, b) with
          | some (k, b) =>
            if (s.curCl k).buf == .lost then s.stalled
            else
              ((s.raise (s.curCl k).priv
                { ueccRec b s.cur.tile s.cur.core kindS 0 false with cl := k.val, bank := s.cur.bank,
                                                                     waiter := .buf (onCl s.cur k) }).modCurCl k
                fun c => { c with buf := .lost }).stalled
          | none =>
            lsOp ks .plain false (accs.map fun x => (x.k, lsBanks x.tgt.lsAt 512))
              (fun s => accs.foldl (fun s x =>
                s.fly (onCl s.cur x.k) 6 (.row r.p (row s x.k) 0 (mgets s.curCore.ls x.tgt.lsAt 512)) fNone) s) s
        else
          let s := accs.foldl (fun s x =>
            match (s.curCl x.k).buf, x.tgt with
            | .idle, .mem ps => s.rowRequest x.k ps .buf fun b c => { c with buf := b }
            | _, _ => s) s
          if accs.all fun x => match (s.curCl x.k).buf with
              | .got _ => true
              | _ => false then
            (accs.foldl (fun s x =>
              match (s.curCl x.k).buf with
              | .got bs =>
                (s.fly (onCl s.cur x.k) 6 (.row r.p (row s x.k) 0 bs) fNone).modCurCl x.k fun c => { c with buf := .idle }
              | _ => s) s).done
          else s.stalled

def execStrow (h : Hdr) (r : RowRef) (sp : Spc) (base idx : Reg) (sh : BitVec 3) (off : BitVec 18) (s : State) : Out :=
  let ks := s.on h
  if s.pendOn ks (base :: idx :: selRegs [r.r]) then s.stalled
  else
    match s.rowCheck ks [r] [r] with
    | .wait => s.stalled
    | .trap c k e aux => s.trapped c k e aux
    | .go =>
      match State.checkAll sp 512 64 true .none (fun c => c.ea base idx sh off) ks s with
      | .error (k, c, e, aux) => s.trapped c k e aux
      | .ok (accs, s) =>
        let bytes := fun (s : State) (k : Fin 4) => s.curCore.row r.p ((s.curCl k).rowSel r.r)
        if sp == .ls then
          lsOp ks .plain true (accs.map fun x => (x.k, lsBanks x.tgt.lsAt 512))
            (fun s => accs.foldl (fun s x => s.lsWrite s.cur.tile s.cur.core x.tgt.lsAt (bytes s x.k)) s) s
        else
          (accs.foldl (fun s x =>
            match x.tgt with
            | .mem ps =>
              ((rowParts ps).zip (chunks 8 64 (bytes s x.k))).foldl (fun s (p, bs) =>
                s.postWrite (onCl s.cur x.k) p.1 bs .plain .core) s
            | _ => s) s).done

/-! ### Prefetch (R260) -/

/-- PF is posted: a request for the line travels to its home; an address that does not translate is skipped (R260). -/
def execPf (h : Hdr) (base idx : Reg) (sh : BitVec 3) (off : BitVec 18) (s : State) : Out :=
  let ks := s.on h
  if s.pendOn ks [base, idx] then s.stalled
  else
    (ks.foldl (fun s k =>
      let c := s.curCl k
      match s.xl ⟨s.cur.tile, (c.ea base idx sh off).toNat, false, false, !c.priv, 0, 0, s.cur.core⟩ with
      | .error _ => s
      | .ok (p, s) =>
        match p.loc with
        | .hbm a => s.request (.stream (onCl s.cur k)) .pf (.hbm (a / 64 * 64)) .none .plain .core false p.memside
        | _ => s) s).done

/-! ### Atomics (R261, R262) -/

/-- An atomic of the bundle: each true cluster sends its own request (R261). -/
def atomOp (op : AOp) (h : Hdr) (d : Reg) (m : Acc) (a : Reg) (comb : Bool) (s : State) : Out :=
  let ks := s.on h
  let n := sizBytes m.sz
  if s.pendOn ks [d, m.base, a] then s.stalled
  else if ks.any fun k => (s.startCl k).inFlight d then s.drained
  else
    match State.checkAll m.sp n n true .none (fun c => c.ea m.base 0 0 m.off) ks s with
    | .error (k, c, e, aux) => s.trapped c k e aux
    | .ok (accs, s) =>
      (accs.foldl (fun s x =>
        let i := onCl s.cur x.k
        let c := s.curCl x.k
        let cut := fun (v : Word) => BitVec.ofNat 64 (v.toNat % 2 ^ (8 * n))
        match x.tgt.place with
        | some p =>
          (s.modCl i fun c => c.setP d true).request (.stream i) (.atom op m.sz (cut (c.reg a)) (cut (c.reg d))) p.loc
            (.atom d) m.ord m.scp comb p.memside
        | none => s) s).done

def execAadd (h : Hdr) (d : Reg) (m : Acc) (a : Reg) (comb : Bool) (s : State) : Out := atomOp .add h d m a comb s
def execAfadd (h : Hdr) (d : Reg) (m : Acc) (a : Reg) (comb : Bool) (s : State) : Out := atomOp .fadd h d m a comb s
def execAmin (h : Hdr) (d : Reg) (m : Acc) (a : Reg) (s : State) : Out := atomOp .min h d m a false s
def execAmax (h : Hdr) (d : Reg) (m : Acc) (a : Reg) (s : State) : Out := atomOp .max h d m a false s
def execAminn (h : Hdr) (d : Reg) (m : Acc) (a : Reg) (s : State) : Out := atomOp .minn h d m a false s
def execAmaxn (h : Hdr) (d : Reg) (m : Acc) (a : Reg) (s : State) : Out := atomOp .maxn h d m a false s
def execAand (h : Hdr) (d : Reg) (m : Acc) (a : Reg) (s : State) : Out := atomOp .and h d m a false s
def execAor (h : Hdr) (d : Reg) (m : Acc) (a : Reg) (s : State) : Out := atomOp .or h d m a false s
def execAxor (h : Hdr) (d : Reg) (m : Acc) (a : Reg) (s : State) : Out := atomOp .xor h d m a false s
def execAxchg (h : Hdr) (d : Reg) (m : Acc) (a : Reg) (s : State) : Out := atomOp .xchg h d m a false s
def execAcas (h : Hdr) (d : Reg) (m : Acc) (a : Reg) (s : State) : Out := atomOp .cas h d m a false s

/-! ### Bank reductions (R263) -/

def execBred (h : Hdr) (r : RowRef) (op : RedOp) (t : RedTy) (base : Reg) (off : BitVec 18) (s : State) : Out :=
  let ks := s.on h
  if s.pendOn ks (base :: selRegs [r.r]) then s.stalled
  else
    match s.rowCheck ks [r] [r] with
    | .wait => s.stalled
    | .trap c k e aux => s.trapped c k e aux
    | .go =>
      match State.checkAll .tsm 512 64 true .none (fun c => c.ea base 0 0 off) ks s with
      | .error (k, c, e, aux) => s.trapped c k e aux
      | .ok (accs, s) =>
        (accs.foldl (fun s x =>
          let bs := s.curCore.row r.p ((s.curCl x.k).rowSel r.r)
          match x.tgt with
          | .mem ps =>
            ((rowParts ps).zip (chunks 8 64 bs)).foldl (fun s (p, bs) =>
              s.request (.stream (onCl s.cur x.k)) (.red op t bs) p.1.loc .none .plain .core false false) s
          | _ => s) s).done

/-! ### Fences (R264, R285) -/

def execFence (h : Hdr) (_scp : Scp) (ord : MOrd) (s : State) : Out :=
  let ks := s.on h
  let needLoads := ord == .acq || ord == .ar || ord == .sc
  let needStores := ord == .rel || ord == .ar || ord == .sc
  if ks.isEmpty then s.done
  else if (needLoads && !s.loadsDone s.cur s.active) || (needStores && !s.storesDone s.cur s.active) then s.stalled
  else if needStores then (s.modCls s.cur ks fun c => { c with fenced := (s.iss.below).getD s.nextId }).done
  else s.done

/-! ### Barriers (R265-R268) -/

/-- Barrier id of an offset under the bank's BARBASE (R266). -/
def Bank.barId (b : Bank) (o : Nat) : Nat :=
  if b.barDepth != 0 && o < b.barDepth then (b.barBase + o) % b.barDepth else o

/-- A request for a TSM bank that can be performed now. -/
def State.tsmReady (s : State) (t b : Nat) (r : Req) : Bool :=
  match r.loc with
  | .tsm u a => u == t && tsmBank a == b && r.stage == .wait && decide (r.due ≤ s.quantum) && s.mayPerform r
  | _ => false

/-- The bank that holds a barrier's record is free in this cycle: it has performed nothing, and no request waits there (R241,
R265). -/
def State.barBankFree (s : State) (t id : Nat) : Bool :=
  !(s.tile t).bankUsed.contains (id % 512) && !(s.reqs.any fun r => s.tsmReady t (id % 512) r)

/-- The bank performs one operation in this cycle. -/
def State.useBank (s : State) (t b : Nat) : State := s.modTile t fun x => { x with bankUsed := b :: x.bankUsed }

/-- A barrier operation acts once, with the lowest true cluster, after the stream's earlier accesses, as one step of the
record's bank (R265, R266, R267). -/
def barOp (h : Hdr) (o : BitVec 12) (srcs : List Reg) (act : State → Fin 4 → Nat → Out) (s : State) : Out :=
  match s.on h with
  | [] => s.done
  | k :: ks =>
    if s.pendOn (k :: ks) srcs then s.stalled
    else if !s.accessesDone s.cur s.active || !s.barBankFree s.cur.tile (s.curBank.barId o.toNat) then s.stalled
    else act (s.useBank s.cur.tile (s.curBank.barId o.toNat % 512)) k (s.curBank.barId o.toNat)

def execBarinit (h : Hdr) (o : BitVec 12) (a : Reg) (s : State) : Out :=
  barOp h o [a] (fun s k id =>
    let r := s.barRec s.cur.tile id
    if r.waiters then s.trapped cBARBUSY k 0 (BitVec.ofNat 32 id)
    else (s.putBar s.cur.tile id { r with count := ((s.curCl k).reg a).toNat % 65536, arrived := 0 }).done) s

def execBara (h : Hdr) (o : BitVec 12) (s : State) : Out :=
  barOp h o [] (fun s _ id => (s.barArrive s.cur.tile id).2.done) s

/-- The Stalled bit of the present stream: cluster 0's while joined (R266). -/
def State.stalledBit (s : State) : Nat := 4 * s.cur.core + if s.curBank.joined then 0 else s.cur.cl.val

def execBarw (h : Hdr) (o : BitVec 12) (s : State) : Out :=
  barOp h o [] (fun s _ id =>
    match s.barArrive s.cur.tile id with
    | (true, s) => s.done
    | (false, s) =>
      let r := s.barRec s.cur.tile id
      let s := s.putBar s.cur.tile id { r with stalled := setBit r.stalled s.stalledBit true }
      let k : Fin 4 := if s.curBank.joined then 0 else s.cur.cl
      (s.modCurCl k fun c => { c with hold := .barw id }).done) s

/-- BARP: the arrival counts, the continuation is registered and the task ends (R267). -/
def execBarp (h : Hdr) (o : BitVec 12) (a : Reg) (cnt : BitVec 4) (s : State) : Out :=
  if !s.curBank.joined then
    if (s.curCl s.cur.cl).guard h then s.trapped cDIVERGE s.cur.cl 0 (maskOf [s.cur.cl]) else s.done
  else
    barOp h o [a] (fun s k id =>
      let n := cnt.toNat
      let entry := (s.curCl k).reg a
      if s.pendOn cls4 (regRun 1 n) then s.stalled
      else if entry.toNat % 64 != 0 then s.trapped cALIGN k entry 0
      else
        match s.freeCont with
        | none => s.stalled
        | some m =>
          let rcd := s.contOf s.cur entry n none id
          let s := { s with conts := tset s.conts m rcd }
          let (complete, s) := s.barArrive s.cur.tile id
          let s := if complete then s.releaseCont m 0 false else s.parkAt s.cur.tile id m
          (s.endTask s.cur true).done) s

def execBarrot (h : Hdr) (s : State) : Out :=
  if (s.on h).isEmpty then s.done
  else
    (s.modCore s.cur.tile s.cur.core fun x => { x with endFx := x.endFx ++ [.barrot s.cur.bank] }).done

/-! ### Replies (R97, R216, R251, R261, R392) -/

/-- A long load's data reaches its destination. -/
def State.loadReturn (s : State) (i : StreamId) (l : LoadRec) (bs : List Byte) : State :=
  s.modCl i fun c => ((c.setReg l.d (loadVal l.sz bs)).setD l.d false).setP l.d false

/-- UECC record of the granule for which a request's data was dropped; one of another module names no memory of this one
(R252). -/
def ueccOf (r : Req) (i : StreamId) (kind : Nat) : FRec :=
  match r.cell with
  | some b => { ueccRec b i.tile i.core kind 0 false with cl := i.cl.val, bank := i.bank }
  | none => { mkRec cUECC i.tile i.core kind 0 3 0 with cl := i.cl.val, bank := i.bank }

/-- The reply of a request of a stream arrives (R97, R216, R257, R259). -/
def State.streamReply (s : State) (r : Req) (i : StreamId) (bs : List Byte) (bad : Bool) : State :=
  match r.dst with
  | .load l =>
    if bad then
      -- it keeps its place until the record is answered
      (s.modReq r.id fun q => { q with stage := .lost }).raise (s.cl i).priv { ueccOf r i kindS with waiter := .load i l }
    else (s.delReq r.id).loadReturn i l bs
  | .spec l =>
    if bad then
      ((s.delReq r.id).raise (s.cl i).priv (ueccOf r i kindF)).modCl i fun c =>
        ((c.setReg l.d 0).setD l.d true).setP l.d false
    else (s.delReq r.id).loadReturn i l bs
  | _ => s.delReq r.id

/-- Every part of a row or record has come: its bytes in order, whether any was bad, and the state without them. -/
def State.gather (s : State) (first n : Nat) : Option (List Byte × Bool × State) :=
  let parts := (List.range n).filterMap fun j => s.findReq (first + j)
  if parts.length == n && parts.all fun q => q.stage.isReply then
    some (parts.flatMap (fun q => match q.stage with | .reply bs _ _ => bs | _ => []),
      parts.any (fun q => match q.stage with | .reply _ _ b => b | _ => false),
      { s with reqs := s.reqs.filter fun q => !(first ≤ q.id && q.id < first + n) })
  else none

/-- The last part of a row or of a launch record arrives (R259, R318). -/
def State.bufReply (s : State) (r : Req) (i : StreamId) (rowBuf : Bool) : State :=
  let c := s.cl i
  match if rowBuf then c.buf else c.lbuf with
  | .sent first n =>
    match s.gather first n with
    | none => s
    | some (bs, bad, s') =>
      let put := fun (s : State) (b : Buf) =>
        s.modCl i fun c => if rowBuf then { c with buf := b } else { c with lbuf := b }
      if bad then
        let q := ((List.range n).filterMap fun j => s.findReq (first + j)).find? fun q =>
          match q.stage with | .reply _ _ b => b | _ => false
        (put s' .lost).raise c.priv
          { ueccOf (q.getD r) i kindS with waiter := if rowBuf then .buf i else .lbuf i }
      else put s' (.got bs)
  | _ => s.delReq r.id

/-- A fetch block enters the instruction cache, which keeps 1,024 (R12, R61). -/
def Core.cacheCode (x : Core) (n : Nat) (bs : List Byte) : Core :=
  let l := x.icache.filter (fun e => e.1 != n) ++ [(n, bs)]
  { x with icache := l.drop (l.length - 1024) }

/-- The fetch block that a stream asked for has come. -/
def State.codeCome (s : State) (i : StreamId) (bs : List Byte) : State :=
  (s.modCore i.tile i.core fun x => x.cacheCode (s.cl i).codeAt bs).modCl i fun c => { c with code := .idle }

/-- The stream's fetch waits for the answer to a record (log entry 17); it counts as parked meanwhile (R219). -/
def State.fetchStops (s : State) (i : StreamId) (f : FRec) : State :=
  ((s.raise (s.cl i).priv { f with waiter := .fetch i }).modCl i fun c => { c with code := .lost }).modCls i (s.clsOf i)
    fun c => { c with waitAns := true }

/-- A fetch block is uncorrectable in memory. -/
def State.codeLost (s : State) (r : Req) (i : StreamId) : State :=
  (s.delReq r.id).fetchStops i (ueccOf r i kindS)

/-- The fetch's translation meets an uncorrectable table entry or descriptor: the stream waits in the same way (R251, R399). -/
def State.fetchLost (s : State) (i : StreamId) (g : BadCell) : State :=
  match (s.cl i).code with
  | .lost => s
  | c =>
    let s := match c with
      | .sent id _ => s.dropReq id
      | _ => s
    (s.loseCell g).fetchStops i { ueccRec g i.tile i.core kindS 0 false with cl := i.cl.val, bank := i.bank }

/-- A reply of stage `.reply` whose time has come. -/
def State.replyDue (s : State) (id : Nat) : Option (Req × List Byte × Bool × Bool) :=
  match s.findReq id with
  | some r =>
    match r.stage with
    | .reply bs nv bad => if r.due ≤ s.quantum then some (r, bs, nv, bad) else none
    | _ => none
  | none => none

/-- A long load's data returns to its stream (R97, R216, R251, R257, R259). -/
def execLongLoadReturn (id : Nat) (s : State) : Out :=
  match s.replyDue id with
  | none => .next s
  | some (r, bs, _, bad) =>
    match r.who with
    | .stream i =>
      if r.drop then .next (s.delReq id)
      else
        match r.dst with
        | .code => .next (if bad then s.codeLost r i else (s.delReq id).codeCome i bs)
        | .buf => .next (s.bufReply r i true)
        | .lbuf => .next (s.bufReply r i false)
        | .load _ | .spec _ => .next (s.streamReply r i bs bad)
        | _ => .next s
    | _ => .next s

/-- An atomic's or FRAMEOP's old value returns (R90, R251, R261, R262). -/
def execAtomicReply (id : Nat) (s : State) : Out :=
  match s.replyDue id with
  | none => .next s
  | some (r, bs, nv, bad) =>
    match r.who, r.dst with
    | .stream i, .atom d | .stream i, .frame d =>
      if r.drop then .next (s.delReq id)
      else
        .next <| (s.delReq id).modCl i fun c =>
          if bad then ((c.setReg d 0).setD d true).setP d false
          else
            let c := ((c.setReg d (BitVec.ofNat 64 (leNat bs))).setD d false).setP d false
            { c with fstat := c.fstat ||| flagIf nv fNV, flagsCyc := c.flagsCyc ||| flagIf nv fNV }
    | _, _ => .next s

/-- A combinable atomic without reply 2^17 ticks after its issue: the destination takes the deferred fault (R392). -/
def execAtomicReplyTimeout (id : Nat) (s : State) : Out :=
  match s.findReq id with
  | some r =>
    match r.who, r.dst with
    | .stream i, .atom d =>
      if r.comb && !r.drop && r.tick + 2 ^ 17 ≤ s.tick then
        let held : Bool := match r.stage with
          | .slip t e =>
            match (s.tile t).comb.find? fun x => x.1 == e with
            | some (_, x) => x.slips.any fun y => y.req == id
            | none => false
          | _ => true
        let s := if held then s.modReq id fun q => { q with drop := true } else s.delReq id
        .next <| s.modCl i fun c => ((c.setReg d 0).setD d true).setP d false
      else .next s
    | _, _ => .next s
  | none => .next s

end Sys2Proof.Machine
end

