-- ==== Sys2Proof/Machine/Enqueue.lean ====
section
/-!
DEFINITION. The E class at issue (R72, R170, R187, R289-R293): the issue checks of the matrix engine, the projection unit,
the courier and the port engine, and the enqueueing of entries.
-/

namespace Sys2Proof.Machine

/-! ### Rings (R289-R291) -/

/-- LS offset of an engine's ring (Table eq 1). -/
def ringBase (g : Eng) : Nat := 0x1FC000 + 0x1000 * (engIdx g).val

def Slot.bytes (e : Slot) : List Byte :=
  [e.w0, e.w1, e.w2, e.w3, e.w4, e.w5, e.w6, 0].flatMap fun w => leBytes 8 w.toNat

/-- The entry a slot of an LS holds. -/
def readSlot (ls : Mem) (g : Eng) (n : Nat) : Slot :=
  let ws := (chunks 8 8 (mgets ls (ringBase g + 64 * (n % 64)) 64)).map fun c => BitVec.ofNat 64 (leNat c)
  ⟨ws.getD 0 0, ws.getD 1 0, ws.getD 2 0, ws.getD 3 0, ws.getD 4 0, ws.getD 5 0, ws.getD 6 0⟩

/-- The entry at the head of a core's ring. -/
def Core.head (x : Core) (g : Eng) : Option Slot :=
  let r := x.rings.get (engIdx g)
  if r.count == 0 then none else some (readSlot x.ls g r.head)

/-- Remove the head of a ring (Table eq 4). -/
def Core.popHead (x : Core) (g : Eng) : Core :=
  let r := x.rings.get (engIdx g)
  { x with rings := x.rings.set (engIdx g) ⟨(r.head + 1) % 64, r.tail, r.count - 1⟩ }

/-- Fields of an entry's words (Table eq 2, Table enc 2). -/
def Slot.bit (e : Slot) (n : Nat) : Bool := e.w0.getLsbD n
def Slot.fld (e : Slot) (p w : Nat) : Nat := (e.w0.extractLsb' p w).toNat
def Slot.opcode (e : Slot) : Nat := e.fld 52 8
def Slot.bankNo (e : Slot) : Nat := e.fld 50 1
def Slot.clNo (e : Slot) : Fin 4 := Fin.ofNat 4 (e.fld 48 2)
def Slot.wsem (e : Slot) : Sem := e.w0.extractLsb' 40 8
def Slot.wcnt (e : Slot) : Nat := e.fld 36 4
def Slot.ssem (e : Slot) : Sem := e.w0.extractLsb' 28 8
def Slot.sinc (e : Slot) : BitVec 4 := e.w0.extractLsb' 24 4
def Slot.acq (e : Slot) : Bool := e.bit 23
def Slot.rel (e : Slot) : Bool := e.bit 22
def Slot.pd (e : Slot) : Pan := e.w0.extractLsb' 14 5
def Slot.pa (e : Slot) : Pan := e.w0.extractLsb' 9 5
def Slot.pb (e : Slot) : Pan := e.w0.extractLsb' 4 5
def Slot.fctl (e : Slot) : BitVec 5 := e.w1.extractLsb' 0 5
def Slot.companyId (e : Slot) : Nat := (e.w1.extractLsb' 32 16).toNat

/-- Word 0 of a slot: the operation word with E and the guard replaced by bank and cluster (Table eq 2). -/
def slotWord (w : Word) (bank : Nat) (k : Fin 4) : Word :=
  (w &&& 0x7FF0FFFFFFFFFFFF) ||| (BitVec.ofNat 64 (bank % 2) <<< 50) ||| (BitVec.ofNat 64 k.val <<< 48)

/-- Append an entry at the tail of a ring through the ring write path (R291, R292). -/
def State.pushSlot (s : State) (t c : Nat) (g : Eng) (e : Slot) : State :=
  let r := (s.core t c).rings.get (engIdx g)
  let s := s.lsWrite t c (ringBase g + 64 * (r.tail % 64)) e.bytes
  s.modCore t c fun x =>
    { x with rings := x.rings.set (engIdx g) ⟨r.head, (r.tail + 1) % 64, r.count + 1⟩ }

/-- The company of a launch is saved on a tile. -/
def State.coSaved (s : State) (launch t : Nat) : Bool :=
  s.companies.any fun c => c.launch == launch && c.tile == t && c.saved

/-- Entries of restored companies wait for room in a ring: they stand before every new one (R182, R300). -/
def State.ringOwed (s : State) (t c : Nat) (g : Eng) : Bool :=
  s.savedCores.any fun v => v.tile == t && v.core == c && !(v.rings.get (engIdx g)).isEmpty && !s.coSaved v.launch t

/-! ### Issue -/

/-- The scalars whose values the slot carries in words 3, 4 and 5 (Table eq 2, R330). -/
structure Vals where
  r3 : Option Reg
  r4 : Option Reg
  r5 : Option Reg

def Vals.regs (v : Vals) : List Reg := [v.r3, v.r4, v.r5].filterMap id

/-- The value of a named scalar. -/
def Cluster.optReg (c : Cluster) (r : Option Reg) : Word :=
  match r with
  | some r => c.reg r
  | none => 0

/-- One cluster's entry: a draw when it takes one, and the slot (R42, R290). -/
def State.enqueueOne (s : State) (g : Eng) (i : Instr) (v : Vals) (draws : Cluster → Bool) (k : Fin 4) : State :=
  let c := s.curCl k
  let x := srDraw c.srseed
  let d := draws c
  let e : Slot :=
    { w0 := slotWord ((encode i).getD 0) s.cur.bank k,
      w1 := (c.fctl.zeroExtend 64) ||| ((s.curBank.company.extractLsb' 0 16).zeroExtend 64 <<< 32),
      w2 := if d then x else 0, w3 := c.optReg v.r3, w4 := c.optReg v.r4, w5 := c.optReg v.r5,
      w6 := BitVec.ofNat 64 (s.cycles s.cur.tile) }
  (if d then s.modCurCl k fun c => { c with srseed := x } else s).pushSlot s.cur.tile s.cur.core g e

/-- An E-class operation: its issue check in each true cluster, room in the ring, then one entry for each (R170, R292). -/
def engOp (g : Eng) (i : Instr) (h : Hdr) (v : Vals) (draws : Cluster → Bool) (chk : State → Fin 4 → Option AErr)
    (s : State) : Out :=
  let ks := s.on h
  if s.pendOn ks v.regs then s.stalled
  else
    match ks.findSome? fun k => (chk s k).map fun e => (k, e) with
    | some (k, c, e, aux) => s.trapped c k e aux
    | none =>
      if !ks.isEmpty &&
          (64 < (s.curCore.rings.get (engIdx g)).count + ks.length || s.ringOwed s.cur.tile s.cur.core g) then s.stalled
      else (ks.foldl (fun s k => s.enqueueOne g i v draws k) s).done

def noDraw (_ : Cluster) : Bool := false

/-! ### Matrix engine (R175, R176-R179) -/

/-- A destination panel that equals a source (R175). -/
def panelClash (d : Pan) (srcs : List Pan) : Option AErr :=
  (srcs.find? (· == d)).map fun a => (cPSHAPE, 0, BitVec.ofNat 32 (d.toNat + 32 * a.toNat))

def matOp (i : Instr) (h : Hdr) (d : Pan) (srcs : List Pan) (draws : Cluster → Bool) (s : State) : Out :=
  engOp .matrix i h ⟨none, none, none⟩ draws (fun _ _ => panelClash d srcs) s

def execMma (h : Hdr) (y : Sync) (d a b : Pan) (t : Ty) (s : State) : Out :=
  matOp (.mma h y d a b t) h d [a, b, b + 1] noDraw s
def execMzero (h : Hdr) (y : Sync) (d : Pan) (s : State) : Out := matOp (.mzero h y d) h d [] noDraw s

/-- A conversion to a floating-point type that rounds stochastically takes a draw (R42, R178). A conversion to an integer
type takes none, whatever FCTL.RM says: R178 saturates without rounding, and neither rule settles it (the model's choice,
log entry 62). -/
def execMcvt (h : Hdr) (y : Sync) (d a : Pan) (rm : Rnd) (t : Ty) (s : State) : Out :=
  matOp (.mcvt h y d a rm t) h d [a]
    (fun c => (tyFmt t).isSome && resolveRm rm (c.fctl.extractLsb' 0 3) == .sr) s
def execMtrn (h : Hdr) (y : Sync) (d a : Pan) (t : Ty) (s : State) : Out :=
  matOp (.mtrn h y d a t) h d [a] noDraw s

/-! ### Projection unit (R187, R190, R205) -/

def execVpinit (h : Hdr) (y : Sync) (p : Pan) (a : Reg) (s : State) : Out :=
  engOp .proj (.vpinit h y p a) h ⟨none, none, some a⟩ noDraw (fun _ _ => none) s
def execVproj (h : Hdr) (y : Sync) (p p2 : Pan) (a : Reg) (s : State) : Out :=
  engOp .proj (.vproj h y p p2 a) h ⟨none, none, some a⟩ noDraw (fun _ _ => panelClash p [p2]) s
def execVpback (h : Hdr) (y : Sync) (p p2 : Pan) (a : Reg) (s : State) : Out :=
  engOp .proj (.vpback h y p p2 a) h ⟨none, none, some a⟩ noDraw (fun _ _ => panelClash p [p2]) s
def execVpmerge (h : Hdr) (y : Sync) (p p2 : Pan) (s : State) : Out :=
  engOp .proj (.vpmerge h y p p2) h ⟨none, none, none⟩ noDraw (fun _ _ => panelClash p [p2]) s
def execVpemit (h : Hdr) (y : Sync) (p : Pan) (a : Reg) (s : State) : Out :=
  engOp .proj (.vpemit h y p a) h ⟨none, none, some a⟩ (fun _ => true) (fun _ _ => none) s

/-! ### Courier (R297, R298, R406) -/

/-- A count scalar of Table eq 8. -/
structure Cnt where
  /-- Bytes, or elements of CPYGP. -/
  n : Nat
  /-- Element bytes of CPYGP. -/
  e : Nat
  row0 : Nat
  tags : Bool
  zeroOk : Bool
  deriving DecidableEq, Repr

/-- Count scalar of CPYLP and CPYSP. -/
def panCnt (w : Word) : Cnt :=
  { n := (w.extractLsb' 0 21).toNat, e := 0, row0 := (w.extractLsb' 24 6).toNat, tags := w.getLsbD 63,
    zeroOk := w.extractLsb' 21 3 == 0 && w.extractLsb' 30 33 == 0 }

/-- Count scalar of CPYGP. -/
def gathCnt (w : Word) : Cnt :=
  let c := (w.extractLsb' 16 2).toNat
  { n := (w.extractLsb' 0 12).toNat, e := 64 * 2 ^ c, row0 := (w.extractLsb' 24 6).toNat, tags := w.getLsbD 63,
    zeroOk := w.extractLsb' 12 4 == 0 && w.extractLsb' 18 6 == 0 && w.extractLsb' 30 33 == 0 &&
      (!w.getLsbD 63 || c == 3) }

/-- Bytes of CPYMM, CPYRED, CPYZ, SEND and RECV. -/
def byteCnt (w : Word) : Nat := (w.extractLsb' 0 40).toNat

/-- PSHAPE with a code of Table eq 10. -/
def shapeErr (v : Word) (code : Nat) : AErr := (cPSHAPE, v, BitVec.ofNat 32 code)

/-- The PROT check of an address scalar for `n` bytes (Table eq 10 row 5). -/
def addrErr (w : Word) (n : Nat) (written noLs : Bool) : Option AErr :=
  match cAddr w with
  | none => some (cPROT, w, 0)
  | some (.ls a) =>
    if noLs || 0x200000 < a + n || (written && inRing a n) then some (cPROT, w, 0) else none
  | some (.tsm a) => if inTsm a n then none else some (cPROT, w, 0)
  | some _ => none

/-- The DALIGN check of an address of kind 0-2 (Table eq 10 row 6). -/
def alignErr (w : Word) (k : Nat) : Option AErr :=
  match cAddr w with
  | some (.virt a) | some (.ls a) | some (.tsm a) => if a % k != 0 then some (cDALIGN, w, 0) else none
  | _ => none

/-- Checks of a panel copy: the address and count scalars' values (R298). -/
def panCopyErr (p : Pan) (addr cnt : Word) (written : Bool) : Option AErr :=
  let c := panCnt cnt
  let rows := c.n / 512
  if !c.zeroOk then some (shapeErr cnt 1)
  else if c.n == 0 then none
  else if c.n % 512 != 0 then some (shapeErr cnt 2)
  else if 2048 < p.toNat * 64 + c.row0 + rows then some (shapeErr cnt 3)
  else
    match addrErr addr (rows * if c.tags then 544 else 512) written false with
    | some e => some e
    | none => alignErr addr 32

/-- Checks of CPYGP. -/
def gatherErr (p : Pan) (list cnt : Word) : Option AErr :=
  let c := gathCnt cnt
  let rows := c.n * c.e / 512
  if !c.zeroOk then some (shapeErr cnt 1)
  else if c.n == 0 then none
  else if c.n * c.e % 512 != 0 then some (shapeErr cnt 2)
  else if 2048 < p.toNat * 64 + c.row0 + rows then some (shapeErr cnt 3)
  else if 0x200000 < list.toNat + 8 * c.n then some (cPROT, list, 0)
  else if list.toNat % 8 != 0 then some (cDALIGN, list, 0)
  else none

/-- Checks of CPYMM, and of CPYRED with its element size. -/
def copyErr (red : Option Nat) (dst src cnt : Word) : Option AErr :=
  let n := byteCnt cnt
  let bad := match red with
    | some e => n % e != 0
    | none => false
  if n == 0 then none
  else if bad then some (shapeErr cnt 4)
  else
    (addrErr dst n true red.isSome).orElse fun _ =>
      (addrErr src n false false).orElse fun _ =>
        match red with
        | some e => (alignErr dst e).orElse fun _ => alignErr src e
        | none => none

/-- Checks of MIGR (R406). -/
def migrErr (page target : Word) : Option AErr :=
  let pageOk := match cAddr page with
    | some (.virt _) | some (.tensor ..) => true
    | _ => false
  let targetOk := if target.getLsbD 0 then target &&& 0x000FFFFFFFFF0001 == target else target &&& 0xF0 == target
  if !pageOk then some (cPROT, page, 0) else if !targetOk then some (cPROT, target, 0) else none

/-- A courier operation whose check reads the values of three scalars. -/
def courOp (i : Instr) (h : Hdr) (v : Vals) (chk : Word → Word → Word → Option AErr) (s : State) : Out :=
  engOp .courier i h v noDraw (fun s k =>
    let c := s.curCl k
    chk (c.optReg v.r3) (c.optReg v.r4) (c.optReg v.r5)) s

def execCpylp (h : Hdr) (y : Sync) (d : Pan) (src cnt : Reg) (s : State) : Out :=
  courOp (.cpylp h y d src cnt) h ⟨none, some src, some cnt⟩ (fun _ a n => panCopyErr d a n false) s
def execCpysp (h : Hdr) (y : Sync) (dst : Reg) (p : Pan) (cnt : Reg) (s : State) : Out :=
  courOp (.cpysp h y dst p cnt) h ⟨some dst, none, some cnt⟩ (fun a _ n => panCopyErr p a n true) s
def execCpymm (h : Hdr) (y : Sync) (dst src cnt : Reg) (s : State) : Out :=
  courOp (.cpymm h y dst src cnt) h ⟨some dst, some src, some cnt⟩ (copyErr none) s
def execCpygp (h : Hdr) (y : Sync) (d : Pan) (list cnt : Reg) (s : State) : Out :=
  courOp (.cpygp h y d list cnt) h ⟨none, some list, some cnt⟩ (fun _ l n => gatherErr d l n) s
def execCpyred (h : Hdr) (y : Sync) (dst src cnt : Reg) (op : RedOp) (t : RedTy) (s : State) : Out :=
  courOp (.cpyred h y dst src cnt op t) h ⟨some dst, some src, some cnt⟩ (copyErr (some (redBytes t))) s
def execCpyz (h : Hdr) (y : Sync) (dst cnt : Reg) (s : State) : Out :=
  courOp (.cpyz h y dst cnt) h ⟨some dst, none, some cnt⟩
    (fun d _ n => if byteCnt n == 0 then none else addrErr d (byteCnt n) true false) s
def execMigr (h : Hdr) (y : Sync) (page target deadline : Reg) (s : State) : Out :=
  courOp (.migr h y page target deadline) h ⟨some page, some target, some deadline⟩ (fun p t _ => migrErr p t) s

/-! ### Port engine (R330, R331) -/

/-- The company is bound to a cue sheet (R22, R331). -/
def State.bound (s : State) : Bool := (s.curBank.task.bind (·.cue)).isSome

/-- NOCIRC of an unbound company. -/
def bindErr (s : State) (hd : Hnd) : Option AErr := if s.bound then none else some (cNOCIRC, hd.zeroExtend 64, 0)

/-- Checks 3 and 4 of a descriptor address. -/
def descErr (d : Word) : Option AErr :=
  if d.toNat % 64 != 0 then some (cDALIGN, d, 0)
  else if 0x1FFFC0 < d.toNat || inRing d.toNat 64 then some (cPROT, d, 0)
  else none

/-- Check 2 of SEND and RECV. -/
def bufErr (a n : Word) (written : Bool) : Option AErr :=
  if byteCnt n == 0 then none else addrErr a (byteCnt n) written false

/-- A port operation whose check reads the values of two scalars. -/
def portOp (i : Instr) (h : Hdr) (v : Vals) (hd : Option Hnd) (chk : Word → Word → Option AErr) (s : State) : Out :=
  engOp .port i h v noDraw (fun s k =>
    let c := s.curCl k
    (hd.bind (bindErr s)).orElse fun _ => chk (c.optReg v.r3) (c.optReg v.r4)) s

def execSend (h : Hdr) (y : Sync) (hd : Hnd) (src cnt : Reg) (hold : Bool) (s : State) : Out :=
  portOp (.send h y hd src cnt hold) h ⟨some src, some cnt, none⟩ (some hd) (fun a n => bufErr a n false) s
def execRecv (h : Hdr) (y : Sync) (hd : Hnd) (dst cnt : Reg) (s : State) : Out :=
  portOp (.recv h y hd dst cnt) h ⟨some dst, some cnt, none⟩ (some hd) (fun a n => bufErr a n true) s
def execPwr (h : Hdr) (y : Sync) (hd : Hnd) (desc : Reg) (s : State) : Out :=
  portOp (.pwr h y hd desc) h ⟨some desc, none, none⟩ (some hd) (fun d _ => descErr d) s
def execPwred (h : Hdr) (y : Sync) (hd : Hnd) (desc : Reg) (relay : Bool) (s : State) : Out :=
  portOp (.pwred h y hd desc relay) h ⟨some desc, none, none⟩ (some hd) (fun d _ => descErr d) s
def execArm (h : Hdr) (y : Sync) (desc : Reg) (s : State) : Out :=
  portOp (.arm h y desc) h ⟨some desc, none, none⟩ none (fun d _ => descErr d) s

end Sys2Proof.Machine
end

