-- ==== Sys2Proof/Machine/Engine.lean ====
section
/-!
DEFINITION. What the engines of a core share: LS banks (R239), leaving a ring (R293), panel states at a start (R147, R354), flags and
signals of a completed entry (R48, R226-R228), and exact dot products (R49, R193).
-/

namespace Sys2Proof.Machine

/-! ### LS banks (R239) -/

/-- An engine asks for the banks that the streams and the engines before it, which use `busy` beside those taken already, leave
free in the cycle, or has them kept for it. -/
def State.engAskBeside (s : State) (t c : Nat) (g : Eng) (busy need : BitVec 32) : Bool × State :=
  let x := s.core t c
  let a := x.lsEng.get (engIdx g)
  let put := fun (a : LsAsk) (used : BitVec 32) => s.modCore t c fun x =>
    { x with lsUsed := x.lsUsed ||| used, lsEng := x.lsEng.set (engIdx g) a }
  if need == 0 then (true, s)
  else if a.given && need &&& ~~~a.want == 0 then (true, put ⟨0, 0, false⟩ 0)
  else if (x.lsUsed ||| busy) &&& need != 0 then (false, put ⟨need, a.starve + 1, false⟩ 0)
  else (true, put ⟨0, 0, false⟩ need)

def State.engAsk (s : State) (t c : Nat) (g : Eng) (need : BitVec 32) : Bool × State := s.engAskBeside t c g 0 need

/-- At the start of a cycle an access that has waited 16 cycles has its banks kept from the streams, in the order of the
engines; banks kept for one that did not come are free again (R239). -/
def Core.keepBanks (x : Core) : Core :=
  cls4.foldl (fun x k =>
    let a := x.lsEng.get k
    if a.given then { x with lsEng := x.lsEng.set k ⟨0, 0, false⟩ }
    else if 16 ≤ a.starve && x.lsUsed &&& a.want == 0 then
      { x with lsUsed := x.lsUsed ||| a.want, lsEng := x.lsEng.set k { a with given := true } }
    else x) x

/-- An engine asks for the banks of the slot at its ring's head, which it reads in the cycle in which it takes it (R239,
R292). -/
def State.slotAsk (s : State) (t c : Nat) (g : Eng) (more : BitVec 32) : Bool × State :=
  s.engAsk t c g (lsBanks (ringBase g + 64 * (((s.core t c).rings.get (engIdx g)).head % 64)) 64 ||| more)

/-! ### Ring heads (R226, R293) -/

/-- The company of an entry is being saved: its entries start no more (R182, R192, R300, R347). -/
def State.coStops (s : State) (t id : Nat) : Bool := s.companies.any fun c => c.tile == t && c.id == id && c.preempt == 3

/-- The company is being drained (R192, R328). -/
def State.coDrains (s : State) (t id : Nat) : Bool := s.companies.any fun c => c.tile == t && c.id == id && c.preempt == 1

/-- What a restored company has for a core that a unit has not taken back yet (R192, R300). -/
def State.restored (s : State) (t c : Nat) (f : SavedCore → Bool) : Option SavedCore :=
  s.savedCores.find? fun v => v.tile == t && v.core == c && f v && !s.coSaved v.launch t

/-- Change what is kept of a core. -/
def State.modSavedCore (s : State) (v : SavedCore) (f : SavedCore → SavedCore) : State :=
  { s with savedCores := s.savedCores.map fun w =>
      if w.launch == v.launch && w.tile == v.tile && w.core == v.core then f w else w }

/-- The engine is suspended on a signal that would overflow (R228). The port engine is one for all cores of its tile (R330). -/
def State.engHeld (s : State) (t c : Nat) (g : Eng) : Bool :=
  if g == .port then (s.tile t).cores.any fun e => (e.2.sigs.get (engIdx g)).held
  else ((s.core t c).sigs.get (engIdx g)).held

/-- The head of a ring that the engine may test: the engine is not suspended on a signal, the entry was enqueued at least two
cycles ago, and its company is not being saved. -/
def State.headOf (s : State) (t c : Nat) (g : Eng) : Option Slot :=
  let x := s.core t c
  if s.engHeld t c g then none
  else
    match x.head g with
    | some e => if e.w6.toNat + 2 ≤ s.cycles t && !s.coStops t e.companyId then some e else none
    | none => none

/-- The semaphore wait of an entry is met. -/
def Core.waitMet (x : Core) (e : Slot) : Bool := e.wcnt == 0 || decide (e.wcnt ≤ x.sem e.wsem)

/-- Subtract the wait count (R226). -/
def Core.takeWait (x : Core) (e : Slot) : Core :=
  if e.wcnt == 0 then x else x.setSem e.wsem (x.sem e.wsem - e.wcnt)

/-! ### Panels (R147, R172, R354) -/

/-- A panel is in an allowed state with no result in flight to it. -/
def Core.panelIn (x : Core) (p : Pan) (sts : List PSt) : Bool := sts.contains (x.pst p) && !x.flying p

def Core.setPans (x : Core) (ps : List Pan) (st : PSt) : Core := ps.foldl (fun x p => x.setPst p st) x

/-- An uncorrectable row among the first `n` rows of a panel, scale tags included where they are read. -/
def State.badPanel (s : State) (t c : Nat) (p : Pan) (n : Nat) (tags : Bool := false) : Option Nat :=
  (List.range n).find? fun r => s.badPanelRow t c p r tags

/-- Write whole rows of a panel from row `r` on. -/
def State.putRows (s : State) (t c : Nat) (p : Pan) (r : Nat) (rows : List (List Byte)) : State :=
  rows.zipIdx.foldl (fun s (bs, i) => s.putPanel t c p (r + i) 0 bs) s

/-- Make a panel's scale tags zero. -/
def State.zeroTags (s : State) (t c : Nat) (p : Pan) : State :=
  (List.range 64).foldl (fun s r => s.putTag t c p r 0 (List.replicate 32 0)) s

/-! ### Completed entries (R48, R226) -/

/-- The entry was enqueued by the task that the bank holds. -/
def Bank.owns (b : Bank) (e : Slot) : Bool :=
  b.occ && (b.company.extractLsb' 0 16).toNat == e.companyId && decide (b.since ≤ e.w6.toNat)

/-- Flags of an entry go to the cluster that enqueued it, to its saved image, or nowhere once the task has ended (R48). -/
def State.engineFlags (s : State) (t c : Nat) (e : Slot) (f : FFlags) : State :=
  let b := (s.core t c).bank e.bankNo
  let mark := fun (x : Cluster) => { x with fstat := x.fstat ||| f }
  if b.owns e then s.modCl ⟨t, c, e.bankNo, e.clNo⟩ mark
  else
    { s with saved := s.saved.map fun (v : Saved) =>
        if v.tile == t && v.core == c && companyId v.launch == e.companyId && decide (v.bank.since ≤ e.w6.toNat) then
          { v with bank := v.bank.modCl e.clNo mark }
        else v }

/-- Queue the signal of a completed entry (R171, R226). -/
def State.signal (s : State) (t c : Nat) (g : Eng) (e : Slot) : State :=
  if e.sinc == 0 then s
  else
    s.modCore t c fun x =>
      let q := x.sigs.get (engIdx g)
      { x with sigs := x.sigs.set (engIdx g) { q with q := q.q ++ [⟨e.ssem, e.sinc, e.clNo, e.bankNo⟩] } }

/-- An engine's first signal is added in phase 1, or held with a SEMOVF record (R227, R228). -/
def execEngineSignal (t c : Nat) (g : Eng) (s : State) : Out :=
  if !(u16 t && u16 c) then .fault .noSuchUnit
  else
    let x := s.core t c
    let q := x.sigs.get (engIdx g)
    match q.q with
    | [] => .next s
    | k :: ks =>
      if q.held then .next s
      else
        let v := x.sem k.sem + k.inc.toNat
        if 65535 < v then
          .next <| (s.modCore t c fun x => { x with sigs := x.sigs.set (engIdx g) { q with held := true } }).raise false
            { mkRec cSEMOVF t c kindU (1 + (engIdx g).val)
                (BitVec.ofNat 32 (k.sem.toNat + 256 * k.inc.toNat + 4096 * (engIdx g).val)) 0 with
              cl := k.cl.val, bank := k.bank, waiter := .sig t c g }
        else
          .next <| s.modCore t c fun x =>
            { x.setSem k.sem v with sigs := x.sigs.set (engIdx g) { q with q := ks } }

/-! ### Exact dot products (R49, R193) -/

/-- The exact sum of finite terms; a zero sum is negative only when every term is a negative zero (R471). -/
def sumFin (ts : List (Bool × Nat × Int)) : FVal :=
  let nz := ts.filter fun t => t.2.1 != 0
  match nz with
  | [] => .fin (!ts.isEmpty && ts.all fun t => t.1) 0 0
  | (_, _, e) :: r =>
    let e0 := r.foldl (fun m t => min m t.2.2) e
    let z := nz.foldl (fun z t => z + intAt t.1 t.2.1 t.2.2 e0) (0 : Int)
    .fin (decide (z < 0)) z.natAbs e0

/-- The exact sum of terms, with whether it is an invalid operation. -/
def sumVals (ts : List FVal) : FVal × Bool :=
  let pos := ts.any fun v => v == .inf false
  let neg := ts.any fun v => v == .inf true
  if ts.any FVal.isNan then (.nan false, ts.any FVal.sig)
  else if pos && neg then (.nan false, true)
  else if pos || neg then (.inf neg, false)
  else
    (sumFin (ts.filterMap fun v =>
      match v with
      | .fin n m e => some (n, m, e)
      | _ => none), false)

/-- The exact sum of the products of two lists. -/
def dotVals (xs ys : List FVal) : FVal × Bool :=
  let ps := xs.zipWith mulVal ys
  let (v, nv) := sumVals (ps.map (·.1))
  (v, nv || ps.any (·.2))

/-- d + s rounded to nearest even, from the code of d; an invalid sum sets NV (R45). -/
def accF32 (d : Nat) (s : FVal × Bool) : Nat × FFlags :=
  let (v, f) := fmtF32.add envRne (fmtF32.read d) s.1
  (v, f ||| flagIf s.2 fNV)

/-- Split a list into groups of `k`, the last one shorter; `n` bounds the number of groups. -/
def groups {α : Type} (k : Nat) : Nat → List α → List (List α)
  | 0, _ => []
  | _ + 1, [] => []
  | n + 1, x :: xs => (x :: xs).take k :: groups k n ((x :: xs).drop k)

end Sys2Proof.Machine
end

