-- ==== Sys2Proof/Machine/Access.lean ====
section
/-!
DEFINITION. Memory accesses of the engines: requests through courier addresses (R296, R395-R401):
translation, reads, writes with copy-on-write (R404), and reductions (R305).
-/

namespace Sys2Proof.Machine

/-- Who accesses: tile whose context translates, core, engine, privilege and the opcode its records carry. -/
structure EAcc where
  t : Nat
  c : Nat
  g : Eng
  user : Bool
  op : Nat
  /-- The entry may read memory other than LS (R274, R279). -/
  reads : Bool
  /-- The entry or packet of the port engine; the core that the requests count for, 16 for ingress (R359). -/
  n : Nat
  own : Nat
  deriving DecidableEq, Repr

/-- The requester of the access. -/
def EAcc.who (k : EAcc) : Who := .engine k.t k.own k.g k.n

/-- Why an access is not performed. -/
inductive CErr where
  | fault (cause : Nat) (addr : Word) (aux : BitVec 32)
  | uecc (b : BadCell)
  /-- It waits; the state holds what was asked for. -/
  | wait (s : State)

/-- A dirty line that an access met as uncorrectable is lost (R251). -/
def State.loseErr (s : State) (e : CErr) : State :=
  match e with
  | .uecc b => s.loseCell b
  | _ => s

/-- The opcode in [31:24] of a record of kind U. -/
def opAux (op : Nat) : BitVec 32 := BitVec.ofNat 32 (op * 2 ^ 24)

/-- A checked place of a part of an access. -/
inductive CLoc where
  | ls (a : Nat)
  | mem (p : Place)
  deriving DecidableEq, Repr

/-- Parts of an access in address order, with their lengths. -/
abbrev Parts := List (CLoc × Nat)

/-- The supervisor bit of a company's launch record, the latest of its id (R308, R395). -/
def State.companySup (s : State) (id : Nat) : Bool :=
  match s.launches.reverse.find? fun l => companyId l.id == id with
  | some l => (l.recd.getD 26 0).getLsbD 3
  | none => false

/-- An engine entry accesses at user level (R395). -/
def State.entryUser (s : State) (t c : Nat) (e : Slot) : Bool :=
  let b := (s.core t c).bank e.bankNo
  !(if b.owns e then b.company.getLsbD 19 else s.companySup e.companyId)

/-- An entry enqueued by a stream in a cycle may read memory: every acquire that the stream issued before it has been
performed, and, when it acquires, so has every store of the stream before it (R187, R274, R279). -/
def State.mayRead (s : State) (j : StreamId) (cyc : Nat) (acq : Bool) : Bool :=
  (s.reqsOf j (s.clsOf j)).all fun (r : Req) =>
    decide (cyc < r.cyc) || r.performed || !(ordAcq r.ord || (acq && r.op.writes))

def State.entryReads (s : State) (t c : Nat) (e : Slot) : Bool :=
  s.mayRead ⟨t, c, e.bankNo, e.clNo⟩ e.w6.toNat e.acq

/-- The access context of an engine's entry. -/
def State.entryAcc (s : State) (t c : Nat) (g : Eng) (e : Slot) : EAcc :=
  ⟨t, c, g, s.entryUser t c e, e.opcode, s.entryReads t c e, 0, c⟩

/-! ### Addresses to places -/

/-- Translate pieces of virtual addresses. -/
def xlPieces (x : XReq) : List (Nat × List Byte) → State → Except CErr (Parts × State)
  | [], s => .ok ([], s)
  | (va, bs) :: r, s =>
    match s.xl { x with va } with
    | .error (.fault c aux) => .error (.fault c (BitVec.ofNat 64 va) aux)
    | .error (.lost b) => .error (.uecc b)
    | .ok (p, s) =>
      match xlPieces x r s with
      | .error e => .error e
      | .ok (ps, s) => .ok ((.mem p, bs.length) :: ps, s)

/-- Map the bytes of a tensor's elements from byte position `p` on, element by element (R401). -/
def xlElems (x : XReq) (esize : Nat) : List (Nat × List Byte) → State → Except CErr (Parts × State)
  | [], s => .ok ([], s)
  | (p, bs) :: r, s =>
    match s.xlElem x (p / esize) (p % esize) with
    | .error (.lost b) => .error (.uecc b)
    | .error (.fault c aux) =>
      .error (.fault c (BitVec.ofNat 64 (3 * 2 ^ 62 + x.desc * 2 ^ 50 + p / esize % 2 ^ 50)) aux)
    | .ok (pl, s) =>
      match xlElems x esize r s with
      | .error e => .error e
      | .ok (ps, s) => .ok ((.mem pl, bs.length) :: ps, s)

/-- The same place at another address. -/
def Loc.to (l : Loc) (a : Nat) : Loc :=
  match l with
  | .tsm t _ => .tsm t a
  | .hbm _ => .hbm a
  | .far _ => .far a

def Loc.addr : Loc → Nat
  | .tsm _ a | .hbm a | .far a => a

/-- A part cut at 64-byte lines (R241, R243). -/
def cutPart (p : CLoc × Nat) : Parts :=
  match p.1 with
  | .ls _ => [p]
  | .mem m => (pieces 64 m.loc.addr (List.replicate p.2 0)).map fun q => (.mem { m with loc := m.loc.to q.1 }, q.2.length)

/-- A part goes on in the same line behind another. -/
def CLoc.joins (l : CLoc) (n : Nat) (m : CLoc) : Bool :=
  match l, m with
  | .mem p, .mem q =>
    q == { p with loc := p.loc.to (p.loc.addr + n) } && p.loc.addr / 64 == q.loc.addr / 64
  | _, _ => false

/-- Parts that lie one behind the other in a line are one access. -/
def mergeParts : Parts → Parts
  | [] => []
  | (l, n) :: r =>
    match mergeParts r with
    | (m, k) :: q => if l.joins n m then (l, n + k) :: q else (l, n) :: (m, k) :: q
    | [] => [(l, n)]

/-- The places of `n` bytes at courier address `w` advanced by `x` bytes (R296, R301). -/
def State.cParts (s : State) (k : EAcc) (w : Word) (x n : Nat) (wr : Bool) : Except CErr (Parts × State) :=
  let q : XReq := ⟨k.t, 0, wr, false, k.user, 0, k.op, if k.g == .port then 16 else k.c⟩
  let dummy := List.replicate n (0 : Byte)
  let tidy := fun (r : Except CErr (Parts × State)) =>
    match r with
    | .ok (ps, s) => .ok (mergeParts (ps.flatMap cutPart), s)
    | .error e => .error e
  match cAddr w with
  | none => .error (.fault cPROT w (opAux k.op))
  | some (.virt a) => tidy (xlPieces q (pieces 65536 (a + x) dummy) s)
  | some (.ls a) =>
    if 0x200000 < a + x + n || (wr && inRing (a + x) n) then .error (.fault cPROT (w + BitVec.ofNat 64 x) (opAux k.op))
    else .ok ([(.ls (a + x), n)], s)
  | some (.tsm a) =>
    if inTsm (a + x) n then tidy (.ok ([(.mem ⟨.tsm k.t (a + x), false, none⟩, n)], s))
    else .error (.fault cPROT (w + BitVec.ofNat 64 x) (opAux k.op))
  | some (.tensor d i) =>
    let es := (s.tdesc k.t d).esize
    tidy (xlElems { q with desc := d } es (pieces es (i * es + x) dummy) s)

/-! ### Reads -/

/-- The request that reads a part. -/
def State.readReq (s : State) (k : EAcc) (l : Loc) (n : Nat) : Option Req :=
  s.reqs.find? fun q => q.who == k.who && q.loc == l && q.op == .read n

/-- Ask for the parts in memory that are not asked for yet; whether every one has come. -/
def State.askParts (s : State) (k : EAcc) (ps : Parts) : Bool × State :=
  ps.foldl (fun (acc : Bool × State) (p : CLoc × Nat) =>
    match p.1 with
    | .mem m =>
      match acc.2.readReq k m.loc p.2 with
      | some q => (acc.1 && q.stage.isReply && decide (q.due ≤ s.quantum), acc.2)
      | none => (false, acc.2.request k.who (.read p.2) m.loc .engine .plain .core false m.memside)
    | .ls _ => acc) (true, s)

/-- The uncorrectable granule of a part that has come. -/
def State.badPart (s : State) (k : EAcc) (p : CLoc × Nat) : Option BadCell :=
  match p.1 with
  | .ls a => (s.badLs k.t k.c a p.2).head?
  | .mem m =>
    match s.readReq k m.loc p.2 with
    | some q =>
      match q.stage with
      | .reply _ _ true => some (q.cell.getD (.hbm 0))
      | _ => none
    | none => none

/-- The bytes of a part that has come. -/
def State.partBytes (s : State) (k : EAcc) (p : CLoc × Nat) : List Byte :=
  match p.1 with
  | .ls a => mgets (s.core k.t k.c).ls a p.2
  | .mem m =>
    match s.readReq k m.loc p.2 with
    | some q => match q.stage with | .reply bs _ _ => bs | _ => []
    | none => []

/-- The entry's reads are over, or given up. -/
def State.dropReads (s : State) (k : EAcc) : State :=
  { s with reqs := s.reqs.filter fun q => !(q.who == k.who && !q.op.writes) }

/-- The parts of an access are at hand; else it waits, or fails. -/
def State.cPoll (s : State) (k : EAcc) (ps : Parts) : Except CErr State :=
  let inMem := ps.any fun p =>
    match p.1 with
    | .mem _ => true
    | .ls _ => false
  if inMem && !k.reads then .error (.wait s)
  else
    match s.askParts k ps with
    | (false, s) => .error (.wait s)
    | (true, s) =>
      match ps.findSome? fun p => s.badPart k p with
      | some b => .error (.uecc b)
      | none => .ok s

/-- The request reads one of the parts. -/
def Req.reads (q : Req) (k : EAcc) (ps : Parts) : Bool :=
  q.who == k.who && ps.any fun p =>
    match p.1 with
    | .mem m => q.loc == m.loc && q.op == .read p.2
    | .ls _ => false

/-- Take the bytes of parts that are at hand. -/
def State.cTake (s : State) (k : EAcc) (ps : Parts) : List Byte × State :=
  (ps.flatMap fun p => s.partBytes k p, { s with reqs := s.reqs.filter fun q => !q.reads k ps })

/-- Read the parts of an access: all of it, or nothing. -/
def State.cFetch (s : State) (k : EAcc) (ps : Parts) : Except CErr (List Byte × State) :=
  match s.cPoll k ps with
  | .error e => .error e
  | .ok s => .ok (s.cTake k ps)

/-- Read `n` bytes at a courier address. -/
def State.cRead (s : State) (k : EAcc) (w : Word) (x n : Nat) : Except CErr (List Byte × State) :=
  match s.cParts k w x n false with
  | .error e => .error e
  | .ok (ps, s) => s.cFetch k ps

/-! ### Writes (R404, R405) -/

/-- The core whose courier copies for a write: the writer's, or core 0 of the tile for the port engine (R405). -/
def EAcc.copier (k : EAcc) : Nat := if k.g == .port then 0 else k.c

/-- The courier address of a byte of an access, as its faults report it (R399). -/
def State.cWord (s : State) (k : EAcc) (w : Word) (x : Nat) : Word :=
  match cAddr w with
  | some (.tensor d i) => BitVec.ofNat 64 (3 * 2 ^ 62 + d * 2 ^ 50 + (i + x / (s.tdesc k.t d).esize) % 2 ^ 50)
  | _ => w + BitVec.ofNat 64 x

/-- The descriptor of a courier address, 0 for none. -/
def descOf (w : Word) : Nat :=
  match cAddr w with
  | some (.tensor d _) => d
  | _ => 0

/-- The frame-table step of a write to a frame through a block entry: done, or the error or wait (R404). -/
def State.cowStep (s : State) (k : EAcc) (a ea : Nat) (addr : Word) : Except CErr State :=
  let f := a / 65536
  let v := s.frameEnt f
  if feBusy v then .error (.wait s)
  else if feShared v then
    match s.popFrame (paTile a) with
    | (none, _) => .error (.fault cNOFRAME addr ((⟨k.t, 0, true, false, k.user, descOf addr, k.op, 16⟩ : XReq).aux 0 3 0))
    | (some f2, s) =>
      .error (.wait ((s.putFrame f (setField v 17 1 1)).modCore k.t k.copier fun y =>
        { y with cour := { y.cour with cow := y.cour.cow ++ [⟨f, f2, ea, 0, 0⟩] } }))
  else .ok (s.allTiles fun x => x.mapTlb fun l =>
    l.map fun e => if e.kind == 1 && e.key == ea then { e with writeOk := true } else e)

/-- Every part may be written; `x` is the byte offset of the first from the address. -/
def State.cWritable (s : State) (k : EAcc) (w : Word) : Nat → Parts → Except CErr State
  | _, [] => .ok s
  | x, (.mem ⟨.hbm a, _, some ea⟩, n) :: r =>
    match s.cowStep k a ea (s.cWord k w x) with
    | .error e => .error e
    | .ok s => s.cWritable k w (x + n) r
  | x, (_, n) :: r => s.cWritable k w (x + n) r

/-- Write one part (R241, R246, R270). -/
def State.writePart (s : State) (k : EAcc) (l : CLoc) (bs : List Byte) : State :=
  match l with
  | .ls a => s.lsWrite k.t k.c a bs
  | .mem m => s.request k.who (.write bs) m.loc .none .plain .core false m.memside

/-- Write bytes over parts in order. -/
def State.cStore (s : State) (k : EAcc) : Parts → List Byte → State
  | [], _ => s
  | (l, n) :: r, bs => (s.writePart k l (bs.take n)).cStore k r (bs.drop n)

/-- Check that bytes at a courier address can be written: their parts (R404). -/
def State.cDest (s : State) (k : EAcc) (w : Word) (x n : Nat) : Except CErr (Parts × State) :=
  match s.cParts k w x n true with
  | .error e => .error e
  | .ok (ps, s) =>
    match s.cWritable k w x ps with
    | .error e => .error e
    | .ok s => .ok (ps, s)

/-- Write bytes at a courier address: all of it, or nothing. -/
def State.cWrite (s : State) (k : EAcc) (w : Word) (x : Nat) (bs : List Byte) : Except CErr State :=
  match s.cDest k w x bs.length with
  | .error e => .error e
  | .ok (ps, s) => .ok (s.cStore k ps bs)

/-- Every write of the requester has been performed (R280, R295). -/
def State.written (s : State) (w : Who) : Bool := !(s.reqs.any fun q => q.who == w && q.op.writes)

/-! ### Reductions at the home (R305, R340) -/

/-- Reduce one part at its home, as one step of its bank ALU or base-die unit (R241, R245, R305). -/
def State.redPart (s : State) (k : EAcc) (op : MemOp) (l : CLoc) : State :=
  match l with
  | .ls _ => s
  | .mem m => s.request k.who op m.loc .none .plain .core false m.memside

/-! ### Errors to records -/

/-- A record of kind U of an engine entry's access: cause, address and aux (R191, R299, R336). -/
def engineRec (k : EAcc) (src cl bank : Nat) (e : CErr) (pc : Word) (w : Waiter) : Option FRec :=
  match e with
  | .fault c a aux => some { mkRec c k.t k.c kindU src aux a with cl, bank, pc, waiter := w }
  | .uecc b =>
    let r := ueccRec b k.t k.c kindU src false
    some { r with aux := r.aux ||| opAux k.op, cl, bank, pc := r.pc ||| pc, waiter := w }
  | .wait _ => none

end Sys2Proof.Machine
end

