-- ==== Sys2Proof/Machine/Projection.lean ====
section
/-!
DEFINITION. The projection unit (spec 08): state panels, start checks, VPINIT, VPROJ, VPBACK, VPMERGE and VPEMIT, the callback
heap and sampling, suspension and completion.
-/

namespace Sys2Proof.Machine

/-! ### Bytes as fields -/

/-- The little-endian value of `n` bytes at offset `o`. -/
def fieldAt (bs : List Byte) (o n : Nat) : Nat := leNat ((bs.drop o).take n)

/-- Write bytes over panels from a byte address on, row by row. -/
def State.putPanelBytes (s : State) (t c a : Nat) (bs : List Byte) : State :=
  (pieces 512 a bs).foldl (fun s (p : Nat × List Byte) =>
    s.putPanel t c (BitVec.ofNat 5 (p.1 / 32768)) (p.1 % 32768 / 512) (p.1 % 512) p.2) s

/-- The first uncorrectable row among the rows that hold `n` bytes at a panel byte address. -/
def State.badPanelBytes (s : State) (t c a n : Nat) : Option (Pan × Nat) :=
  if n == 0 then none
  else
    ((List.range ((a + n - 1) / 512 + 1 - a / 512)).map fun i => a / 512 + i).findSome? fun r =>
      let p := BitVec.ofNat 5 (r / 64)
      if s.badPanelRow t c p (r % 64) then some (p, r % 64) else none

/-! ### State panels (Tables proj 1-3) -/

/-- State descriptor. -/
structure PDesc where
  nrow : Nat
  k : Nat
  ty : Nat
  labels : Nat
  h : Nat
  c : Nat
  m : Nat
  first : Nat
  count : Nat
  deriving DecidableEq, Repr

/-- The descriptor in the bytes of row 63. -/
def PDesc.read (bs : List Byte) : PDesc :=
  let w := leNat (bs.take 64)
  let f := fun p n => w / 2 ^ p % 2 ^ n
  ⟨f 0 6, f 8 7, f 16 4, f 24 3, f 32 32, f 64 32, f 96 32, f 128 16, f 144 16⟩

def PDesc.bytes (d : PDesc) : List Byte :=
  leBytes 64 (d.nrow + d.k * 2 ^ 8 + d.ty * 2 ^ 16 + d.labels * 2 ^ 24 + d.h * 2 ^ 32 + d.c * 2 ^ 64 + d.m * 2 ^ 96 +
    d.first * 2 ^ 128 + d.count * 2 ^ 144)

/-- Code 2 of Table proj 9 on the descriptor's fields. -/
def PDesc.ok (d : PDesc) : Bool :=
  decide (1 ≤ d.nrow ∧ d.nrow ≤ 32 ∧ 1 ≤ d.k ∧ d.k ≤ 64 ∧ 1 ≤ d.ty ∧ d.ty ≤ 4 ∧ d.labels ≤ 4 ∧ d.h % 32 = 0 ∧
    32 ≤ d.h ∧ d.h ≤ 32768 ∧ 0x00800000 ≤ d.c ∧ d.c < 0x7F800000 ∧ d.m ≤ 0x7F800000)

/-- The fields of the descriptor other than the span. -/
def PDesc.same (a b : PDesc) : Bool := { a with first := 0, count := 0 } == { b with first := 0, count := 0 }

/-- Hidden and weight format, and its bytes. -/
def PDesc.fmt (d : PDesc) : FFmt :=
  match d.ty with
  | 1 => fmtBF16
  | 2 => fmtF16
  | 3 => fmtE4M3
  | _ => fmtE5M2
def PDesc.eb (d : PDesc) : Nat := if d.ty ≤ 2 then 2 else 1

/-- Row header. -/
structure PHdr where
  m : Nat
  s : Nat
  count : Nat
  flags : Nat
  spill : Nat
  present : Nat
  ids : List Nat
  vals : List Nat
  deriving DecidableEq, Repr

def PHdr.read (bs : List Byte) : PHdr :=
  ⟨fieldAt bs 0 4, fieldAt bs 4 4, fieldAt bs 8 1, fieldAt bs 9 1, fieldAt bs 10 2, fieldAt bs 12 1 % 16,
    (List.range 4).map fun l => fieldAt bs (16 + 4 * l) 4, (List.range 4).map fun l => fieldAt bs (32 + 4 * l) 4⟩

def PHdr.bytes (h : PHdr) : List Byte :=
  leBytes 4 h.m ++ leBytes 4 h.s ++ leBytes 1 h.count ++ leBytes 1 h.flags ++ leBytes 2 h.spill ++ leBytes 4 h.present ++
    h.ids.flatMap (leBytes 4) ++ h.vals.flatMap (leBytes 4) ++ List.replicate 16 0

/-- A heap entry: scaled logit and vocabulary index. -/
abbrev HEnt := Nat × Nat

def unusedEnt : HEnt := (0xFF800000, 0xFFFFFFFF)
def entBytes (e : HEnt) : List Byte := leBytes 4 e.1 ++ leBytes 4 e.2

/-- Panel byte addresses of a row's heap and header. -/
def heapAddr (p : Pan) (i : Nat) : Nat := panAddr p i
def hdrAddr (p : Pan) (i : Nat) : Nat := panAddr p (32 + i / 8) + 64 * (i % 8)

def Core.hdr (x : Core) (p : Pan) (i : Nat) : PHdr := PHdr.read (mgets x.panels (hdrAddr p i) 64)
def Core.heap (x : Core) (p : Pan) (i : Nat) : List HEnt :=
  (chunks 64 8 (mgets x.panels (heapAddr p i) 512)).map fun b => (fieldAt b 0 4, fieldAt b 4 4)
def Core.desc (x : Core) (p : Pan) : PDesc := PDesc.read (mgets x.panels (panAddr p 63) 64)

def heapBytes (es : List HEnt) : List Byte :=
  ((es ++ List.replicate (64 - es.length) unusedEnt).take 64).flatMap entBytes

/-- Write a row's header and heap. -/
def State.putStateRow (s : State) (t c : Nat) (p : Pan) (i : Nat) (h : PHdr) (es : List HEnt) : State :=
  (s.putPanelBytes t c (hdrAddr p i) h.bytes).putPanelBytes t c (heapAddr p i) (heapBytes es)

/-! ### Parameter block (Table proj 8) and start checks (Table proj 9) -/

def u32 (par : List Byte) (o : Nat) : Nat := fieldAt par o 4
def pW (par : List Byte) : Nat := fieldAt par 24 8
def pStride (par : List Byte) : Nat := u32 par 32
def pBase (par : List Byte) : Nat := u32 par 36
def pV (par : List Byte) : Nat := u32 par 40

/-- The descriptor that VPINIT writes. -/
def initDesc (par : List Byte) : PDesc :=
  ⟨fieldAt par 8 1, fieldAt par 9 1, fieldAt par 10 1, fieldAt par 11 1, u32 par 12, u32 par 0, u32 par 4,
    fieldAt par 16 2, 1⟩

/-- Panels of a run of `n` bytes. -/
def runLen (n : Nat) : Nat := (n + 32767) / 32768
def runOf (p : Nat) (n : Nat) : List Nat := (List.range (runLen n)).map fun i => p + i

/-- The runs of an entry beside its state panel, first panel and bytes, and the states they need (Table proj 7). -/
def projRuns (e : Slot) (d : PDesc) (par : List Byte) : List (Nat × Nat × List PSt) :=
  match e.opcode with
  | 0x11 => [(e.pa.toNat, d.nrow * d.h * d.eb, [.ready])]
  | 0x12 => [(e.pa.toNat, d.nrow * d.h * 4, [.empty, .ready]),
             (fieldAt par 60 1 % 32, d.nrow * d.h * d.eb, [.ready])]
  | 0x13 => [(e.pa.toNat, 1, [.ready])]
  | _ => []

/-- No panel stands twice. -/
def distinct : List Nat → Bool
  | [] => true
  | x :: xs => !xs.contains x && distinct xs

/-- A stride is a multiple of 64 and holds its row. -/
def strideOk (s n : Nat) : Bool := s % 64 == 0 && decide (n ≤ s)

/-- The first start check of Table proj 9 that fails, given the block, the descriptor and VPMERGE's other one. -/
def projCheck (e : Slot) (par : List Byte) (d d2 : PDesc) : Option Nat :=
  let op := e.opcode
  let runs := projRuns e d par
  let zeroBad :=
    match op with
    | 0x11 => 65536 ≤ u32 par 44
    | 0x12 => 32 ≤ fieldAt par 60 1 || 2 ≤ fieldAt par 61 1
    | 0x14 => 2 ≤ u32 par 44
    | _ => false
  let pans := e.pd.toNat :: runs.flatMap fun r => runOf r.1 r.2.1
  let wBad := pW par % 64 != 0 || !strideOk (pStride par) (d.h * d.eb) || pV par == 0 || 2 ^ 32 < pBase par + pV par
  let bad4 :=
    match op with
    | 0x11 =>
      let base := fieldAt par 48 8
      wBad || (base != 0 && !strideOk (u32 par 56) (8 * u32 par 44))
    | 0x12 => wBad || fieldAt par 48 8 % 64 != 0 || !strideOk (u32 par 56) (4 * d.h)
    | 0x14 => pW par % 64 != 0 || !strideOk (pStride par) 576
    | _ => false
  if op != 0x13 && (e.w5.toNat % 64 != 0 || 0x200000 - 64 < e.w5.toNat) then some 1
  else if !d.ok || !d2.ok || zeroBad then some 2
  else if pans.any (fun p => decide (31 < p)) || !distinct pans then some 3
  else if bad4 then some 4
  else if op == 0x13 && !d.same d2 then some 5
  else if op == 0x13 && !(d.count != 0 && 2 ^ d.count.log2 == d.count && d.first % d.count == 0 &&
      d2.first == d.first + d.count && d2.count ≤ d.count) then some 6
  else if op == 0x12 && !(match fmtF32.read (u32 par 44) with | .fin .. => true | _ => false) then some 7
  else none

/-- The panel states of the state panel at start (Table proj 7). -/
def statePanStates (op : Nat) : List PSt := if op == 0x10 then [.empty, .ready] else [.ready]

/-! ### Suspension and release (R191, R192) -/

def Core.modProj (x : Core) (f : Proj → Proj) : Core := { x with proj := f x.proj }
def State.modProj (s : State) (t c : Nat) (f : Proj → Proj) : State := s.modCore t c fun x => x.modProj f

/-- The unit suspends with a record of kind U. -/
def State.projSuspend (s : State) (t c : Nat) (r : FRec) : State :=
  (s.modProj t c fun p => { p with suspended := true }).raise false { r with waiter := .proj t c }

/-- An access of the running entry failed: it suspends, or waits. -/
def State.projErr (s : State) (k : EAcc) (e : Slot) (x : CErr) : State :=
  match x with
  | .wait s => s
  | x =>
    match engineRec k 2 e.clNo.val e.bankNo x 0 .none with
    | some r => ((s.loseErr x).dropReads k).projSuspend k.t k.c r
    | none => s

/-- UECC of a panel row that the entry reads. -/
def State.projBadRow (s : State) (k : EAcc) (e : Slot) (p : Pan) (r : Nat) : State :=
  s.projSuspend k.t k.c
    { mkRec cUECC k.t k.c kindU 2 (ueccPanelAux p r ||| opAux k.op) (BitVec.ofNat 64 (panAddr p r)) with
      cl := e.clNo.val, bank := e.bankNo }

/-- The entry ends: its panels become READY, its flags go out, its signal follows, the unit is free from the next cycle on
(R188). -/
def State.projRelease (s : State) (t c : Nat) : State :=
  let p := (s.core t c).proj
  let s := s.modCore t c fun x => { x.setPans (p.before.map (·.1)) .ready with proj := { Proj.reset with wait := 1 } }
  (s.engineFlags t c p.e p.flags).signal t c .proj p.e

/-! ### Start (R188, R190) -/

/-- Cycles of the step that follows: products at the unit's rate and the data's arrival, which has no fixed duration. -/
def State.projDelay (s : State) (d : PDesc) : Nat × State :=
  let (f, s) := s.freshVal
  (1 + 32 * d.h / (if d.eb == 2 then 8192 else 16384) + Config.delay f, s)

/-- What becomes of an entry whose head conditions hold: it suspends on what it cannot read, fails a start check, or starts
with its block, its descriptor and its other runs. -/
inductive PPlan where
  | bad (b : BadCell)
  | badRow (p : Pan) (r : Nat)
  | refused (code : Nat)
  | go (par : List Byte) (d : PDesc) (runs : List (Nat × Nat × List PSt))

/-- The LS address of an entry's parameter block, if it has one that lies in LS (Table proj 8). -/
def Slot.parAt (e : Slot) : Option Nat :=
  let off := e.w5.toNat
  if e.opcode != 0x13 && off % 64 == 0 && off ≤ 0x200000 - 64 then some off else none

/-- What the unit does with an entry now: read the block and the descriptors, and make the start checks (R188, R190); none
while a panel is in another state. -/
def State.projPlan (s : State) (t c : Nat) (e : Slot) : Option PPlan :=
  let x := s.core t c
  let op := e.opcode
  if !(x.panelIn e.pd (statePanStates op)) || (op != 0x10 && op != 0x14 && !(x.panelIn e.pa
      (if op == 0x12 then [.empty, .ready] else [.ready]))) then none
  else
    match e.parAt.bind fun off => (s.badLs t c off 64).head? with
    | some b => some (.bad b)
    | none =>
      let par := match e.parAt with
        | some off => mgets x.ls off 64
        | none => List.replicate 64 0
      match (if op == 0x10 then none
        else (s.badPanelBytes t c (panAddr e.pd 63) 64).orElse fun _ =>
          if op == 0x13 then s.badPanelBytes t c (panAddr e.pa 63) 64 else none) with
      | some (p, r) => some (.badRow p r)
      | none =>
        let d := if op == 0x10 then initDesc par else x.desc e.pd
        let d2 := if op == 0x13 then x.desc e.pa else d
        match projCheck e par d d2 with
        | some code => some (.refused code)
        | none =>
          let runs := projRuns e d par
          if runs.all fun r => (runOf r.1 r.2.1).all fun p => x.panelIn (BitVec.ofNat 5 p) r.2.2 then some (.go par d runs)
          else none

/-- The entry that the unit may begin, and whether it is the ring's head: a taken one whose block it could not read (R188),
else the head whose wait is met. -/
def State.projNext (s : State) (t c : Nat) : Option (Slot × Bool) :=
  let x := s.core t c
  if x.proj.busy then
    if x.proj.suspended || !x.proj.par.isEmpty then none else some (x.proj.e, false)
  else if x.proj.wait != 0 || (s.restored t c fun v => v.proj.isSome).isSome then none
  else
    match s.headOf t c .proj with
    | some e => if x.waitMet e then some (e, true) else none
    | none => none

/-- The LS banks of the slot and the block that the unit reads when it begins an entry (R239). -/
def Slot.projBanks (e : Slot) (x : Core) (ring : Bool) : BitVec 32 :=
  (match e.parAt with
    | some off => lsBanks off 64
    | none => 0) |||
    if ring then lsBanks (ringBase .proj + 64 * ((x.rings.get 1).head % 64)) 64 else 0

/-- The banks that the unit asks for in this cycle, before the courier (R239). -/
def State.projWants (s : State) (t c : Nat) : BitVec 32 :=
  match s.projNext t c with
  | some (e, ring) => if (s.projPlan t c e).isSome then e.projBanks (s.core t c) ring else 0
  | none => 0

/-- Begin an entry: it leaves the ring when it is the head, and takes its panels when its checks pass (R188, R190). -/
def State.projBegin (s : State) (t c : Nat) (e : Slot) (ring : Bool) (plan : PPlan) : State :=
  let x := s.core t c
  let k := s.entryAcc t c .proj e
  let op := e.opcode
  let take := fun (s : State) => if ring then s.modCore t c fun x => (x.takeWait e).popHead .proj else s
  let hold := fun (s : State) => (take s).modProj t c fun p => { p with busy := true, e, par := [] }
  match plan with
  | .bad b => (hold s).projErr k e (.uecc b)
  | .badRow p r => (hold s).projBadRow k e p r
  | .refused code =>
    (((take s).modProj t c fun _ => Proj.reset).raise false
      { mkRec cPSHAPE t c kindF 2 (BitVec.ofNat 32 code) 0 with cl := e.clNo.val, bank := e.bankNo }).signal t c .proj e
  | .go par d runs =>
    let pans := (e.pd.toNat :: runs.flatMap fun r => runOf r.1 r.2.1).map (BitVec.ofNat 5)
    let before := pans.map fun p => (p, x.pst p)
    let (w, s) := if op == 0x10 then (16 + d.nrow, s) else if op == 0x13 then (64, s) else s.projDelay d
    (take s).modCore t c fun x =>
      { x.setPans pans .busy with
        proj := { Proj.reset with busy := true, e, par, rng := e.w2, wait := w, before,
                                  gacc := if op == 0x12 then List.replicate (d.nrow * d.h) 0 else [] } }

/-- The unit starts the head of its ring, or goes on with a restored entry (R192) or with a taken one whose block it could
not read (R188). -/
def execProjectionStart (t c : Nat) (s : State) : Out :=
  if !(u16 t && u16 c) then .fault .noSuchUnit
  else
    match s.projNext t c with
    | some (e, ring) =>
      match s.projPlan t c e with
      | none => .next s
      | some plan =>
        match s.engAsk t c .proj (e.projBanks (s.core t c) ring) with
        | (false, s) => .next s
        | (true, s) => .next (s.projBegin t c e ring plan)
    | none =>
      let x := s.core t c
      if x.proj.busy || x.proj.wait != 0 || s.engHeld t c .proj then .next s
      else
        match s.restored t c fun v => v.proj.isSome with
        | some v =>
          .next ((s.modSavedCore v fun w => { w with proj := none }).modProj t c fun _ => v.proj.getD Proj.reset)
        | none => .next s

/-! ### Arithmetic (R193-R196) -/

/-- Values and flags of a run of steps. -/
abbrev FlagM (α : Type) := α × FFlags

/-- F(v, m) of Table proj 10. -/
def projF (v m : Nat) : Nat × FFlags :=
  let x := fmtF32.read v
  let y := fmtF32.read m
  if x.isNan || y.isNan then fmtF32.nan false
  else if fmtF32.rankKey v == fmtF32.rankKey m then (0x3F800000, fNone)
  else
    match x, y with
    | .inf true, _ => (0, fNone)
    | _, .inf false => (0, fNone)
    | x, y =>
      let (d, f1) := fmtF32.sub envRne x y
      let (p, f2) := fmtF32.exp2 envRne (fmtF32.read d)
      (p, f1 ||| f2)

/-- The scaled logit of a hidden row and a weight column (R193). -/
def logit (d : PDesc) (hid wt : List FVal) : Nat × FFlags :=
  let (z, f) := ((groups 32 1024 hid).zip (groups 32 1024 wt)).foldl
    (fun (acc : Nat × FFlags) (g : List FVal × List FVal) =>
      let (r, f) := accF32 acc.1 (dotVals g.1 g.2)
      (r, acc.2 ||| f)) (0, fNone)
  let (y, f2) := fmtF32.mul envRne (fmtF32.read z) (fmtF32.read d.c)
  (y, f ||| f2)

/-- Round an exact sum of terms. -/
def roundSum (ts : List FVal) (nv : Bool) : Nat × FFlags :=
  let (v, bad) := sumVals ts
  match v with
  | .nan _ => fmtF32.nan (nv || bad)
  | .inf n => (fmtF32.withSign n fmtF32.infCode, flagIf nv fNV)
  | .fin n m e => let (r, f) := fmtF32.round envRne n m e; (r, f ||| flagIf nv fNV)

/-- The higher-ranking of two values, the first among equals. -/
def rankMax (a b : Nat) : Nat := if fmtF32.rankKey a < fmtF32.rankKey b then b else a

/-- The normaliser after a group (R195). -/
def normUpdate (h : PHdr) (ys : List Nat) : PHdr × FFlags :=
  let m1 := ys.foldl rankMax h.m
  let (f0, g0) := projF h.m m1
  let (p, nv) := mulVal (fmtF32.read h.s) (fmtF32.read f0)
  let fs := ys.map fun y => projF y m1
  let (s, g) := roundSum (p :: fs.map fun x => fmtF32.read x.1) nv
  let nan := ys.any fun y => (fmtF32.read y).isNan
  let inf := ys.any fun y => fmtF32.read y == .inf false
  ({ h with m := m1, s, flags := h.flags ||| (if nan then 1 else 0) ||| (if inf then 2 else 0) },
    fs.foldl (fun f x => f ||| x.2) (g0 ||| g))

/-- The entry ranks above another: higher key, else lower index (R51). -/
def entAbove (a b : HEnt) : Bool :=
  decide (fmtF32.rankKey b.1 < fmtF32.rankKey a.1) ||
    (fmtF32.rankKey a.1 == fmtF32.rankKey b.1 && decide (a.2 < b.2))

/-- Insert an entry after every one that it does not rank above. -/
def insertEnt (e : HEnt) : List HEnt → List HEnt
  | [] => [e]
  | x :: xs => if entAbove e x then e :: x :: xs else x :: insertEnt e xs

def rankSort (es : List HEnt) : List HEnt := es.foldl (fun l e => insertEnt e l) []

/-- y ≥ m - M, compared exactly, for a finite y (R196). -/
def inMargin (big m y : Nat) : Bool :=
  match fmtF32.read y, fmtF32.read big, fmtF32.read m with
  | .fin .., .inf false, .fin .. => true
  | .fin .., .inf false, .inf true => true
  | .fin .., _, .inf true => true
  | .fin n1 m1 e1, .fin n2 m2 e2, .fin n3 m3 e3 =>
    let e0 := min e1 (min e2 e3)
    decide (intAt n3 m3 e3 e0 ≤ intAt n1 m1 e1 e0 + intAt n2 m2 e2 e0)
  | _, _, _ => false

/-- The candidates kept, in ranked order (R196). -/
def keepHeap (d : PDesc) (m : Nat) (cs : List HEnt) : List HEnt :=
  ((rankSort cs).zipIdx.filter fun (e, p) => decide (p < d.k) || (d.m != 0 && inMargin d.m m e.1)).map (·.1)

/-! ### VPROJ (R198, R200) -/

/-- Columns of a group. -/
def groupCols (v g : Nat) : List Nat := (List.range 32).filterMap fun i => if 32 * g + i < v then some (32 * g + i) else none

/-- Elements of a run of bytes as values. -/
def elemVals (d : PDesc) (bs : List Byte) : List FVal := (lanesOf (8 * d.eb) bs).map d.fmt.read

/-- The parts of rows of `n` bytes at multiples of a stride from a courier address. -/
def State.rowsAt (s : State) (k : EAcc) (w : Word) (stride n : Nat) (wr : Bool) : List Nat → Except CErr (List Parts × State)
  | [] => .ok ([], s)
  | j :: js =>
    match if wr then s.cDest k w (j * stride) n else s.cParts k w (j * stride) n false with
    | .error e => .error e
    | .ok (ps, s) =>
      match s.rowsAt k w stride n wr js with
      | .error e => .error e
      | .ok (r, s) => .ok (ps :: r, s)

/-- The places of the weight columns of a group. -/
def State.colParts (s : State) (k : EAcc) (d : PDesc) (par : List Byte) (cols : List Nat) :
    Except CErr (List Parts × State) :=
  s.rowsAt k (BitVec.ofNat 64 (pW par)) (pStride par) (d.h * d.eb) false cols

/-- The columns in the bytes read, which are `n` a column. -/
def colVals (d : PDesc) (cols : List Nat) (bs : List Byte) : List (List FVal) :=
  (chunks cols.length (d.h * d.eb) bs).map (elemVals d)

/-- Read the weight columns of a group. -/
def State.readCols (s : State) (k : EAcc) (d : PDesc) (par : List Byte) (cols : List Nat) :
    Except CErr (List (List FVal) × State) :=
  match s.colParts k d par cols with
  | .error e => .error e
  | .ok (ps, s) =>
    match s.cFetch k ps.flatten with
    | .error e => .error e
    | .ok (bs, s) => .ok (colVals d cols bs, s)

/-- Address of the hidden row `i` of a run from panel `p`. -/
def hidAddr (d : PDesc) (p i : Nat) : Nat := p * 32768 + i * d.h * d.eb

/-- Labels of the header whose ids a group holds take the logits (R198). -/
def setLabels (d : PDesc) (base : Nat) (cols : List (Nat × Nat)) (h : PHdr) : PHdr :=
  (List.range d.labels).foldl (fun h l =>
    match cols.find? fun c => h.ids.getD l 0 == base + c.1 with
    | some (_, y) => { h with vals := h.vals.set l y, present := h.present ||| 2 ^ l }
    | none => h) h

/-- Go on to the next row, or to the first row of the next group. -/
def Proj.nextRow (p : Proj) (nrow : Nat) : Proj :=
  if p.row + 1 < nrow then { p with row := p.row + 1 } else { p with row := 0, group := p.group + 1 }

/-- Write overflow entries to the spill area (R200). -/
def State.spillWrite (s : State) (k : EAcc) (base : Word) (off : Nat) : List HEnt → Except CErr State
  | [] => .ok s
  | e :: es =>
    match s.cWrite k base off (entBytes e) with
    | .error x => .error x
    | .ok s => s.spillWrite k base (off + 8) es

/-- One group of one row of VPROJ. -/
def State.vprojStep (s : State) (t c : Nat) : State :=
  let x := s.core t c
  let p := x.proj
  let e := p.e
  let k := s.entryAcc t c .proj e
  let d := x.desc e.pd
  let i := p.row
  let cols := groupCols (pV p.par) p.group
  let rows := [(hidAddr d e.pa.toNat i, d.h * d.eb), (hdrAddr e.pd i, 64), (heapAddr e.pd i, 512)]
  match rows.findSome? fun r => s.badPanelBytes t c r.1 r.2 with
  | some (q, r) => s.projBadRow k e q r
  | none =>
    match s.readCols k d p.par cols with
    | .error er => s.projErr k e er
    | .ok (ws, s) =>
      let hid := elemVals d (mgets x.panels (hidAddr d e.pa.toNat i) (d.h * d.eb))
      let ys := ws.map fun w => logit d hid w
      let fl := ys.foldl (fun f y => f ||| y.2) fNone
      let yc := cols.zip (ys.map (·.1))
      let h0 := x.hdr e.pd i
      let (h1, fl1) := normUpdate h0 (ys.map (·.1))
      let cand := (x.heap e.pd i).take h0.count ++ yc.map fun c => (c.2, pBase p.par + c.1)
      let kept := keepHeap d h1.m cand
      let heap := kept.take 64
      let past := kept.drop 64
      let h2 := setLabels d (pBase p.par) yc { h1 with count := heap.length }
      let (w, s) := s.projDelay d
      let fin := fun (s : State) (h : PHdr) =>
        (s.putStateRow t c e.pd i h heap).modProj t c fun p =>
          { p.nextRow d.nrow with wait := w, flags := p.flags ||| fl ||| fl1, reread := false }
      if past.isEmpty then fin s h2
      else
        let n := past.length
        let base := fieldAt p.par 48 8
        let sp := h0.spill
        let rec_ := fun (wrote : Bool) =>
          { mkRec cHEAPSPILL t c kindU 2 (BitVec.ofNat 32 (i + (if wrote then 32 + 64 * n else 0)) ||| opAux k.op)
              (BitVec.ofNat 64 (pBase p.par + 32 * p.group)) with cl := e.clNo.val, bank := e.bankNo }
        if base != 0 && sp + n ≤ u32 p.par 44 then
          match s.spillWrite k (BitVec.ofNat 64 base) (i * u32 p.par 56 + 8 * sp) past with
          | .error er => s.projErr k e er
          | .ok s => (fin s { h2 with spill := sp + n }).projSuspend t c (rec_ true)
        else (s.modProj t c fun p => { p with reread := true }).projSuspend t c (rec_ false)

/-- Read the spill fields of the block again (R200). -/
def State.rereadSpill (s : State) (t c : Nat) : State :=
  s.modCore t c fun x =>
    let blk := mgets x.ls x.proj.e.w5.toNat 64
    { x with proj := { x.proj with par := x.proj.par.take 44 ++ (blk.drop 44).take 16 ++ x.proj.par.drop 60,
                                   reread := false } }

/-! ### VPBACK (R201) -/

/-- x / y rounded to nearest even, for a y that is not +0. -/
def divF32 (a b : Nat) : Nat × FFlags :=
  let x := fmtF32.read a
  let y := fmtF32.read b
  match x, y with
  | .nan s, _ => fmtF32.nan (s || y.sig)
  | _, .nan s => fmtF32.nan s
  | .inf _, .inf _ => fmtF32.nan true
  | .inf n, .fin n2 _ _ => (fmtF32.withSign (n != n2) fmtF32.infCode, fNone)
  | .fin n _ _, .inf n2 => (fmtF32.withSign (n != n2) 0, fNone)
  | .fin n m e, .fin n2 m2 e2 =>
    if m2 == 0 then
      if m == 0 then fmtF32.nan true else (fmtF32.withSign (n != n2) fmtF32.infCode, fDZ)
    else if m == 0 then (fmtF32.withSign (n != n2) 0, fNone)
    else
      let sh := m2.log2 + 64
      let q := m * 2 ^ sh / m2
      fmtF32.roundNZ envRne (n != n2) q (e - e2 - sh) (m * 2 ^ sh % m2 != 0)

/-- Round((p - cnt / l) * g0): exact, one rounding; l = 0 takes nothing away (R201). -/
def gradCoef (p cnt l g0 : Nat) : Nat × FFlags :=
  let l := if l == 0 then 1 else l
  match fmtF32.read p, fmtF32.read g0 with
  | .nan s, _ => fmtF32.nan s
  | .inf n, .fin n2 m _ => if m == 0 then fmtF32.nan true else (fmtF32.withSign (n != n2) fmtF32.infCode, fNone)
  | .fin n m e, .fin n2 m2 e2 =>
    let e0 := min e 0
    let a := intAt n m e e0 * l - intAt false cnt 0 e0
    let z := a * intAt n2 m2 e2 e2
    if z == 0 then (fmtF32.withSign (decide (a < 0) != n2 && a != 0 || (a == 0 && n2)) 0, fNone)
    else
      let q := z.natAbs * 2 ^ 64
      fmtF32.roundNZ envRne (decide (z < 0)) (q / l) (e0 + e2 - 64) (q % l != 0)
  | _, v => fmtF32.nan v.sig

/-- The coefficients gij of a row over a group's columns, whether a label differs, and flags (R201). -/
def rowCoefs (d : PDesc) (par : List Byte) (h : PHdr) (hid : List FVal) (cols : List Nat) (ws : List (List FVal)) :
    List Nat × Bool × FFlags :=
  (cols.zip ws).foldl (fun (acc : List Nat × Bool × FFlags) (j, w) =>
    let (y, f1) := logit d hid w
    let (p, f2) :=
      if h.s == 0 then (0, fNone)
      else
        let (f, g) := projF y h.m
        let (q, g') := divF32 f h.s
        (q, g ||| g')
    let id := pBase par + j
    let slots := (List.range d.labels).filter fun l => h.ids.getD l 0 == id
    let (g, f3) := gradCoef p slots.length d.labels (u32 par 44)
    let bad := slots.any fun l => h.present / 2 ^ l % 2 == 1 && h.vals.getD l 0 != y
    (acc.1 ++ [g], acc.2.1 || bad, acc.2.2 ||| f1 ||| f2 ||| f3)) ([], false, fNone)

/-- Round(x + exact sum of the products), with flags. -/
def dotAdd (x : Nat) (as bs : List FVal) : Nat × FFlags :=
  let ps := as.zipWith mulVal bs
  roundSum (fmtF32.read x :: ps.map (·.1)) (ps.any (·.2))

/-- The gradient rows of a group's columns (R201). -/
def State.gradParts (s : State) (k : EAcc) (d : PDesc) (par : List Byte) (cols : List Nat) :
    Except CErr (List Parts × State) :=
  s.rowsAt k (BitVec.ofNat 64 (fieldAt par 48 8)) (u32 par 56) (4 * d.h) true cols

/-- What VPBACK reads and writes for a group: the columns, the places of the gradient rows, and what they held where `add` is
set, else zeros. Only the last row of a group has gradient rows; every translation precedes every access (R201). -/
def State.backRead (s : State) (k : EAcc) (d : PDesc) (par : List Byte) (cols : List Nat) (last : Bool) :
    Except CErr (List (List FVal) × List Parts × List (List Nat) × State) :=
  match s.colParts k d par cols with
  | .error e => .error e
  | .ok (cs, s) =>
    match if last then s.gradParts k d par cols else .ok ([], s) with
    | .error e => .error e
    | .ok (ps, s) =>
      let add := fieldAt par 61 1 % 2 == 1
      match s.cFetch k (cs.flatten ++ if add then ps.flatten else []) with
      | .error e => .error e
      | .ok (bs, s) =>
        let n := cols.length * (d.h * d.eb)
        let olds := if add then (chunks ps.length (4 * d.h) (bs.drop n)).map (lanesOf 32)
          else ps.map fun _ => List.replicate d.h 0
        .ok (colVals d cols (bs.take n), ps, olds, s)

/-- One group of one row of VPBACK; the last row of a group also writes the weight gradients of its columns. -/
def State.vpbackStep (s : State) (t c : Nat) : State :=
  let x := s.core t c
  let p := x.proj
  let e := p.e
  let k := s.entryAcc t c .proj e
  let d := x.desc e.pd
  let i := p.row
  let hp := fieldAt p.par 60 1 % 32
  let cols := groupCols (pV p.par) p.group
  let last := i + 1 == d.nrow
  let lo := if last then 0 else i
  let rows := (List.range (i + 1 - lo)).flatMap fun r =>
    [(hidAddr d hp (lo + r), d.h * d.eb), (hdrAddr e.pd (lo + r), 64)]
  match rows.findSome? fun r => s.badPanelBytes t c r.1 r.2 with
  | some (q, r) => s.projBadRow k e q r
  | none =>
    match s.backRead k d p.par cols last with
    | .error er => s.projErr k e er
    | .ok (ws, ps, os, s) =>
      let hid := fun i => elemVals d (mgets x.panels (hidAddr d hp i) (d.h * d.eb))
      let h := x.hdr e.pd i
      let (gs, bad, fl) := rowCoefs d p.par h (hid i) cols ws
      let gv := gs.map fmtF32.read
      let old := (p.gacc.drop (i * d.h)).take d.h
      let sums := old.zipIdx.map fun (v, n) => dotAdd v gv (ws.map fun (w : List FVal) => w.getD n (.fin false 0 0))
      let gacc := p.gacc.take (i * d.h) ++ sums.map (·.1) ++ p.gacc.drop ((i + 1) * d.h)
      let fl := sums.foldl (fun f v => f ||| v.2) fl
      let (w, s) := s.projDelay d
      let fin := fun (s : State) (fl : FFlags) =>
        let s := if bad then s.putPanelBytes t c (hdrAddr e.pd i) { h with flags := h.flags ||| 8 }.bytes else s
        s.modProj t c fun p => { p.nextRow d.nrow with wait := w, gacc, flags := p.flags ||| fl }
      let co : List (List FVal × List FVal) := if last then (List.range d.nrow).map fun r =>
          ((rowCoefs d p.par (x.hdr e.pd r) (hid r) cols ws).1.map fmtF32.read, hid r)
        else []
      let outs : List (List (Nat × FFlags)) := os.zipIdx.map fun (o, jn) =>
        o.zipIdx.map fun (v, n) =>
          dotAdd v (co.map fun (r : List FVal × List FVal) => r.1.getD jn (.fin false 0 0))
            (co.map fun (r : List FVal × List FVal) => r.2.getD n (.fin false 0 0))
      let s := (ps.zip outs).foldl (fun s (q, o) => s.cStore k q (o.flatMap fun v => leBytes 4 v.1)) s
      fin s (outs.foldl (fun f o => o.foldl (fun f v => f ||| v.2) f) fl)

/-! ### VPMERGE (R202) -/

/-- One row of a merge: header and heap. -/
def mergeRow (d : PDesc) (a b : PHdr) (ha hb : List HEnt) : PHdr × List HEnt × FFlags :=
  let m1 := rankMax a.m b.m
  let (fa, g1) := projF a.m m1
  let (fb, g2) := projF b.m m1
  let (pa, n1) := mulVal (fmtF32.read a.s) (fmtF32.read fa)
  let (pb, n2) := mulVal (fmtF32.read b.s) (fmtF32.read fb)
  let (s, g3) := roundSum [pa, pb] (n1 || n2)
  let kept := keepHeap d m1 (ha.take a.count ++ hb.take b.count)
  let cut := decide (64 < kept.length)
  let heap := kept.take 64
  let pick := fun l => if a.present / 2 ^ l % 2 == 1 then a.vals.getD l 0
    else if b.present / 2 ^ l % 2 == 1 then b.vals.getD l 0 else a.vals.getD l 0
  ({ a with m := m1, s, count := heap.length, flags := a.flags ||| b.flags ||| (if cut then 4 else 0),
            spill := min 65535 (a.spill + b.spill), present := a.present ||| b.present,
            vals := (List.range 4).map pick }, heap, g1 ||| g2 ||| g3)

/-- The merge of every row, and the span (R202). -/
def State.vpmergeAll (s : State) (t c : Nat) : State :=
  let x := s.core t c
  let e := x.proj.e
  let d := x.desc e.pd
  let d2 := x.desc e.pa
  let s := (List.range d.nrow).foldl (fun s i =>
    let (h, es, fl) := mergeRow d (x.hdr e.pd i) (x.hdr e.pa i) (x.heap e.pd i) (x.heap e.pa i)
    (s.putStateRow t c e.pd i h es).modProj t c fun p => { p with flags := p.flags ||| fl }) s
  s.putPanelBytes t c (panAddr e.pd 63) { d with count := d.count + d2.count }.bytes

/-! ### VPINIT (R197) -/

/-- The state panel that VPINIT writes, from the block and the label table. -/
def State.vpinitAll (s : State) (t c : Nat) (labels : List Byte) : State :=
  let x := s.core t c
  let e := x.proj.e
  let d := initDesc x.proj.par
  let hdr := fun i =>
    if i < d.nrow then
      (⟨0xFF800000, 0, 0, 0, 0, 0,
        (List.range 4).map fun l => if l < d.labels then fieldAt labels (16 * i + 4 * l) 4 else 0xFFFFFFFF,
        List.replicate 4 0xFF800000⟩ : PHdr).bytes
    else List.replicate 64 0
  let heap := fun i => if i < d.nrow then heapBytes [] else List.replicate 512 0
  let s := s.putRows t c e.pd 0 ((List.range 32).map heap)
  let s := s.putRows t c e.pd 32 ((List.range 4).map fun r => (List.range 8).flatMap fun j => hdr (8 * r + j))
  s.putPanel t c e.pd 63 0 (d.bytes ++ List.replicate 448 0)

/-! ### VPEMIT (R204, R205) -/

/-- Round(d * ln 2), d an exact difference. -/
def timesLn2 (v : FVal × Bool) : Nat × FFlags :=
  match v.1 with
  | .nan _ => fmtF32.nan v.2
  | .inf n => (fmtF32.withSign n fmtF32.infCode, fNone)
  | .fin n m e => if m == 0 then (fmtF32.withSign n 0, fNone) else fmtF32.roundNZ envRne n (m * fxLn2) (e - fxP) true

/-- The index sampled from a heap with the draw u (R205). -/
def sampleRow (h : PHdr) (es : List HEnt) (u : Nat) : Nat × FFlags :=
  let es := es.take h.count
  let ws := es.map fun e => projF e.1 h.m
  let (cs, fl) := ws.foldl (fun (acc : List Nat × FFlags) w =>
    let (r, f) := fmtF32.add envRne (fmtF32.read (acc.1.getLast?.getD 0)) (fmtF32.read w.1)
    (acc.1 ++ [r], acc.2 ||| w.2 ||| f)) ([], fNone)
  let c := cs.getLast?.getD 0
  match es with
  | [] => (0xFFFFFFFF, fNone)
  | e0 :: _ =>
    if (fmtF32.read c).isNan || c == 0 then (e0.2, fl)
    else
      let (tv, f) :=
        match fmtF32.read c with
        | .fin n m e => fmtF32.round envRne n (m * u) (e - 32)
        | _ => (c, fNone)
      let above := (es.zip cs).find? fun x => decide (fmtF32.rankKey tv < fmtF32.rankKey x.2)
      let pos := fun (w : Nat) => match fmtF32.read w with
        | .nan _ => false
        | _ => decide (0 < fmtF32.rankKey w)
      match above with
      | some x => (x.1.2, fl ||| f)
      | none =>
        match ((es.zip ws).filter fun x => pos x.2.1).getLast? with
        | some x => (x.1.2, fl ||| f)
        | none => (e0.2, fl ||| f)

/-- One row of VPEMIT. -/
def State.vpemitStep (s : State) (t c : Nat) : State :=
  let x := s.core t c
  let p := x.proj
  let e := p.e
  let k := s.entryAcc t c .proj e
  let d := x.desc e.pd
  let i := p.group
  let h := x.hdr e.pd i
  let es := x.heap e.pd i
  match (s.badPanelBytes t c (hdrAddr e.pd i) 64).orElse fun _ => s.badPanelBytes t c (heapAddr e.pd i) 512 with
  | some (q, r) => s.projBadRow k e q r
  | none =>
    let (lg, f1) := fmtF32.log2 envRne (fmtF32.read h.s)
    let (lse, f2) := fmtF32.add envRne (fmtF32.read h.m) (fmtF32.read lg)
    let losses := (List.range 4).map fun l =>
      if h.present / 2 ^ l % 2 == 1 then
        timesLn2 (sumVals [fmtF32.read lse, (fmtF32.read (h.vals.getD l 0)).negate])
      else (fmtF32.nanCode, fNone)
    let sampling := u32 p.par 44 % 2 == 1
    let rng := if sampling then srDraw p.rng else p.rng
    let (ix, f3) := if sampling then sampleRow h es (srU rng) else (0xFFFFFFFF, fNone)
    let bs := leBytes 4 h.m ++ leBytes 4 h.s ++ leBytes 4 lse ++ leBytes 4 ix ++ losses.flatMap (fun v => leBytes 4 v.1) ++
      leBytes 1 h.count ++ leBytes 1 h.flags ++ leBytes 2 h.spill ++ List.replicate 28 0 ++
      (es.take h.count).flatMap entBytes
    match s.cWrite k (BitVec.ofNat 64 (pW p.par)) (i * pStride p.par) bs with
    | .error er => s.projErr k e er
    | .ok s =>
      let (w, s) := s.projDelay d
      s.modProj t c fun p =>
        { p with group := p.group + 1, wait := w, rng,
                 flags := losses.foldl (fun f v => f ||| v.2) (p.flags ||| f1 ||| f2 ||| f3) }

/-! ### The unit's steps -/

/-- Nothing is left of the entry but its completion. -/
def Core.projDone (x : Core) : Bool :=
  let p := x.proj
  match p.e.opcode with
  | 0x11 | 0x12 => decide (pV p.par ≤ 32 * p.group)
  | 0x14 => decide ((x.desc p.e.pd).nrow ≤ p.group)
  | _ => true

/-- The running entry may go on. -/
def Core.projRuns (x : Core) : Bool := x.proj.busy && !x.proj.suspended && !x.proj.par.isEmpty && x.proj.wait == 0

/-- The running entry stands at a row boundary while its company is saved or drained: it suspends there (R192). -/
def State.projStops (s : State) (t : Nat) (e : Slot) : Bool := s.coStops t e.companyId || s.coDrains t e.companyId

/-- One column group for one row, or one emitted row (R195, R198, R201, R204). -/
def execProjectionGroup (t c : Nat) (s : State) : Out :=
  if !(u16 t && u16 c) then .fault .noSuchUnit
  else
    let x := s.core t c
    if !x.projRuns || x.projDone || s.projStops t x.proj.e then .next s
    else
      match x.proj.e.opcode with
      | 0x11 =>
        if x.proj.reread then
          match s.engAsk t c .proj (lsBanks x.proj.e.w5.toNat 64) with
          | (false, s) => .next s
          | (true, s) =>
            match (s.badLs t c x.proj.e.w5.toNat 64).head? with
            | some b => .next (s.projErr (s.entryAcc t c .proj x.proj.e) x.proj.e (.uecc b))
            | none => .next (s.rereadSpill t c)
        else .next (s.vprojStep t c)
      | 0x12 => .next (s.vpbackStep t c)
      | _ => .next (s.vpemitStep t c)

/-- The entry's last write: VPINIT, VPMERGE and the hidden gradient write their panels, and the entry ends (R188). -/
def execProjectionComplete (t c : Nat) (s : State) : Out :=
  if !(u16 t && u16 c) then .fault .noSuchUnit
  else
    let x := s.core t c
    let e := x.proj.e
    let k := s.entryAcc t c .proj e
    if !x.projRuns || !x.projDone || !s.written k.who then .next s
    else
      match e.opcode with
      | 0x10 =>
        let a := u32 x.proj.par 20
        let n := 16 * (initDesc x.proj.par).nrow
        if 0x200000 < a + n then .next (s.projErr k e (.fault cPROT (BitVec.ofNat 64 a) (opAux k.op)))
        else
          match (s.badLs t c a n).head? with
          | some b => .next (s.projErr k e (.uecc b))
          | none => .next ((s.vpinitAll t c (mgets x.ls a n)).projRelease t c)
      | 0x12 =>
        .next ((s.putPanelBytes t c (e.pa.toNat * 32768) (x.proj.gacc.flatMap (leBytes 4))).projRelease t c)
      | 0x13 =>
        let rows := (List.range (x.desc e.pd).nrow).flatMap fun i =>
          [e.pd, e.pa].flatMap fun p => [(hdrAddr p i, 64), (heapAddr p i, 512)]
        match rows.findSome? fun r => s.badPanelBytes t c r.1 r.2 with
        | some (q, r) => .next (s.projBadRow k e q r)
        | none => .next ((s.vpmergeAll t c).projRelease t c)
      | _ => .next (s.projRelease t c)

end Sys2Proof.Machine
end

