-- ==== Sys2Proof/Machine/Courier.lean ====
section
/-!
DEFINITION. The courier (R294-R306): taking an entry, its parts, rows and elements, suspension and completion; copy-on-write
copies (R405) and migrations (R406-R410).
-/

namespace Sys2Proof.Machine

/-! ### Entries (R297, R301) -/

/-- An entry that names panels: CPYLP, CPYSP and CPYGP. -/
def Slot.panelCopy (e : Slot) : Bool := e.opcode == 0x20 || e.opcode == 0x21 || e.opcode == 0x23

/-- The panel of a panel copy. -/
def Slot.runPanel (e : Slot) : Nat := if e.opcode == 0x21 then e.pa.toNat else e.pd.toNat

def Slot.copyCnt (e : Slot) : Cnt := if e.opcode == 0x23 then gathCnt e.w5 else panCnt e.w5

/-- Rows of the run of a panel copy. -/
def Slot.runRows (e : Slot) : Nat :=
  let c := e.copyCnt
  if e.opcode == 0x23 then c.n * c.e / 512 else c.n / 512

/-- The panels of the run (R297). -/
def Slot.run (e : Slot) : List Pan :=
  if !e.panelCopy || e.runRows == 0 then []
  else
    let c := e.copyCnt
    (List.range ((c.row0 + e.runRows - 1) / 64 + 1)).map fun i => BitVec.ofNat 5 (e.runPanel + i)

/-- Panel and row of row `r` of the run. -/
def Slot.runRow (e : Slot) (r : Nat) : Pan × Nat :=
  let q := e.copyCnt.row0 + r
  (BitVec.ofNat 5 (e.runPanel + q / 64), q % 64)

/-- The states of the run's panels in which the entry starts, and the one it gives them (Table eq 9). -/
def Slot.runStates (e : Slot) : List PSt × PSt :=
  if e.opcode == 0x21 then ([.ready], .draining) else ([.empty, .ready], .filling)

/-- The entry's count is zero: it makes no access (R295). -/
def Slot.courEmpty (e : Slot) : Bool :=
  match e.opcode with
  | 0x20 | 0x21 | 0x23 => e.copyCnt.n == 0
  | 0x40 => false
  | _ => byteCnt e.w5 == 0

/-- The byte position that the 64-byte parts of a destination are aligned to. -/
def State.cPos (s : State) (t : Nat) (w : Word) : Nat :=
  match cAddr w with
  | some (.virt a) | some (.ls a) | some (.tsm a) => a
  | some (.tensor d i) => i * (s.tdesc t d).esize
  | none => 0

/-- Number of 64-byte parts of `n` bytes from position `p` (R299). -/
def partCount (p n : Nat) : Nat := if n == 0 then 0 else (p + n - 1) / 64 + 1 - p / 64

/-- Offset and length of part `i`. -/
def partAt (p n i : Nat) : Nat × Nat :=
  let lo := if i == 0 then p else (p / 64 + i) * 64
  let hi := min (p + n) ((p / 64 + i + 1) * 64)
  (lo - p, hi - lo)

/-- The copy runs in descending order (R304). -/
def descending (dst src : Word) (n : Nat) : Bool :=
  let k := dst.toNat / 2 ^ 62
  let a := dst.toNat % 2 ^ 62
  let b := src.toNat % 2 ^ 62
  k == src.toNat / 2 ^ 62 && k != 3 && decide (b < a) && decide (a < b + n)

/-- Number of parts, rows or elements of an entry. -/
def State.courUnits (s : State) (t : Nat) (e : Slot) : Nat :=
  match e.opcode with
  | 0x20 | 0x21 => e.runRows
  | 0x23 => e.copyCnt.n
  | 0x40 => 1
  | _ => partCount (s.cPos t e.w3) (byteCnt e.w5)

/-! ### The courier's record (Tables eq 5, eq 6) -/

def Core.modCour (x : Core) (f : Cour → Cour) : Core := { x with cour := f x.cour }
def State.modCour (s : State) (t c : Nat) (f : Cour → Cour) : State := s.modCore t c fun x => x.modCour f

/-- The access context of the running entry; a migrate action has supervisor privilege. -/
def State.courAcc (s : State) (t c : Nat) : EAcc :=
  let r := (s.core t c).cour
  let k := s.entryAcc t c .courier r.e
  if r.act then { k with user := false, reads := true } else k

/-- The courier suspends with a record of kind U that carries Progress (R299). -/
def State.courSuspend (s : State) (t c : Nat) (r : FRec) : State :=
  ((s.dropReads (s.courAcc t c)).modCour t c fun x => { x with suspended := true, sub := 0 }).raise false
    { r with waiter := .cour t c }

/-- An access of the running entry failed: it suspends, or waits. -/
def State.courErr (s : State) (t c : Nat) (x : CErr) : State :=
  match x with
  | .wait s => s
  | x =>
    let r := (s.core t c).cour
    match engineRec (s.courAcc t c) 3 r.e.clNo.val r.e.bankNo x (BitVec.ofNat 64 (r.progress % 2 ^ 41)) .none with
    | some f => (s.loseErr x).courSuspend t c f
    | none => s

/-- UECC of a panel row that CPYSP reads. -/
def State.courBadRow (s : State) (t c : Nat) (p : Pan) (r : Nat) : State :=
  let x := (s.core t c).cour
  s.courSuspend t c
    { mkRec cUECC t c kindU 3 (ueccPanelAux p r ||| opAux x.e.opcode) (BitVec.ofNat 64 (panAddr p r)) with
      cl := x.e.clNo.val, bank := x.e.bankNo, pc := BitVec.ofNat 64 (x.progress % 2 ^ 41) }

/-- The entry ends: its panels become READY, its signal follows, the courier is idle, and takes the next one no earlier
than the next cycle (R295). What the queue of copies and of migrate actions holds stays. -/
def State.courRelease (s : State) (t c : Nat) : State :=
  let r := (s.core t c).cour
  let s := s.modCore t c fun x =>
    { x.setPans r.e.run .ready with cour := { Cour.reset with cow := r.cow, acts := r.acts, wait := 1 } }
  if r.act then s else s.signal t c .courier r.e

/-- The entry of a migrate action (R409): target tier 0, no signal. -/
def actSlot (page target dl : Word) : Slot :=
  { w0 := 0x0400000000000000, w1 := 0, w2 := 0, w3 := page, w4 := target, w5 := dl, w6 := 0 }

/-- The courier takes a migrate action, a restored entry or the head of its ring (R295, R300, R409). -/
def execCourierTake (t c : Nat) (s : State) : Out :=
  if !(u16 t && u16 c) then .fault .noSuchUnit
  else
    let x := s.core t c
    if x.cour.busy || x.cour.wait != 0 || s.engHeld t c .courier then .next s
    else
      match x.cour.acts with
      | (p, g, d, n) :: r =>
        .next (s.modCour t c fun y => { y with busy := true, e := actSlot p g d, progress := 0, acts := r, act := true, taken := n })
      | [] =>
        match s.restored t c fun v => v.cour.isSome with
        | some v =>
          .next ((s.modSavedCore v fun w => { w with cour := none }).modCour t c fun y =>
            { v.cour.getD Cour.reset with cow := y.cow, acts := y.acts })
        | none =>
        match s.headOf t c .courier with
        | none => .next s
        | some e =>
          if !((e.run.all fun p => x.panelIn p e.runStates.1) && x.waitMet e) then .next s
          else
            match s.slotAsk t c .courier 0 with
            | (false, s) => .next s
            | (true, s) =>
              let s := s.modCore t c fun x => (x.takeWait e).popHead .courier
              .next <|
                if e.courEmpty then s.signal t c .courier e
                else
                  s.modCore t c fun x =>
                    (x.setPans e.run e.runStates.2).modCour fun r =>
                      { r with busy := true, e, progress := 0, suspended := false, wait := 0, sub := 0, mig := none, act := false,
                               taken := s.tick }

/-! ### LS transfers (R239, R295) -/

/-- The LS banks of `n` bytes at a courier address advanced by `x` bytes. -/
def courBanks (w : Word) (x n : Nat) : BitVec 32 :=
  match cAddr w with
  | some (.ls a) => lsBanks (a + x) n
  | _ => 0

/-- Ask for the banks that the streams and the projection unit leave free: whether they are granted (R239). -/
def State.courAsk (s : State) (t c : Nat) (need : BitVec 32) : Bool × State :=
  s.engAskBeside t c .courier (s.projWants t c) need

/-- One part, row or element is done (R295). -/
def State.courDone (s : State) (t c : Nat) : State :=
  s.modCour t c fun r => { r with progress := r.progress + 1, sub := 0 }

/-- The 64-byte transfers in which `n` bytes at a courier address advanced by `x` bytes move: their number, and offset and
length of transfer `i`; an aligned LS row moves as a whole (R295). Transfers of a write are aligned as its parts. -/
def lsXfer (w : Word) (n x : Nat) (wr : Bool) (i : Nat) : Nat × (Nat × Nat) :=
  match cAddr w with
  | some (.ls a) =>
    if n == 512 && (a + x) % 512 == 0 then (1, (0, 512))
    else
      let p := if wr then a + x else 0
      (partCount p n, partAt p n i)
  | _ => (1, (0, 0))

/-- Make the next transfer of a row or element of `n` bytes, `i` of which are made: none while the banks are not granted, and
whether it is the last. -/
def State.courXfer (s : State) (t c : Nat) (w : Word) (n x : Nat) (wr : Bool) (i : Nat) : Option Bool × State :=
  let (num, o, len) := lsXfer w n x wr i
  match s.courAsk t c (courBanks w (x + o) len) with
  | (false, s) => (none, s)
  | (true, s) =>
    if i + 1 < num then (some false, s.modCour t c fun r => { r with sub := r.sub + 1 }) else (some true, s)

/-- A tensor reference's byte position is a multiple of `m` (R299, R303). -/
def State.tensorAligned (s : State) (t : Nat) (w : Word) (m : Nat) : Bool :=
  match cAddr w with
  | some (.tensor ..) => s.cPos t w % m == 0
  | _ => true

/-! ### Rows (R302) -/

/-- One row of CPYLP or CPYSP. -/
def State.courRow (s : State) (t c : Nat) : State :=
  let r := (s.core t c).cour
  let e := r.e
  let k := s.courAcc t c
  let wr := e.opcode == 0x21
  let w := if wr then e.w3 else e.w4
  let tags := e.copyCnt.tags
  let n := if tags then 544 else 512
  let x := r.progress * n
  let (p, q) := e.runRow r.progress
  if !s.tensorAligned t w 32 then s.courErr t c (.fault cDALIGN (s.cWord k w x) (opAux k.op))
  else if wr then
    if s.badPanelRow t c p q tags then s.courBadRow t c p q
    else
      match s.cDest k w x n with
      | .error er => s.courErr t c er
      | .ok (ps, s) =>
        match s.courXfer t c w n x true r.sub with
        | (some true, s) =>
          let y := s.core t c
          (s.cStore k ps (y.row p q ++ if tags then y.tagRow p q else [])).courDone t c
        | (_, s) => s
  else
    match s.cParts k w x n false with
    | .error er => s.courErr t c er
    | .ok (ps, s) =>
      match s.cPoll k ps with
      | .error er => s.courErr t c er
      | .ok s =>
        match s.courXfer t c w n x false r.sub with
        | (some true, s) =>
          let (bs, s) := s.cTake k ps
          let s := s.putPanel t c p q 0 (bs.take 512)
          (if tags then s.putTag t c p q 0 (bs.drop 512) else s).courDone t c
        | (_, s) => s

/-! ### Gather (R303) -/

/-- An element's address: multiples of 32, and the forms and extents of Table eq 10. -/
def State.elemErr (s : State) (k : EAcc) (a : Word) (n : Nat) : Option CErr :=
  match addrErr a n false false with
  | some (cause, v, _) => some (.fault cause v (opAux k.op))
  | none => if s.cPos k.t a % 32 != 0 then some (.fault cDALIGN a (opAux k.op)) else none

/-- One element of CPYGP: its list entry is a transfer of its own, and then the element moves (R295). -/
def State.courElem (s : State) (t c : Nat) : State :=
  let r := (s.core t c).cour
  let e := r.e
  let k := s.courAcc t c
  let cnt := e.copyCnt
  let i := r.progress
  let at' := e.w4.toNat + 8 * i
  match (s.badLs t c at' 8).head? with
  | some b => s.courErr t c (.uecc b)
  | none =>
    if r.sub == 0 then
      match s.courAsk t c (lsBanks at' 8) with
      | (false, s) => s
      | (true, s) => s.modCour t c fun r => { r with sub := 1 }
    else
      let a := mword (s.core t c).ls at'
      let n := cnt.e + if cnt.tags then 32 else 0
      match s.elemErr k a n with
      | some er => s.courErr t c er
      | none =>
        match s.cParts k a 0 n false with
        | .error er => s.courErr t c er
        | .ok (ps, s) =>
          match s.cPoll k ps with
          | .error er => s.courErr t c er
          | .ok s =>
            match s.courXfer t c a n 0 false (r.sub - 1) with
            | (some true, s) =>
              let (bs, s) := s.cTake k ps
              let s := (pieces 512 (i * cnt.e) (bs.take cnt.e)).foldl (fun s (x : Nat × List Byte) =>
                let (p, q) := e.runRow (x.1 / 512)
                s.putPanel t c p q (x.1 % 512) x.2) s
              let (p, q) := e.runRow i
              (if cnt.tags then s.putTag t c p q 0 (bs.drop 512) else s).courDone t c
            | (_, s) => s

/-! ### Bytes (R304-R306) -/

/-- One 64-byte destination part of CPYMM or CPYZ. -/
def State.courBytes (s : State) (t c : Nat) : State :=
  let r := (s.core t c).cour
  let e := r.e
  let k := s.courAcc t c
  let n := byteCnt e.w5
  let zero := e.opcode == 0x25
  let p := s.cPos t e.w3
  let num := partCount p n
  let i := if !zero && descending e.w3 e.w4 n then num - 1 - r.progress else r.progress
  let (x, len) := partAt p n i
  match (if zero then .ok ([], s) else s.cParts k e.w4 x len false : Except CErr (Parts × State)) with
  | .error er => s.courErr t c er
  | .ok (src, s) =>
    match s.cDest k e.w3 x len with
    | .error er => s.courErr t c er
    | .ok (dst, s) =>
      match s.cPoll k src with
      | .error er => s.courErr t c er
      | .ok s =>
        match s.courAsk t c (courBanks e.w3 x len ||| if zero then 0 else courBanks e.w4 x len) with
        | (false, s) => s
        | (true, s) =>
          let (bs, s) := s.cTake k src
          (s.cStore k dst (if zero then List.replicate len 0 else bs)).courDone t c

def redOpOf (n : Nat) : RedOp := if n == 0 then .add else if n == 1 then .min else .max
def redTyOf (n : Nat) : RedTy := if n == 0 then .i32 else if n == 1 then .f32 else .bf16

/-- Every piece of a part holds whole lanes. -/
def wholeLanes (ty : RedTy) (ps : Parts) : Bool := ps.all fun p => p.2 % redBytes ty == 0

/-- The flags of a reduction that no one home can make join the flag word of the first piece's bank or unit. -/
def State.redFlag (s : State) (ps : Parts) (f : FFlags) : State :=
  match ps.head? with
  | some (.mem m, _) =>
    match m.loc with
    | .tsm t a => s.tsmFlag t (tsmBank a) f
    | .hbm a => s.unitFlag (paTile a) (paUnit a) f
    | .far _ => s
  | _ => s

/-- Reduce bytes into the pieces of a destination part, each at its home in one step (R305). A lane that lies in two places,
which only a tensor's pitch can make, is read, reduced and written. -/
def State.courReduce (s : State) (k : EAcc) (op : RedOp) (ty : RedTy) (ps : Parts) (bs : List Byte) : Except CErr State :=
  if wholeLanes ty ps then
    .ok (ps.foldl (fun (acc : State × List Byte) p =>
      (acc.1.redPart k (.red op ty (acc.2.take p.2)) p.1, acc.2.drop p.2)) (s, bs)).1
  else
    match s.cFetch k ps with
    | .error e => .error e
    | .ok (old, s) =>
      let (v, f) := redStep op ty old bs
      .ok ((s.cStore k ps v).redFlag ps f)

/-- One 64-byte destination part of CPYRED: memory is read once an acquire before the entry allows it (R274, R279, R305). -/
def State.courRed (s : State) (t c : Nat) : State :=
  let r := (s.core t c).cour
  let e := r.e
  let k := s.courAcc t c
  let op := redOpOf (e.fld 2 2)
  let ty := redTyOf (e.fld 0 2)
  let p := s.cPos t e.w3
  let (x, len) := partAt p (byteCnt e.w5) r.progress
  if p % redBytes ty != 0 then s.courErr t c (.fault cDALIGN (s.cWord k e.w3 x) (opAux k.op))
  else if s.cPos t e.w4 % redBytes ty != 0 then s.courErr t c (.fault cDALIGN (s.cWord k e.w4 x) (opAux k.op))
  else if !k.reads then s
  else
    match s.cParts k e.w4 x len false with
    | .error er => s.courErr t c er
    | .ok (src, s) =>
      match s.cDest k e.w3 x len with
      | .error er => s.courErr t c er
      | .ok (dst, s) =>
        let all := src ++ if wholeLanes ty dst then [] else dst
        match s.cPoll k all with
        | .error er => s.courErr t c er
        | .ok s =>
          match s.courAsk t c (courBanks e.w4 x len) with
          | (false, s) => s
          | (true, s) =>
            let (bs, _) := s.cTake k src
            match s.courReduce k op ty dst bs with
            | .error er => s.courErr t c er
            | .ok s => (s.dropReads k).courDone t c

/-! ### Migration (R406-R410) -/

/-- The mapping entry of a page or block: its address, value, kind, size, and whether the company may write. -/
structure MigPage where
  ent : Nat
  val : Nat
  block : Bool
  large : Bool
  write : Bool
  deriving DecidableEq, Repr

def MigPage.tier (p : MigPage) : Nat := if p.block then 0 else p.val / 64 % 4
/-- The frame of the entry, a fabric or pool address div 65,536. -/
def MigPage.frame (p : MigPage) : Nat := p.val / 2 ^ 16 % 2 ^ 36

/-- The leaf of a virtual page that MIGR translates; a leaf in tier 1 is accepted (R406). -/
def State.migLeaf (s : State) (x : XReq) (write : Bool) : Except XErr MigPage :=
  let root := (s.tile x.tile).ptroot
  if 2 ^ 55 ≤ x.va then .error (.fault cPROT (x.aux 0 0 0))
  else if root % 65536 != 0 then .error (.fault cPROT (x.aux 0 0 1))
  else
    match s.walk x.va 3 root with
    | .bad c tier lvl reason => .error (.fault c (x.aux tier lvl reason))
    | .lost b => .error (.lost b)
    | .leaf ent pte large lvl =>
      let tier := pte / 64 % 4
      let fa := pte / 2 ^ 16 % 2 ^ 36 * 65536 + if large then x.va % 2 ^ 29 else 0
      if tier == 2 then .error (.fault cPAGE (x.aux 2 lvl 1))
      else if x.user && pte / 8 % 2 == 0 then .error (.fault cPROT (x.aux tier lvl 2))
      else if tier == 0 && paReserved fa then .error (.fault cPROT (x.aux 0 lvl 5))
      else if tier == 0 && !s.moduleExists (fa / 2 ^ 40) then .error (.fault cPROT (x.aux 0 lvl 7))
      else .ok ⟨ent, pte, false, large, write && pte / 4 % 2 == 1⟩

/-- The page or block that a courier address names. -/
def State.migPage (s : State) (k : EAcc) (w : Word) : Except XErr MigPage :=
  let x : XReq := ⟨k.t, 0, false, false, k.user, 0, k.op, k.c⟩
  match cAddr w with
  | some (.virt a) => s.migLeaf { x with va := a } true
  | some (.tensor n i) =>
    let x := { x with desc := n }
    let d := s.tdesc k.t n
    let p := if d.cols == 0 then i * d.esize else i / d.cols * d.pitch + i % d.cols * d.esize
    match (s.badHome ((s.tile k.t).ttbase + 64 * n) 64).head? with
    | some b => .error (.lost b)
    | none =>
    if !d.ok then .error (.fault cPROT (x.aux 0 3 8))
    else if x.user && !d.user then .error (.fault cPROT (x.aux 0 3 2))
    else if d.count ≤ i then .error (.fault cTBOUND (x.aux 0 3 0))
    else if d.layout == 0 then s.migLeaf { x with va := d.base + p } d.write
    else if d.blocks ≤ p / 65536 then .error (.fault cTBOUND (x.aux 0 3 1))
    else
      let ent := d.base + 8 * (p / 65536)
      let v := s.homeWord ent
      let fa := v / 2 ^ 16 % 2 ^ 36 * 65536
      match (s.badHome ent 8).head? with
      | some b => .error (.lost b)
      | none =>
      if v % 2 == 0 then .error (.fault cPAGE (x.aux 0 3 2))
      else if v / 2 % 2 ^ 15 != 0 || v / 2 ^ 52 != 0 then .error (.fault cPROT (x.aux 0 3 1))
      else if fa / 2 ^ 40 != s.moduleId then .error (.fault cPROT (x.aux 0 3 7))
      else if paReserved fa then .error (.fault cPROT (x.aux 0 3 5))
      else .ok ⟨ent, v, true, false, d.write⟩
  | _ => .error (.fault cPROT (opAux k.op))

/-- The check code that a page fails (R406). -/
def State.migCode (s : State) (p : MigPage) (toPool : Bool) : Option Nat :=
  let own := p.tier != 0 || p.frame / 2 ^ 24 == s.moduleId
  let fe := s.frameEnt (p.frame % 2 ^ 24)
  if p.large then some 1
  else if p.tier == 0 && own && (decide (1 < feCount fe) || feCow fe) then some 2
  else if !p.write then some 3
  else if !own || (p.block && toPool) then some 4
  else none

/-- The page is already where the entry moves it. -/
def MigPage.there (p : MigPage) (target : Word) : Bool :=
  if target.getLsbD 0 then p.tier == 1 && p.frame == (target.extractLsb' 16 36).toNat
  else p.tier == 0 && p.frame / 2 ^ 20 % 16 == (target.extractLsb' 4 4).toNat

/-- Set the migration state of a frame: Mig, target and target tier (Table xlat 5). -/
def migFields (v mig target : Nat) (pool : Bool) : Nat :=
  setField (setField v 18 2 mig) 24 37 (if mig == 0 then 0 else target % 2 ^ 36 + if pool then 2 ^ 36 else 0)

/-- A free migration slot of a tile; slots 64 and up stand for the copies from the pool, one a core, which use none (R407). -/
def State.migSlot (s : State) (t c : Nat) (p : MigPage) : Option (Nat × Nat) :=
  if p.tier != 0 then some (t, 64 + c)
  else
    let h := p.frame / 2 ^ 20 % 16
    ((List.range 64).find? fun n => !((s.tile h).migs.any fun e => e.1 == n)).map fun n => (h, n)

/-- Start a migration: translate and check the page, pop the target frame, take a slot (R406, R407). -/
def State.migStart (s : State) (t c : Nat) : State :=
  let r := (s.core t c).cour
  let e := r.e
  let k := s.courAcc t c
  let toPool := e.w4.getLsbD 0
  let none' := fun (s : State) => s.modCour t c fun r => { r with progress := 1 }
  if !k.reads then s
  else
    match s.migPage k e.w3 with
    | .error (.fault cause aux) => s.courErr t c (.fault cause e.w3 aux)
    | .error (.lost b) => s.courErr t c (.uecc b)
    | .ok p =>
      let inMod := p.tier == 0 && p.frame / 2 ^ 24 == s.moduleId
      let f := if inMod then p.frame % 2 ^ 24 else p.frame
      if inMod && !p.large && feMig (s.frameEnt f) != 0 then s
      else
        match s.migCode p toPool with
        | some n => s.courErr t c (.fault cPROT e.w3 (BitVec.ofNat 32 n ||| opAux k.op))
        | none =>
          if p.there e.w4 then none' s
          else if p.tier == 1 && toPool then s.courErr t c (.fault cPROT e.w3 (5 ||| opAux k.op))
          else
            match s.migSlot t c p with
            | none => s
            | some (h, n) =>
              let dest : Option Nat × State :=
                if toPool then (some (e.w4.extractLsb' 16 36).toNat, s) else s.popFrame (e.w4.extractLsb' 4 4).toNat
              match dest with
              | (none, _) =>
                s.courErr t c (.fault cNOFRAME e.w3
                  ((⟨t, 0, true, false, k.user, descOf e.w3, k.op, c⟩ : XReq).aux p.tier (if p.block then 3 else 2) 1))
              | (some f2, s) =>
                let s := if p.tier == 0 then s.putFrame f (migFields (s.frameEnt f) 1
                  (if toPool then f2 else f2 + s.moduleId * 2 ^ 24) toPool) else s
                let m : Mig :=
                  { f, f2, toPool, fromPool := p.tier != 0, asked := 0, line := 0, phase := 1, ent := p.ent, courier := some (t, c),
                    tile := t, deadline := (e.w5.extractLsb' 0 32).toNat, taken := r.taken,
                    vpage := if p.block then 1 else 0 }
                (s.modTile h fun x => { x with migs := tset x.migs n m }).modCour t c fun r => { r with mig := some (h, n) }

/-- A migration of a tile. -/
def State.migAt (s : State) (t n : Nat) : Option Mig := ((s.tile t).migs.find? fun e => e.1 == n).map (·.2)

/-- The courier that runs a migration may go on. -/
def State.migGoes (s : State) (m : Mig) : Bool :=
  match m.courier with
  | some (t, c) => let r := (s.core t c).cour; !r.suspended && r.cow.isEmpty && r.wait == 0
  | none => true

/-- The requester of a migration's line reads. -/
def Mig.who (m : Mig) : Who :=
  let (t, c) := m.courier.getD (m.tile, 16)
  .engine t c .courier 1

/-- The read of a line that has come. -/
def State.lineCome (s : State) (w : Who) (a : Nat) : Option Req :=
  s.reqs.find? fun q => q.who == w && q.loc == .hbm a && q.stage.isReply && decide (q.due ≤ s.quantum)

/-- Ask for line `n` of a frame. -/
def State.askLine (s : State) (w : Who) (f n : Nat) : State :=
  s.request w (.read 64) (.hbm (f * 65536 + n * 64)) .engine .plain .core false false

/-- A line goes to the target frame. -/
def State.migLine (s : State) (t slot : Nat) (m : Mig) (bs : List Byte) : State :=
  let b := m.f2 * 65536 + m.line * 64
  (if m.toPool then { s with pool := mputs s.pool b bs } else s.homeWrite b bs 16).modTile t fun x =>
    { x with migs := tset x.migs slot { m with line := m.line + 1 } }

/-- The host fabric refuses the pool line that a migration is to read or write next (R416). -/
def State.poolRefused (s : State) (m : Mig) : Bool :=
  (m.fromPool && s.refused.contains (m.f * 1024 + m.line)) || (m.toPool && s.refused.contains (m.f2 * 1024 + m.line))

/-- A refused access suspends the courier with PAGE of tier 1 (R416). -/
def State.migRefused (s : State) (m : Mig) : State :=
  match m.courier with
  | some (t, c) =>
    let e := (s.core t c).cour.e
    s.courErr t c (.fault cPAGE e.w3 (1 ||| opAux e.opcode))
  | none => s

/-- The next line is read at the old frame's home, up to 16 ahead, and sent to the target; its bit is set at that read (R407).
-/
def execMigrationLineCopy (t slot : Nat) (s : State) : Out :=
  if !(u16 t && decide (slot < 80)) then .fault .noSuchUnit
  else
    match s.migAt t slot with
    | none => .next s
    | some m =>
      if m.phase != 1 || 1024 ≤ m.line || !s.migGoes m then .next s
      else if s.poolRefused m then .next (s.migRefused m)
      else if m.fromPool then .next (s.migLine t slot m (mgets s.pool (m.f * 65536 + m.line * 64) 64))
      else
        let a := m.f * 65536 + m.line * 64
        let put := fun (s : State) (m : Mig) => s.modTile t fun x => { x with migs := tset x.migs slot m }
        match s.lineCome m.who a with
        | some q =>
          match q.stage, m.courier with
          | .reply _ _ true, some (t', c') =>
            -- the lines asked for are read anew after the answer
            let s := { s with reqs := s.reqs.filter fun r => r.who != m.who }
            .next ((put s { m with asked := m.line }).courErr t' c' (.uecc (q.cell.getD (.hbm a))))
          | _, _ => .next ((s.delReq q.id).migLine t slot m (s.stackBytes a 64))
        | none =>
          if m.asked < 1024 && m.asked < m.line + 16 then
            .next (put (s.askLine m.who m.f m.asked) { m with asked := m.asked + 1 })
          else .next s

/-- An access to a frame is still to be performed. -/
def Req.inFrame (r : Req) (f : Nat) : Bool :=
  match r.loc with
  | .hbm a => a / 65536 == f && !r.performed && r.stage != .lost
  | _ => false

/-- An atomic or a reduction that has left its frame's line out of the MSC, or that a slot has served, still stands there. -/
def State.stepInFrame (s : State) (f : Nat) : Bool :=
  s.reqs.any fun r => r.inFrame f && r.op.steps && (r.stage == .home || r.stage == .unit)

/-- Every copy is acknowledged: Mig becomes 2, the mapping is rewritten and shot down (R407, Table xlat 7). -/
def execMigrationSwitch (t slot : Nat) (s : State) : Out :=
  if !(u16 t && decide (slot < 80)) then .fault .noSuchUnit
  else
    match s.migAt t slot with
    | none => .next s
    | some m =>
      if m.phase != 1 || m.line < 1024 || !s.migGoes m || (!m.fromPool && s.stepInFrame m.f) then .next s
      else
        let v := s.homeWord m.ent
        let fr := if m.toPool then m.f2 else m.f2 + s.moduleId * 2 ^ 24
        let v' := setField (if m.vpage == 1 then v else setField v 6 2 (if m.toPool then 1 else 0)) 16 36 fr
        let s := if m.fromPool then s
          else s.putFrame m.f (setField (s.frameEnt m.f) 18 2 2)
        let s := s.modTile t fun x => { x with migs := tset x.migs slot { m with phase := 2 } }
        let s := (s.homeWrite m.ent (leBytes 8 v') 16).dropBlock m.ent
        .next (if m.fromPool then s else s.shoot (m.f + s.moduleId * 2 ^ 24))

/-- The shootdown is complete: the old frame is freed, its lines dropped, the slot freed, and a late arrival counted (R407,
R409). -/
def execMigrationArrival (t slot : Nat) (s : State) : Out :=
  if !(u16 t && decide (slot < 80)) then .fault .noSuchUnit
  else
    match s.migAt t slot with
    | none => .next s
    | some m =>
      if m.phase != 2 || (!m.fromPool && s.reqs.any fun r => r.inFrame m.f) then .next s
      else
        let late := m.deadline != 0 && m.taken + m.deadline < s.tick
        let s := s.modTile t fun x => { x with migs := tdel x.migs slot }
        let s :=
          if m.fromPool then s
          else
            let v := s.frameEnt m.f
            let s := s.putFrame m.f (migFields (setField v 0 16 (feCount v - 1)) 0 0 false)
            let s := s.modTile (m.f / 2 ^ 20 % 16) fun x =>
              { x with msc := x.msc.filter fun e => e.1 / 1024 != m.f % 2 ^ 20 }
            (s.pushFrame m.f).2
        let s := if late then s.modTile m.tile fun x =>
          { x with cnt := { x.cnt with migSlips := x.cnt.migSlips + 1 } } else s
        .next <|
          match m.courier with
          | some (t', c') => s.modCour t' c' fun r => { r with progress := 1, mig := none }
          | none => s

/-- Take a migration that has not reached the switch back: Mig = 0, the new frame pushed back, the slot freed (R410). -/
def State.migBack (s : State) (t slot : Nat) : State :=
  match s.migAt t slot with
  | none => s
  | some m =>
    if m.phase != 1 then s
    else
      let s := s.modTile t fun x => { x with migs := tdel x.migs slot }
      let s := if m.fromPool then s else s.putFrame m.f (migFields (s.frameEnt m.f) 0 0 false)
      if m.toPool then s
      else (s.putFrame m.f2 (setField (s.frameEnt m.f2) 0 16 0)).pushFrame m.f2 |>.2

/-! ### Copy-on-write copies (R405) -/

/-- The last line is copied: the block entry names the new frame, its cached copies are dropped, and the old frame has one use
less and is no longer busy (R405). -/
def State.cowEnd (s : State) (t c : Nat) (w : Cow) (owner : Nat) : State :=
  let v := setField (s.homeWord w.ent) 16 36 (w.f2 + s.moduleId * 2 ^ 24)
  let s := (s.homeWrite w.ent (leBytes 8 v) owner).dropBlock w.ent
  let e := s.frameEnt w.f
  (s.putFrame w.f (setField (setField e 0 16 (feCount e - 1)) 17 1 0)).modCour t c fun r => { r with cow := r.cow.drop 1 }

/-- The courier copies a shared frame for a write line by line, asking up to 16 lines ahead; an uncorrectable line gives free
bytes and a record of kind F (R405, R251; log entry 30). -/
def execCowCopyComplete (t c : Nat) (s : State) : Out :=
  if !(u16 t && u16 c) then .fault .noSuchUnit
  else
    match (s.core t c).cour.cow with
    | [] => .next s
    | w :: ws =>
      let owner := if w.f / 2 ^ 20 % 16 == t then c else 16
      let who := Who.engine t c .courier 2
      let put := fun (s : State) (w : Cow) => s.modCour t c fun r => { r with cow := w :: ws }
      let s := if w.asked < 1024 && w.asked < w.line + 16 then put (s.askLine who w.f w.asked) { w with asked := w.asked + 1 } else s
      let asked := if w.asked < 1024 && w.asked < w.line + 16 then w.asked + 1 else w.asked
      match s.lineCome who (w.f * 65536 + w.line * 64) with
      | none => .next s
      | some q =>
        let (bs, s) := match q.stage with
          | .reply _ _ true =>
            ((List.range 64).map (Config.lostByte s.fresh),
              { s with fresh := s.fresh + 1 }.raise false
                (ueccRec (q.cell.getD (.hbm (w.f * 65536 + w.line * 64))) t c kindF 3 false))
          | .reply bs _ _ => (bs, s)
          | _ => ([], s)
        let s := (s.delReq q.id).homeWrite (w.f2 * 65536 + w.line * 64) bs owner
        .next (if w.line + 1 < 1024 then put s { w with asked, line := w.line + 1 } else s.cowEnd t c w owner)

/-! ### The courier's steps -/

/-- The running entry may go on: not suspended, no copy-on-write copy to make first, no transfer under way. -/
def Cour.runs (r : Cour) : Bool := r.busy && !r.suspended && r.cow.isEmpty && r.wait == 0

/-- Progress stands at a 512-byte boundary (Table eq 11). -/
def Cour.atBlock (r : Cour) : Bool :=
  r.sub == 0 &&
    match r.e.opcode with
    | 0x20 | 0x21 => true
    | 0x23 => r.progress * r.e.copyCnt.e % 512 == 0
    | 0x40 => false
    | _ => r.progress % 8 == 0

/-- One part, row or element of the running entry; under a save it goes on no further than the next 512-byte boundary (R295,
R299, R300). -/
def execCourierPart (t c : Nat) (s : State) : Out :=
  if !(u16 t && u16 c) then .fault .noSuchUnit
  else
    let r := (s.core t c).cour
    if !r.runs || s.courUnits t r.e ≤ r.progress || (!r.act && r.atBlock && s.coStops t r.e.companyId) then .next s
    else
      match r.e.opcode with
      | 0x20 | 0x21 => .next (s.courRow t c)
      | 0x23 => .next (s.courElem t c)
      | 0x24 => .next (s.courRed t c)
      | 0x40 => .next (if r.mig.isSome then s else s.migStart t c)
      | _ => .next (s.courBytes t c)

/-- The last write has been performed: the entry completes (R295). -/
def execCourierComplete (t c : Nat) (s : State) : Out :=
  if !(u16 t && u16 c) then .fault .noSuchUnit
  else
    let r := (s.core t c).cour
    if !r.runs || r.progress < s.courUnits t r.e then .next s
    else
      .next (if s.written (s.courAcc t c).who then s.courRelease t c else s)

end Sys2Proof.Machine
end

