-- ==== Sys2Proof/Machine/Routing.lean ====
section
/-!
DEFINITION. Handles, circuits and relays (R365, R366, R377), the block times of ports (R333), light (R368, R381), and the
way of request packets and acknowledgements, hop by hop (R16, R17, R369).
-/

namespace Sys2Proof.Machine

/-! ### Handles and ports -/

def State.handle (s : State) (t h : Nat) : Handle := tget Handle.reset (s.tile t).handles h
def State.hq (s : State) (t h : Nat) : HQ := tget HQ.reset (s.tile t).hq h
def State.modHq (s : State) (t h : Nat) (f : HQ → HQ) : State :=
  s.modTile t fun x => { x with hq := tmod HQ.reset x.hq h f }

def State.port (s : State) (t p : Nat) : Port := tget Port.reset (s.tile t).ports p
def State.modPort (s : State) (t p : Nat) (f : Port → Port) : State :=
  s.modTile t fun x => { x with ports := tmod Port.reset x.ports p f }

/-- A port in Degraded mode carries half the rate in each direction (R15). -/
def State.halfRate (s : State) (t p : Nat) : Bool := (s.port t p).mode == 2

/-- Tile and port of an endpoint; none for an edge endpoint (Table cue 1). -/
def endTile (e : BitVec 16) : Option (Nat × Nat) :=
  if e.getLsbD 15 then none else some ((e.extractLsb' 4 4).toNat, (e.extractLsb' 0 3).toNat)

/-- The circuit on a tile port. -/
def State.circAt (s : State) (t p : Nat) : Option Circuit :=
  s.circuits.find? fun c => endTile c.a == some (t, p) || endTile c.b == some (t, p)

/-! ### Relays (R377) -/

/-- Where the stream of a handle ends: a tile's handle or beyond the module, with the ports through which relays send it on
after the first; `slow` says that a port on the way carries half the rate. -/
inductive FarEnd where
  | tile (t h : Nat) (outs : List (Nat × Nat)) (slow : Bool)
  | edge (outs : List (Nat × Nat)) (slow : Bool)
  | none
  deriving DecidableEq, Repr

/-- Follow the relays from the arrival on a tile port; every circuit passed must be LIVE (R377). -/
def State.follow (s : State) : Nat → Nat → Nat → List (Nat × Nat) → Bool → FarEnd
  | 0, _, _, _, _ => .none
  | k + 1, t, p, outs, slow =>
    let slow := slow || s.halfRate t p
    match (s.tile t).relays.find? fun e => e.1 == p with
    | some (_, j) =>
      match s.circAt t j with
      | Option.none => .none
      | some c =>
        if (s.handle t c.h).st != 2 then .none
        else
          match endTile (if endTile c.a == some (t, j) then c.b else c.a) with
          | Option.none => .edge (outs ++ [(t, j)]) (slow || s.halfRate t j)
          | some (t', p') => s.follow k t' p' (outs ++ [(t, j)]) (slow || s.halfRate t j)
    | Option.none =>
      match s.circAt t p with
      | some c => .tile t c.h outs slow
      | Option.none => .none

/-- Where blocks of handle `h` of tile `t` end. -/
def State.farEnd (s : State) (t h : Nat) : FarEnd :=
  let x := s.handle t h
  match endTile x.far with
  | Option.none => .edge [] (s.halfRate t x.port)
  | some (t', p') => s.follow 97 t' p' [] (s.halfRate t x.port)

/-! ### Block times (R333, R334) -/

/-- Blocks that leave a port in a tick. -/
def Port.sent (x : Port) (tick : Nat) : Nat := ((x.times.find? fun e => e.1 == tick).map (·.2)).getD 0

/-- One more block time is taken in a tick; those of past ticks are forgotten. -/
def Port.book (x : Port) (tick now : Nat) : Port :=
  { x with times := (tick, x.sent tick + 1) :: x.times.filter fun e => e.1 != tick && decide (now ≤ e.1) }

/-- The ports that a block leaves by, with the ticks in which it does: one tick later at each relay (R377). -/
def State.outTimes (s : State) (outs : List (Nat × Nat)) : List (Nat × Nat × Nat) :=
  outs.zipIdx.map fun (o, i) => (o.1, o.2, s.tick + i)

/-- Every port on the way has a block time left in the tick in which the block leaves by it: 10 a tick, 5 in Degraded mode. -/
def State.timesLeft (s : State) (outs : List (Nat × Nat)) (slow : Bool) : Bool :=
  (s.outTimes outs).all fun o => decide ((s.port o.1 o.2.1).sent o.2.2 < if slow then 5 else 10)

def State.takeTimes (s : State) (outs : List (Nat × Nat)) : State :=
  (s.outTimes outs).foldl (fun u o => u.modPort o.1 o.2.1 fun x => x.book o.2.2 s.tick) s

/-- A block that starts now on the circuit of a handle ends before the scheduled break (R334). -/
def State.beforeBreak (s : State) (x : Handle) (slow : Bool) : Bool :=
  decide (s.sub + (if slow then 20 else 10) ≤ 100) || decide (s.tick + 1 < x.dark)

/-! ### Light (R368, R381) -/

/-- Laser chiplet `n` gives no light: it is being replaced, or it has failed and the spare does not serve in its place. -/
def State.laserOut (s : State) (n : Nat) : Bool :=
  (match s.lasers.switching with
   | some (c, _) => c == n
   | none => false) ||
    (s.lasers.failed.contains n && (s.lasers.spareFor != some n || s.lasers.failed.contains 4))

/-- The house ports of a tile carry light; nothing else darkens them. -/
def State.lit (s : State) (t : Nat) : Bool := !s.laserOut (t / 4)

/-! ### Routes (R16, R369) -/

/-- The tiles in the order of the house ring. -/
def ringOrder : List Nat := [0, 1, 2, 3, 7, 6, 5, 4, 8, 9, 10, 11, 15, 14, 13, 12]
def ringPos (t : Nat) : Nat := ringOrder.findIdx (· == t)
def ringNext (t : Nat) : Nat := ringOrder.getD ((ringPos t + 1) % 16) 0
def ringPrev (t : Nat) : Nat := ringOrder.getD ((ringPos t + 15) % 16) 0

/-- Where a packet goes: a tile of this module, or another module. -/
inductive Goal where
  | tile (t : Nat)
  | mod (m : Nat)
  deriving DecidableEq, Repr

def Loc.goal : Loc → Goal
  | .hbm a => .tile (paTile a)
  | .tsm t _ => .tile t
  | .far fa => .mod (fa / 2 ^ 40)

/-- The lowest LIVE handle of a tile whose far end meets a condition. -/
def State.liveTo (s : State) (t : Nat) (f : BitVec 16 → Bool) : Option (Nat × Handle) :=
  ((List.range 64).map fun h => (h, s.handle t h)).find? fun x => x.2.st == 2 && f x.2.far

/-- Torus direction towards a module: the first coordinate that differs in the order x, y, z, the shorter way round, ties
going + (R369). -/
def State.torusDir (s : State) (m : Nat) : Nat :=
  let own := s.moduleId
  let w := s.cw.identity.toNat
  let go := fun (sh : Nat) (sz : Nat) =>
    let a := own / 2 ^ sh % 16
    let b := m / 2 ^ sh % 16
    let k := sz + 1
    let up := (b + k - a) % k
    (a != b, decide (k < 2 * up))
  let (dx, nx) := go 0 (w / 2 ^ 12 % 16)
  let (dy, ny) := go 4 (w / 2 ^ 16 % 16)
  let (_, nz) := go 8 (w / 2 ^ 20 % 16)
  if dx then (if nx then 1 else 0) else if dy then (if ny then 3 else 2) else (if nz then 5 else 4)

/-- A hop: the output port, the tile reached (none: the edge relay or another module), the port of arrival there, and the
scheduled circuit's handle, none on the house ring. -/
structure Hop where
  out : Nat
  next : Option Nat
  input : Nat
  sched : Option Nat
  deriving DecidableEq, Repr

/-- A hop on the house ring, in its order by port 6 or against it by port 7; tile 12's port 6 and tile 0's port 7 face the edge
relay, which is place 16 (R368). -/
def ringHop (t : Nat) (up toEdge : Bool) : Hop :=
  if t == 16 then (if up then ⟨6, some 0, 7, none⟩ else ⟨7, some 12, 6, none⟩)
  else if up then ⟨6, if toEdge && t == 12 then none else some (ringNext t), 7, none⟩
  else ⟨7, if toEdge && t == 0 then none else some (ringPrev t), 6, none⟩

/-- The output that a router chooses for a packet (R369). -/
def State.nextHop (s : State) (t : Nat) (g : Goal) : Hop :=
  match g with
  | .mod m =>
    let d := s.torusDir m
    match if t == 16 then none else s.liveTo t fun e => e.getLsbD 15 && (e.extractLsb' 4 4).toNat == d with
    | some (h, x) => ⟨x.port, none, 0, some h⟩
    | none => if t == 16 then ⟨8, none, 0, none⟩ else ringHop t (16 - ringPos t ≤ ringPos t + 1) true
  | .tile home =>
    match if t == 16 then none else s.liveTo t fun e => (endTile e).map (·.1) == some home with
    | some (h, x) => ⟨x.port, some home, (x.far.extractLsb' 0 3).toNat, some h⟩
    | none =>
      let p := ringPos home
      ringHop t (if t == 16 then p + 1 ≤ 16 - p else (p + 16 - ringPos t) % 16 ≤ 8) false

/-- The number of the present block time, of 1 ns, counted from tick 0. -/
def State.blockNo (s : State) : Nat := 10 * s.tick + s.sub / 10

/-- The packet can leave now: on a scheduled circuit when the port has a block time for it, one in eight at most; on the house
ring when both tiles' ports carry light (R368, R369, R381). -/
def State.hopFree (s : State) (t : Nat) (h : Hop) : Bool :=
  match h.sched with
  | some n =>
    let slow := s.halfRate t h.out
    s.timesLeft [(t, h.out)] slow && decide ((s.port t h.out).reqAt ≤ s.blockNo) && s.beforeBreak (s.handle t n) slow
  | none => (t == 16 || s.lit t) && (match h.next with | some u => s.lit u | none => true)

/-- The packet takes its block time. -/
def State.takeHop (s : State) (t : Nat) (h : Hop) : State :=
  match h.sched with
  | some _ =>
    (s.takeTimes [(t, h.out)]).modPort t h.out fun x =>
      { x with reqAt := s.blockNo + if s.halfRate t h.out then 16 else 8 }
  | none => s

/-! ### Acknowledgements (R334, R369) -/

/-- The acknowledgement of `n` source bytes sets out from the tile that performed them. -/
def State.ackOf (s : State) (b : Block) (n : Nat) : State :=
  match b.src with
  | some (t, h, e) =>
    let (due, s) := s.later
    { s with acks := s.acks ++ [⟨b.tile, t, h, e, n, due⟩] }
  | none => s

/-- An acknowledgement takes its next hop when it can. -/
def State.hopAck (s : State) (a : Ack) : State :=
  let h := s.nextHop a.at_ (.tile a.tile)
  if a.at_ == a.tile || s.quantum < a.due || !s.hopFree a.at_ h then s
  else
    let (due, s) := s.later
    { s.takeHop a.at_ h with acks := s.acks.map fun b => if b == a then { b with at_ := h.next.getD a.tile, due } else b }

/-- The acknowledgements on their way to a handle go on. -/
def State.hopAcks (s : State) (t h : Nat) : State :=
  (s.acks.filter fun a => a.tile == t && a.handle == h).foldl State.hopAck s

end Sys2Proof.Machine
end

