-- ==== Sys2Proof/Machine/PortEngine.lean ====
section
/-!
DEFINITION. The port engine of a tile (R330-R346): taking ring heads, blocks over circuits and relays, RECV delivery, work
packets and their arrival, arrival counters and firing (R230, R231), timeouts and completion records.
-/

namespace Sys2Proof.Machine

/-! ### Streams of blocks (R333-R335) -/

/-- The handle is LIVE for an entry: its company is bound to the sheet in play (R334, R366). -/
def State.liveFor (s : State) (t h : Nat) (e : PEnt) : Bool :=
  (s.handle t h).st == 2 && e.cue.isSome && e.cue == s.sm.playing

/-- Bytes of the far receive list that no RECV byte and no block on its way fills yet (R335). A block to be sent again keeps its
room. -/
def State.recvRoom (s : State) (t h : Nat) : Nat :=
  let q := s.hq t h
  let all := (q.recv.drop 1).foldl (fun n e => n + (e.cnt - e.start)) ((q.recv.head?.map (·.cnt)).getD 0)
  let way := s.blocks.foldl (fun n b =>
    if b.tile == t && b.handle == h && b.kind == 0 then n + (b.data.length - b.put) else n) 0
  all - q.fill - way

/-- A relay-marked packet is held at an input port (R340). -/
def State.heldAt (s : State) (t h : Nat) : Bool :=
  s.blocks.any fun b => b.tile == t && b.handle == h && b.toRelay && !b.again && decide (b.due ≤ s.quantum)

/-- A block starts on the circuit of handle `h` of tile `t`, if one can start and the far end has room: the tile and handle that
it reaches, the quantum at which it does, and the state with its block times taken (R333-R335, R377). A block that leaves the
module waits under tile 16 for its acknowledgement. `again` marks one that has its room already. -/
def State.launchBlock (s : State) (t h : Nat) (b : Block) (again : Bool) : Option (Nat × Nat × Nat × State) :=
  let go := fun (tile hd : Nat) (outs : List (Nat × Nat)) (slow : Bool) =>
    let outs := (t, (s.handle t h).port) :: outs
    if !(s.timesLeft outs slow && s.beforeBreak (s.handle t h) slow) then none
    else
      let (due, s) := s.later
      some (tile, hd, due + 13 * (outs.length - 1), s.takeTimes outs)
  match s.farEnd t h with
  | .tile t' h' outs slow =>
    if s.heldAt t' h' || (b.kind == 0 && !again && decide (s.recvRoom t' h' < b.data.length)) then none else go t' h' outs slow
  | .edge outs slow => go 16 0 outs slow
  | .none => none

/-- Put a new block on a circuit. -/
def State.emit (s : State) (t h : Nat) (b : Block) : Option State :=
  (s.launchBlock t h b false).map fun (tile, hd, due, s) =>
    { s with blocks := s.blocks ++ [{ b with id := s.nextId, tile, handle := hd, due, again := false, dropped := false }],
             nextId := s.nextId + 1 }

/-- Send a lost block again, at its place in its stream (R334, R336). -/
def State.resend (s : State) (t h : Nat) (b : Block) : Option State :=
  (s.launchBlock t h b true).map fun (tile, hd, due, s) =>
    { s with blocks := s.blocks.map fun (x : Block) =>
        if x.id == b.id then { x with tile, handle := hd, due, again := false, dropped := false } else x }

/-! ### Entries -/

def PEnt.op (e : PEnt) : Nat := match e.kind with | 0 => 0x30 | 1 => 0x32 | 2 => 0x33 | _ => 0x31

/-- Word `i` of a descriptor. -/
def PEnt.w (e : PEnt) (i : Nat) : Word := e.desc.getD i 0
def PEnt.bytes (e : PEnt) : Nat := if e.kind == 0 || e.kind == 3 then e.cnt else ((e.w 2).extractLsb' 0 40).toNat
def PEnt.ty (e : PEnt) : RedTy := redTyOf ((e.w 3).extractLsb' 2 2).toNat
def PEnt.rop (e : PEnt) : RedOp := redOpOf ((e.w 3).extractLsb' 0 2).toNat
/-- Source bytes of a block or packet (R333, R340). -/
def PEnt.packet (e : PEnt) : Nat := if e.kind == 2 && e.ty == .bf16 then 128 else 256
def PEnt.input (e : PEnt) : Nat := ((e.w 3).extractLsb' 16 6).toNat
def PEnt.timeout (e : PEnt) : Nat := ((e.w 3).extractLsb' 32 32).toNat

/-- The access context of an entry. -/
def State.portAcc (s : State) (t : Nat) (e : PEnt) : EAcc :=
  ⟨t, e.core, .port, !e.priv, e.op, s.mayRead ⟨t, e.core, e.bank, e.cl⟩ e.cyc e.sync, e.id, e.core⟩

/-- The first word of a descriptor that breaks a limit (Table port 4). `armed` for one that an ARM names. -/
def descBad (e : PEnt) : Option Nat :=
  let red := e.kind == 2
  let w := e.w
  let n := e.bytes
  let ty := ((w 3).extractLsb' 2 2).toNat
  let op := ((w 3).extractLsb' 0 2).toNat
  let toRelay := (w 3).getLsbD 4
  let dstOk := toRelay || (match cAddr (w 1) with
    | none => false
    | some (.ls _) => false
    | some _ => (addrErr (w 1) n true true).isNone)
  let recOk := w 6 == 0 || (match cAddr (w 6) with
    | some (.tensor ..) | none => false
    | some _ => (addrErr (w 6) 16 true false).isNone && (alignErr (w 6) 16).isNone)
  if n != 0 && (addrErr (w 0) n false false).isSome || (cAddr (w 0)).isNone then some 0
  else if !dstOk then some 1
  else if (w 2).extractLsb' 48 16 == 0 || (red && ty < 3 && n % redBytes (redTyOf ty) != 0) then some 2
  else if op == 3 || ty == 3 || (!red && (op != 0 || ty != 0 || toRelay)) || (w 3).extractLsb' 6 2 != 0 ||
      (w 3).extractLsb' 22 10 != 0 then some 3
  else if (w 4).extractLsb' 9 7 != 0 || (w 4).extractLsb' 24 8 != 0 then some 4
  else if (w 5).extractLsb' 32 32 != 0 then some 5
  else if !recOk then some 6
  else if (w 7).extractLsb' 12 52 != 0 then some 7
  else none

/-- Read a descriptor from the LS of a core: its words, or the uncorrectable granule. -/
def State.readDesc (s : State) (t c a : Nat) : Except BadCell (List Word) :=
  match (s.badLs t c a 64).head? with
  | some b => .error b
  | none => .ok ((lanesOf 64 (mgets (s.core t c).ls a 64)).map (BitVec.ofNat 64))

/-! ### Signals in order (R337) -/

/-- The entries whose signals can be added now, and the rest: one that cannot holds the later ones of its core's ring, or the
later fired ones of the tile. -/
def flushOrd (ready : PortOrd → Bool) : List PortOrd → List Nat → Bool → List PortOrd × List PortOrd
  | [], _, _ => ([], [])
  | o :: os, cores, fired =>
    if ready o && !(if o.fired then fired else cores.contains o.core) then
      let (g, r) := flushOrd ready os cores fired
      (o :: g, r)
    else
      let (g, r) := flushOrd ready os (if o.fired then cores else o.core :: cores) (fired || o.fired)
      (g, o :: r)

/-- An entry is complete and its writes have been performed (R280). -/
def State.ordReady (s : State) (t : Nat) (o : PortOrd) : Bool := o.done && s.written (.engine t o.core .port o.id)

/-- Queue the signals of completed port entries. -/
def State.flushSigs (s : State) (t : Nat) : State :=
  let (g, r) := flushOrd (s.ordReady t) (s.tile t).portOrd [] false
  if g.isEmpty then s
  else
    g.foldl (fun s o => s.modCore t o.core fun x =>
      let q := x.sigs.get 3
      { x with sigs := x.sigs.set 3 { q with q := q.q ++ [o.sig] } }) (s.modTile t fun x => { x with portOrd := r })

/-- An entry takes its place in the signal order. -/
def State.orderSig (s : State) (t c id : Nat) (g : Sig) (fired : Bool) : State :=
  if g.inc == 0 then s else s.modTile t fun x => { x with portOrd := x.portOrd ++ [⟨id, c, g, fired, false⟩] }

/-- The entry is complete. -/
def State.portDone (s : State) (t id : Nat) : State :=
  s.modTile t fun x => { x with portOrd := x.portOrd.map fun (o : PortOrd) => if o.id == id then { o with done := true } else o }

/-! ### The end of an entry (R339, R344, R346) -/

/-- Write an entry's completion record; `armed` is the counter value of an armed entry. -/
def State.finishRec (s : State) (t : Nat) (e : PEnt) (status : Nat) : Except CErr State :=
  if (e.kind != 1 && e.kind != 2) || e.w 6 == 0 then .ok s
  else
    let v := if e.fired then (tget Arrival.reset (s.tile t).arrivals ((e.w 4).extractLsb' 0 8).toNat).value else 0
    s.cWrite (s.portAcc t e) (e.w 6) 0
      (leBytes 2 status ++ leBytes 2 (min e.nans 65535) ++ leBytes 4 v ++ leBytes 8 s.tick)

/-- PSHAPE of a bad descriptor (R339). -/
def State.badDesc (s : State) (t : Nat) (e : PEnt) (n : Nat) : State :=
  s.raise false { mkRec cPSHAPE t e.core kindF 4 (BitVec.ofNat 32 n) 0 with cl := e.cl.val, bank := e.bank }

/-- A record of an entry's descriptor that cannot be read (R348). -/
def State.descLost (s : State) (t : Nat) (b : BadCell) (core bank : Nat) (cl : Fin 4) : State :=
  s.raise false { ueccRec b t core kindF 4 false with cl := cl.val, bank }

/-- The entry that transmits: the oldest whose blocks have not all been sent (R333). -/
def HQ.head (q : HQ) : Option PEnt := q.send.find? fun e => !e.sentAll

/-- The send queue waits for an answer (Table port 2). -/
def HQ.suspended (q : HQ) : Bool := q.send.any (·.waits)

/-- Note the tick at which the transmitting entry became so (R344). -/
def HQ.mark (q : HQ) (tick : Nat) : HQ :=
  match q.head with
  | none => q
  | some e =>
    if e.headTick.isSome then q
    else { q with prog := e.start, send := q.send.map fun (x : PEnt) => if x.id == e.id then { x with headTick := some tick } else x }

/-- The receive list goes on with its next entry. -/
def HQ.nextRecv (q : HQ) (es : List PEnt) : HQ := { q with recv := es, fill := (es.head?.map (·.start)).getD 0 }

/-- Append a RECV. -/
def HQ.addRecv (q : HQ) (e : PEnt) : HQ :=
  { q with recv := q.recv ++ [e], fill := if q.recv.isEmpty then e.start else q.fill }

/-- Change one entry of a send queue. -/
def State.modEnt (s : State) (t h id : Nat) (f : PEnt → PEnt) : State :=
  s.modHq t h fun q => { q with send := q.send.map fun x => if x.id == id then f x else x }

/-- Remove an entry of a send queue. -/
def State.dropEnt (s : State) (t h id : Nat) : State :=
  let s := ((s.hq t h).send.filter fun e => e.id == id).foldl (fun s e => s.dropReads (s.portAcc t e)) s
  s.modHq t h fun q => ({ q with send := q.send.filter fun x => x.id != id }).mark s.tick

/-- A send queue suspends with a record of kind U that names the handle (R334, R336). -/
def State.sendSuspend (s : State) (t h : Nat) (e : PEnt) (x : CErr) : State :=
  match x with
  | .wait s => s
  | x =>
    match engineRec (s.portAcc t e) 4 e.cl.val e.bank x (BitVec.ofNat 64 h) (.send t h e.id) with
    | some r => (((s.loseErr x).dropReads (s.portAcc t e)).modEnt t h e.id fun y => { y with waits := true }).raise false r
    | none => s

/-- An entry of a send queue ends with a status: it transmits no more, its completion record is written, and it leaves; one
whose record cannot be written suspends the queue, and is ended again after the answer. -/
def State.sendEnd (s : State) (t h : Nat) (e : PEnt) (status : Nat) : State :=
  match s.finishRec t e status with
  | .error x =>
    let keep := fun (s : State) => (s.modEnt t h e.id fun y => { y with sentAll := true, fin := some status }).modHq t h (·.mark s.tick)
    match x with
    | .wait s => keep s
    | x => (keep s).sendSuspend t h e x
  | .ok s => (s.dropEnt t h e.id).portDone t e.id

/-- An entry ends outside a send queue: its record is written when its core's ring is next examined. -/
def State.endOutside (s : State) (t : Nat) (e : PEnt) (status : Nat) : State :=
  s.modTile t fun x => { x with ends := x.ends ++ [{ e with fin := some status, waits := false }] }

/-- Write the completion record of an entry that ended outside a send queue; a failure waits for its answer (R336). -/
def State.endStep (s : State) (t : Nat) (e : PEnt) : State :=
  match s.finishRec t e (e.fin.getD 0) with
  | .ok s => (s.modTile t fun x => { x with ends := x.ends.filter fun y => y.id != e.id }).portDone t e.id
  | .error (.wait s) => s
  | .error x =>
    match engineRec (s.portAcc t e) 4 e.cl.val e.bank x 0 (.send t 0 e.id) with
    | some r =>
      ((s.loseErr x).modTile t fun x =>
        { x with ends := x.ends.map fun y => if y.id == e.id then { y with waits := true } else y }).raise false r
    | none => s

/-- Completion records of a core's entries, and signals that are due (R337, R346). -/
def State.flushPort (s : State) (t c : Nat) : State :=
  (((s.tile t).ends.filter fun e => e.core == c && !e.waits).foldl (fun s e => s.endStep t e) s).flushSigs t

/-! ### Firing (R231, R341-R343) -/

/-- An armed slot fires: the entry reads its descriptor and joins the execution queue or the bucket hold. -/
def State.fireSlot (s : State) (t n : Nat) (a : Armed) : State :=
  let s := s.modTile t fun x => { x with armed := tdel x.armed n }
  match s.readDesc t a.core a.addr with
  | .error b => s.descLost t b a.core a.bank a.cl
  | .ok ws =>
  let w4 := ws.getD 4 0
  let w7 := ws.getD 7 0
  let e : PEnt :=
    { id := s.nextId, kind := if w4.getLsbD 22 then 2 else 1, core := a.core, bank := a.bank, cl := a.cl,
      company := a.company, priv := a.priv, cue := a.cue, hold := true, relay := w4.getLsbD 22 && w4.getLsbD 23,
      sync := false, cyc := 0, addr := BitVec.ofNat 64 a.addr, cnt := 0, desc := ws, fired := true, acked := 0,
      sentAll := false, nans := 0, headTick := none, asked := true, start := 0, waits := false, fin := none }
  let s := { s with nextId := s.nextId + 1 }
  let s := s.orderSig t a.core e.id ⟨w7.extractLsb' 0 8, w7.extractLsb' 8 4, a.cl, a.bank⟩ true
  let f : Fired := ⟨e, (w4.extractLsb' 16 6).toNat, ((ws.getD 3 0).extractLsb' 8 8).toNat, s.tick⟩
  match descBad e with
  | some i => (s.badDesc t e i).endOutside t e 4
  | none =>
    if !(ws.getD 3 0).getLsbD 5 then s.modTile t fun x => { x with execq := x.execq ++ [f] }
    else if (s.tile t).buckets.length < 512 then s.modTile t fun x => { x with buckets := x.buckets ++ [f] }
    else s.endOutside t e 3

/-- Slots of a counter whose thresholds lie in (v0, v1], in firing order (R231). -/
def Tile.crossed (x : Tile) (n v0 v1 : Nat) : Tbl Armed :=
  (x.armed.filter fun e => e.2.ctr == n && decide (v0 < e.2.thr) && decide (e.2.thr ≤ v1)).foldl
    (fun l e => l.takeWhile (fun f => decide (f.2.thr ≤ e.2.thr)) ++ e :: l.dropWhile (fun f => decide (f.2.thr ≤ e.2.thr))) []

/-- An increment of an arrival counter and its firings (R230, R231). -/
def State.arrive (s : State) (t n inc : Nat) : State :=
  let a := tget Arrival.reset (s.tile t).arrivals n
  let v := a.value + inc
  let v1 := min v 0xFFFFFFFF
  let s := s.modTile t fun x => { x with arrivals := tset x.arrivals n ⟨v1, a.sat || decide (0xFFFFFFFF < v)⟩ }
  ((s.tile t).crossed n a.value v1).foldl (fun s e => s.fireSlot t e.1 e.2) s

/-- An ARM executes: a counter write, the lowest free slot, and firing at once when the threshold is reached (R341). -/
def State.arm (s : State) (t c : Nat) (e : Slot) (p : PEnt) : State :=
  let w4 := p.w 4
  let n := (w4.extractLsb' 0 8).toNat
  let thr := (w4.extractLsb' 32 32).toNat
  match (List.range 512).find? fun i => !((s.tile t).armed.any fun a => a.1 == i) with
  | none => s.endOutside t p 3
  | some i =>
    let s := if w4.getLsbD 8 then s.modTile t fun x =>
      { x with arrivals := tset x.arrivals n ⟨((p.w 5).extractLsb' 0 32).toNat, false⟩ } else s
    let a : Armed :=
      { ctr := n, thr, addr := e.w3.toNat, core := c, company := p.company, bank := p.bank, cl := p.cl, priv := p.priv,
        cue := p.cue, tick := s.tick, timeout := p.timeout }
    let s := s.modTile t fun x => { x with armed := tset x.armed i a }
    if thr ≤ (tget Arrival.reset (s.tile t).arrivals n).value then s.fireSlot t i a else s

/-! ### Taking ring heads (R330) -/

/-- The sheet a company is bound to, from its latest launch record (Table launch 3). -/
def State.companyCue (s : State) (id : Nat) : Option Nat :=
  match s.launches.reverse.find? fun l => companyId l.id == id with
  | some l => if (l.recd.getD 59 0).getLsbD 7 then some (leNat ((l.recd.drop 56).take 2)) else none
  | none => none

/-- The entry of a ring slot. -/
def State.portEnt (s : State) (t c : Nat) (e : Slot) : PEnt :=
  let b := (s.core t c).bank e.bankNo
  { id := s.nextId, kind := match e.opcode with | 0x30 => 0 | 0x32 => 1 | 0x33 => 2 | 0x31 => 3 | _ => 1,
    core := c, bank := e.bankNo, cl := e.clNo, company := e.companyId, priv := !s.entryUser t c e,
    cue := if b.owns e then b.task.bind (·.cue) else s.companyCue e.companyId, hold := e.bit 2,
    relay := e.opcode == 0x33 && e.bit 2, sync := e.acq || e.rel, cyc := e.w6.toNat, addr := e.w3, cnt := byteCnt e.w4,
    desc := [], fired := false, acked := 0, sentAll := false, nans := 0, headTick := none, asked := false, start := 0,
    waits := false, fin := none }

/-- The handle of a port entry. -/
def Slot.hnd (e : Slot) : Nat := e.fld 13 6

/-- The LS banks of a work entry's descriptor (R239). -/
def Slot.descBanks (e : Slot) : BitVec 32 := if 0x32 ≤ e.opcode then lsBanks e.w3.toNat 64 else 0

/-- The port engine executes a taken entry: into its queue, into the armed table, or complete at once. An ARM signals when it is
taken. -/
def State.portTake (s : State) (t c : Nat) (e : Slot) (p : PEnt) : State :=
  let h := e.hnd
  let app := fun (s : State) (p : PEnt) =>
    s.modHq t h fun q => ({ q with send := q.send ++ [p] }).mark s.tick
  match e.opcode with
  | 0x30 => if p.cnt == 0 then s.portDone t p.id else app s p
  | 0x31 =>
    if p.cnt == 0 then s.portDone t p.id else s.modHq t h fun q => q.addRecv p
  | 0x34 =>
    match s.readDesc t c e.w3.toNat with
    | .error b => (s.descLost t b c p.bank p.cl).portDone t p.id
    | .ok ws =>
      let p := { p with desc := ws }
      match descBad p with
      | some i => (s.badDesc t p i).endOutside t p 4
      | none => (s.arm t c e p).portDone t p.id
  | _ =>
    match s.readDesc t c e.w3.toNat with
    | .error _ => app s p
    | .ok ws =>
      let p := { p with desc := ws }
      match descBad p with
      | some i => (s.badDesc t p i).endOutside t p 4
      | none => app s p

/-- The target of an entry has room (Table port 1). -/
def State.portRoom (s : State) (t : Nat) (e : Slot) : Bool :=
  let q := s.hq t e.hnd
  match e.opcode with
  | 0x31 => decide (q.recv.length < 32)
  | 0x34 => true
  | _ => decide (q.send.length < 32)

/-- The port engine examines the head of a core's port ring in phase 3 (R330), and queues signals that are due (R337). -/
def execPortRingTake (t c : Nat) (s : State) : Out :=
  if !(u16 t && u16 c) then .fault .noSuchUnit
  else
    let s := s.flushPort t c
    match s.headOf t c .port with
    | none => .next s
    | some e =>
      if !(s.core t c).waitMet e || !s.portRoom t e then .next s
      else
        match s.slotAsk t c .port e.descBanks with
        | (false, s) => .next s
        | (true, s) =>
          let p := s.portEnt t c e
          let s := { s with nextId := s.nextId + 1 }
          let s := s.modCore t c fun x => (x.takeWait e).popHead .port
          let s := s.orderSig t c p.id ⟨e.ssem, e.sinc, e.clNo, e.bankNo⟩ false
          .next ((s.portTake t c e p).flushPort t c)

/-! ### Transmission (R333, R334, R340) -/

/-- Source bytes as they travel, and how many elements are NaN (R340). -/
def widen (red : Bool) (ty : RedTy) (bs : List Byte) : List Byte × Nat :=
  if !red then (bs, 0)
  else
    match ty with
    | .i32 => (bs, 0)
    | .f32 => (bs, ((lanesOf 32 bs).filter fun v => (fmtF32.read v).isNan).length)
    | .bf16 =>
      let ls := (lanesOf 16 bs).map fun v => v * 65536
      (bytesOf 32 ls, (ls.filter fun v => (fmtF32.read v).isNan).length)

/-- Nothing is known of a block yet. -/
def Block.blank : Block :=
  { id := 0, tile := 0, handle := 0, due := 0, data := [], kind := 0, src := none, dst := 0, off := 0,
    ctr := 0, inc := 0, red := none, toRelay := false, priv := false, dropped := false, again := false, put := 0, fills := [] }

/-- The packet of a work entry at an offset. -/
def PEnt.pack (e : PEnt) (t h off : Nat) (data : List Byte) : Block :=
  { Block.blank with
    data, kind := 1, src := some (t, h, e.id), dst := e.w 1, off, ctr := ((e.w 2).extractLsb' 40 8).toNat,
    inc := ((e.w 2).extractLsb' 48 16).toNat, red := if e.kind == 2 then some (e.rop, e.ty) else none,
    toRelay := (e.w 3).getLsbD 4, priv := e.priv }

/-- The transmitting entry has sent up to `prog`; the last block ends its transmission. -/
def State.sentTo (s : State) (t h : Nat) (e : PEnt) (prog nans : Nat) : State :=
  let s := s.modEnt t h e.id fun x => { x with nans := x.nans + nans, sentAll := decide (e.bytes ≤ prog) }
  s.modHq t h fun q => ({ q with prog := if e.bytes ≤ prog then 0 else prog }).mark s.tick

/-- The source address of an entry. -/
def PEnt.src (e : PEnt) : Word := if e.kind == 0 then e.addr else e.w 0

/-- Ask for `n` blocks of an entry's source from byte `x` on: the blocks left to ask for, and the state. A block that does not
translate is left until it is sent. -/
def State.aheadOf (s : State) (t : Nat) (e : PEnt) : Nat → Nat → Nat × State
  | 0, _ => (0, s)
  | n + 1, x =>
    if e.bytes ≤ x then (n + 1, s)
    else
      let k := s.portAcc t e
      match s.cParts k e.src x (min e.packet (e.bytes - x)) false with
      | .error _ => (0, s)
      | .ok (ps, s) => (s.askParts k ps).2.aheadOf t e n (x + e.packet)

/-- The port engine reads ahead of what it sends, entry after entry of a send queue, so that a port need not wait for memory
between its block times (R333, log entry 59). -/
def State.readAhead (s : State) (t h : Nat) : State :=
  let q := s.hq t h
  let go := fun (e : PEnt) => !e.sentAll && !e.relay && !s.coStops t e.company && (s.portAcc t e).reads &&
    !(e.kind != 0 && e.desc.isEmpty)
  if q.suspended then s
  else
    ((q.send.filter go).foldl (fun (acc : Nat × State) e =>
      acc.2.aheadOf t e acc.1 (if (q.head.map (·.id)) == some e.id then q.prog else e.start)) (160, s)).2

/-- The next block of a SEND, PWR or PWRED. An entry that acquires or releases reads no source, LS included, before its stream's
earlier accesses allow it (R283, R337). -/
def State.sendNext (s : State) (t h : Nat) (e : PEnt) : State :=
  let prog := (s.hq t h).prog
  let n := min e.packet (e.bytes - prog)
  let k := s.portAcc t e
  if e.sync && !k.reads then s
  else
    match s.cParts k e.src prog n false with
    | .error x => s.sendSuspend t h e x
    | .ok (ps, s) =>
      match s.cPoll k ps with
      | .error x => s.sendSuspend t h e x
      | .ok s =>
        let (bs, s') := s.cTake k ps
        let (wire, nans) := widen (e.kind == 2) e.ty bs
        let b := if e.kind == 0 then { Block.blank with data := wire, src := some (t, h, e.id) } else e.pack t h prog wire
        match s'.emit t h b with
        | none => s
        | some s => s.sentTo t h e (prog + n) nans

/-- The entry is the oldest relay PWRED of its input handle that stands at the head of a send queue: it takes the packets that
arrive there (R340). -/
def State.relayFirst (s : State) (t : Nat) (e : PEnt) : Bool :=
  (s.tile t).hq.all fun x =>
    match x.2.head with
    | some o => !(o.relay && o.input == e.input && decide (o.id < e.id))
    | none => true

/-- A relay forwards the next packet of its input handle (R340). -/
def State.relayNext (s : State) (t h : Nat) (e : PEnt) : State :=
  match s.blocks.find? fun b => b.tile == t && b.handle == e.input && !b.again with
  | none => s
  | some b =>
    if !b.toRelay || s.quantum < b.due || b.dropped || !s.relayFirst t e then s
    else
      let es := redBytes e.ty
      let n := b.data.length / 4 * es
      let k := s.portAcc t e
      match s.cParts k (e.w 0) b.off n false with
      | .error x => s.sendSuspend t h e x
      | .ok (ps, s) =>
        match s.cPoll k ps with
        | .error x => s.sendSuspend t h e x
        | .ok s =>
          let (bs, s') := s.cTake k ps
          let wty : RedTy := if e.ty == .i32 then .i32 else .f32
          let out := (redStep e.rop wty b.data (widen true e.ty bs).1).1
          let nans := if e.ty == .i32 then 0 else ((lanesOf 32 out).filter fun v => (fmtF32.read v).isNan).length
          match { s' with blocks := s'.blocks.filter fun x => x.id != b.id }.emit t h (e.pack t h b.off out) with
          | none => s
          | some s => (s.ackOf b n).sentTo t h e ((s.hq t h).prog + n) nans

/-- Read a descriptor that could not be read when its entry was taken. -/
def State.lateDesc (s : State) (t h : Nat) (e : PEnt) : State :=
  match s.readDesc t e.core e.addr.toNat with
  | .error b => s.sendSuspend t h e (.uecc b)
  | .ok ws =>
    let e' := { e with desc := ws }
    match descBad e' with
    | some i => (s.badDesc t e' i).sendEnd t h e' 4
    | none => s.modEnt t h e.id fun _ => e'

/-- The first block of a handle that is to be sent again, if its entry may transmit now (R334, R336). -/
def State.againNow (s : State) (t h : Nat) : Option Block :=
  s.blocks.find? fun b =>
    b.again &&
      match b.src with
      | some (t', h', id) =>
        t' == t && h' == h && ((s.hq t h).send.any fun e => e.id == id && s.liveFor t h e)
      | none => false

/-- The transmitting entry goes on: a SEND with hold clear is judged first (R334), and a suspended engine begins none (R228). -/
def State.sendHead (s : State) (t h : Nat) : State :=
  let q := s.hq t h
  match q.head with
  | none => s
  | some e =>
    let live := s.liveFor t h e
    if q.suspended || s.coStops t e.company || (s.engHeld t 0 .port && q.prog == e.start) then s
    else if e.kind != 0 && e.desc.isEmpty then s.lateDesc t h e
    else if e.kind == 0 && !e.hold && !e.asked then
      if live then s.modEnt t h e.id fun x => { x with asked := true }
      else
        (s.modEnt t h e.id fun x => { x with waits := true }).raise false
          { mkRec cNOCIRC t e.core kindU 4 0x30000000 (BitVec.ofNat 64 h) with
            cl := e.cl.val, bank := e.bank, pc := BitVec.ofNat 64 h, waiter := .send t h e.id }
    else if e.bytes == 0 then s.sendEnd t h e 0
    else if !live then s
    else if e.relay then
      let s' := s.relayNext t h e
      match (s'.hq t h).send.find? fun x => x.id == e.id with
      | some x => if x.sentAll then s'.sendEnd t h x 0 else s'
      | none => s'
    else s.sendNext t h e

/-- One block time of a handle's send queue: a lost block goes first, and no later one before it. -/
def execSendBlock (t h : Nat) (s : State) : Out :=
  if !(u16 t && decide (h < 64)) then .fault .noSuchUnit
  else
    match s.againNow t h with
    | some b => .next ((s.resend t h b).getD s)
    | none => .next ((s.readAhead t h).sendHead t h)

/-! ### Arrival (R335, R336, R340, R345) -/

def State.delBlock (s : State) (id : Nat) : State := { s with blocks := s.blocks.filter fun b => b.id != id }

/-- All writes of a block have been made. -/
def Block.written (b : Block) : Bool := decide (b.data.length ≤ b.put)

/-- The blocks of a block's stream before it, in the order of the stream. -/
def State.blocksBefore (s : State) (b : Block) : List Block :=
  (s.blocks.takeWhile fun x => x.id != b.id).filter fun x => x.tile == b.tile && x.handle == b.handle

/-- A block that has arrived, and whose stream's blocks before it have all been written (R335). -/
def State.blockHere (s : State) (id : Nat) : Option Block :=
  match s.blocks.find? fun b => b.id == id with
  | none => none
  | some b =>
    if b.tile < 16 && !b.again && b.due ≤ s.quantum && (s.blocksBefore b).all (fun x => x.written && !x.again && !x.dropped) then
      some b
    else none

/-- The requester of a block's writes. -/
def Block.who (b : Block) : Who := .engine b.tile 16 .port b.id

/-- Every write of a block has been performed, and it is the first of its stream. -/
def State.blockOver (s : State) (b : Block) : Bool := b.written && s.written b.who && (s.blocksBefore b).isEmpty

/-- Change a block. -/
def State.modBlock (s : State) (id : Nat) (f : Block → Block) : State :=
  { s with blocks := s.blocks.map fun (x : Block) => if x.id == id then f x else x }

/-- Source bytes that a block carries. -/
def Block.srcBytes (b : Block) : Nat :=
  match b.red with
  | some (_, .bf16) => b.data.length / 2
  | _ => b.data.length

/-- A block with more errors than its code corrects is dropped (R336, R345). -/
def State.dropArrived (s : State) (b : Block) : State :=
  let p := (s.handle b.tile b.handle).port
  let s := s.modTile b.tile fun x =>
    { x with ports := tmod Port.reset x.ports p fun y => { y with dropped := y.dropped + 1 } }
  let s := s.raise false (mkRec cPKTDROP b.tile 0 kindV 4 0 (BitVec.ofNat 64 (8 * b.tile + p)))
  if b.kind == 0 then
    if b.src.isSome then
      { s with blocks := s.blocks.map fun (x : Block) => if x.id == b.id then { x with again := true, dropped := false } else x }
    else s.delBlock b.id
  else (s.delBlock b.id).ackOf b b.srcBytes

/-- An uncorrectable granule that a write of parts would cover in part. -/
def State.badUnder (s : State) (k : EAcc) (ps : Parts) : Option BadCell :=
  ps.findSome? fun p =>
    let out := fun (a : Nat) (bs : List BadCell) =>
      bs.find? fun b => !(decide (a ≤ b.span.1) && decide (b.span.1 + b.span.2 ≤ a + p.2))
    match p.1 with
    | .ls a => out a (s.badLs k.t k.c a p.2)
    | .mem m =>
      match m.loc with
      | .tsm t a => out a (s.badTsm t a p.2)
      | .hbm a => out (s.homeAddr a) (s.badHbm (s.homeAddr a) p.2)
      | .far _ => none

/-- Bytes of a SEND block go to the head RECV: its writes are made for the block, or why not (R336). -/
def State.recvWrite (s : State) (b : Block) (e : PEnt) (fill : Nat) (bs : List Byte) : Except CErr State :=
  let k := { s.portAcc b.tile e with own := 16, n := b.id }
  match s.cDest k e.addr fill bs.length with
  | .error x => .error x
  | .ok (ps, s) =>
    match s.badUnder k ps with
    | some g => .error (.uecc g)
    | none => .ok (s.cStore k ps bs)

/-- What is left of an arrived SEND block fills the head RECV of its handle; a rest waits for the next one (R335). -/
def State.blockFill (s : State) (b : Block) : State :=
  let q := s.hq b.tile b.handle
  match q.recv with
  | [] => s
  | e :: es =>
    if q.rsusp then s
    else
      let n := min (b.data.length - b.put) (e.cnt - q.fill)
      match s.recvWrite b e q.fill ((b.data.drop b.put).take n) with
      | .error (.wait s) => s
      | .error x =>
        match engineRec (s.portAcc b.tile e) 4 e.cl.val e.bank x (BitVec.ofNat 64 b.handle) (.recv b.tile b.handle) with
        | some r => ((s.loseErr x).modHq b.tile b.handle fun q => { q with rsusp := true }).raise false r
        | none => s
      | .ok s =>
        let full := decide (e.cnt ≤ q.fill + n)
        (s.modHq b.tile b.handle fun q => if full then q.nextRecv es else { q with fill := q.fill + n }).modBlock b.id fun x =>
          { x with put := x.put + n, fills := if full then x.fills ++ [(e.core, e.id)] else x.fills }

/-- The bytes of a SEND block stand performed: it is acknowledged, and the RECVs that it filled up are complete (R335, R338). -/
def State.blockDone (s : State) (b : Block) : State :=
  b.fills.foldl (fun s e => s.portDone b.tile e.2) ((s.delBlock b.id).ackOf b b.srcBytes)

/-- A SEND block arrives, fills RECVs of its handle, and is acknowledged once its bytes have been performed (R335, R338). -/
def execBlockArrival (id : Nat) (s : State) : Out :=
  match s.blockHere id with
  | none => .next s
  | some b =>
    if b.kind != 0 then .next s
    else if b.dropped then .next (s.dropArrived b)
    else if !b.written then .next (s.blockFill b)
    else .next (if s.blockOver b then s.blockDone b else s)

/-- The places of the 64-byte destination parts from offset `off` on. -/
def State.partsFrom (s : State) (k : EAcc) (w : Word) : List (Nat × Nat) → Except CErr (Parts × State)
  | [] => .ok ([], s)
  | (x, n) :: r =>
    match s.cParts k w x n true with
    | .error e => .error e
    | .ok (ps, s) =>
      match s.partsFrom k w r with
      | .error e => .error e
      | .ok (qs, s) => .ok (ps ++ qs, s)

/-- Reduce a packet into its parts, each at its home in one step; `m` is the number of wire bytes for each destination byte. A
lane that lies in two places, which only a tensor's pitch can make, is read, reduced and written. -/
def State.reduceParts (s : State) (k : EAcc) (op : RedOp) (ty : RedTy) (m : Nat) (ps : Parts) (wire : List Byte) :
    Except CErr State :=
  if wholeLanes ty ps then
    .ok (ps.foldl (fun (acc : State × List Byte) p =>
      (acc.1.redPart k (.redWire op ty p.2 (acc.2.take (p.2 * m))) p.1, acc.2.drop (p.2 * m))) (s, wire)).1
  else
    match s.cFetch k ps with
    | .error e => .error e
    | .ok (old, s) =>
      let (v, f) := homeStep op ty old wire
      .ok ((s.cStore k ps v).redFlag ps f)

/-- The data of a packet at its destination. -/
def State.packWrite (s : State) (k : EAcc) (b : Block) : Except CErr State :=
  match b.red with
  | none => s.cWrite k b.dst b.off b.data
  | some (op, ty) =>
    let n := b.srcBytes
    let p := s.cPos k.t b.dst + b.off
    if p % redBytes ty != 0 then .error (.fault cDALIGN (s.cWord k b.dst b.off) (opAux k.op))
    else
      let parts := (List.range (partCount p n)).map fun i => let (x, len) := partAt p n i; (b.off + x, len)
      match s.partsFrom k b.dst parts with
      | .error e => .error e
      | .ok (ps, s) =>
        match s.cWritable k b.dst b.off ps with
        | .error e => .error e
        | .ok s => s.reduceParts k op ty (4 / redBytes ty) ps b.data

/-- The access context of a packet's writes. -/
def Block.acc (b : Block) : EAcc :=
  ⟨b.tile, 0, .port, !b.priv, if b.red.isSome then 0x33 else 0x32, true, b.id, 16⟩

/-- A work packet arrives: its writes are made, and once they have been performed and it is the first of its stream its
increment is applied and it is acknowledged (R230, R280, R282, R340). A relay-marked one is held for its relay. -/
def execPacketArrival (id : Nat) (s : State) : Out :=
  match s.blockHere id with
  | none => .next s
  | some b =>
    if b.kind == 0 then .next s
    else if b.dropped then .next (s.dropArrived b)
    else if b.toRelay then .next s
    else if b.written then
      .next (if s.blockOver b then ((s.delBlock id).arrive b.tile b.ctr b.inc).ackOf b b.srcBytes else s)
    else
      match s.packWrite b.acc b with
      | .error (.wait s) => .next s
      | .error x =>
        match engineRec b.acc 4 0 0 x (BitVec.ofNat 64 b.handle) (.packet b) with
        | some r => .next ((((s.loseErr x).dropReads b.acc).delBlock id).raise false r)
        | none => .next s
      | .ok s => .next (s.modBlock id fun x => { x with put := b.data.length })

/-- An acknowledgement goes on its way or reaches the sending tile; the last one completes its entry, and one whose completion
record is still to be written ends (R338, R340, R369). -/
def execSendAcknowledged (t h : Nat) (s : State) : Out :=
  if !(u16 t && decide (h < 64)) then .fault .noSuchUnit
  else
    let s := s.hopAcks t h
    match s.acks.find? fun a => a.tile == t && a.handle == h && a.at_ == t && decide (a.due ≤ s.quantum) with
    | some a =>
      let s := { s with acks := s.acks.erase a }
      -- a block that left the module is accounted for by its acknowledgement
      let out := s.blocks.find? fun b => b.tile == 16 && b.src == some (t, h, a.ent)
      let s := match out with
        | some b => s.delBlock b.id
        | none => s
      .next (s.modEnt t h a.ent fun e => { e with acked := e.acked + a.bytes })
    | none =>
      match (s.hq t h).send.find? fun e => !e.waits && (e.fin.isSome || (e.sentAll && decide (e.bytes ≤ e.acked))) with
      | some e => .next (s.sendEnd t h e (e.fin.getD 0))
      | none => .next s

/-! ### Fired entries and timeouts (R343, R344) -/

/-- The first entry of the execution queue enters its handle's send queue when that has room. -/
def execFiredEntryEnqueue (t : Nat) (s : State) : Out :=
  if !(u16 t) then .fault .noSuchUnit
  else
    match (s.tile t).execq with
    | [] => .next s
    | f :: r =>
      if 32 ≤ (s.hq t f.handle).send.length || s.engHeld t 0 .port then .next s
      else
        .next <| (s.modTile t fun x => { x with execq := r }).modHq t f.handle fun q =>
          ({ q with send := q.send ++ [f.e] }).mark s.tick

/-- A cue fire moves the entries of a bucket that stood in the hold at the start of the tick (R343). -/
def State.fireBucket (s : State) (t b : Nat) : State :=
  s.modTile t fun x =>
    let go := fun (f : Fired) => f.bucket == b && decide (f.tick < s.tick)
    { x with execq := x.execq ++ x.buckets.filter go, buckets := x.buckets.filter fun f => !go f }

/-- The timeout of an armed slot, or of an entry of a handle's send queue, expires (R344). -/
def execWorkEntryTimeout (t n : Nat) (armed : Bool) (s : State) : Out :=
  if !(u16 t) then .fault .noSuchUnit
  else if armed then
    match (s.tile t).armed.find? fun e => e.1 == n with
    | none => .next s
    | some (_, a) =>
      if a.timeout == 0 || s.tick < a.tick + a.timeout then .next s
      else
        let ws := match s.readDesc t a.core a.addr with
          | .ok ws => ws
          | .error _ => []
        let w7 := ws.getD 7 0
        let e : PEnt :=
          { id := s.nextId, kind := 1, core := a.core, bank := a.bank, cl := a.cl, company := a.company, priv := a.priv,
            cue := a.cue, hold := true, relay := false, sync := false, cyc := 0, addr := BitVec.ofNat 64 a.addr, cnt := 0,
            desc := ws, fired := true, acked := 0, sentAll := true, nans := 0, headTick := none, asked := true, start := 0,
            waits := false, fin := none }
        let s := { s with nextId := s.nextId + 1 }
        let s := s.modTile t fun x => { x with armed := tdel x.armed n }
        .next ((s.orderSig t a.core e.id ⟨w7.extractLsb' 0 8, w7.extractLsb' 8 4, a.cl, a.bank⟩ true).endOutside t e 1)
  else
    let due := fun (e : PEnt) =>
      match e.headTick with
      | some k => (e.kind == 1 || e.kind == 2) && e.fin.isNone && e.timeout != 0 && decide (k + e.timeout ≤ s.tick)
      | none => false
    match (s.hq t n).send.find? due with
    | none => .next s
    | some e => .next (s.sendEnd t n e 1)

/-! ### Answers (R352) -/

/-- The record of an entry has been answered: its queue goes on. -/
def State.sendResume (s : State) (t h id : Nat) : State :=
  (s.modEnt t h id fun e => { e with waits := false }).modTile t fun x =>
    { x with ends := x.ends.map fun e => if e.id == id then { e with waits := false } else e }

/-- The entry of a record is abandoned: no further work, status 2, its signal (R352). -/
def State.sendAbandon (s : State) (t h id : Nat) : State :=
  let s := (s.sendResume t h id).modTile t fun x => { x with ends := x.ends.filter fun e => e.id != id }
  match (s.hq t h).send.find? fun e => e.id == id with
  | none => s.portDone t id
  | some e =>
    match s.finishRec t e 2 with
    | .ok s => (s.dropEnt t h id).portDone t id
    | .error _ => (s.dropEnt t h id).portDone t id

/-- The head RECV is abandoned; the bytes of the stopped block go to the next. -/
def State.recvAbandon (s : State) (t h : Nat) : State :=
  let s := s.modHq t h fun q => { q with rsusp := false }
  match (s.hq t h).recv with
  | [] => s
  | e :: es => (s.modHq t h fun q => q.nextRecv es).portDone t e.id

end Sys2Proof.Machine
end

