-- ==== Sys2Proof/Machine/Flow.lean ====
section
/-!
DEFINITION. The B class (spec 05, R121-R143): joined decisions, branches, calls, the return stack, hardware loops and
their end-of-body test, FORK, JOIN and EXIT.
-/

namespace Sys2Proof.Machine

/-! ### Transfers (R122, R123) -/

/-- Fetch block of an address (R125). -/
def blk (a : Word) : Word := a &&& ~~~(0x3F : Word)

/-- T = blk(A) + 64 * SExt(disp) (R59). -/
def State.target (s : State) (disp : BitVec 32) : Word := blk s.iss.addr + (disp.signExtend 64 <<< 6)

/-- Code addresses have 55 bits (Table flow 1). -/
def pc55 (a : Word) : Word := a &&& 0x007FFFFFFFFFFFFF

/-- Every cluster of the stream continues at `a` (R123). -/
def State.transfer (s : State) (a : Word) : State :=
  let s := s.modCls s.cur s.active fun c => { c with pc := pc55 a }
  { s with iss := { s.iss with moved := true } }

/-- DIVERGE is reported for cluster 0 of a joined stream with the four bits as aux (R124). -/
def State.diverge (s : State) (bits : List (Fin 4)) : Out := s.trapped cDIVERGE 0 0 (maskOf bits)

/-- Guards combined as uni: JOIN, LOOP, LOOPI, EXIT and the task operations (R123, R317). -/
def uniOp (h : Hdr) (act : State → Out) (s : State) : Out :=
  match s.joint .uni (s.on h) with
  | .diverge => s.diverge (s.on h)
  | .no => s.done
  | .yes => act s

/-- A branch of the condition bits `on` under a joined mode (R123). -/
def decideOp (m : JMode) (on : List (Fin 4)) (act : State → Out) (s : State) : Out :=
  match s.joint m on with
  | .diverge => s.diverge on
  | .no => s.done
  | .yes => act s

def execBr (h : Hdr) (m : JMode) (disp : BitVec 32) (s : State) : Out :=
  decideOp m (s.on h) (fun s => (s.transfer (s.target disp)).done) s

/-- The common target of a register transfer: the clusters must agree, and the address be a multiple of 64 (R123, R59). -/
def regTarget (h : Hdr) (a : Reg) (act : Word → State → Out) (s : State) : Out :=
  let ks := s.active
  if s.pendOn ks [a] then s.stalled
  else
    match ks.map fun k => (s.curCl k).reg a with
    | [] => s.done
    | t :: ts =>
      if ts.any fun u => u != t then s.diverge (s.on h)
      else if t.toNat % 64 != 0 then s.trapped cALIGN (ks.headD 0) t 0
      else act t s

/-- A joined BRI whose guards differ decides by its mode first, and looks at its target scalar, and at whether that is
pending, only where it is taken: R125 gives no order of the two (the model's choice, log entry 65; CALLI alike). -/
def execBri (h : Hdr) (m : JMode) (a : Reg) (s : State) : Out :=
  decideOp m (s.on h) (regTarget h a fun t s => (s.transfer t).done) s

/-! ### The return stack (R129-R133) -/

/-- Push onto a cluster's stack; a full one gives up entry 0 to the spill slot (R131). -/
def Cluster.push (c : Cluster) (v : Word) : Cluster :=
  let v := v &&& 0x007FFFFFFFFFFFC0
  if c.rstop == 16 then
    { c with rstack := c.rstack.drop 1 ++ [v], spillp := (c.spillp + 8) &&& 0x007FFFFFFFFFFFF8 }
  else { c with rstack := c.rstack.set c.rstop v, rstop := c.rstop + 1 }

/-- Translate the spill or fill slots of a list of clusters; the lowest that fails is reported as RSPILL (R132). -/
def State.slotCheck (wr : Bool) (slot : Cluster → Word) :
    List (Fin 4) → State → Except (Fin 4 × AErr) (List (Fin 4 × Place) × State)
  | [], s => .ok ([], s)
  | k :: ks, s =>
    let c := s.curCl k
    match s.xl ⟨s.cur.tile, (slot c).toNat, wr, false, !c.priv, 0, 0, s.cur.core⟩ with
    | .error e => .error (k, cRSPILL, slot c, BitVec.ofNat 32 (e.report (slot c)).1)
    | .ok (p, s) =>
      match slotCheck wr slot ks s with
      | .error e => .error e
      | .ok (r, s) => .ok ((k, p) :: r, s)

/-- Push the return address blk(A) + 64 on every cluster's stack and transfer (R126, R131). -/
def State.pushTo (s : State) (t : Word) : Out :=
  let full := s.active.filter fun k => (s.curCl k).rstop == 16
  match State.slotCheck true (fun c => c.spillp) full s with
  | .error (k, c, e, aux) => s.trapped c k e aux
  | .ok (ps, s) =>
    let s := ps.foldl (fun s (k, p) =>
      s.postWrite (onCl s.cur k) p (regBytes 8 ((s.curCl k).rstack.headD 0)) .plain .core) s
    let ra := blk s.iss.addr + 64
    ((s.modCls s.cur s.active fun c => c.push ra).transfer t).done

def execCall (h : Hdr) (m : JMode) (disp : BitVec 32) (s : State) : Out :=
  decideOp m (s.on h) (fun s => s.pushTo (s.target disp)) s

/-- CALLI reads its target scalar as BRI does (R125; log entry 65). -/
def execCalli (h : Hdr) (m : JMode) (a : Reg) (s : State) : Out :=
  decideOp m (s.on h) (regTarget h a fun t s => s.pushTo t) s

/-- The slot below SPILLP, of 55 bits as SPILLP is (Table flow 4). -/
def Cluster.fillSlot (c : Cluster) : Word := (c.spillp - 8) &&& 0x007FFFFFFFFFFFF8

/-- The address a cluster's pop gives, when it is at hand (R127, R131). -/
def Cluster.popped (c : Cluster) : Option Word :=
  if c.rstop == 0 then
    match c.fill with
    | .got bs => some (blk (BitVec.ofNat 64 (leNat bs)))
    | _ => none
  else some (blk (c.rstack.getD (c.rstop - 1) 0))

/-- The stack after a pop (R131). -/
def Cluster.pop (c : Cluster) : Cluster :=
  if c.rstop == 0 then { c with spillp := c.fillSlot, fill := .idle }
  else { c with rstop := c.rstop - 1 }

def Buf.isLost : Buf → Bool
  | .lost => true
  | _ => false

/-- A taken RET: empty stacks ask for their fills, and when every address is at hand the clusters compare them and pop
(R127, R131, R132). -/
def State.retTaken (h : Hdr) (s : State) : Out :=
  let ks := s.active
  match ks.find? fun k => (s.curCl k).rstop == 0 && (s.curCl k).fill.isLost with
  | some k => s.trapped cRSPILL k (s.curCl k).fillSlot (BitVec.ofNat 32 cUECC)
  | none =>
    let need := ks.filter fun k => (s.curCl k).rstop == 0 && (s.curCl k).fill == .idle
    match State.slotCheck false Cluster.fillSlot need s with
    | .error (k, c, e, aux) => s.trapped c k e aux
    | .ok (p :: ps, s) =>
      ((p :: ps).foldl (fun s (k, p) =>
        let id := s.nextId
        (s.request (.stream (onCl s.cur k)) (.read 8) p.loc .fill .plain .core false p.memside).modCurCl k fun c =>
          { c with fill := .sent id 1 }) s).stalled
    | .ok ([], s) =>
      match ks.map fun k => (s.curCl k).popped with
      | [] => s.done
      | none :: _ => s.stalled
      | some t :: ts =>
        if ts.any (·.isNone) then s.stalled
        else if ts.any fun u => u != some t then s.diverge (s.on h)
        else ((s.modCls s.cur ks Cluster.pop).transfer t).done

def execRet (h : Hdr) (m : JMode) (s : State) : Out := decideOp m (s.on h) (State.retTaken h) s

/-- The data of a return-stack fill reaches the waiting RET; an uncorrectable one lets it raise RSPILL (R131, R132). -/
def execReturnStackFill (id : Nat) (s : State) : Out :=
  match s.replyDue id with
  | none => .next s
  | some (r, bs, _, bad) =>
    match r.who, r.dst with
    | .stream i, .fill =>
      if r.drop then .next (s.delReq id)
      else if bad then
        .next (((s.delReq id).raise (s.cl i).priv (ueccOf r i kindF)).modCl i fun c => { c with fill := .lost })
      else .next ((s.delReq id).modCl i fun c => { c with fill := .got bs })
    | _, _ => .next s

/-! ### CHK (R128) -/

def execChk (h : Hdr) (m : JMode) (a : Reg) (disp : BitVec 32) (s : State) : Out :=
  let ks := s.on h
  if s.pendOn ks [a] then s.stalled
  else decideOp m (ks.filter fun k => (s.curCl k).d a) (fun s => (s.transfer (s.target disp)).done) s

/-! ### Hardware loops (R134-R138) -/

/-- Write a loop level of every cluster of the stream; a zero count skips the body (R137). -/
def loopOp (h : Hdr) (lvl : BitVec 2) (disp : BitVec 32) (count : Cluster → BitVec 32) (s : State) : Out :=
  uniOp h (fun s =>
    let ks := s.active
    let live := ks.filter fun k => count (s.curCl k) != 0
    if !live.isEmpty && live.length != ks.length then s.diverge live
    else
      let t := s.target disp
      let n := lvl.toNat
      let b := blk s.iss.addr + 64
      let s := s.modCls s.cur ks fun c =>
        { c with lc := c.lc.set n (count c), lb := c.lb.set n (b &&& 0x007FFFFFFFFFFFC0),
                 le := c.le.set n (t &&& 0x007FFFFFFFFFFFC0) }
      if live.isEmpty then (s.transfer (t + 64)).done else s.done) s

def execLoop (h : Hdr) (lvl : BitVec 2) (a : Reg) (disp : BitVec 32) (s : State) : Out :=
  if s.pendOn (s.on h) [a] then s.stalled
  else loopOp h lvl disp (fun c => (c.reg a).extractLsb' 0 32) s

def execLoopi (h : Hdr) (lvl : BitVec 2) (count disp : BitVec 16) (s : State) : Out :=
  loopOp h lvl (disp.signExtend 32) (fun _ => count.zeroExtend 32) s

/-- The end-of-body test of one cluster for block `b`, from level `n - 1` down: the branch back, the cluster after it and
the levels that tested (R135). -/
def Cluster.bodyTest (b : Word) : Nat → Cluster → Option Word × Cluster × List Nat
  | 0, c => (none, c, [])
  | n + 1, c =>
    let cnt := c.lc.getD n 0
    if cnt != 0 && c.le.getD n 0 == b then
      let c' := { c with lc := c.lc.set n (cnt - 1) }
      if cnt - 1 != 0 then (some (c.lb.getD n 0), c', [n])
      else
        let (t, c'', ls) := bodyTest b n c'
        (t, c'', n :: ls)
    else bodyTest b n c

/-- The end-of-body test of the stream after a bundle that ended block `b` without a transfer: none when the clusters
disagree, else the state, branched back or not, with Done counted (R135, R138, R233). -/
def State.endOfBody (s : State) (b : Word) : Except (List (Fin 4)) State :=
  let rs := s.active.map fun k => (k, (s.curCl k).bodyTest b 4)
  let back := (rs.filter fun r => r.2.1.isSome).map (·.1)
  match rs with
  | [] => .ok s
  | (_, t, _, _) :: _ =>
    if rs.any fun r => r.2.1 != t then .error back
    else
      let s := rs.foldl (fun s r => s.modCurCl r.1 fun _ => r.2.2.1) s
      let s := match (s.curBank.task.bind (·.counted)), rs.find? fun r => r.1 == 0 with
        | some n, some r =>
          if r.2.2.2.contains n then s.modBank s.cur fun x => { x with done := min (x.done + 1) (2 ^ 32 - 1) } else s
        | _, _ => s
      .ok (match t with
        | some a => s.transfer a
        | none => s)

/-! ### Forking, joining and ending (R139-R143) -/

def execFork (h : Hdr) (disp : BitVec 32) (s : State) : Out :=
  let on := s.on h
  if !s.curBank.joined then
    if on.isEmpty then s.done else s.trapped cDIVERGE s.cur.cl 0 (maskOf on)
  else if on.isEmpty then s.done
  else
    let t := s.target disp
    let s := s.modBank s.cur fun b => { b with joined := false }
    let s := cls4.foldl (fun s k =>
      s.modCurCl k fun c =>
        { c with pc := if on.contains k then pc55 (t + BitVec.ofNat 64 (64 * k.val)) else s.iss.next }) s
    { s with iss := { s.iss with moved := true } }.done

/-- aux of JOINMIS (R141). -/
def joinAux (set : BitVec 3) (j : JoinSet) : BitVec 32 :=
  BitVec.ofNat 32 (j.expected.toNat + 16 * j.arrived.toNat + 256 * set.toNat)

def execJoin (h : Hdr) (set : BitVec 3) (mask : BitVec 4) (s : State) : Out :=
  let n := set.toNat
  let b := s.curBank
  let j := tget JoinSet.reset b.joins n
  let c := s.cur.cl
  let bit := BitVec.twoPow 4 c.val
  let mismatch := fun (s : State) (k : Fin 4) => s.trapped cJOINMIS k s.iss.addr (joinAux set j)
  if b.joined then
    uniOp h (fun s => if mask == 0xF then s.done else mismatch s 0) s
  else if (s.on h).isEmpty then s.done
  else if mask &&& bit == 0 || cls4.any (fun k => mask.getLsbD k.val && (b.cl.get k).st == .exited) then mismatch s c
  else if j.busy && (j.expected != mask || j.addr != s.iss.addr) then mismatch s c
  else
    let j' : JoinSet := ⟨true, mask, j.arrived ||| bit, s.iss.addr⟩
    let s := { s with iss := { s.iss with moved := true } }
    if j'.arrived == mask then
      (s.modBank s.cur fun b =>
        let b := { b with joins := tdel b.joins n, joined := mask == 0xF }
        cls4.foldl (fun b k =>
          if mask.getLsbD k.val then b.modCl k fun c => { c with st := .running, pc := s.iss.next } else b) b).done
    else
      ((s.modBank s.cur fun b => { b with joins := tset b.joins n j' }).modCurCl c fun c =>
        { c with st := .joinWait, pc := s.iss.bundle }).done

/-- The streams that wait in a set of which an exiting cluster is a member raise JOINMIS, and the set is cleared (R140). -/
def State.breakJoins (s : State) (c : Fin 4) : State :=
  s.curBank.joins.foldl (fun s (n, j) =>
    if j.busy && j.expected.getLsbD c.val then
      let s := s.modBank s.cur fun b => { b with joins := tdel b.joins n }
      cls4.foldl (fun s k =>
        if j.arrived.getLsbD k.val then
          s.takeTrap (onCl s.cur k) cJOINMIS k (s.curCl k).pc j.addr (joinAux (BitVec.ofNat 3 n) j)
        else s) s
    else s) s

/-- EXIT ends the joined task, or one forked stream and with the last of them the task (R143). -/
def execExit (h : Hdr) (s : State) : Out :=
  if s.curBank.joined then
    uniOp h (fun s => ({ s.endTask s.cur false with iss := { s.iss with moved := true } } : State).done) s
  else if (s.on h).isEmpty then s.done
  else
    let s := s.modCurCl s.cur.cl fun c => { c with st := .exited }
    let s := { s.breakJoins s.cur.cl with iss := { s.iss with moved := true } }
    if cls4.all fun k => (s.curCl k).st == .exited then (s.endTask s.cur false).done else s.done

end Sys2Proof.Machine
end

