-- ==== Sys2Proof/Machine/Issue.lean ====
section
/-!
DEFINITION. A stream's turn: fetching and decoding a bundle (R56-R58, R75-R78), its issue as one action with stalls,
traps, transfers and the end-of-body test (R89, R95, R135, R214), and results becoming visible (R95, R251).
-/

namespace Sys2Proof.Machine

/-! ### Bundles (R56, R57, R77) -/

/-- The class of a word (Table enc 1). -/
def wordClass (w : Word) : Nat := (w.extractLsb' 60 3).toNat

/-- One more operation of class `c` exceeds the limits of R57. -/
def classFull (seen : List Nat) (c : Nat) : Bool :=
  decide (c < 6) && decide ((if c == 0 then 2 else 1) ≤ (seen.filter (· == c)).length)

/-- The length of the bundle at the head of the words up to the end of its fetch block, else the number of the word at
which it breaks R56 or R57. -/
def bundleLen : List Word → List Nat → Nat → Except Nat Nat
  | [], _, n => .error (n - 1)
  | w :: ws, seen, n =>
    if classFull seen (wordClass w) then .error n
    else if w.getLsbD 63 then .ok (n + 1)
    else if n == 3 then .error 3
    else bundleLen ws (wordClass w :: seen) (n + 1)

/-- Decode a bundle's words in order; the first offending one is reported with whether it is PRIV (R75-R77). A word that is
no instruction is ILLOP at user level too, even where its opcode is a supervisor's: the model's choice, log entry 64. -/
def decodeBundle (user : Bool) : List Word → Nat → Except (Nat × Bool) (List Instr)
  | [], _ => .ok []
  | w :: ws, n =>
    match decodeWord w with
    | .error _ => .error (n, false)
    | .ok i =>
      if user && i.supervisor then .error (n, true)
      else
        match decodeBundle user ws (n + 1) with
        | .error e => .error e
        | .ok is => .ok (i :: is)

/-- What the words from `pc` to the end of its fetch block give. -/
def bundleAt (user : Bool) (pc : Word) (ws : List Word) : Except (Word × Bool) (List Instr) :=
  let at_ := fun n => pc + BitVec.ofNat 64 (8 * n)
  match bundleLen ws [] 0 with
  | .error n => .error (at_ n, false)
  | .ok k =>
    match decodeBundle user (ws.take k) 0 with
    | .error (n, p) => .error (at_ n, p)
    | .ok is => .ok is

/-! ### Fetch (R61, R78) -/

/-- The result of fetching at a stream's PC. -/
inductive Fetched where
  /-- The fetch block is on its way. -/
  | wait (s : State)
  | raises (i : Instr) (s : State)
  | bundle (ops : List Instr) (s : State)

/-- The fetch block at a place, as the core's instruction cache holds it; a block that is not there is asked for, an
uncorrectable one as well, counted as a correction (R61, R251). A block stored to after the cache took it is fetched as the
cache holds it, until it leaves the cache: R61 orders fetches with no store (the model's choice, log entry 63). -/
def State.codeBlock (s : State) (i : StreamId) (p : Place) : Except State (List Byte) :=
  let n := s.fabric p.loc / 64
  let cell := BadCell.code i.tile i.core n
  let c := s.cl i
  match (s.core i.tile i.core).icache.find? fun e => e.1 == n with
  | some e =>
    if s.bad.contains cell then
      .error ((s.heal cell).modCore i.tile i.core fun x =>
        { x with icache := x.icache.filter fun e => e.1 != n, ecc := x.ecc + 1 })
    else .ok e.2
  | none =>
    match c.code with
    | .lost => .error s
    | .sent id _ => if c.codeAt == n then .error s else .error (ask (s.dropReq id) n)
    | _ => .error (ask s n)
where
  ask (s : State) (n : Nat) : State :=
    let id := s.nextId
    (s.request (.stream i) (.read 64) p.loc .code .plain .core false p.memside).modCl i fun c =>
      { c with code := .sent id 1, codeAt := n }

/-- Some cluster of the stream runs at user level (R76). -/
def State.userLevel (s : State) (i : StreamId) : Bool := (s.clsOf i).any fun k => !(s.cl (onCl i k)).priv

/-- Fetch and decode the bundle at the stream's PC. -/
def State.fetch (s : State) (i : StreamId) : Fetched :=
  let pc := (s.cl i).pc &&& ~~~(7 : Word)
  let b := blk pc
  match s.xl ⟨i.tile, b.toNat, false, true, s.userLevel i, 0, 0, i.core⟩ with
  | .error (.fault cause aux) => .raises (.instructionFetchFault (cause == cPROT) b aux) s
  | .error (.lost g) => .wait (s.fetchLost i g)
  | .ok (p, s) =>
    match s.codeBlock i p with
    | .error s => .wait s
    | .ok bs =>
      let ws := ((chunks 8 8 bs).drop ((pc - b).toNat / 8)).map fun c => BitVec.ofNat 64 (leNat c)
      match bundleAt (s.userLevel i) pc ws with
      | .error (a, priv) => .raises (.illop a priv) s
      | .ok ops => .bundle ops s

def execIllop (addr : Word) (priv : Bool) (s : State) : Out :=
  s.trapped (if priv then cPRIV else cILLOP) (s.active.headD 0) addr 0

def execInstructionFetchFault (prot : Bool) (b : Word) (aux : BitVec 32) (s : State) : Out :=
  s.trapped (if prot then cPROT else cPAGE) (s.active.headD 0) b aux

/-! ### Results become visible (R95, R96, R251) -/

/-- One cluster's results whose cycles are over land in the order of their issue; a lost LS load routes its record. -/
def execResultWriteback (id : StreamId) (s : State) : Out :=
  let due := (s.cl id).flights.filter fun f => f.left == 0
  let s := s.modCl id fun c => { c with flights := c.flights.filter fun f => f.left != 0 }
  .next <| due.foldl (fun s f =>
    let s := s.land id f
    match f.dst with
    | .lost l =>
      match s.badLs id.tile id.core l.ea.toNat (sizBytes l.sz) with
      | b :: _ =>
        s.raise (s.cl id).priv
          { ueccRec b id.tile id.core kindS 0 false with cl := id.cl.val, bank := id.bank, waiter := .load id l }
      | [] => s
    | _ => s) s

/-- One advancing cycle of a stream's pipelines (R95): the flags raised since the last one count as older (R48). -/
def State.advance (s : State) (i : StreamId) (ks : List (Fin 4)) : State :=
  s.modCls i ks fun c => { c with flights := c.flights.map fun f => { f with left := f.left - 1 }, flagsNow := 0 }

/-! ### A bundle's operations -/

/-- The meaning of an instruction. -/
abbrev Exec := Instr → State → Out

/-- An operation of a bundle: its slot, address, and the clusters it is performed for, when it is so restricted. -/
structure BOp where
  slot : Nat
  addr : Word
  op : Instr
  only : Option (List (Fin 4))
  deriving DecidableEq, Repr

/-- When an operation changes what the others of its bundle still read: 0 at once, 1 control registers, 2 the end of the
task, 3 the streams themselves (R89, R122, R223); 4 after the whole bundle (R221, R222). -/
def opRank (i : Instr) : Nat :=
  match i with
  | .mtcr .. | .mtcrRstop .. | .mtcrBarbase .. | .mtcrRdbase .. | .mtcrFqbase .. => 1
  | .barp .. | .waitx .. | .yield .. => 2
  | .fork .. | .join .. | .exit .. => 3
  | .rett .. | .trap .. => 4
  | _ => 0

/-- A semaphore operation of phase 2: performed in ascending cluster, then slot order (R227). -/
def isSemOp (i : Instr) : Bool :=
  match i with
  | .semadd .. | .semset .. => true
  | _ => false

/-- The operations in the order in which they are performed. -/
def orderOps (joined : Bool) (pc : Word) (ops : List Instr) : List BOp :=
  let all : List BOp := ops.zipIdx.map fun (o, n) => ⟨n, pc + BitVec.ofNat 64 (8 * n), o, none⟩
  let sems := all.filter fun b => isSemOp b.op
  let rest := all.filter fun b => !isSemOp b.op
  (if joined then cls4.flatMap fun k => sems.map fun b => { b with only := some [k] } else sems) ++
    (List.range 5).flatMap fun r => rest.filter fun b => opRank b.op == r

/-- What performing operations gave: an outcome that is no next state, or the state with the operation that stalled and
the traps raised. -/
inductive Ran where
  | stop (o : Out)
  | ran (s : State) (stall : Option BOp) (traps : List (Nat × OpRes))

/-- The stream still runs its task after the operations performed so far. -/
def State.goesOn (s : State) : Bool := s.curBank.occ && (s.cl s.cur).st == .running

/-- One operation, in the context of its bundle. -/
def runOp (ex : Exec) (o : BOp) (s : State) : Out :=
  ex o.op { s with iss := { s.iss with addr := o.addr, only := o.only, res := .ok } }

/-- The results that the operation at slot `n` put in flight carry its slot (R96). -/
def State.tagSlot (s before : State) (n : Nat) : State :=
  if n == 0 then s
  else cls4.foldl (fun s k =>
    let m := (before.curCl k).flights.length
    s.modCurCl k fun c =>
      { c with flights := c.flights.take m ++ (c.flights.drop m).map fun f => { f with slot := n } }) s

/-- A result goes before the first one of a higher slot. -/
def insertSlot (f : Flight) : List Flight → List Flight
  | [] => [f]
  | g :: gs => if f.slot < g.slot then f :: g :: gs else g :: insertSlot f gs

/-- The results of the bundle being issued stand in slot order behind the older ones (R96, R212). -/
def State.inSlotOrder (s : State) : State :=
  cls4.foldl (fun s k =>
    let m := (s.startCl k).flights.length
    s.modCurCl k fun c =>
      { c with flights := c.flights.take m ++ (c.flights.drop m).foldl (fun l f => insertSlot f l) [] }) s

def Hold.isPiece : Hold → Bool
  | .piece .. => true
  | _ => false

/-- Some cluster of the list still has the second piece of an LDM or STM to perform. -/
def State.pieceHeld (s : State) (ks : List (Fin 4)) : Bool := ks.any fun k => (s.curCl k).hold.isPiece

/-- An operation that waits until the stream next goes on, under a guard already found true. -/
def laterOp (i : Instr) : Instr :=
  let h : Hdr := ⟨true, false, 0⟩
  match i with
  | .exit _ => .exit h
  | .waitx _ a n d => .waitx h a n d
  | .trap _ n => .trap h n
  | .rett _ => .rett h
  | i => i

/-- The true clusters of the list keep an operation of their bundle for later: what ends or stops the stream comes after the
second piece of the bundle's LDM or STM, and after the completion of its JOIN (R142, R143, R221, R222, R258). -/
def State.defer (s : State) (h : Hdr) (op : Instr) : State :=
  (s.on h).foldl (fun s k => s.modCurCl k fun c => { c with after := some (c.ti, laterOp op) }) s

/-- The guard of an operation that may be kept for later, if this is one. -/
def laterGuard (i : Instr) : Option Hdr :=
  match i with
  | .exit h | .waitx h .. | .trap h _ | .rett h => some h
  | _ => none

/-- Perform operations in order: a trapping one leaves no effect, a stalling one ends the attempt. An EXIT or WAITX that
takes effect while a second piece is held is kept for later. -/
def runOps (ex : Exec) : List BOp → State → List (Nat × OpRes) → Ran
  | [], s, ts => .ran s none ts
  | o :: os, s, ts =>
    if opRank o.op != 0 && !s.goesOn then runOps ex os s ts
    else
      match runOp ex o s with
      | .next s' =>
        match s'.iss.res with
        | .ok =>
          match laterGuard o.op with
          | some h =>
            if s.pieceHeld s.active then
              let d := s.defer h o.op
              runOps ex os { d with iss := { d.iss with moved := s'.iss.moved } } ts
            else runOps ex os s' ts
          | none => runOps ex os (s'.tagSlot s o.slot) ts
        | .stall | .drain => .ran s' (some o) ts
        | .trap .. => runOps ex os s (ts ++ [(o.slot, s'.iss.res)])
      | r => .stop r

/-- DIVERGE precedes; else the lowest slot's, and within a slot the lowest cluster's (R214). TRAP's own comes last. -/
def chooseTrap (ts : List (Nat × OpRes)) : Option OpRes :=
  let key := fun (e : Nat × OpRes) =>
    match e.2 with
    | .trap c k _ _ => if c == cDIVERGE then 0 else if 0x40 ≤ c then 10000 else 4 * e.1 + 4 + k.val
    | _ => 20000
  match ts with
  | [] => none
  | e :: es => some (es.foldl (fun (m : Nat × OpRes) x => if key x < key m then x else m) e).2

/-! ### Waiting for an answer (R219) -/

/-- The loads of the stream whose records await an answer. -/
def State.awaited (s : State) (i : StreamId) : List LoadRec :=
  let ws := s.records.map (·.waiter) ++ s.posted.map (·.waiter)
  ws.filterMap fun w =>
    match w with
    | .load j l => if j.tile == i.tile && j.core == i.core && j.bank == i.bank && (s.clsOf i).contains l.cl then some l
                   else none
    | _ => none

/-- A row or record of the stream awaits an answer. -/
def State.bufWaits (s : State) (i : StreamId) : Bool :=
  (s.clsOf i).any fun k => let c := s.cl (onCl i k); c.buf.isLost || c.lbuf.isLost || c.code.isLost

/-- The stalled operation would issue, or stall for another reason, if the registers that await an answer were not
pending. -/
def State.stallsOnAnswer (s : State) (ex : Exec) (o : BOp) : Bool :=
  let i := s.cur
  s.bufWaits i ||
    (!(s.awaited i).isEmpty &&
      let s' := (s.awaited i).foldl (fun s l => s.modCl (onCl i l.cl) fun c => c.setP l.d false) s
      let s' := { s' with iss := { s'.iss with start := some (s'.bank i).cl } }
      match runOp ex o s' with
      | .next t => t.iss.res != .stall
      | _ => false)

/-- Mark the clusters of the stream as waiting for an answer, or not. -/
def State.markWait (s : State) (ks : List (Fin 4)) (b : Bool) : State :=
  s.modCls s.cur ks fun c => { c with waitAns := b }

/-! ### Issue -/

/-- The stalled bundle: only what the stalling operation notes; results in flight go on when it waits for them. -/
def State.stallWith (s : State) (ex : Exec) (ks : List (Fin 4)) (o : BOp) : Out :=
  match runOp ex o s with
  | .next s' =>
    let on := s.stallsOnAnswer ex o
    let s' := match s'.iss.res with
      | .drain => s'.advance s.cur ks
      | .stall => s'
      -- alone it would issue: nothing of it is kept
      | _ => s
    .next ({ s' with iss := Issue.reset }.markWait ks on)
  | r => r

/-- RETT or TRAP of a bundle whose other operations have taken effect (R221, R222): in every cluster as joined where the
bundle held a FORK (R139); kept for later behind a second piece or a JOIN that waits. -/
def State.lateOp (s : State) (ex : Exec) (ks : List (Fin 4)) (o : BOp) : Out :=
  let o := { o with only := some ks }
  let s := { s with iss := { s.iss with only := some ks } }
  let waits := (s.cl s.cur).st == .joinWait
  match laterGuard o.op with
  | some h =>
    if waits || s.pieceHeld ks then .next { s.defer h o.op with iss := Issue.reset }
    else if !s.goesOn then .next { s with iss := Issue.reset }
    else
      match runOp ex o s with
      | .next s => .next { s with iss := Issue.reset }
      | r => r
  | none => .next { s with iss := Issue.reset }

/-- The bundle's effects stand: pipelines advance, then RETT or TRAP of the bundle acts (R221, R222). -/
def State.commit (s : State) (ex : Exec) (ks : List (Fin 4)) (late : List BOp) : Out :=
  let s := (s.advance s.cur ks).markWait ks false
  match late with
  | [] => .next { s with iss := Issue.reset }
  | o :: _ => s.lateOp ex ks o

/-- The traps of RETT and TRAP at issue: TRAP's own comes after the bundle. -/
def issueTraps (ts : List (Nat × OpRes)) : List (Nat × OpRes) :=
  ts.filter fun e =>
    match e.2 with
    | .trap c .. => decide (c < 0x40)
    | _ => false

/-- A branch, call or return of the bundle is taken and traps (R125, R132): no end-of-body test is made for it. -/
def takenTrap (ts : List (Nat × OpRes)) : Bool :=
  ts.any fun e =>
    match e.2 with
    | .trap c .. => c == cALIGN || c == cRSPILL
    | _ => false

/-- The end-of-body test of a bundle that transfers no control, where one is made (R135). -/
def State.bodyTestOf (s : State) (pc next : Word) (ts : List (Nat × OpRes)) : Except (List (Fin 4)) State :=
  if s.iss.moved || takenTrap ts || next.toNat % 64 != 0 || !s.goesOn then .ok s else s.endOfBody (blk pc)

/-- Issue the bundle `ops` of the present stream, fetched at `pc` (R89, R95, R214). -/
def State.issueOps (s : State) (ex : Exec) (pc : Word) (ops : List Instr) : Out :=
  let i := s.cur
  let ks := s.clsOf i
  let next := pc55 (pc + BitVec.ofNat 64 (8 * ops.length))
  let s := { s with iss := { Issue.reset with bundle := pc, addr := pc, next, start := some (s.bank i).cl,
                                              below := some s.nextId } }
  let all := orderOps (s.bank i).joined pc ops
  let main := all.filter fun o => opRank o.op != 4
  let late := all.filter fun o => opRank o.op == 4
  let s0 := s.modCls i ks fun c => { c with pc := next }
  match runOps ex main s0 [] with
  | .stop r => r
  | .ran _ (some o) _ => s.stallWith ex ks o
  | .ran s1 none ts =>
    let s1 := if ops.any isSemOp then s1.inSlotOrder else s1
    -- RETT and TRAP are judged in the stream as the bundle found it
    match runOps ex late s [] with
    | .stop r => r
    | .ran _ (some o) _ => s.stallWith ex ks o
    | .ran _ none us =>
      let body := s1.bodyTestOf pc next ts
      let split := match body with
        | .error bits => [(0, OpRes.trap cDIVERGE 0 0 (maskOf bits))]
        | .ok _ => []
      match chooseTrap (ts ++ issueTraps us ++ split) with
      | some (.trap c k e aux) => .next { ((s.loseLine c aux e).takeTrap i c k pc e aux) with iss := Issue.reset }
      | _ =>
        match body with
        | .error _ => .next { s with iss := Issue.reset }
        | .ok s2 => s2.commit ex ks late

/-- A stream may take its turn: its bank is in the foreground and the stream runs (R28, R121, R211, R217, R314). -/
def State.mayIssue (s : State) (i : StreamId) : Bool :=
  let x := s.core i.tile i.core
  let b := x.bank i.bank
  let c := b.cl.get i.cl
  x.exch == 0 && x.fg % 2 == i.bank && b.occ && b.started && c.st == .running &&
    decide (c.resumeAt ≤ s.cycles i.tile) && (!b.joined || i.cl == 0)

/-- A forked stream that has exited issues nothing, and its results in flight go on to arrive (R122, R143, R146). -/
def State.onlyArrives (s : State) (i : StreamId) : Bool :=
  let x := s.core i.tile i.core
  let b := x.bank i.bank
  x.exch == 0 && x.fg % 2 == i.bank && b.occ && (b.cl.get i.cl).st == .exited

/-- An operation kept for later may act in a cluster: not in a local handler that came between. -/
def Cluster.afterDue (c : Cluster) : Option Instr :=
  match c.after with
  | some (ti, op) => if ti == c.ti then some op else none
  | none => none

/-- The operation kept for later acts in the clusters that keep it, and keeps waiting while it stalls. -/
def State.afterTurn (s : State) (ex : Exec) (ks : List (Fin 4)) (op : Instr) : Out :=
  let mine := ks.filter fun k => (s.curCl k).afterDue == some op
  let pc := (s.cl s.cur).pc
  let s' := s.modCls s.cur mine fun c => { c with after := none }
  match runOp ex ⟨0, pc, op, some mine⟩ { s' with iss := { Issue.reset with bundle := pc, next := pc } } with
  | .next t =>
    match t.iss.res with
    | .stall | .drain => .next ((s.advance s.cur ks).markWait ks false)
    | _ => .next { t with iss := Issue.reset }
  | r => r

/-- The present stream fetches a bundle and issues it. -/
def State.issueNext (s : State) (ex : Exec) : Out :=
  let i := s.cur
  let pc := (s.cl i).pc &&& ~~~(7 : Word)
  match s.fetch i with
  | .wait s => .next s
  | .raises r s =>
    match ex r { s with iss := { Issue.reset with bundle := pc, addr := pc, next := pc } } with
    | .next s => .next { s with iss := Issue.reset }
    | o => o
  | .bundle ops s => s.issueOps ex pc ops

/-- WAITX waits until nothing of the task is in flight, then registers the continuation (R322). -/
def State.waitxTurn (s : State) (i : StreamId) (entry : Word) (n : Nat) (key : Reg) : State :=
  let ks := s.clsOf i
  if ks.all fun k => (s.curCl k).flights.isEmpty && (s.curCl k).pbits == 0 then
    match s.waitxRegister i entry n key with
    | some s => s
    | none => s
  else (s.advance i ks).markWait ks (!(s.awaited i).isEmpty)

/-- One stream's turn in a cycle: a bubble, a second piece, an operation kept for later, a waiting one, or a bundle. -/
def State.turnOf (s : State) (ex : Exec) (i : StreamId) : Out :=
  let s := { s with cur := i, iss := Issue.reset }
  let ks := s.clsOf i
  if !s.mayIssue i then .next (if s.onlyArrives i then s.advance i ks else s)
  else if ks.any fun k => (s.curCl k).bubbles != 0 then
    .next (s.modCls i ks fun c => { c with bubbles := c.bubbles - 1 })
  else if ks.any fun k => (s.curCl k).hold.isPiece then
    match ex (.ldmStmSecondPiece i) s with
    | .next s' => .next { (if s'.iss.res == .ok then s'.advance i ks else s') with iss := Issue.reset }
    | r => r
  else
    match ks.findSome? fun k => (s.curCl k).afterDue with
    | some op => s.afterTurn ex ks op
    | none =>
    match (s.cl i).hold with
    | .none => s.issueNext ex
    | .barwGen id g =>
      if (s.barRec i.tile id).gen == g then .next s
      else ({ s with cur := i }.modCl i fun c => { c with hold := .none }).issueNext ex
    | .waitx e n k => .next (s.waitxTurn i e n k)
    | _ => .next s

end Sys2Proof.Machine
end

