-- ==== Sys2Proof/Machine/MemUnits.lean ====
section
/-!
DEFINITION. The memory units: TSM banks (R241), arrival at the home (R244-R248, R251), routers (R369), the combining table
(R385-R394), the memory calendar (R244, R359, R360), base-die atomic units (R245), the MSC's filters and posted operations
(R248, R412) and the frame-table unit (R402, R413).
-/

namespace Sys2Proof.Machine

/-! ### Performing an operation on bytes -/

/-- What an atomic or reduction leaves of old bytes: the new bytes, if written, and flags. -/
def atomBytes (op : AOp) (sz : Siz) (b cmp : Word) (old : List Byte) : Option (List Byte) × FFlags :=
  let n := sizBytes sz
  let (r, f) := atomStep op sz (leNat old) (b.toNat % 2 ^ (8 * n)) (cmp.toNat % 2 ^ (8 * n))
  (r.map (leBytes n), f)

def MemOp.step (o : MemOp) (old : List Byte) : Option (List Byte) × FFlags :=
  match o with
  | .atom op sz b cmp => atomBytes op sz b cmp old
  | .red op t bs => let (r, f) := redStep op t old bs; (some r, f)
  | .redWire op t _ bs => let (r, f) := homeStep op t old bs; (some r, f)
  | _ => (none, fNone)

/-- Whether flags hold NV. -/
def hasNV (f : FFlags) : Bool := f &&& fNV != 0

/-- The first of a list: the earliest arrival, among those the lowest rank, among those the first in the list. -/
def oldest (rank : Req → Nat) (rs : List Req) : Option Req :=
  rs.foldl (fun (m : Option Req) r =>
    match m with
    | none => some r
    | some q => if r.due < q.due || (r.due == q.due && rank r < rank q) then some r else some q) none

/-! ### TSM banks (R241) -/

/-- The order of requests that reach a bank in one cycle: the cores, each with its clusters and then its engines, and the port
engine last. -/
def Who.bankRank : Who → Nat
  | .stream i => 8 * i.core + i.cl.val
  | .engine _ c g _ => if g == .port then 256 else 8 * c + 4 + (engIdx g).val
  | _ => 257

/-- The uncorrectable granules of a range of TSM are fresh and zero, with records of kind F (R251). -/
def State.zeroTsm (s : State) (t : Nat) (bad : List BadCell) : State :=
  bad.foldl (fun s g =>
    ((s.heal g).raise false (ueccRec g t 0 kindF 7 true)).modTile t fun x =>
      { x with tsm := mputs x.tsm g.span.1 (List.replicate g.span.2 0) }) s

/-- A bank performs a request on TSM data. -/
def State.tsmServe (s : State) (t b a : Nat) (r : Req) : State :=
  match r.op with
  | .read n =>
    match (s.badTsm t a n).head? with
    | some g => s.answerLost r g
    | none => s.answer r (s.tsmRead t a n) false false
  | .write bs => (s.tsmWrite t a bs).answer r [] false false
  | op =>
    if !op.steps then s.answer r [] false false
    else
      let bad := s.badTsm t a op.size
      let s := s.zeroTsm t bad
      let old := s.tsmRead t a op.size
      let (v, f) := op.step old
      let s := match v with
        | some bs => s.tsmWrite t a bs
        | none => s
      (s.tsmFlag t b f).answer r old (hasNV f) (!bad.isEmpty)

/-- One bank serves one operation a cycle. -/
def execTsmBankStep (t b : Nat) (s : State) : Out :=
  if !(u16 t && decide (b < 512)) then .fault .noSuchUnit
  else if (s.tile t).bankUsed.contains b then .next s
  else
    match oldest (fun r => r.who.bankRank) (s.reqs.filter fun r => s.tsmReady t b r) with
    | none => .next s
    | some r =>
      let s := s.useBank t b
      match r.loc with
      | .tsm _ a =>
        match flagWin a with
        | some w =>
          match r.op with
          | .flag v => .next ((s.modTile t fun x => x.setFlagWord w v).answer r [] false false)
          | _ => .next (s.answer r (leBytes 8 ((s.tile t).flagWord w).toNat) false false)
        | none => .next (s.tsmServe t b a r)
      | _ => .next s

/-! ### Requesters -/

/-- The place at which a request sets out: its tile, or the edge relay, place 16, for one of another module. -/
def Req.from (r : Req) : Nat :=
  match r.who with
  | .stream i => i.tile
  | .router t => t
  | .engine t _ _ _ => t
  | .remote _ | .host => 16

/-- The owner of a request in the calendar of a tile (R359). -/
def Req.owner (r : Req) (t : Nat) : Nat :=
  match r.who with
  | .stream i => if i.tile == t then i.core else 16
  | .engine u c _ _ => if u == t then c else 16
  | _ => 16

/-- The home tile of a request is this tile. -/
def Loc.atHome (l : Loc) (t : Nat) : Bool :=
  match l with
  | .hbm a => paTile a == t
  | _ => false

/-! ### Arrival at the home (R244-R248) -/

/-- Quanta of 0.8 ns in the 112 ns from a slot to its data (R360). -/
def dataTime : Nat := 140

/-- The bytes of a read that one queued write covers whole, from the youngest such write (R244). -/
def State.fromQueue (s : State) (a n : Nat) : Option (List Byte) :=
  ((s.tile (paTile a)).wq.reverse.find? fun e => overlaps a n e.addr e.data.length).bind fun e =>
    if e.addr ≤ a && a + n ≤ e.addr + e.data.length then some ((e.data.drop (a - e.addr)).take n) else none

/-- MSCOP on the lines of a run, for an access of `owner` (R246, R359, R412). -/
def State.mscRun (s : State) (op a n owner : Nat) : State :=
  let t := paTile a
  let lo := paOff a / 64
  let hi := (paOff a + n - 1) / 64
  if n == 0 then s
  else
    ((s.tile t).msc.filter fun e => decide (lo ≤ e.1) && decide (e.1 ≤ hi)).foldl (fun s e =>
      match op with
      | 0 =>
        if e.2.dirty then
          (s.queueWrite (t * 2 ^ 36 + e.1 * 64) e.2.data owner).modTile t fun x =>
            { x with msc := tset x.msc e.1 { e.2 with dirty := false } }
        else s
      | 1 => s.mscEvict t e.1 owner
      | 2 => s.modTile t fun x => { x with msc := tset x.msc e.1 { e.2 with retain := true } }
      | _ => s.modTile t fun x => { x with msc := tset x.msc e.1 { e.2 with evict := true } }) s

/-- A request that stands at its home works on the line of `h`. -/
def State.onLine (s : State) (h : Nat) (q : Req) : Bool :=
  match q.loc with
  | .hbm a => (q.stage == .home || q.stage == .unit) && s.homeAddr a / 64 == h / 64
  | _ => false

/-- An access waits before its home's MSC: until an atomic on its line has completed at the unit, and an atomic until the
reads of its line that came before have been served (R245). -/
def State.lineHeld (s : State) (r : Req) (h : Nat) : Bool :=
  s.reqs.any fun q => q.id != r.id && s.onLine h q && (q.op.steps || r.op.steps)

/-- The answer to a read whose bytes the MSC or the stack gives now: they, or the uncorrectable granule (R251). -/
def State.readNow (s : State) (r : Req) (h n : Nat) : State :=
  match s.mscLose h with
  | (some b, s) => s.answerLost r b
  | (none, s) =>
    match (s.badHbm h n).head? with
    | some b => s.answerLost r b
    | none => s.answer r (s.stackBytes h n) false false

/-- The request's answer sets out no sooner than a quantum. -/
def State.notBefore (s : State) (id n : Nat) : State := s.modReq id fun q => { q with due := max q.due n }

/-- The request waits at its home for a slot. -/
def State.standHome (s : State) (id : Nat) : State := s.modReq id fun q => { q with stage := .home, due := s.quantum }

/-- A read, or a prefetch, looks the line up: the MSC answers it, or the write queue, or it waits for a slot (R244, R246, R248,
R260). -/
def State.arriveRead (s : State) (r : Req) (h n : Nat) : State :=
  let t := paTile h
  let pf := r.op == .pf
  let s := s.mscScrub h n
  match s.mscLine h with
  | some l => if pf then (s.mscHit h).delReq r.id else ((s.mscHit h).readNow r h n).notBefore r.id l.ready
  | none =>
    let (alloc, s) := if pf then (!r.memside, s.mscMiss h) else s.mscTouch h r.memside
    if pf && r.memside then s.delReq r.id
    else
      match s.fromQueue h n with
      | some bs =>
        let s := if alloc then s.mscFill h (r.owner t) (s.quantum + dataTime) (!pf) else s
        s.answer r bs false false
      | none => (s.modReq r.id fun q => { q with alloc }).standHome r.id

/-- An atomic's line leaves the MSC, written back when dirty; of an uncorrectable dirty one zeros are left, with a record (R245,
R251). Atomics on memory-side pages go by the MSC. -/
def State.arriveStep (s : State) (r : Req) (h : Nat) : State :=
  let t := paTile h
  let s := s.mscScrub h 64
  let s := if r.memside then s else if (s.mscLine h).isSome then s.mscHit h else s.mscMiss h
  match s.mscLose h with
  | (some b, s) =>
    (((s.raise false (ueccRec b t 0 kindF 7 true)).queueWrite (h / 64 * 64) (List.replicate 64 0) (r.owner t)).modReq r.id
      fun q => { q with cell := some b }).standHome r.id
  | (none, s) => (s.mscEvict t (paOff h / 64) (r.owner t)).standHome r.id

/-- A request of this module's HBM reaches its home, unless its line is held. -/
def State.arriveHome (s : State) (r : Req) (a : Nat) : State :=
  let h := s.homeAddr a
  if s.lineHeld r h then s
  else
    match r.op with
    | .write bs => (s.homeWrite a bs (r.owner (paTile h))).answer r [] false false
    | .read n => s.arriveRead r h n
    | .pf => s.arriveRead r h 64
    | .atom .. | .red .. | .redWire .. => s.arriveStep r h
    | .mscop op n => (s.mscRun op h n (r.owner (paTile h))).answer r [] false false
    | .frame .. => s.standHome r.id
    | .flag _ => s.answer r [] false false

/-! ### Routers (R369) -/

/-- An earlier request of the same core to the same home, which left this router by another output, has not been accepted there
yet (R369). -/
def State.otherPath (s : State) (r : Req) (t out : Nat) : Bool :=
  r.who.coreOf.isSome && s.reqs.any fun q =>
    decide (q.id < r.id) && q.who.coreOf == r.who.coreOf && q.loc.goal == r.loc.goal &&
      (match q.stage with
       | .router _ | .out _ | .slip .. => true
       | _ => false) && q.via.any fun v => v.1 == t && v.2 != out

/-- The request can leave a router now. -/
def State.canLeave (s : State) (r : Req) (t : Nat) : Bool :=
  if r.loc.atHome t then
    match r.loc with
    | .hbm a => !s.lineHeld r (s.homeAddr a)
    | _ => true
  else
    let h := s.nextHop t r.loc.goal
    !s.otherPath r t h.out && s.hopFree t h

/-- A request takes its next hop: to the combining stage or the output queues of the next router, or out of the module. -/
def State.hop (s : State) (r : Req) (t : Nat) : State :=
  let h := s.nextHop t r.loc.goal
  let (due, s) := (s.takeHop t h).later
  match h.next with
  | none =>
    if r.dst == .remote then s.delReq r.id else s.modReq r.id fun q => { q with stage := .home, due }
  | some u =>
    let st := if r.comb then Stage.router u else .out u
    s.modReq r.id fun q =>
      { q with stage := st, due := s.behind r st due, input := h.input, via := q.via ++ [(t, h.out)] }

/-- A request leaves a router when it can: into the home, or by a hop; else it stays in the output queue. -/
def State.leave (s : State) (r : Req) (t : Nat) : State :=
  if !s.canLeave r t then s
  else
    match r.loc with
    | .hbm a => if r.loc.atHome t then s.arriveHome r a else s.hop r t
    | _ => s.hop r t

/-- A request sets out once the order of its stream lets it be performed (R274): to its own tile's combining stage when it is
combinable, into that tile's output queues, or straight to the home for the host. -/
def State.setOut (s : State) (r : Req) : State :=
  match r.who, r.loc with
  | .host, .hbm a => s.arriveHome r a
  | _, _ => if r.comb && r.from < 16 then s.modReq r.id fun q => { q with stage := .router r.from } else s.leave r r.from

/-- A router sends a request on its way (R274, R369). -/
def execRouterRequest (id : Nat) (s : State) : Out :=
  match s.findReq id with
  | none => .next s
  | some r =>
    if s.quantum < r.due then .next s
    else
      match r.stage, r.loc with
      | .wait, .tsm .. => .next s
      | .wait, _ => .next (if s.mayPerform r then s.setOut r else s)
      | .out t, _ => .next (s.leave r t)
      | _, _ => .next s

/-! ### The combining table (R385-R394) -/

/-- The operand that a combinable request carries. -/
def Req.operand (r : Req) : Word :=
  match r.op with
  | .atom _ _ b _ => b
  | _ => 0

def Req.addr (r : Req) : Nat :=
  match r.loc with
  | .far fa => fa
  | .hbm a => a
  | .tsm _ a => a

/-- acc ⊕ operand (R389). -/
def combAdd (afadd : Bool) (sz : Siz) (x y : Word) : Word :=
  let w := 8 * sizBytes sz
  let a := x.toNat % 2 ^ w
  let b := y.toNat % 2 ^ w
  if !afadd then BitVec.ofNat 64 ((a + b) % 2 ^ w)
  else BitVec.ofNat 64 (aluAdd (if w == 16 then fmtBF16 else fmtF32) a b).1

/-- The request matches an open entry (R385, R387). -/
def CEnt.takes (e : CEnt) (r : Req) (fa : Nat) : Bool :=
  match r.op with
  | .atom op sz _ _ =>
    !e.sent && decide (e.slips.length < 8) && e.addr == fa && e.afadd == (op == .fadd) && e.sz == sz && e.scp == r.scp &&
      e.ord == r.ord
  | _ => false

/-- The router stage at which a request stands. -/
def Req.atRouter (r : Req) : Option Nat :=
  match r.stage with
  | .router t => some t
  | _ => none

/-- aux of a SLIPLOST pair (Table comb 4). -/
def slipAux (n cnt : Nat) (afadd : Bool) (sz : Siz) (before second : Bool) : BitVec 32 :=
  let code := match sz with | .n8 => 0 | .n16 => 1 | .n32 => 2 | .i64 => 3 | .i8 => 4 | .i16 => 5 | .i32 => 6
  BitVec.ofNat 32 (n + cnt * 2 ^ 10 + (if afadd then 2 ^ 14 else 0) + code * 2 ^ 15 + (if before then 2 ^ 18 else 0) +
    (if second then 2 ^ 31 else 0))

/-- A lost entry: the pair of records, and the count (R394). -/
def State.slipLost (s : State) (t n cnt : Nat) (afadd : Bool) (sz : Siz) (before : Bool) (fa : Nat) (acc v : Word) :
    State :=
  let s := s.modTile t fun x => { x with cnt := { x.cnt with lostSlips := x.cnt.lostSlips + 1 } }
  let s := s.raise false { mkRec cSLIPLOST t 0 kindF 5 (slipAux n cnt afadd sz before false) (BitVec.ofNat 64 fa) with pc := v }
  s.raise false { mkRec cSLIPLOST t 0 kindF 5 (slipAux n cnt afadd sz before true) acc with pc := v, paired := true }

/-- An entry is free. -/
def State.freeComb (s : State) (t e : Nat) : State := s.modTile t fun x => { x with comb := tdel x.comb e }

/-- An entry that is uncorrectable when it is read is freed, with the record of a router table's granule (R251, R252, R394). -/
def State.combUecc (s : State) (t e : Nat) : State :=
  ((s.heal (.comb t e)).raise false (ueccRec (.comb t e) t 0 kindF 5 false)).freeComb t e

/-- An open entry is lost before it is sent: of it only its address and number are known (R394). -/
def State.combLost (s : State) (t e : Nat) (x : CEnt) : State :=
  (s.combUecc t e).slipLost t e 0 false .n8 true x.addr 0 0

/-- The entry that a request opens: +0 or 0 and its operand are summed (R387, R389). -/
def State.openEntry (s : State) (t : Nat) (r : Req) (op : AOp) (sz : Siz) (b : Word) : CEnt :=
  let afadd := op == .fadd
  { sent := false, afadd, sz, scp := r.scp, ord := r.ord,
    output := if r.loc.atHome t then 8 else (s.nextHop t r.loc.goal).out, addr := s.fabric r.loc, acc := combAdd afadd sz 0 b,
    sentTick := 0, slips := [⟨r.id, r.input, 0⟩], merged := 0, nextSlip := 0 }

/-- A request that joins no entry opens one, which waits in its output's queue, or passes uncombined (R387, R388). -/
def State.combOpen (s : State) (t : Nat) (r : Req) (op : AOp) (sz : Siz) (b : Word) : State :=
  match (List.range 1024).find? fun n => !((s.tile t).comb.any fun e => e.1 == n) with
  | some n =>
    let e := s.openEntry t r op sz b
    let (due, s) := s.later
    (s.modTile t fun x => { x with comb := tset x.comb n e }).modReq r.id fun q => { q with stage := .slip t n, due }
  | none =>
    (s.modTile t fun x => { x with cnt := { x.cnt with combOver := x.cnt.combOver + 1 } }).modReq r.id fun q =>
      { q with stage := .out t }

/-- A combinable request at a combining stage joins an open entry, opens one, or passes uncombined (R387). -/
def execCombineArrival (id : Nat) (s : State) : Out :=
  match s.findReq id with
  | none => .next s
  | some r =>
    match r.atRouter, r.op with
    | some t, .atom op sz b _ =>
      if s.quantum < r.due then .next s
      else
        match (s.tile t).comb.find? fun e => e.2.takes r (s.fabric r.loc) with
        | some (n, e) =>
          if s.bad.contains (.comb t n) then .next ((s.combLost t n e).combOpen t r op sz b)
          else
            let e := { e with slips := e.slips ++ [⟨id, r.input, e.acc⟩], acc := combAdd e.afadd e.sz e.acc b }
            .next ((s.modTile t fun x => { x with comb := tset x.comb n e }).modReq id fun q => { q with stage := .slip t n })
        | none => .next (s.combOpen t r op sz b)
    | _, _ => .next s

/-- The merged request of an entry, made from its first constituent (R388). -/
def State.mergedReq (s : State) (t e : Nat) (x : CEnt) (r : Req) : Req :=
  { r with id := s.nextId, who := .router t, dst := .comb t e, tick := s.tick, stage := .out t, due := s.quantum, input := 8,
           via := [], after := 0, drop := false, cell := none,
           op := .atom (if x.afadd then .fadd else .add) x.sz x.acc 0 }

/-- An open entry that has reached the head of its output's queue is sent: one constituent as itself, more as one merged request
(R388). -/
def State.combSend (s : State) (t e : Nat) (x : CEnt) (r : Req) : State :=
  match x.slips with
  | [_] =>
    let r := { r with stage := .out t }
    ((s.freeComb t e).modReq r.id fun _ => r).leave r t
  | _ =>
    let m := s.mergedReq t e x r
    let s := { s with nextId := s.nextId + 1, reqs := s.reqs ++ [m] }
    (s.modTile t fun y => { y with comb := tset y.comb e { x with sent := true, sentTick := s.tick, merged := m.id } }).leave m t

/-- An open entry reaches the head of its output's queue (R388, R394). -/
def execCombinedSend (t e : Nat) (s : State) : Out :=
  if !(u16 t && decide (e < 1024)) then .fault .noSuchUnit
  else
    match (s.tile t).comb.find? fun x => x.1 == e with
    | none => .next s
    | some (_, x) =>
      match x.slips.head?.bind fun y => s.findReq y.req with
      | none => .next (if x.sent then s else s.freeComb t e)
      | some r =>
        if x.sent || s.quantum < r.due || !s.canLeave r t then .next s
        else if s.bad.contains (.comb t e) then .next (s.combLost t e x)
        else .next (s.combSend t e x r)

/-- The value that slip `k` receives (R391). -/
def CEnt.valueOf (x : CEnt) (k : Nat) (v : Word) : Word :=
  if k == 0 then v else combAdd x.afadd x.sz v ((x.slips.map (·.pre)).getD k 0)

/-- The reply of a merged request that has arrived at its router: value, NV and loss. -/
def State.mergedReply (s : State) (t e : Nat) : Option (Req × Word × Bool × Bool) :=
  (s.reqs.find? fun (r : Req) => r.dst == .comb t e && r.stage.isReply && decide (r.due ≤ s.quantum)).bind fun r =>
    match r.stage with
    | .reply bs nv bad => some (r, BitVec.ofNat 64 (leNat bs), nv, bad)
    | _ => none

/-- A slip's request is answered, unless it has been given up (R391, R392). -/
def State.slipReply (s : State) (y : Slip) (bs : List Byte) (nv bad : Bool) : State :=
  match s.findReq y.req with
  | none => s
  | some q => if q.drop && q.comb then s.delReq q.id else s.answer q bs nv bad

/-- A reply to a combining entry is split, one reply for each slip, one a cycle (R391, R394). -/
def execCombinedReply (t e : Nat) (s : State) : Out :=
  if !(u16 t && decide (e < 1024)) then .fault .noSuchUnit
  else
    match s.mergedReply t e with
    | none => .next s
    | some (r, v, nv, bad) =>
      let afadd := match r.op with | .atom .fadd .. => true | _ => false
      let sz := match r.op with | .atom _ sz _ _ => sz | _ => .n8
      match (s.tile t).comb.find? fun x => x.1 == e && x.2.sent && x.2.merged == r.id with
      | none => .next ((s.delReq r.id).slipLost t e 0 afadd sz false (s.fabric r.loc) r.operand v)
      | some (_, x) =>
        if s.bad.contains (.comb t e) then
          .next (((s.combUecc t e).delReq r.id).slipLost t e 0 afadd sz false (s.fabric r.loc) r.operand v)
        else
          match x.slips.drop x.nextSlip with
          | [] => .next ((s.delReq r.id).freeComb t e)
          | y :: ys =>
            let s := s.slipReply y (leBytes (sizBytes x.sz) (x.valueOf x.nextSlip v).toNat) nv bad
            if ys.isEmpty then .next ((s.delReq r.id).freeComb t e)
            else .next (s.modTile t fun z => { z with comb := tset z.comb e { x with nextSlip := x.nextSlip + 1 } })

/-- A sent entry without a reply for 2^17 ticks is freed without a record; what timed out of it is forgotten (R393). -/
def execCombiningEntryTimeout (t e : Nat) (s : State) : Out :=
  if !(u16 t && decide (e < 1024)) then .fault .noSuchUnit
  else
    match (s.tile t).comb.find? fun x => x.1 == e with
    | none => .next s
    | some (_, x) =>
      if !x.sent || s.tick < x.sentTick + 2 ^ 17 || (s.mergedReply t e).isSome then .next s
      else
        let s := s.freeComb t e
        .next { s with reqs := s.reqs.filter fun (q : Req) => !(q.drop && q.stage == .slip t e) }

/-! ### The memory calendar (R359, R360) -/

/-- A request or queued write that waits for a slot. -/
inductive Cand where
  | req (r : Req)
  | wr (w : WEnt)
  deriving DecidableEq, Repr

def Cand.due : Cand → Nat
  | .req r => r.due
  | .wr w => w.due

def Cand.owner (t : Nat) : Cand → Nat
  | .req r => r.owner t
  | .wr w => w.owner

/-- The bytes of HBM that a request which stands at its home needs a slot for. -/
def Req.slotBytes (r : Req) : Option Nat :=
  match r.op with
  | .read n => some n
  | .pf => some 64
  | op => if op.steps then some op.size else none

/-- What waits at a pseudo-channel: reads and atomics that no queued write holds back, and writes that no older overlapping
write holds back (R244, R245). -/
def State.waiting (s : State) (t p : Nat) : List Cand :=
  let x := s.tile t
  let reqs := s.reqs.filterMap fun (r : Req) =>
    match r.loc, r.stage, r.slotBytes with
    | .hbm a, .home, some n =>
      let h := s.homeAddr a
      if paTile h == t && paChan h == p && r.due ≤ s.quantum && !(x.wq.any fun w => overlaps h n w.addr w.data.length) then
        some (Cand.req r)
      else none
    | _, _, _ => none
  let wrs := (x.wq.zipIdx.filter fun (w, i) =>
    paChan w.addr == p && decide (w.due ≤ s.quantum) &&
      !((x.wq.take i).any fun v => overlaps w.addr w.data.length v.addr v.data.length)).map fun w => Cand.wr w.1
  reqs ++ wrs

/-- The one that a slot serves: the oldest of its owner, else the oldest of any, ties by requester (R359). -/
def serve (t owner : Nat) (cs : List Cand) : Option Cand :=
  let first := fun (l : List Cand) => l.foldl (fun (m : Option Cand) c =>
    match m with
    | none => some c
    | some d => if c.due < d.due || (c.due == d.due && c.owner t < d.owner t) then some c else some d) none
  match first (cs.filter fun c => c.owner t == owner) with
  | some c => some c
  | none => first cs

/-- A slot serves a read: its line enters the MSC where the read has it so (R248, R260), and its data follows (R360). -/
def State.serveRead (s : State) (t : Nat) (r : Req) (h n : Nat) : State :=
  let s := if r.alloc then s.mscFill h (r.owner t) (s.quantum + dataTime) (r.op != .pf) else s
  if r.op == .pf then s.delReq r.id else (s.readNow r h n).notBefore r.id (s.quantum + dataTime)

/-- A slot serves one request of one pseudo-channel. -/
def State.slotServe (s : State) (t owner p : Nat) : State :=
  match serve t owner (s.waiting t p) with
  | none => s
  | some (.wr w) =>
    { s with hbm := mputs s.hbm w.addr w.data }.modTile t fun x => { x with wq := x.wq.erase w }
  | some (.req r) =>
    match r.loc with
    | .hbm a =>
      if r.op.steps then s.modReq r.id fun q => { q with stage := .unit, due := s.quantum }
      else s.serveRead t r (s.homeAddr a) (r.slotBytes.getD 0)
    | _ => s

/-- The index of the calendar slot in force (R359): 4 ns are five quanta. -/
def State.slotIdx (s : State) : Nat := (10 * s.tick + s.sub / 10) / 4 % 32

/-- Each pseudo-channel of a tile serves one request; new owners take over at a rotation start (Table tab 6). -/
def execCalendarSlot (t : Nat) (s : State) : Out :=
  if !(u16 t) then .fault .noSuchUnit
  else
    let i := s.slotIdx
    let s := if i == 0 then
        match (s.tile t).calNext with
        | some c => s.modTile t fun x => { x with cal := c, calNext := none }
        | none => s
      else s
    let o := ((s.tile t).cal.getD i 31).toNat
    .next ((List.range 64).foldl (fun s p => s.slotServe t o p) s)

/-! ### Base-die atomic units (R245) -/

/-- The order of operations that reach a unit of tile `t` in one cycle: the home tile's own cores, then by requester tile. -/
def Req.unitRank (r : Req) (t : Nat) : Nat := if r.from == t then 0 else 1 + r.from

/-- The uncorrectable granules of a range of HBM are fresh and zero, with records of kind F (R251). -/
def State.zeroHbm (s : State) (t owner : Nat) (bad : List BadCell) : State :=
  bad.foldl (fun s g =>
    ((s.heal g).raise false (ueccRec g t 0 kindF 7 true)).unitWrite g.span.1 (List.replicate g.span.2 0) owner) s

/-- A unit performs an operation on the stack's bytes; of an uncorrectable granule no old value is returned. -/
def State.unitServe (s : State) (t u a : Nat) (r : Req) : State :=
  let h := s.homeAddr a
  let bad := s.badHbm h r.op.size
  let s := s.zeroHbm t (r.owner t) bad
  let old := mgets s.hbm h r.op.size
  let (v, f) := r.op.step old
  let s := match v with
    | some bs => s.unitWrite a bs (r.owner t)
    | none => s
  (s.unitFlag t u f).answer r old (hasNV f) (!bad.isEmpty || r.cell.isSome)

/-- A unit performs the first of the atomics and reductions that slots have passed to it. -/
def execAtomicUnitStep (t u : Nat) (s : State) : Out :=
  if !(u16 t && decide (u < 32)) then .fault .noSuchUnit
  else
    let here := fun (r : Req) =>
      match r.loc with
      | .hbm a => let h := s.homeAddr a; r.stage == .unit && paTile h == t && paUnit h == u
      | _ => false
    match oldest (fun r => r.unitRank t) (s.reqs.filter here) with
    | none => .next s
    | some r =>
      match r.loc with
      | .hbm a => .next (s.unitServe t u a r)
      | _ => .next s

/-- Every 6,400 ticks the Bloom filters are cleared (R248). -/
def execMscFilterClear (s : State) : Out :=
  if s.tick % 6400 != 0 then .next s else .next (s.allTiles fun x => { x with bloom := [] })

/-! ### The frame-table unit (R402, R403, R413) -/

/-- Drop the write-ok bits of a frame's cached translations in the module. -/
def State.dropWriteOk (s : State) (f : Nat) : State :=
  s.allTiles fun x => x.mapTlb fun l => l.map fun e => if e.names f then { e with writeOk := false } else e

/-- What a frame-table step answers: none when it must wait. `f` is a module frame, or the tile of a pop. -/
def State.frameStep (s : State) (op f : Nat) (b : Word) : Option (Nat × State) :=
  let v := s.frameEnt f
  let busy := feBusy v || feMig v != 0
  match op with
  | 0 => some (v, s)
  | 1 =>
    if busy then none
    else
      let n := (feCount v : Int) + (b.extractLsb' 0 16).toInt
      if n < 0 || 65535 < n then some (v + 2 ^ 63, s)
      else
        let s := s.putFrame f (setField v 0 16 n.toNat)
        some (v, if (feCount v : Int) < n then s.dropWriteOk (f + s.moduleId * 2 ^ 24) else s)
  | 2 =>
    if busy then none
    else
      let s := s.putFrame f (setField v 16 1 (if b.getLsbD 0 then 1 else 0))
      some (v, if b.getLsbD 0 then s.dropWriteOk (f + s.moduleId * 2 ^ 24) else s)
  | 3 =>
    if feCount v == 0 && !feFree v && !busy then
      match s.pushFrame f with
      | (true, s) => some ((s.tile (f / 2 ^ 20 % 16)).freeCount, s)
      | (false, s) => some ((s.tile (f / 2 ^ 20 % 16)).freeCount + 2 ^ 63, s)
    else some ((s.tile (f / 2 ^ 20 % 16)).freeCount + 2 ^ 63, s)
  | 4 =>
    match s.popFrame (f % 16) with
    | (some g, s) => some ((g + s.moduleId * 2 ^ 24) * 65536, s)
    | (none, s) => some (0, s)
  | _ => some (0, s.shoot (f + s.moduleId * 2 ^ 24))

/-- A shootdown waits until the accesses translated before it have been performed (R411, R413). -/
def State.shootDone (s : State) (r : Req) (f : Nat) : Bool :=
  !(s.reqs.any fun q => q.id != r.id && q.id < r.id && q.inFrame f)

/-- The order of steps that reach the unit in one cycle: by tile, core and cluster of the requester (R402). -/
def Who.stepRank : Who → Nat
  | .stream i => 64 * i.tile + 4 * i.core + i.cl.val
  | .engine t c _ _ => 64 * t + 4 * c + 3
  | _ => 1024

/-- The unit performs the first step that need not wait. -/
def execFrameTableStep (t : Nat) (s : State) : Out :=
  if !(u16 t) then .fault .noSuchUnit
  else
    let go := fun (r : Req) =>
      match r.op with
      | .frame op f b =>
        (if op == 4 then f % 16 else f / 2 ^ 20 % 16) == t && r.stage == .home && decide (r.due ≤ s.quantum) &&
          (s.frameStep op f b).isSome
      | _ => false
    match oldest (fun r => r.who.stepRank) (s.reqs.filter go) with
    | none => .next s
    | some r =>
      match r.op with
      | .frame op f b =>
        match s.frameStep op f b with
        | none => .next s
        | some (v, s) => .next (if op == 5 && !s.shootDone r f then s else s.answer r (leBytes 8 v) false false)
      | _ => .next s

end Sys2Proof.Machine
end

