-- ==== Sys2Proof/Machine/Sched.lean ====
section
/-!
DEFINITION. Streams that resume (R213, R216, R217), droop bubbles (R27), bank exchanges (R28, R211, R219), the launch
distributor (R307-R311, R356), the task schedulers (R312-R314) and the continuation store (R315, R316, R319).
-/

namespace Sys2Proof.Machine

/-! ### Resuming a stream (R213, R216, R217) -/

/-- The request whose place a load keeps that is performed anew (R216, R273). -/
def State.lostReq (s : State) (i : StreamId) (l : LoadRec) : Option Req :=
  s.reqs.find? fun r => r.stage == .lost && r.who == .stream i && (r.dst == .load l || r.dst == .spec l)

/-- A long load sets out again, at its place among the stream's accesses where it kept one (R216). -/
def State.relaunch (s : State) (i : StreamId) (l : LoadRec) (p : Place) (n : Nat) : State :=
  match s.lostReq i l with
  | none => s.longLoad i l p n
  | some r =>
    let (due, s) := (s.modCl i fun c => c.setP l.d true).later
    s.modReq r.id fun q => { q with stage := .wait, loc := p.loc, memside := p.memside, due, drop := false, cell := none }

/-- A load that will not be performed anew gives up its place. -/
def State.loseLoad (s : State) (i : StreamId) (l : LoadRec) : State :=
  match s.lostReq i l with
  | none => s
  | some r => s.delReq r.id

/-- Reissue a load of a replay list (R216). An LS load's data lands at once. -/
def State.reissue (s : State) (i : StreamId) (l : LoadRec) : Except AErr State :=
  let j := onCl i l.cl
  let n := sizBytes l.sz
  match l.sp with
  | .ls =>
    match s.badLs i.tile i.core l.ea.toNat n with
    | [] => .ok (s.loadReturn j l (mgets (s.core i.tile i.core).ls l.ea.toNat n))
    | b :: _ =>
      .ok ((s.modCl j fun c => c.setP l.d true).raise (s.cl j).priv
        { ueccRec b i.tile i.core kindS 0 false with cl := l.cl.val, bank := i.bank, waiter := .load j l })
  | .tsm => .ok (s.relaunch j l ⟨.tsm i.tile l.ea.toNat, false, none⟩ n)
  | .virt =>
    match s.xl ⟨i.tile, l.ea.toNat, false, false, !(s.cl j).priv, 0, 0, i.core⟩ with
    | .error e => if l.spec then .ok ((s.loseLoad j l).deferLoad j l (e.report l.ea)) else .error (e.report l.ea)
    | .ok (p, s) => .ok (s.relaunch j l p n)

/-- Reissue loads in order; the first that no longer translates, with its fault. -/
def State.reissueAll (i : StreamId) : List LoadRec → State → Except (LoadRec × AErr) State
  | [], s => .ok s
  | l :: ls, s =>
    match s.reissue i l with
    | .error e => .error (l, e)
    | .ok s => s.reissueAll i ls

/-- The results of a stream's clusters are re-inserted and their replay list is reissued (R213, R216, R222). -/
def State.bringBack (s : State) (i : StreamId) (ks : List (Fin 4)) : Except (LoadRec × AErr) State :=
  let (ls, b) := ((s.bank i).reinsert ks).takeReplay ks
  (s.modBank i fun _ => b).reissueAll i ls

/-- A parked stream whose record has been answered may resume: its bank is in the foreground, the tick of the answer is over,
so that every answer of that tick has reached the core, and it is the lowest cluster of those answered first (R217). -/
def State.mayResume (s : State) (i : StreamId) : Bool :=
  let x := s.core i.tile i.core
  let b := x.bank i.bank
  let ready := fun (k : Fin 4) =>
    let c := b.cl.get k
    c.st == .parked && c.answered && decide (c.resumeAt ≤ s.cycles i.tile) && decide (c.ansTick < s.tick)
  let since := fun (k : Fin 4) => (b.cl.get k).ansTick
  b.occ && b.started && x.exch == 0 && x.fg % 2 == i.bank && ready i.cl && (!b.joined || i.cl == 0) &&
    cls4.all fun k => !ready k || decide (since i.cl < since k) || (since i.cl == since k && decide (i.cl ≤ k))

/-- Quanta that `n` core cycles of a tile take at most. -/
def State.quantaOf (s : State) (t n : Nat) : Nat :=
  let f := (s.tile t).clk.mhz
  if f == 0 then n else (n * 1250 + f - 1) / f

/-- The stream issues again; the other answered streams of its bank come a cycle later each (R217). -/
def State.wakeStream (s : State) (i : StreamId) : State :=
  let ks := s.clsOf i
  let piece := ks.any fun k => (s.cl (onCl i k)).hold.isPiece
  let now := s.cycles i.tile
  let s := s.modBank i fun b => cls4.foldl (fun b k => b.modCl k fun c => { c with resumeAt := max c.resumeAt (now + 1) }) b
  s.modCls i ks fun c =>
    { c with st := .running, answered := false, waitAns := false, resumeAt := now,
             pc := if piece then c.xferNext else c.pc }

/-- A stream resumes: results, replay list, and the bundle at its resume point, or the second piece of the LDM or STM
that trapped there. Where a load of the list faults, the stream stays parked with a record of that fault (R217). -/
def execStreamResume (id : StreamId) (s : State) : Out :=
  if !s.mayResume id then .next s
  else
    match s.bringBack id (s.clsOf id) with
    | .ok s' => .next (s'.wakeStream id)
    | .error (l, cause, ea, aux) =>
      let ks := s.clsOf id
      let c := s.cl id
      let s := s.loseLine cause aux ea
      let s := if c.ti then s else s.modCls id ks fun x => x.note cause aux c.pc ea
      let s := s.modCls id ks fun x => { x with answered := false }
      .next <| s.raise c.priv
        { cause, tile := id.tile, core := id.core, cl := l.cl.val, bank := id.bank, kind := kindS, source := 0, aux,
          pc := c.pc ||| ueccBank cause aux ea, addr := ea, tick := 0, dest := .host 0, waiter := .stream (onCl id l.cl), paired := false }

/-- The droop governor's bubble freezes clusters for a cycle and counts once (R27, R95, Table count 10). -/
def execDroopBubble (t c : Nat) (mask : BitVec 4) (s : State) : Out :=
  if !(u16 t && u16 c) then .fault .noSuchUnit
  else if mask == 0 then .next s
  else
    let s := s.modCore t c fun x => { x with bubbles := x.bubbles + 1 }
    let b := (s.core t c).fg % 2
    .next (cls4.foldl (fun s k =>
      if mask.getLsbD k.val then s.modCl ⟨t, c, b, k⟩ fun c => { c with bubbles := c.bubbles + 1 } else s) s)

/-! ### Bank exchanges (R28, R211, R219) -/

/-- Clusters whose streams the task still has: one while joined, else those that have not exited. -/
def Bank.streams (b : Bank) : List (Fin 4) :=
  if b.joined then [0]
  else cls4.filter fun k => let st := (b.cl.get k).st; st != .exited && st != .idle

/-- A stream is parked on a fault, or waits for the answer to one (R216, R219). -/
def Cluster.onFault (c : Cluster) : Bool := c.st == .parked || c.waitAns

/-- A stream that waits at a JOIN counts as parked: every cluster of the mask that has not arrived is parked on a fault
(R142). -/
def Bank.joinStuck (b : Bank) (k : Fin 4) : Bool :=
  (b.cl.get k).st == .joinWait && b.joins.any fun e =>
    let j := e.2
    j.busy && j.arrived.getLsbD k.val &&
      cls4.all fun n => !j.expected.getLsbD n.val || j.arrived.getLsbD n.val || (b.cl.get n).onFault

/-- A stream of the bank counts as parked (R219). -/
def Bank.isParked (b : Bank) (k : Fin 4) : Bool := (b.cl.get k).onFault || b.joinStuck k

/-- A stream can run: it is not parked, or the record it is parked for has been answered (R28). -/
def Cluster.able (c : Cluster) : Bool :=
  (c.st == .running && !c.waitAns) || (c.st == .parked && c.answered)

/-- Every stream of the bank's task is parked (Table ctx 4). -/
def Bank.parked (b : Bank) : Bool :=
  b.occ && b.streams.all b.isParked

/-- The bank holds a task with a stream able to run; a placed task counts while its state is still being loaded, and issues
no bundle until it is (R28, R314). -/
def Bank.able (b : Bank) : Bool :=
  b.occ && b.streams.any fun k => (b.cl.get k).able

/-- The foreground bank gives way: it is free, or every stream of its task is parked and none can resume. -/
def Bank.givesWay (b : Bank) : Bool := !b.occ || (b.parked && !b.able)

/-- The banks exchange; no stream of the core issues for 16 cycles (R211). -/
def Core.exchange (x : Core) : Core :=
  { x with fg := 1 - x.fg % 2, xcnt := (x.xcnt + 1) % 2 ^ 32, exch := 16 }

/-- R28's condition. -/
def Core.mustExchange (x : Core) : Bool :=
  x.exch == 0 && (x.bank (x.fg % 2)).givesWay && (x.bank (1 - x.fg % 2)).able

def execBankExchange (t c : Nat) (s : State) : Out :=
  if !(u16 t && u16 c) then .fault .noSuchUnit
  else if (s.core t c).mustExchange then .next (s.modCore t c Core.exchange)
  else .next s

/-- The last of the 16 cycles ends. -/
def execBankExchangeEnd (t c : Nat) (s : State) : Out :=
  if !(u16 t && u16 c) then .fault .noSuchUnit
  else if (s.core t c).exch == 1 then .next (s.modCore t c fun x => { x with exch := 0 })
  else .next s

/-! ### Launch records (Table launch 3) -/

/-- Field of a launch record: `n` bytes at offset `o`. -/
def recField (r : List Byte) (o n : Nat) : Nat := leNat ((r.drop o).take n)

/-- One bit of byte 26. -/
def recFlag (r : List Byte) (i : Nat) : Bool := (r.getD 26 0).getLsbD i
def recMask (r : List Byte) : Nat := recField r 24 2
def recPrio (r : List Byte) : Nat := recField r 26 1 % 4
def recRestart (r : List Byte) : Bool := recFlag r 2
def recSup (r : List Byte) : Bool := recFlag r 3
def recEarly (r : List Byte) : Bool := recFlag r 4
def recKind (r : List Byte) : Nat := recField r 26 1 / 32 % 4
def recDep (r : List Byte) (i : Nat) : Nat := recField r (32 + 4 * i) 4
def recDeps (r : List Byte) : List Nat := (List.range (min 4 (recField r 27 1))).map (recDep r)
def recCue (r : List Byte) : Option Nat :=
  if recField r 56 4 / 2 ^ 31 == 1 then some (recField r 56 4 % 65536) else none

/-- The tiles of the mask, ascending. -/
def recTiles (r : List Byte) : List Nat := (List.range 16).filter fun t => (recMask r).testBit t

/-- Code 8: a zero field is set, or a field has a value it may not have (Table launch 4). -/
def badRecord (r : List Byte) : Bool :=
  let k := recKind r
  let n := recField r 27 1
  let entry := recField r 0 8
  let loops := recField r 8 8
  k == 3 || (k != 0 && !recSup r) || decide (128 ≤ recField r 26 1) || decide (4 < n) ||
    ((List.range 4).any fun i => decide (n ≤ i) && recDep r i != 0) ||
    decide (2 ^ 55 ≤ recField r 16 8) || decide (2 ^ 55 ≤ recField r 48 8) || recField r 48 8 % 64 != 0 ||
    recField r 56 4 / 65536 % 32768 != 0 || decide (4096 ≤ recField r 60 2) || decide (8192 ≤ recField r 62 2) ||
    (if k == 0 then decide (2 ^ 55 ≤ entry) || decide (2 ^ 55 ≤ loops)
     else entry % 64 != 0 || decide (2 ^ 36 ≤ entry) || decide (2 ^ 32 ≤ loops) || (k == 2 && loops != 0))

/-- The address translates on every tile of the record's mask (code 4). -/
def State.onTiles (s : State) (r : List Byte) (va : Nat) (fetch : Bool) : Bool :=
  (recTiles r).all fun t =>
    match s.xl ⟨t, va, false, fetch, !recSup r, 0, 0, 16⟩ with
    | .ok _ => true
    | .error _ => false

/-- Code 4 of a kernel record. -/
def State.badAddrs (s : State) (r : List Byte) : Bool :=
  let args := recField r 16 8
  let low := fun (o : Nat) => recField r o 8 % 64 != 0
  low 16 || (args != 0 && !s.onTiles r args false) ||
    (recKind r == 0 && (low 0 || low 8 || !s.onTiles r (recField r 0 8) true || !s.onTiles r (recField r 8 8) false))

/-- `n` bytes of virtual memory read by the distributor in a tile's context; another module's bytes are free values. -/
def State.distRead (s : State) (t va n : Nat) (user : Bool) : Option (List Byte) × State :=
  let parts := (pieces 65536 va (List.replicate n 0)).map fun p => (p.1, p.2.length)
  parts.foldl (fun (acc : Option (List Byte) × State) p =>
    match acc with
    | (none, s) => (none, s)
    | (some bs, s) =>
      match s.xl ⟨t, p.1, false, false, user, 0, 0, 16⟩ with
      | .error _ => (none, s)
      | .ok (pl, s) =>
        match pl.loc with
        | .hbm a =>
          let (cs, s) := s.unitRead a p.2
          (some (bs ++ cs), s)
        | _ => (some (bs ++ (List.range p.2).map fun i => Config.farByte s.fresh i), { s with fresh := s.fresh + 1 }))
    (some [], s)

/-! ### Loop tables (R311, R356) -/

/-- A loop level: kind, count, first and last block. -/
abbrev Level := Nat × Nat × Word × Word

/-- One level's entry of a loop table: the level, and whether it breaches the limits other than a zero count. -/
def levelOf (b : List Byte) : Level × Bool :=
  let w := fun (i : Nat) => recField b (8 * i) 8
  let k := w 0 % 4
  let zero := w 0 / 4 % 2 ^ 30 != 0 || w 3 != 0
  let blkOk := fun (x : Nat) => x % 64 == 0 && decide (x < 2 ^ 55)
  let bad := k == 3 || zero ||
    (if k == 0 then w 1 == 0 || !blkOk (w 1) || !blkOk (w 2) || decide (w 2 < w 1) else w 1 != 0 || w 2 != 0)
  ((k, w 0 / 2 ^ 32, BitVec.ofNat 64 (w 1), BitVec.ofNat 64 (w 2)), bad)

def kindCounts (k : Nat) (ls : List Level) : List Nat := (ls.filter fun l => l.1 == k).map (·.2.1)
def prodOf (ns : List Nat) : Nat := ns.foldl (· * ·) 1

/-- The levels of a table and its refusal code, 0 when it keeps the limits (Table launch 4). -/
def loopTable (tiles : Nat) (hdr body : List Byte) : List Level × Nat :=
  let n := recField hdr 0 8
  let es := (chunks n 32 body).map levelOf
  let ls := es.map (·.1)
  let d := kindCounts 2 ls
  if n == 0 || 8 < n || recField hdr 8 24 != 0 then ([], 1)
  else if (es.any (·.2)) || 4 < (kindCounts 0 ls).length then ([], 1)
  else if (ls.any fun l => l.2.1 == 0) || 256 < prodOf (kindCounts 1 ls) || (!d.isEmpty && prodOf d != tiles) then ([], 2)
  else (ls, 0)

/-- Read and judge the loop table of a record through its lowest tile. -/
def State.readTable (s : State) (r : List Byte) : List Level × Nat × State :=
  let t := (recTiles r).headD 0
  let va := recField r 8 8
  match s.distRead t va 32 (!recSup r) with
  | (none, s) => ([], 4, s)
  | (some hdr, s) =>
    let n := recField hdr 0 8
    if 8 < n then ([], 1, s)
    else
      match s.distRead t (va + 32) (32 * n) (!recSup r) with
      | (none, s) => ([], 4, s)
      | (some body, s) =>
        let (ls, c) := loopTable (recTiles r).length hdr body
        (ls, c, s)

/-- Tasks of a company. -/
def taskCount (ls : List Level) : Nat := prodOf (kindCounts 1 ls)

/-! ### The launch distributor (R310, R311) -/

/-- A dependence id of the record's own queue that is not earlier than it (code 5). -/
def lateDep (r : List Byte) (q seq : Nat) : Bool :=
  (recDeps r).any fun d =>
    let δ := (seq + 2 ^ 28 - seqOf d) % 2 ^ 28
    lqOf d == q && (δ == 0 || decide (2 ^ 27 < δ))

/-- Judge the record at the head of a queue once (R310); the table is read again when the record is taken (R356). -/
def State.judge (s : State) (q seq : Nat) (r : List Byte) : HeadRec × State :=
  let bind := match recCue r with
    | some id => s.sheets.any fun x => x.id == id
    | none => true
  let late := if lateDep r q seq then 5 else if !bind then 6 else 0
  if badRecord r then (⟨r, [], 8⟩, s)
  else if recMask r == 0 then (⟨r, [], 3⟩, s)
  else if s.badAddrs r then (⟨r, [], 4⟩, s)
  else if recKind r != 0 then (⟨r, [], late⟩, s)
  else
    let (ls, c, s) := s.readTable r
    (⟨r, ls, if c != 0 then c else late⟩, s)

/-- A dependence was refused (code 7). -/
def State.depRefused (s : State) (r : List Byte) : Bool :=
  (recDeps r).any fun d =>
    let q := tget LQ.reset s.lq (lqOf d)
    let δ := (q.tail + 2 ^ 28 - seqOf d) % 2 ^ 28
    δ != 0 && decide (δ < 2 ^ 27) && !q.waits δ && s.launches.any fun (l : Launch) => l.id == d && l.refused

/-- A company of a tile that is still live. -/
def Company.live (c : Company) (t : Nat) : Bool := c.tile == t && (!c.over || c.saved)

/-- Every selected tile has room for the record's company and tasks. -/
def State.roomFor (s : State) (r : List Byte) (ls : List Level) : Bool :=
  (recTiles r).all fun t =>
    decide ((s.companies.filter fun c => c.live t).length < 64) &&
      decide ((s.tile t).ready.length + taskCount ls ≤ 4096)

/-- The instruction caches of a tile are invalidated (R61). -/
def State.dropCode (s : State) (t : Nat) : State :=
  let s := { s with reqs := s.reqs.map fun (q : Req) =>
    match q.who, q.dst with
    | .stream i, .code => if i.tile == t then { q with drop := true } else q
    | _, _ => q }
  let f := fun (b : Bank) => { b with cl := b.cl.map fun c => { c with code := .idle } }
  s.modTile t fun x =>
    { x with cores := x.cores.map fun e => (e.1, { e.2 with b0 := f e.2.b0, b1 := f e.2.b1, icache := [] }) }

/-- Create the company of a launch on a tile, with one kind-0 entry for each task (R311, Table launch 7). -/
def State.createCompany (s : State) (l : Launch) (t d : Nat) : State :=
  let n := taskCount l.levels
  let co : Company :=
    { launch := l.id, tile := t, dIdx := d, id := companyId l.id, levels := l.levels,
      lineages := (List.range n).map fun c => ⟨c, false, false⟩, saved := false, preempt := 0 }
  let s := { s with companies := s.companies ++ [co] }
  let s := (List.range n).foldl (fun s c =>
    let (id, s) := s.takeTaskId t
    s.modTile t fun x =>
      { x with ready := x.ready ++ [{ taskid := id, company := companyId l.id, core := c % 16, kind := 0,
                                      prio := recPrio l.recd, tick := s.tick, order := lqOf l.id * 2 ^ 24 + c, cont := 0,
                                      broken := false, dIdx := d, cIdx := c, launch := l.id }] }) s
  s.dropCode t

/-- D index of the d-th tile of a record (R311). -/
def dIndex (ls : List Level) (d : Nat) : Nat := if (kindCounts 2 ls).isEmpty then 0 else d

/-- Put a launch among those taken; an older one of the same id is forgotten. -/
def State.addLaunch (s : State) (l : Launch) : State :=
  { s with launches := s.launches.filter (fun (x : Launch) => x.id != l.id) ++ [l] }

/-- The head of a queue moves on. -/
def LQ.next (y : LQ) : LQ := { y with head := (y.head + 1) % 2 ^ 28, judged := none }

def State.modLq (s : State) (q : Nat) (f : LQ → LQ) : State := { s with lq := tmod LQ.reset s.lq q f }

/-- The record at the head of a queue leaves it, refused with a code. -/
def State.refuse (s : State) (q id code : Nat) (r : List Byte) : State :=
  ((s.modLq q LQ.next).addLaunch ⟨id, r, [], true, false⟩).completion id code (recKind r) 0 0

/-- A kernel record whose dependences are met is taken: its loop table is read, and its companies are created in ascending tile
order (R310, R311, R356). -/
def State.takeKernel (s : State) (q id : Nat) (r : List Byte) : State :=
  let (ls, code, s) := s.readTable r
  if code != 0 then s.refuse q id code r
  else if s.roomFor r ls then
    let l : Launch := ⟨id, r, ls, false, false⟩
    (recTiles r).zipIdx.foldl (fun s (t, d) => s.createCompany l t (dIndex ls d)) ((s.modLq q LQ.next).addLaunch l)
  else s

/-- The distributor looks at the head of one queue (R310). -/
def State.distribute (s : State) (q : Nat) : State :=
  let x := tget LQ.reset s.lq q
  if x.size == 0 || x.head == x.tail then s
  else
    let id := q * 2 ^ 28 + x.head
    let (h, s) := match x.judged with
      | some h => (h, s)
      | none =>
        let (r, s) := s.unitRead (x.base + 64 * (x.head % 2 ^ x.size)) 64
        s.judge q x.head r
    let s := s.modLq q fun y => { y with judged := some h }
    let r := h.recd
    let code := if h.code == 0 && !recEarly r && s.depRefused r then 7 else h.code
    if code != 0 then s.refuse q id code r
    else if recKind r != 0 then
      { (s.modLq q LQ.next).addLaunch ⟨id, r, [], false, true⟩ with
        preRecs := s.preRecs ++ [⟨id, recKind r, r, s.tick, []⟩] }
    else if recEarly r || (recDeps r).all s.triggered then s.takeKernel q id r
    else s

/-- In a tick the distributor examines the 16 queues in ascending order, unless Quiesce stops it (R310, Table host 1). -/
def execDistributorTake (s : State) : Out :=
  .next (if s.cw.quiesce then s else (List.range 16).foldl State.distribute s)

/-! ### Start states (R312) -/

/-- The company register of a launch's tasks (Table ctx 4). -/
def companyReg (l : Launch) : BitVec 32 :=
  BitVec.ofNat 32 (companyId l.id + recPrio l.recd * 2 ^ 16 + (if recRestart l.recd then 2 ^ 18 else 0) +
    if recSup l.recd then 2 ^ 19 else 0)

/-- What the launch attaches to a task. -/
def taskOf (l : Launch) (d c : Nat) : Task :=
  let n := (kindCounts 0 l.levels).length
  { launch := l.id, company := companyId l.id, dIdx := d, cIdx := c, deps := recDeps l.recd, early := recEarly l.recd,
    triggered := false, cue := recCue l.recd, counted := if n == 0 then none else some (n - 1),
    panels := BitVec.ofNat 32 (recField l.recd 28 4) }

/-- A list of four whose first entries are given. -/
def fill4 {α : Type} (z : α) (xs : List α) : List α := (xs ++ List.replicate 4 z).take 4

/-- Cluster `k` of a new task (Table launch 5). -/
def startCluster (l : Launch) (d c k : Nat) : Cluster :=
  let w := fun (n : Nat) => BitVec.ofNat 64 n
  let ts := l.levels.filter fun x => x.1 == 0
  let p := taskCount l.levels
  let spill := recField l.recd 48 8
  let r := Cluster.reset
  let r := (((r.setReg 1 (w (recField l.recd 16 8))).setReg 2 (w d)).setReg 3 (w c)).setReg 4 (w l.id)
  { r with
    pc := w (recField l.recd 0 8), st := .running, priv := recSup l.recd,
    spillp := if spill == 0 then 0 else w (spill + 4096 * (4 * (p * d + c) + k)) &&& 0x007FFFFFFFFFFFF8,
    srseed := w (l.id * 2 ^ 32 + d * 2 ^ 16 + c * 16 + k),
    lc := fill4 0 (ts.map fun x => BitVec.ofNat 32 x.2.1), lb := fill4 0 (ts.map fun x => x.2.2.1),
    le := fill4 0 (ts.map fun x => x.2.2.2) }

def quadOf {α : Type} (f : Nat → α) : Quad α := ⟨f 0, f 1, f 2, f 3⟩

/-- The bank of a new task. -/
def startBank (l : Launch) (e : TaskEnt) : Bank :=
  { Bank.reset with
    occ := true, cl := quadOf (startCluster l e.dIdx e.cIdx), taskid := BitVec.ofNat 32 e.taskid, company := companyReg l,
    total := min (prodOf (kindCounts 0 l.levels)) (2 ^ 32 - 1), task := some (taskOf l e.dIdx e.cIdx) }

/-- Cluster of a continuation: its carried values and floating-point state (Table launch 5). -/
def contCluster (r : Cont) (x : ContCl) (broken : Bool) : Cluster :=
  let c := x.vals.zipIdx.foldl (fun (c : Cluster) (v, n) => c.setReg (BitVec.ofNat 5 (n + 1)) v) Cluster.reset
  let c := if broken then c.setQ 7 true else c
  { c with pc := r.entry, st := .running, priv := r.priv, spillp := x.spillp, fctl := x.fctl, fstat := x.fstat,
           srseed := x.srseed }

/-- The bank of a continuation. -/
def contBank (r : Cont) (e : TaskEnt) : Bank :=
  { Bank.reset with
    occ := true, cl := r.cls.map fun x => contCluster r x e.broken, barBase := r.barBase, barDepth := r.barDepth,
    taskid := BitVec.ofNat 32 e.taskid, company := r.compReg, done := r.done, total := r.total,
    task := some { r.task with triggered := r.triggered } }

/-! ### Placement (R314) -/

/-- Entry `a` comes before `b`: higher priority, then lower ready tick, then lower order. -/
def TaskEnt.before (a b : TaskEnt) : Bool :=
  if a.prio != b.prio then decide (b.prio < a.prio)
  else if a.tick != b.tick then decide (a.tick < b.tick)
  else decide (a.order < b.order)

/-- The first entry of a core; continuations of saved companies, and a company that is being saved, are passed over. -/
def State.bestEntry (s : State) (t c : Nat) : Option TaskEnt :=
  ((s.tile t).ready.filter fun e =>
    e.core == c && !(e.kind == 1 && s.coSaved e.launch t) && !s.coStops t e.company).foldl
    (fun (m : Option TaskEnt) e =>
      match m with
      | none => some e
      | some b => if e.before b then some e else some b) none

/-- The other bank, in an entry of a company enqueued up to a cycle. -/
def Slot.swapBank (e : Slot) (id cyc : Nat) : Slot :=
  if e.companyId == id && e.w6.toNat ≤ cyc then { e with w0 := e.w0 ^^^ 0x4000000000000 } else e

/-- The entries of a ring change in their slots. -/
def Core.mapRing (x : Core) (g : Eng) (f : Slot → Slot) : Core :=
  let r := x.rings.get (engIdx g)
  { x with ls := (List.range r.count).foldl (fun m i =>
      mputs m (ringBase g + 64 * ((r.head + i) % 64)) (f (readSlot m g (r.head + i))).bytes) x.ls }

/-- A saved task comes back in the other bank than the one its entries name: on its core, those of its company change banks, and
so do the images still saved there (R48, R182, R329). -/
def State.swapBanks (s : State) (v : Saved) : State :=
  let id := companyId v.launch
  let f := fun (e : Slot) => e.swapBank id v.cyc
  let g := fun (e : PEnt) => if e.core == v.core && e.company == id && e.cyc ≤ v.cyc then { e with bank := 1 - e.bank } else e
  let s := s.modCore v.tile v.core fun x =>
    let x := [Eng.matrix, .proj, .courier, .port].foldl (fun x k => x.mapRing k f) x
    { x with mwin := { x.mwin with ents := x.mwin.ents.map fun m => { m with e := f m.e } },
             proj := { x.proj with e := f x.proj.e }, cour := { x.cour with e := f x.cour.e } }
  let s := s.modTile v.tile fun x =>
    { x with hq := x.hq.map fun h => (h.1, { h.2 with send := h.2.send.map g, recv := h.2.recv.map g }) }
  { s with
    saved := s.saved.map (fun (w : Saved) =>
      if w.launch == v.launch && w.tile == v.tile && w.core == v.core then { w with no := 1 - w.no } else w),
    savedCores := s.savedCores.map fun (w : SavedCore) =>
      if w.launch == v.launch && w.tile == v.tile && w.core == v.core then
        { w with rings := w.rings.map (·.map f), proj := w.proj.map fun p => { p with e := f p.e },
                 cour := w.cour.map fun r => { r with e := f r.e } }
      else w }

/-- A saved image comes back: its unanswered records find the streams again (R328, R329). -/
def State.imageBack (s : State) (t c b taskid : Nat) : State :=
  let f := fun (w : Waiter) =>
    match w with
    | .image u n k => if u == t && n == taskid then Waiter.stream ⟨t, c, b, k⟩ else w
    | w => w
  { s with
    saved := s.saved.filter fun (v : Saved) => !(v.tile == t && v.core == c && v.bank.taskid.toNat == taskid),
    records := s.records.map fun (r : FRec) => { r with waiter := f r.waiter },
    posted := s.posted.map fun (p : Posted) => { p with waiter := f p.waiter } }

/-- A new task's bank: its launch's record and its company's loop table. -/
def State.newBank (s : State) (t : Nat) (e : TaskEnt) : Option (Bank × State) :=
  (s.launches.reverse.find? fun (l : Launch) => l.id == e.launch).map fun l =>
    let levels := ((s.companyOf e.launch t).map (·.levels)).getD l.levels
    ({ startBank { l with levels } e with since := s.cycles t }, s)

/-- A continuation's bank, and the state without its record. -/
def State.resumeBank (s : State) (t : Nat) (e : TaskEnt) : Option (Bank × State) :=
  (s.conts.find? fun x => x.1 == e.cont).map fun x =>
    ({ contBank x.2 e with since := s.cycles t }, { s with conts := tdel s.conts e.cont })

/-- The continuation record of an entry that was saved before it was placed. -/
def State.entryCont (s : State) (t : Nat) (e : TaskEnt) : Bool :=
  s.conts.any fun x => x.1 == e.cont && x.2.tile == t && x.2.task.launch == e.launch && x.2.task.cIdx == e.cIdx

/-- A saved task's bank, and the state that has given its image up. -/
def State.imageBank (s : State) (b : Nat) (v : Saved) : Bank × State :=
  ({ v.bank with occ := true, since := 0 },
    (if v.no == b then s else s.swapBanks v).imageBack v.tile v.core b v.bank.taskid.toNat)

/-- The bank that an entry's task starts with, and the state that has given it up. A restored entry resumes an image, or starts
what it stood for before (R329). -/
def State.entryBank (s : State) (t c b : Nat) (e : TaskEnt) : Option (Bank × State) :=
  match e.kind with
  | 0 => s.newBank t e
  | 1 => s.resumeBank t e
  | _ =>
    match s.saved.find? fun (v : Saved) => v.tile == t && v.core == c && v.bank.taskid.toNat == e.taskid with
    | some v => some (s.imageBank b v)
    | none => if s.entryCont t e then s.resumeBank t e else s.newBank t e

/-- Place an entry in a free bank; it starts once its state is loaded, after a time that is not architected. -/
def State.placeEntry (s : State) (t c b : Nat) (e : TaskEnt) : State :=
  let s := s.modTile t fun x => { x with ready := x.ready.erase e }
  match s.entryBank t c b e with
  | none => s
  | some (k, s) =>
    let (due, s) := s.later
    s.modCore t c fun x => x.modBank b fun _ =>
      { k with started := false, cl := k.cl.map fun q => { q with resumeAt := due } }

/-- The bank that takes the next placement; none while an exchange comes first. -/
def Core.freeBank (x : Core) : Option Nat :=
  let f := x.fg % 2
  if !(x.bank f).occ then (if (x.bank (1 - f)).able then none else some f)
  else if !(x.bank (1 - f)).occ then some (1 - f)
  else none

def execTaskPlacement (t c : Nat) (s : State) : Out :=
  if !(u16 t && u16 c) then .fault .noSuchUnit
  else
    match (s.core t c).freeBank, s.bestEntry t c with
    | some b, some e => .next (s.placeEntry t c b e)
    | _, _ => .next s

/-- The placed task's state is fully loaded: it may issue (R314). -/
def execTaskStart (t c b : Nat) (s : State) : Out :=
  if !(u16 t && u16 c && decide (b < 2)) then .fault .noSuchUnit
  else
    let k := (s.core t c).bank b
    if k.occ && !k.started && k.cl.c0.resumeAt ≤ s.quantum then
      .next (s.modCore t c fun x => x.modBank b fun k =>
        { k with started := true, cl := k.cl.map fun q => { q with resumeAt := 0 } })
    else .next s

/-- Each 2^16 ticks of standing ready raise an entry by one priority, to at most 3 (R30). -/
def execTaskAging (s : State) : Out :=
  .next <| s.allTiles fun x => { x with ready := x.ready.map fun e =>
    if e.tick < s.tick && (s.tick - e.tick) % 65536 == 0 then { e with prio := min 3 (e.prio + 1) } else e }

/-! ### The continuation store (R315, R316) -/

def State.keyEnt (s : State) (k : Word) : KeyEnt := (s.keys.find? fun (e : KeyEnt) => e.key == k).getD ⟨k, 0, []⟩

/-- Replace a key's entry; one without posts and waiters is freed. -/
def State.putKey (s : State) (e : KeyEnt) : State :=
  let rest := s.keys.filter fun (x : KeyEnt) => x.key != e.key
  { s with keys := if e.pending == 0 && e.waiters.isEmpty then rest else rest ++ [e] }

/-- A registration takes a pending post and is released at once, or joins the waiters of its key. -/
def State.register (s : State) (n : Nat) : State :=
  let k := ((tget Cont.reset s.conts n).key).getD 0
  let e := s.keyEnt k
  if e.pending != 0 then (s.putKey { e with pending := e.pending - 1 }).releaseCont n 0 false
  else s.putKey { e with waiters := e.waiters ++ [n] }

/-- The first of a list by a key of numbers; the earlier among equals. -/
def firstBy {α : Type} (f : α → List Nat) (xs : List α) : Option α :=
  let lt := fun (a b : List Nat) => match (a.zip b).find? fun p => p.1 != p.2 with
    | some (x, y) => decide (x < y)
    | none => false
  xs.foldl (fun (m : Option α) x =>
    match m with
    | none => some x
    | some y => if lt (f x) (f y) then some x else some y) none

/-- A list in the order of a key of numbers; `n` bounds its length. -/
def sortAux {α : Type} [DecidableEq α] (f : α → List Nat) : Nat → List α → List α
  | 0, _ => []
  | n + 1, xs =>
    match firstBy f xs with
    | none => []
    | some x => x :: sortAux f n (xs.erase x)

def sortBy {α : Type} [DecidableEq α] (f : α → List Nat) (xs : List α) : List α := sortAux f xs.length xs

/-- The accesses before a message have been performed. -/
def State.allPerformed (s : State) (ids : List Nat) : Bool :=
  s.reqs.all fun (q : Req) => !ids.contains q.id || q.performed || (q.comb && q.drop)

/-- The registration that the store applies next: those of a tick come before its posts. -/
def State.nextReg (s : State) : Option RegMsg :=
  firstBy (fun (r : RegMsg) => [r.tick, r.tile, r.core])
    (s.regsPending.filter fun (r : RegMsg) => decide (r.tick ≤ s.tick) && s.allPerformed r.after)

/-- A key can take one more post: a waiter, or room for it. -/
def State.takesPost (s : State) (k : Word) : Bool :=
  let e := s.keyEnt k
  !e.waiters.isEmpty || (decide (e.pending < 65535) &&
    ((s.keys.any fun (x : KeyEnt) => x.key == k) || decide (s.keys.length < 4096)))

def State.nextPost (s : State) : Option PostMsg :=
  firstBy (fun (p : PostMsg) => [p.tile, p.core, p.cl])
    (s.posts.filter fun (p : PostMsg) => decide (p.tick ≤ s.tick) && s.allPerformed p.after && s.takesPost p.key)

def execContinuationRegistration (s : State) : Out :=
  match s.nextReg with
  | none => .next s
  | some r => .next ({ s with regsPending := s.regsPending.erase r }.register r.num)

/-- A post releases the oldest waiter under its key, or is counted. -/
def execPostApply (s : State) : Out :=
  match s.nextReg, s.nextPost with
  | none, some p =>
    let s := { s with posts := s.posts.erase p }
    let e := s.keyEnt p.key
    match e.waiters with
    | n :: ws => .next ((s.putKey { e with waiters := ws }).releaseCont n 0 false)
    | [] => .next (s.putKey { e with pending := e.pending + 1 })
  | _, _ => .next s

/-- Triggers, and ends of lineages, whose earlier accesses have been performed take effect (R286, R319). -/
def State.flushTrigs (s : State) : State :=
  let due := s.trigs.filter fun (m : TrigMsg) => s.allPerformed m.after
  due.foldl (fun s (m : TrigMsg) =>
    if m.ends then s.endLineage m.launch m.tile m.cIdx
    else s.modLineage m.launch m.tile m.cIdx fun l => { l with triggered := true })
    { s with trigs := s.trigs.filter fun (m : TrigMsg) => !s.allPerformed m.after }

end Sys2Proof.Machine
end

