-- ==== Sys2Proof/Machine/Stage.lean ====
section
/-!
DEFINITION. The stage manager (R365-R381, R384): cue sheets and their load checks, scenes, circuits, handles and relays; port
lanes and lasers (R15, R378, R381); and the power arbiter (R363, R364).
-/

namespace Sys2Proof.Machine

/-! ### Cue entries (R375) -/

/-- A field of a word: `w` bits at `p`. -/
def wf (x : Word) (p w : Nat) : Nat := x.toNat / 2 ^ p % 2 ^ w

/-- A scene with its entries. -/
structure Scene where
  n : Nat
  blackout : Nat
  start : Nat
  len : Nat
  variant : Bool
  ents : List (Word × Word)
  deriving DecidableEq, Repr

/-- The scene a scene entry opens. -/
def sceneOf (e : Word × Word) : Scene :=
  ⟨wf e.1 8 16, wf e.1 24 8, wf e.1 32 32, wf e.2 0 32, e.2.getLsbD 32, []⟩

/-- The scenes of a sheet in sheet order. -/
def scenesOf (es : List (Word × Word)) : List Scene :=
  (es.foldl (fun (acc : List Scene) e =>
    match wf e.1 0 4 with
    | 0 => sceneOf e :: acc
    | 8 | 15 => acc
    | _ =>
      match acc with
      | [] => []
      | x :: xs => { x with ents := x.ents ++ [e] } :: xs) []).reverse

/-- Entries of a scene with one action code. -/
def Scene.acts (x : Scene) (k : Nat) : List (Word × Word) := x.ents.filter fun e => wf e.1 0 4 == k

/-- A make: handle, endpoints, settle bound. -/
def makeOf (e : Word × Word) : Nat × BitVec 16 × BitVec 16 × Nat :=
  (wf e.1 8 6, e.1.extractLsb' 16 16, e.1.extractLsb' 32 16, wf e.1 48 8)

/-! ### Load checks (R376) -/

/-- The zero fields of an entry, and that its action is not reserved (R375, R409). -/
def entryOk (e : Word × Word) : Bool :=
  let z := fun (p w : Nat) => wf e.1 p w == 0
  let w1 := e.2 == 0
  z 4 4 &&
    match wf e.1 0 4 with
    | 15 => z 8 24 && wf e.2 32 32 == 0
    | 0 => wf e.2 33 31 == 0
    | 1 => z 14 2 && z 56 8 && w1
    | 2 => z 14 50 && w1
    | 3 => z 15 1 && z 19 45 && w1
    | 4 => z 12 4 && z 24 40 && w1
    | 5 => z 8 24 && wf e.1 32 32 != 0 && wf e.2 4 12 == 0 && wf e.2 55 9 == 0
    | 6 => z 24 40 && w1
    | 7 => z 24 8 && z 48 16 && w1
    | 8 => z 8 56 && w1
    | _ => false

/-- An endpoint of Table cue 1. -/
def endOk (e : BitVec 16) : Bool :=
  let k := (e.extractLsb' 0 3).toNat
  e.extractLsb' 8 7 == 0 && !e.getLsbD 3 &&
    if e.getLsbD 15 then decide ((e.extractLsb' 4 4).toNat ≤ 5) && k != 0 else decide (k ≤ 5)

/-- The rotation scenes, the part of a sheet before its rotate entry, and those after it. -/
def beforeRotate (es : List (Word × Word)) : List (Word × Word) := es.takeWhile fun e => wf e.1 0 4 != 8
def afterRotate (es : List (Word × Word)) : List (Word × Word) := (es.dropWhile fun e => wf e.1 0 4 != 8).drop 1

/-- Rotation length of a sheet. -/
def rotLen (es : List (Word × Word)) : Nat := (es.head?.map fun e => wf e.2 0 32).getD 0

def isEdge (e : BitVec 16) : Bool := e.getLsbD 15

/-- Code 2: scene order, overlap, blackouts and lengths. -/
def orderBad : List Scene → Bool
  | [] => false
  | x :: xs =>
    (match xs with
     | [] => false
     | y :: _ => decide (y.n ≤ x.n) || decide (y.start < x.start + x.len)) ||
      decide (x.blackout < 6) || decide (x.len ≤ x.blackout) ||
      (x.acts 1).any (fun e => decide (x.blackout < (makeOf e).2.2.2)) || orderBad xs

/-- Code 4: makes and lost endpoints. -/
def makeBad (x : Scene) : Bool :=
  ((x.acts 1).any fun e =>
    let (_, a, b, k) := makeOf e
    !endOk a || !endOk b || k != (if isEdge a || isEdge b then 20 else 6) ||
      (!isEdge a && !isEdge b && a.extractLsb' 4 4 == b.extractLsb' 4 4)) ||
  (x.acts 7).any fun e => let l := e.1.extractLsb' 32 16; !endOk l || isEdge l

/-- Tile ports that a scene's makes use. -/
def madePorts (x : Scene) : List (Nat × Nat) :=
  (x.acts 1).flatMap fun e => let (_, a, b, _) := makeOf e; [a, b].filterMap endTile

/-- Code 5: relays, given the ports made by earlier scenes. -/
def relayBad (made : List (Nat × Nat)) : List Scene → Bool
  | [] => false
  | x :: xs =>
    let made := made ++ madePorts x
    ((x.acts 3).any fun e =>
      let t := wf e.1 8 4
      let i := wf e.1 12 3
      let j := wf e.1 16 3
      i == j || !made.contains (t, i) || !made.contains (t, j)) || relayBad made xs

/-- Code 6: jumps and variant lines. -/
def targetBad (all : List Scene) (x : Scene) : Bool :=
  ((x.acts 6).any fun e => !(all.any fun y => y.n == wf e.1 8 16 && !y.variant)) ||
  (x.acts 7).any fun e => !(all.any fun y => y.n == wf e.1 8 16 && y.variant && y.len == x.len)

/-- The chain of variants from a scene is at most `k` deep. -/
def chainOk (all : List Scene) : Nat → Scene → Bool
  | 0, x => (x.acts 7).isEmpty
  | k + 1, x => (x.acts 7).all fun e =>
      match all.find? fun y => y.n == wf e.1 8 16 with
      | some y => chainOk all k y
      | none => true

/-- The first load check that an image of `n` entries fails, 0 for none; `free` entries are free. -/
def sheetCheck (es : List (Word × Word)) (n free : Nat) : Nat :=
  let hd := es.head?.getD (0, 0)
  let rest := es.drop 1
  let all := scenesOf es
  let rot := scenesOf (beforeRotate es)
  let late := scenesOf (afterRotate es)
  let codes := rest.map fun e => wf e.1 0 4
  if n == 0 || free < n || !es.all entryOk || wf hd.1 0 4 != 15 || wf hd.1 32 32 != n || codes.contains 15 ||
      codes.headD 0 != 0 || 1 < (codes.filter (· == 8)).length then 1
  else if orderBad all then 2
  else if !codes.contains 8 || (match rot.getLast? with
      | some x => rotLen es != x.start + x.len
      | none => true) || (late.any fun x => decide (x.start < rotLen es) || !x.variant) || rot.any (·.variant) then 3
  else if all.any makeBad then 4
  else if relayBad [] all then 5
  else if all.any (targetBad all) then 6
  else if !(all.all (chainOk all 8)) then 7
  else 0

/-! ### Loading and play control (R370, R371, R417) -/

def State.sheet (s : State) (id : Nat) : Option Sheet := s.sheets.find? fun (x : Sheet) => x.id == id

/-- The sheet in play. -/
def State.inPlay (s : State) : Option Sheet := s.sm.playing.bind s.sheet

/-- Ticks passed since an earlier tick of the 64-bit count. -/
def State.since (s : State) (k : Nat) : Nat := (s.tick + 2 ^ 64 - k) % 2 ^ 64

/-- Clock: tick count − rotation start (Table cue 4). -/
def State.cueClock (s : State) : BitVec 32 := BitVec.ofNat 32 (s.since s.sm.rotStart)

def State.cueCode (s : State) (n : Nat) : State := { s with cw := { s.cw with cueStatus := n } }

/-- A Cue load write reads and checks the image at once (R370, R376). -/
def execCueLoad (v : Word) (s : State) : Out :=
  let id := wf v 40 16
  let n := s.cw.cueLen
  let (bs, s) := s.unitRead (wf v 0 40) (16 * n)
  let es : List (Word × Word) := (chunks n 16 bs).map fun c =>
    (BitVec.ofNat 64 (leNat (c.take 8)), BitVec.ofNat 64 (leNat (c.drop 8)))
  let others := s.sheets.filter fun (x : Sheet) => x.id != id
  let used := others.foldl (fun k (x : Sheet) => k + x.ents.length) 0
  let inUse := s.sm.playing == some id || s.sm.next == some id || (s.sm.pend.map (·.1)) == some id
  let code := sheetCheck es n (4096 - used)
  let code := if code != 0 then code
    else if inUse then 9
    else if 8 ≤ others.length then 10
    else 0
  .next <| if !s.up then s
    else if code != 0 then s.cueCode code else { s.cueCode 0 with sheets := others ++ [⟨id, es⟩] }

/-- Cue control 1: start a sheet at a tick (R371). -/
def execCueStart (v : Word) (s : State) : Out :=
  let id := wf v 2 16
  let at' := wf v 18 46
  if !s.up then .next s
  else if at' < s.tick + 100 || (s.sheet id).isNone || s.sm.playing.isSome || s.sm.pend.isSome then .next (s.cueCode 8)
  else .next { s.cueCode 0 with sm := { s.sm with pend := some (id, at') } }

/-- Cue control 2: a sheet that takes over at the next rotation end. -/
def execCueChange (v : Word) (s : State) : Out :=
  let id := wf v 2 16
  if !s.up then .next s
  else if (s.sheet id).isNone || s.sm.playing.isNone || s.sm.pend.isSome then .next (s.cueCode 8)
  else .next { s.cueCode 0 with sm := { s.sm with next := some id } }

/-- Cue control 3: cancel a pending start, or stop at the next rotation end. -/
def execCueStop (_v : Word) (s : State) : Out :=
  if !s.up then .next s
  else
    let s := s.cueCode 0
    if s.sm.pend.isSome then .next { s with sm := { s.sm with pend := none } }
    else if s.sm.playing.isSome then .next { s with sm := { s.sm with stopping := true } }
    else .next s

/-! ### Circuits (R365-R367, R372, R377) -/

/-- The tile ends of a circuit: tile, port and the far endpoint. -/
def Circuit.ends (c : Circuit) : List (Nat × Nat × BitVec 16) :=
  (match endTile c.a with
   | some (t, p) => [(t, p, c.b)]
   | none => []) ++
  match endTile c.b with
  | some (t, p) => [(t, p, c.a)]
  | none => []

def State.setHandle (s : State) (t h : Nat) (x : Handle) : State :=
  s.modTile t fun y => { y with handles := if x == Handle.reset then tdel y.handles h else tset y.handles h x }

/-- Relays into or out of a port are no longer in force (Table cue 9). -/
def State.dropRelays (s : State) (t p : Nat) : State :=
  s.modTile t fun y => { y with relays := y.relays.filter fun e => e.1 != p && e.2 != p }

/-- A circuit breaks: its handles are DARK (Table cue 3). -/
def State.breakCircuit (s : State) (c : Circuit) : State :=
  let s := c.ends.foldl (fun s (t, p, _) => (s.setHandle t c.h Handle.reset).dropRelays t p) s
  { s with circuits := s.circuits.filter fun x => !(x.h == c.h && x.a == c.a && x.b == c.b) }

/-- Every circuit and relay breaks. -/
def State.breakAll (s : State) : State :=
  let s := s.circuits.foldl State.breakCircuit s
  s.allTiles fun y => { y with relays := [] }

/-- The tile ports that the stream of a handle passes, relays included. -/
def State.pathPorts (s : State) : Nat → Nat → Nat → List (Nat × Nat)
  | 0, _, _ => []
  | k + 1, t, p =>
    (t, p) ::
      match s.circAt t p with
      | none => []
      | some c =>
        match endTile (if endTile c.a == some (t, p) then c.b else c.a) with
        | none => []
        | some (t', p') =>
          (t', p') ::
            match (s.tile t').relays.find? fun e => e.1 == p' with
            | some (_, j) => s.pathPorts k t' j
            | none => []

/-- Blocks of a lost circuit that the far end has not acknowledged are sent again (R334). -/
def State.loseBlocks (s : State) (c : Circuit) : State :=
  let lost := fun (b : Block) =>
    match b.src with
    | some (t, h, _) =>
      let path := s.pathPorts 97 t (s.handle t h).port
      c.ends.any fun e => path.contains (e.1, e.2.1)
    | none => false
  { s with blocks := s.blocks.map fun (b : Block) => if lost b then { b with again := true } else b }

/-- CIRCLOST of a tile end (Table cue 10). -/
def State.circLost (s : State) (t h p reason : Nat) : State :=
  s.raise false (mkRec cCIRCLOST t 0 kindF 5 (BitVec.ofNat 32 (reason + 256 * p)) (BitVec.ofNat 64 h))

/-- A circuit fails: FAILED and CIRCLOST at every tile end (R15, R367, R374). -/
def State.failCircuit (s : State) (c : Circuit) (reason : Nat) : State :=
  let s := s.loseBlocks c
  let s := c.ends.foldl (fun s (t, p, far) =>
    ((s.setHandle t c.h ⟨3, p, c.cross, far, 0, 0⟩).dropRelays t p).circLost t c.h p reason) s
  { s with circuits := s.circuits.map fun (x : Circuit) =>
      if x.h == c.h && x.a == c.a && x.b == c.b then { x with failed := true, fresh := false } else x }

def State.portMode (s : State) (t p : Nat) : Nat := (tget Port.reset (s.tile t).ports p).mode

/-- A make action at a scene start (Table cue 3); Next live is set once the scene's actions are made. -/
def State.makeCircuit (s : State) (e : Word × Word) : State :=
  let (h, a, b, k) := makeOf e
  let c : Circuit := ⟨h, a, b, isEdge a || isEdge b, true, false, k⟩
  let tiles := c.ends.map (·.1)
  let out := s.circuits.filter fun (x : Circuit) =>
    [x.a, x.b].any (fun y => y == a || y == b) || (x.h == h && x.ends.any fun y => tiles.contains y.1)
  let s := out.foldl State.breakCircuit s
  let s := { s with circuits := s.circuits ++ [c] }
  let s := c.ends.foldl (fun s (t, p, far) => s.setHandle t h ⟨1, p, c.cross, far, 0, 0⟩) s
  if c.ends.any fun y => s.portMode y.1 y.2.1 == 3 then s.failCircuit c 0 else s

/-- Change the handles of the circuits' tile ends. -/
def State.modEnds (s : State) (f : Circuit → Handle → Handle) : State :=
  s.circuits.foldl (fun s c => c.ends.foldl (fun s y => s.setHandle y.1 c.h (f c (s.handle y.1 c.h))) s) s

/-! ### Lasers (R381) -/

/-- Ticks until a tile's circuit with this settle bound has light again: the chiplet's replacement is locked, and the settle
bound has passed since. -/
def State.lightIn (s : State) (t settle : Nat) : Nat :=
  let wait := match s.lasers.switching with
    | some (n, k) => if t / 4 == n then (k + 2 ^ 64 - s.tick) % 2 ^ 64 + settle else 0
    | none => 0
  match s.lasers.lockTick with
  | some (n, k) => if t / 4 == n then max wait (settle - s.since k) else wait
  | none => wait

/-- The circuit carries no light for want of a laser: for how many ticks yet. -/
def State.darkFor (s : State) (c : Circuit) : Nat := c.ends.foldl (fun n y => max n (s.lightIn y.1 c.settle)) 0

/-- The spare is not locked yet for one of the circuit's chiplets, or its settle bound has not passed. -/
def State.laserDark (s : State) (c : Circuit) : Bool :=
  c.ends.any (fun y =>
    match s.lasers.switching with
    | some (n, _) => y.1 / 4 == n
    | none => false) || s.darkFor c != 0

/-! ### The scenes ahead (R372) -/

/-- A scene keeps a circuit made. -/
def Scene.keeps (x : Scene) (c : Circuit) : Bool :=
  let tiles := c.ends.map (·.1)
  !((x.acts 2).any fun e => wf e.1 8 6 == c.h) &&
    !((x.acts 1).any fun e =>
      let (h, a, b, _) := makeOf e
      [c.a, c.b].any (fun y => y == a || y == b) ||
        (h == c.h && [a, b].any fun y => ((endTile y).map fun z => tiles.contains z.1).getD false))

/-- The scene in play. -/
def State.playedScene (s : State) : Option Scene :=
  match s.inPlay, s.sm.sceneIdx with
  | some sh, some _ => (scenesOf sh.ents).find? fun x => x.n == s.sm.scene
  | _, _ => none

/-- The rotation scenes that start at this tick or later in the present rotation, in the order of their starts. -/
def State.scenesAhead (s : State) : List Scene :=
  match s.inPlay with
  | none => []
  | some sh => (scenesOf sh.ents).filter fun x => !x.variant && decide (s.since s.sm.rotStart ≤ x.start)

/-- The first tick, `dark` ticks from now or later, at which a circuit is LIVE in the scenes ahead, as their own entries have
it; 0 when it does not persist. -/
def State.nextLiveAhead (s : State) (c : Circuit) (dark : Nat) : List Scene → Nat
  | [] => 0
  | z :: zs =>
    let start := z.start - s.since s.sm.rotStart
    let live := max (start + z.blackout) dark
    if !z.keeps c then 0
    else if live < start + z.len then (s.tick + live) % 2 ^ 64
    else if (z.acts 6).isEmpty then s.nextLiveAhead c dark zs
    else 0

/-- Next live of a MAKING handle: the scene in play's live span if its light comes in it, else a later scene's (Table cue 2). -/
def State.nextLiveOf (s : State) (c : Circuit) : Nat :=
  let dark := s.darkFor c
  match s.playedScene with
  | none => s.nextLiveAhead c dark s.scenesAhead
  | some y =>
    let later := s.scenesAhead.filter fun z => decide (s.since s.sm.rotStart < z.start)
    let gone := s.since s.sm.sceneAt
    let live := max (s.sm.blackout - gone) dark
    if live + gone < s.sm.sceneLen then (s.tick + live) % 2 ^ 64
    else if (y.acts 6).isEmpty then s.nextLiveAhead c dark later
    else 0

/-- Next live of every MAKING handle. -/
def State.planLive (s : State) : State :=
  s.modEnds fun c x => if x.st == 1 then { x with nextLive := s.nextLiveOf c } else x

/-! ### Selection (R380, R384) -/

/-- Selections made by CUESEL reach the stage manager in the tick after their issue (R384). -/
def State.flushForce (s : State) : State :=
  let due := s.sm.forcing.filter fun f => decide (f.2 ≤ s.tick)
  let forced := due.foldl (fun (l : List (Nat × Nat × Nat)) (v, k) =>
    let p := wf v 0 16
    let l' := l.filter fun f => f.1 != p
    if v.getLsbD 32 then l'
    else
      let l' := l' ++ [(p, wf v 16 16, k)]
      if 8 < l'.length then l'.drop 1 else l') s.sm.forced
  { s with sm := { s.sm with forced, forcing := s.sm.forcing.filter fun f => !decide (f.2 ≤ s.tick) } }

/-- Follow variant lines whose port was lost by tick `by'`, at most `k` times. -/
def State.variantOf (s : State) (all : List Scene) (by' : Nat) : Nat → Scene → Scene
  | 0, x => x
  | k + 1, x =>
    let line := (x.acts 7).find? fun e =>
      match endTile (e.1.extractLsb' 32 16) with
      | some (t, i) => s.sm.lost.any fun l => l.1 == 6 * t + i && decide (l.2 ≤ by')
      | none => false
    match line.bind fun e => all.find? fun y => y.n == wf e.1 8 16 with
    | some y => s.variantOf all by' k y
    | none => x

/-- The scene played for a rotation scene that starts now. -/
def State.selectScene (s : State) (all : List Scene) (x : Scene) : Scene :=
  match s.sm.forced.find? fun f => f.1 == x.n && decide (f.2.2 + 4 ≤ s.tick) with
  | some (_, v, _) => (all.find? fun y => y.n == v).getD x
  | none => s.variantOf all (s.tick - 4) 8 x

/-! ### The stage manager's ticks (R371-R374) -/

/-- A pending start takes place at its tick. -/
def State.startSheet (s : State) : State :=
  match s.sm.pend with
  | some (id, k) =>
    if k == s.tick then
      { s with sm := { s.sm with playing := some id, pend := none, rotStart := k, stopping := false, scene := 0xFFFF,
                                 sceneIdx := none } }
    else s
  | none => s

/-- Breaks, makes and relays of a scene (R372). -/
def State.applyScene (s : State) (y : Scene) : State :=
  let s := (y.acts 2).foldl (fun s e => (s.circuits.filter fun (c : Circuit) => c.h == wf e.1 8 6).foldl State.breakCircuit s) s
  let s := ((y.acts 1).foldl State.makeCircuit s).planLive
  (y.acts 3).foldl (fun s e =>
    s.modTile (wf e.1 8 4) fun x => { x with relays := tset x.relays (wf e.1 12 3) (wf e.1 16 3) }) s

/-- A scene starts at its tick: the selection, then breaks, makes and relays (R372, R380). -/
def execSceneStart (s : State) : Out :=
  let s := s.flushForce.startSheet
  match s.inPlay with
  | none => .next s
  | some sh =>
    let all := scenesOf sh.ents
    match s.sm.sceneIdx, all.findIdx? fun x => !x.variant && x.start == s.since s.sm.rotStart with
    | none, some n =>
      match all.drop n with
      | [] => .next s
      | x :: _ =>
        let y := s.selectScene all x
        let sm := { s.sm with scene := y.n, sceneIdx := some n, sceneAt := s.tick, sceneLen := y.len, blackout := y.blackout }
        .next ({ s with sm }.applyScene y)
    | _, _ => .next s

/-- Every made handle that has light goes LIVE, until the scene's dark point. -/
def State.goLive (s : State) : State :=
  let dark := (s.sm.sceneAt + s.sm.sceneLen) % 2 ^ 64
  s.modEnds fun c x => if x.st == 1 && !s.laserDark c then { x with st := 2, nextLive := 0, dark } else x

/-- Lock checks, fires and migrations of the live tick, then the handles; in a live span, handles whose light is back
(R372, R374, R381, R409). -/
def execLiveTick (s : State) : Out :=
  match s.playedScene with
  | none => .next s
  | some y =>
    let gone := s.since s.sm.sceneAt
    if gone < s.sm.blackout || s.sm.sceneLen ≤ gone then .next s
    else if gone != s.sm.blackout then .next s.goLive
    else
      let new := s.circuits.filter fun (c : Circuit) => c.fresh && !c.failed
      let s := new.foldl (fun s c => if c.ends.any fun e => s.noLocks.contains (e.1, e.2.1) then s.failCircuit c 1 else s) s
      let s := { s with noLocks := [], circuits := s.circuits.map fun (c : Circuit) => { c with fresh := false } }
      let s := y.ents.foldl (fun s e =>
        match wf e.1 0 4 with
        | 4 => s.fireBucket (wf e.1 8 4) (wf e.1 16 8)
        | 5 =>
          let t := wf e.2 0 4
          s.modCour t 0 fun r =>
            { r with acts := r.acts ++ [(e.2 &&& ~~~(0xFFFF : Word), BitVec.ofNat 64 (16 * t), BitVec.ofNat 64 (wf e.1 32 32), s.tick)] }
        | _ => s) s
      .next s.goLive

/-- The scene's dark point: made handles go MAKING, or a jump breaks them and continues at its scene (R372, R373). -/
def execDarkPoint (s : State) : Out :=
  match s.playedScene with
  | none => .next s
  | some y =>
    if s.since s.sm.sceneAt != s.sm.sceneLen then .next s
    else
      let out := fun (s : State) => { s with sm := { s.sm with scene := 0xFFFF, sceneIdx := none } }
      match (y.acts 6).head? with
      | some e =>
        let s := s.breakAll
        let goal := ((s.inPlay.map fun sh => scenesOf sh.ents).getD []).find? fun x => x.n == wf e.1 8 16
        let t := (goal.map (·.start)).getD 0
        .next (out { s with sm := { s.sm with rotStart := (s.tick + 2 ^ 64 - t) % 2 ^ 64 } })
      | none =>
        .next (out (s.modEnds fun _ x => if x.st == 2 then { x with st := 1, dark := 0 } else x)).planLive

/-- The rotation ends: everything breaks, a stop or the Next sheet takes effect, the next rotation starts (R373). -/
def execRotationEnd (s : State) : Out :=
  match s.inPlay with
  | none => .next s
  | some sh =>
    if s.since s.sm.rotStart != rotLen sh.ents then .next s
    else
      let s := s.breakAll
      let m := { s.sm with scene := 0xFFFF, sceneIdx := none }
      if m.stopping then .next { s with sm := { m with playing := none, stopping := false } }
      else
        match m.next with
        | some id => .next { s with sm := { m with playing := some id, next := none, rotStart := s.tick } }
        | none => .next { s with sm := { m with rotStart := s.tick } }

/-! ### Ports and lasers fail (R15, R378, R381) -/

/-- The circuit of a handle fails at its end in another module (R15, R366, R374). -/
def State.farFailure (s : State) (t h reason : Nat) : State :=
  match s.circuits.find? fun c => c.h == h && c.cross && c.ends.any fun e => e.1 == t with
  | some c => if c.failed then s else s.failCircuit c reason
  | none => s

/-- A port enters Failed mode: its circuit fails at every tile end. -/
def State.failPort (s : State) (t p reason : Nat) : State :=
  let s := s.modTile t fun x => { x with ports := tmod Port.reset x.ports p fun y => { y with mode := 3 } }
  match s.circAt t p with
  | some c => if c.failed then s else s.failCircuit c reason
  | none => s

/-- A lane of a port fails; the record is raised whatever the port's mode (R15, R378). -/
def execLaneFailure (t p lane : Nat) (s : State) : Out :=
  if !(u16 t && decide (p < 8) && decide (lane < 18)) then .fault .noSuchUnit
  else
    let x := tget Port.reset (s.tile t).ports p
    if x.lanes.contains lane then .next s
    else
      let n := x.lanes.length + 1
      let mode := if x.mode == 3 || 8 < n then 3 else if 1 < n then 2 else 1
      let fails := mode == 3 && x.mode != 3
      let s := s.modTile t fun y =>
        { y with ports := tset y.ports p { x with lanes := x.lanes ++ [lane], mode, erasures := x.erasures + 1 } }
      let aux := lane + (if mode == 2 && x.mode != 2 then 256 else 0) + if fails then 512 else 0
      let s := s.raise false (mkRec cLANEERASE t 0 kindV 5 (BitVec.ofNat 32 aux) (BitVec.ofNat 64 (8 * t + p)))
      .next (if fails then s.failPort t p 0 else s)

/-- A ring heater of a port reaches its rail: the port enters Failed mode (R15, Table cue 10). -/
def execRingtune (t p lane : Nat) (s : State) : Out :=
  if !(u16 t && decide (p < 8) && decide (lane < 18)) then .fault .noSuchUnit
  else
    let s' := s.raise false (mkRec cRINGTUNE t 0 kindF 5 (BitVec.ofNat 32 lane) (BitVec.ofNat 64 (8 * t + p)))
    .next (if s.portMode t p == 3 then s' else s'.failPort t p 0)

/-- LASER of chiplet `n`, raised at tile `t`. -/
def State.laserRec (s : State) (t n aux : Nat) : State :=
  s.raise false (mkRec cLASER t 0 kindF 6 (BitVec.ofNat 32 aux) (BitVec.ofNat 64 n))

/-- The ports of a chiplet's tiles fail for want of a spare. -/
def State.failTiles (s : State) (c : Nat) : State :=
  (List.range 32).foldl (fun s i =>
    let t := 4 * c + i / 8
    if s.portMode t (i % 8) == 3 then s else s.failPort t (i % 8) 2) s

/-- A laser chiplet fails (R381). -/
def execLaser (n : Nat) (s : State) : Out :=
  if !(decide (n < 5)) then .fault .noSuchUnit
  else
    let l := s.lasers
    if l.failed.contains n then .next s
    else
      let s := { s with lasers := { l with failed := l.failed ++ [n] } }
      if n == 4 then
        match l.spareFor with
        | some c => .next ({ (s.laserRec (4 * c) n 2) with lasers := { s.lasers with switching := none } }.failTiles c)
        | none => .next (s.laserRec 0 n 2)
      else if l.spareFor.isNone && !l.failed.contains 4 then
        let (f, s) := s.freshVal
        let s := { s with lasers := { s.lasers with spareFor := some n,
                                                    switching := some (n, s.tick + min 1000 (Config.switchover f)) } }
        let s := (s.circuits.filter fun (c : Circuit) => !c.failed && s.laserDark c).foldl State.loseBlocks s
        let s := s.modEnds fun c x => if x.st == 2 && s.laserDark c then { x with st := 1, dark := 0 } else x
        .next (s.planLive.laserRec (4 * n) n 1)
      else .next ((s.laserRec (4 * n) n 2).failTiles n)

/-- The spare chiplet is locked (R381). -/
def execLaserSwitchover (s : State) : Out :=
  match s.lasers.switching with
  | some (c, k) =>
    if k ≤ s.tick then .next { s with lasers := { s.lasers with switching := none, lockTick := some (c, s.tick) } }
    else .next s
  | none => .next s

/-- Records reach the stage manager: lost ports are marked and vectors raised (R378, R379). -/
def execLossRecordReceipt (s : State) : Out :=
  let due := s.losses.filter fun l => decide (l.1 ≤ s.tick)
  let s := { s with losses := s.losses.filter fun l => !decide (l.1 ≤ s.tick) }
  .next <| due.foldl (fun s (k, p, v) =>
    let s := match p with
      | some n => if s.sm.lost.any fun l => l.1 == n then s else { s with sm := { s.sm with lost := s.sm.lost ++ [(n, k)] } }
      | none => s
    s.vector v) s

/-! ### The power arbiter (R363, R364) -/

/-- Core clock (MHz) and charge (W) of an operating point (Table tab 10). -/
def pointMhz (p : Nat) : Nat := [625, 750, 875, 1000, 1125, 1250].getD p 1250
def pointWatt (p : Nat) : Nat := [128, 150, 175, 200, 228, 255].getD p 255

/-- One pass over the tiles in their order: the points after it. -/
def grantPass (s : State) (n : Nat) (want : List Bool) (pt : List Nat) : List Nat :=
  (List.range 16).foldl (fun pt i =>
    let t := (n + i) % 16
    let p := pt.getD t 0
    let sum := (pt.map pointWatt).foldl (· + ·) 0
    if want.getD t false && decide (p < (s.tile t).ceiling) && decide (sum - pointWatt p + pointWatt (p + 1) ≤ s.budget) then
      pt.set t (p + 1)
    else pt) pt

/-- Passes until nothing changes: 96 suffice, since a pass that changes anything raises a point. -/
def grantAll (s : State) (n : Nat) (want : List Bool) : Nat → List Nat → List Nat
  | 0, pt => pt
  | k + 1, pt => let q := grantPass s n want pt; if q == pt then pt else grantAll s n want k q

/-- At each multiple of 1,000 ticks every grant is recomputed, for the next tick boundary (R364); a hot tile stays at
point 0 (R423). -/
def execPowerRegrant (s : State) : Out :=
  if s.tick % 1000 != 0 then .next s
  else
    let xs := (List.range 16).map s.tile
    let want := xs.map fun x =>
      !x.hint0 && !x.hot && (x.hint3 || (x.intervalCycles != 0 && decide (x.intervalCycles ≤ 2 * x.busyCycles)))
    let pt := grantAll s (s.tick / 1000) want 96 (xs.map fun x => if x.hot then 0 else x.floor)
    .next <| (pt.zipIdx).foldl (fun s (p, t) =>
      s.modTile t fun x =>
        { x with pointNext := some p, hint0 := false, hint3 := false, busyCycles := 0, intervalCycles := 0 }) s

/-- A tile's point changes: its clock goes on at the new rate from here, at a new phase (R3, R364). -/
def State.applyPoint (s : State) (t : Nat) : State :=
  match (s.tile t).pointNext with
  | none => s
  | some p =>
    s.modTile t fun x =>
      if p == x.point then { x with pointNext := none }
      else
        -- a cycle that began before the boundary has run; the new rate counts from the next quantum on
        let q := if s.afterBoundary t then s.quantum else s.quantum + 1
        { x with point := p, pointNext := none,
                 clk := ⟨{ s with quantum := q }.cycles t, s.quantum + 1, pointMhz p, x.clk.switches + 1⟩ }

end Sys2Proof.Machine
end

