-- ==== Sys2Proof/Machine/Faults.lean ====
section
/-!
DEFINITION. Fault records on their way to queues, host and stage manager (R348-R351, R379, R394, R418) and what an answer
resumes or abandons (R217, R218, R228, R352).
-/

namespace Sys2Proof.Machine

/-! ### The record in memory (Table port 5) -/

/-- The 32 bytes of a record, posted. -/
def FRec.bytes (r : FRec) : List Byte :=
  let w0 := r.cause % 256 + r.tile % 16 * 2 ^ 8 + r.core % 16 * 2 ^ 12 + r.cl % 4 * 2 ^ 16 + r.bank % 2 * 2 ^ 18 +
    r.kind % 4 * 2 ^ 19 + r.source % 8 * 2 ^ 21 + 2 ^ 24 + r.aux.toNat * 2 ^ 32
  leBytes 8 w0 ++ leBytes 8 r.pc.toNat ++ leBytes 8 r.addr.toNat ++ leBytes 8 r.tick

/-- Kinds F and V: nothing waits for the record. -/
def FRec.loose (r : FRec) : Bool := r.kind == kindF || r.kind == kindV

/-! ### Queues (R350, Table port 6) -/

/-- The fields of a queue's header that the tile reads. -/
structure FqHdr where
  tail : Nat
  head : Nat
  key : Nat
  post : Bool
  lost : Nat
  deriving DecidableEq, Repr

def State.fqReg (s : State) (t q : Nat) : FqReg := (s.tile t).fqbase.get (Fin.ofNat 4 q)

def State.fqHdr (s : State) (t q : Nat) : FqHdr :=
  let bs := s.homeRead (s.fqReg t q).base 28
  ⟨recField bs 0 4, recField bs 4 4, recField bs 8 8, (bs.getD 16 0).getLsbD 0, recField bs 24 4⟩

/-- Write one 4-byte field of a queue's header. -/
def State.putHdr (s : State) (t q off v : Nat) : State := s.homeWrite ((s.fqReg t q).base + off) (leBytes 4 v) 16

/-- Address of the slot of record number `n`. -/
def State.fqSlot (s : State) (t q n : Nat) : Nat :=
  let r := s.fqReg t q
  r.base + 64 + 32 * (n % 2 ^ r.size)

/-- Records in a ring. -/
def inRingOf (tail head : Nat) : Nat := (tail + 2 ^ 32 - head) % 2 ^ 32

/-- Ring of the host: base and log2 of the slot count (Table host 1). -/
def CtlWin.fbase (w : CtlWin) : Nat := w.fring.toNat / 64 * 64
def CtlWin.fsize (w : CtlWin) : Nat := w.fring.toNat % 16

/-- Address of the host ring's slot of record number `n` (R418). -/
def CtlWin.fslot (w : CtlWin) (n : Nat) : Nat := w.fbase + 32 * (n % 2 ^ w.fsize)

/-- The destination can take `n` more records. -/
def State.takes (s : State) (d : Dest) (n : Nat) : Bool :=
  match d with
  | .host _ => s.cw.fsize != 0 && decide (inRingOf s.cw.ftail s.cw.fhead + n ≤ 2 ^ s.cw.fsize)
  | .queue t q =>
    let h := s.fqHdr t q
    decide (inRingOf h.tail h.head + n ≤ 2 ^ (s.fqReg t q).size)
  | _ => true

/-- Records of one destination are delivered in one order. -/
def Dest.lane (d : Dest) : List Nat :=
  match d with
  | .host _ => [0]
  | .queue t q => [1, t, q]
  | .stage _ => [2]
  | .drop => [3]

/-! ### What waits (R349, R351) -/

/-- Records that nothing may separate, in their order (R394). -/
def recUnits : List FRec → List (List FRec)
  | [] => []
  | r :: rs =>
    match recUnits rs with
    | (x :: xs) :: us => if x.paired then (r :: x :: xs) :: us else [r] :: (x :: xs) :: us
    | us => [r] :: us

def unitDest (u : List FRec) : Dest := (u.head?.map (·.dest)).getD .drop

/-- The order of R349. -/
def unitKey (u : List FRec) : List Nat :=
  match u with
  | r :: _ => [r.tick, r.tile, r.core, r.cl, r.source]
  | [] => []

/-- A queue that has been disabled since takes no record: it goes to the host (R362). -/
def State.rerouted (s : State) (r : FRec) : FRec :=
  match r.dest with
  | .queue t q => if (s.fqReg t q).size == 0 then { r with dest := s.route r.tile r.cause r.kind true } else r
  | _ => r

/-- A discarded record is counted: by the queue that was full, else by the tile that raised it (R351, R418). -/
def State.countLost (s : State) (r : FRec) : State :=
  match r.dest with
  | .queue t q => s.putHdr t q 24 (min ((s.fqHdr t q).lost + 1) (2 ^ 32 - 1))
  | _ => s.modTile r.tile fun x => { x with cnt := { x.cnt with droppedRecs := x.cnt.droppedRecs + 1 } }

/-- The loose records that a destination cannot keep: all of a disabled host ring, those beyond the backlog of 16 of a
full ring; a pair goes as a whole (R351, R394, R418). -/
def State.overflow (s : State) (us : List (List FRec)) : List (List FRec) :=
  let step := fun (acc : List (List Nat × Nat) × List (List FRec)) (u : List FRec) =>
    let d := unitDest u
    if !(u.all FRec.loose) || s.takes d u.length then acc
    else
      let n := ((acc.1.find? fun e => e.1 == d.lane).map (·.2)).getD 0
      let off : Bool := match d with | .host _ => s.cw.fsize == 0 | _ => false
      if off || 16 < n + u.length then (acc.1, acc.2 ++ [u])
      else ((acc.1.filter fun e => e.1 != d.lane) ++ [(d.lane, n + u.length)], acc.2)
  (us.foldl step ([], [])).2

/-! ### Delivery (R350, R379, R418) -/

/-- A record is written to its queue's slot, Tail advances, and the key is posted (R350). -/
def State.toQueue (s : State) (t q : Nat) (r : FRec) : State :=
  let h := s.fqHdr t q
  let a := s.fqSlot t q h.tail
  let s := (s.homeWrite a r.bytes 16).putHdr t q 0 ((h.tail + 1) % 2 ^ 32)
  let s := { s with posted := (s.posted.filter fun (p : Posted) => !(p.dest == .queue t q && p.n == a)) ++
                              [(⟨.queue t q, a, r.cause, r.waiter⟩ : Posted)] }
  if h.post then
    { s with posts := s.posts ++ [(⟨s.tick + Config.delay s.fresh, t, 0, 0, BitVec.ofNat 64 h.key, []⟩ : PostMsg)],
             fresh := s.fresh + 1 }
  else s

/-- A record is written to the host's ring, Fault tail advances, the vector is raised (R418). -/
def State.toHost (s : State) (v : Nat) (r : FRec) : State :=
  let n := s.cw.ftail
  { s with hostMem := mputs s.hostMem (s.cw.fslot n) r.bytes, cw := { s.cw with ftail := (n + 1) % 2 ^ 32 },
           posted := s.posted ++ [(⟨.host 0, n, r.cause, r.waiter⟩ : Posted)] }.vector v

/-- The circuit port (0-5) that a record puts in Degraded or Failed mode, as 6t + i (R365, R379). -/
def FRec.lostPort (r : FRec) : Option Nat :=
  let a := r.addr.toNat
  let port := if a % 8 < 6 then some (6 * (a / 8) + a % 8) else none
  if r.cause == cLANEERASE then
    if r.aux.getLsbD 8 || r.aux.getLsbD 9 then port else none
  else if r.cause == cRINGTUNE then port
  else if r.cause == cCIRCLOST then
    let k := (r.aux.extractLsb' 0 4).toNat
    if k == 0 || k == 2 then some (6 * r.tile + (r.aux.extractLsb' 8 3).toNat) else none
  else none

/-- A record sets out to the stage manager, which receives it within 2 ticks of its raising (R379). -/
def State.toStage (s : State) (v : Nat) (r : FRec) : State :=
  { s with losses := s.losses ++ [(max s.tick (r.tick + Config.lossTravel s.fresh % 3), r.lostPort, v)],
           fresh := s.fresh + 1 }

def State.deliver (s : State) (r : FRec) : State :=
  match r.dest with
  | .host v => s.toHost v r
  | .queue t q => s.toQueue t q r
  | .stage v => s.toStage v r
  | .drop => s

/-- The unit of records that is delivered next: the first of its destination, which takes it. Those of the present tick wait
until the tick is over, and all of them can be put in order (R349). -/
def State.nextUnit (s : State) (us : List (List FRec)) : Option (List FRec) :=
  us.find? fun u =>
    u.all (fun r => r.tick != s.tick) && s.takes (unitDest u) u.length &&
      firstBy unitKey (us.filter fun v => (unitDest v).lane == (unitDest u).lane) == some u

/-- One record, or one pair of records, is delivered; what cannot wait is discarded. -/
def execFaultRecordDeliver (s : State) : Out :=
  let us := recUnits (s.records.map s.rerouted)
  let lost := s.overflow us
  let us := us.filter fun u => !lost.contains u
  let s := lost.flatten.foldl State.countLost s
  match s.nextUnit us with
  | none => .next { s with records := us.flatten }
  | some u => .next (u.foldl State.deliver { s with records := (us.erase u).flatten })

/-! ### Answers (R352) -/

/-- Clusters of a bank that a stream of it consists of. -/
def Bank.unit (b : Bank) (k : Fin 4) : List (Fin 4) := if b.joined then cls4 else [k]

/-- The answer reaches the core of a parked stream, which may resume four cycles later at the earliest; how much later is
not architected (R217). -/
def State.answerStream (s : State) (i : StreamId) : State :=
  let (n, s) := s.freshVal
  let due := s.cycles i.tile + 4 + Config.delay n
  s.modCls i (s.clsOf i) fun c =>
    if c.st == .parked then { c with answered := true, ansTick := s.tick, resumeAt := due } else c

/-- The stream of a saved image may resume once it is restored (R329). -/
def State.answerImage (s : State) (t taskid : Nat) (k : Fin 4) : State :=
  { s with saved := s.saved.map fun (v : Saved) =>
      if v.tile == t && v.bank.taskid.toNat == taskid then
        { v with bank := (v.bank.unit k).foldl (fun b j => b.modCl j fun c => { c with answered := true }) v.bank }
      else v }

/-- A load whose data was lost is reissued (R216); one that no longer translates has a new record. -/
def State.answerLoad (s : State) (i : StreamId) (l : LoadRec) : State :=
  let s := s.modCls i (s.clsOf i) fun c => { c with waitAns := false }
  match s.reissue i l with
  | .ok s => s
  | .error (cause, ea, aux) =>
    (s.loseLine cause aux ea).raise (s.cl (onCl i l.cl)).priv
      { mkRec cause i.tile i.core kindS 0 aux ea with
        cl := l.cl.val, bank := i.bank, pc := ueccBank cause aux ea, waiter := .load i l }

/-- A migration entry is abandoned before its switch; after it, it goes on to its end. -/
def State.answerCourier (s : State) (t c : Nat) (abandon : Bool) : State :=
  let r := (s.core t c).cour
  let go := s.modCour t c fun r => { r with suspended := false }
  if !r.suspended then s
  else if !abandon then go
  else
    match r.mig with
    | some (h, n) =>
      match s.migAt h n with
      | some m => if m.phase == 1 then (s.migBack h n).courRelease t c else go
      | none => s.courRelease t c
    | none => s.courRelease t c

/-- A held signal is tried again, or dropped (R228). -/
def State.answerSignal (s : State) (t c : Nat) (g : Eng) (abandon : Bool) : State :=
  s.modCore t c fun x =>
    let q := x.sigs.get (engIdx g)
    if !q.held then x
    else { x with sigs := x.sigs.set (engIdx g) ⟨if abandon then q.q.drop 1 else q.q, false⟩ }

/-- What the answer of a record does; Response 1 abandons an entry of kind U and acts as 0 on a record of kind S. -/
def State.answerFor (s : State) (w : Waiter) (resp : Nat) : State :=
  let abandon := resp == 1
  match w with
  | .none => s
  | .stream i => s.answerStream i
  | .image t n k => s.answerImage t n k
  | .load i l => s.answerLoad i l
  | .buf i => (s.modCls i (s.clsOf i) fun c => { c with waitAns := false }).modCl i fun c => { c with buf := .idle }
  | .lbuf i => (s.modCls i (s.clsOf i) fun c => { c with waitAns := false }).modCl i fun c => { c with lbuf := .idle }
  | .fetch i => (s.modCls i (s.clsOf i) fun c => { c with waitAns := false }).modCl i fun c => { c with code := .idle }
  | .proj t c =>
    if !(s.core t c).proj.suspended then s
    else if abandon then s.projRelease t c
    else s.modCore t c fun x => { x with proj := { x.proj with suspended := false } }
  | .cour t c => s.answerCourier t c abandon
  | .sig t c g => s.answerSignal t c g abandon
  | .send t h id => if abandon then s.sendAbandon t h id else s.sendResume t h id
  | .recv t h => if abandon then s.recvAbandon t h else s.modHq t h fun q => { q with rsusp := false }
  | .packet b => if abandon then s.ackOf b b.srcBytes else { s with blocks := b :: s.blocks }

/-- The posted record of a destination and number is answered. -/
def State.answerPosted (s : State) (d : Dest) (n resp : Nat) : State :=
  match s.posted.find? fun (p : Posted) => p.dest == d && p.n == n with
  | none => s
  | some p => { s with posted := s.posted.erase p }.answerFor p.waiter resp

/-! ### FAULTACK at the queue's tile -/

/-- The enabled fault queue of the module that an address is a slot of. -/
def State.slotQueue (s : State) (r : Nat) : Option (Nat × Nat) :=
  (List.range 64).findSome? fun n =>
    let x := s.fqReg (n / 4) (n % 4)
    if x.size != 0 && decide (x.base + 64 ≤ r) && decide (r < x.base + 64 + 32 * 2 ^ x.size) && (r - x.base) % 32 == 0 then
      some (n / 4, n % 4)
    else none

/-- State and Response of the record in a slot. -/
def State.slotState (s : State) (a : Nat) : Nat := leNat (s.homeRead (a + 3) 1) % 4
def State.slotResp (s : State) (a : Nat) : Nat := leNat (s.homeRead (a + 3) 1) / 4 % 4

/-- Head advances over consecutive answered slots; `k` bounds the number of slots. -/
def State.advanceHead (s : State) (t q : Nat) : Nat → State
  | 0 => s
  | k + 1 =>
    let h := s.fqHdr t q
    if h.head != h.tail && s.slotState (s.fqSlot t q h.head) == 2 then
      (s.putHdr t q 4 ((h.head + 1) % 2 ^ 32)).advanceHead t q k
    else s

/-- FAULTACK of the slot at `a` of a queue: nothing unless it holds a posted record (R352). -/
def State.ackSlot (s : State) (t q a : Nat) : State :=
  if s.slotState a != 1 then s
  else
    let b := leNat (s.homeRead (a + 3) 1)
    let s := s.homeWrite (a + 3) [BitVec.ofNat 8 (setField b 0 2 2)] 16
    (s.advanceHead t q (2 ^ (s.fqReg t q).size)).answerPosted (.queue t q) a (b / 4 % 4)

/-! ### The host's answers (R418) -/

/-- Fault head advances over consecutive answered records. -/
def advanceHost : Nat → CtlWin → CtlWin
  | 0, w => w
  | k + 1, w =>
    if w.fhead != w.ftail && w.answered.contains w.fhead then
      advanceHost k { w with answered := w.answered.filter fun n => n != w.fhead, fhead := (w.fhead + 1) % 2 ^ 32 }
    else w

/-- A write to Fault answer acts as FAULTACK on record n, whose State becomes 2 in the host's ring; none on one already
answered or not yet written. -/
def execFaultAnswer (v : Word) (s : State) : Out :=
  let n := v.toNat % 2 ^ 32
  let resp := v.toNat / 2 ^ 32 % 4
  let d := inRingOf n s.cw.fhead
  if !s.up || inRingOf s.cw.ftail s.cw.fhead ≤ d || s.cw.answered.contains n then .next s
  else
    let w := { s.cw with answered := n :: s.cw.answered }
    let a := s.cw.fslot n + 3
    let hm := mputs s.hostMem a [BitVec.ofNat 8 (setField (mget s.hostMem a).toNat 0 2 2)]
    .next ({ s with hostMem := hm, cw := advanceHost w.answered.length w }.answerPosted (.host 0) n resp)

end Sys2Proof.Machine
end

