-- ==== Sys2Proof/Machine/System.lean ====
section
/-!
DEFINITION. The Y class: TRAP and RETT (R221, R222), control registers (R206-R209, R223, R361), TLBINV, MSCOP and FRAMEOP
(R411-R413), the task-queue instructions (R317-R324), CUEQ, CUEWAIT and CUESEL (R382-R384), FAULTACK (R352), PERFRD (R235)
and HINT (R224).
-/

namespace Sys2Proof.Machine

/-! ### TRAP and RETT -/

/-- TRAP acts after its bundle: EPC is the next bundle's address, and the lowest true cluster reports (R221). Where the
bundle forked the core, the clusters that execute it as joined take it each in its own stream (R139). -/
def execTrap (h : Hdr) (n : BitVec 6) (s : State) : Out :=
  match s.on h with
  | [] => s.done
  | k :: _ =>
    let cause := 0x40 + n.toNat
    let streams := if s.curBank.joined then [k] else s.active
    let s' := streams.foldl (fun s j => s.takeTrap (onCl s.cur j) cause j (s.cl (onCl s.cur j)).pc 0 0) s
    .next { s' with iss := { s.iss with res := .trap cause k 0 0 } }

/-- Registers of a cluster that an atomic or FRAMEOP will write. -/
def State.atomRegs (s : State) (i : StreamId) : BitVec 32 :=
  s.reqs.foldl (fun m r =>
    match r.dst with
    | .atom d | .frame d => if r.who.isStream i [i.cl] && !r.drop then m ||| BitVec.twoPow 32 d.toNat else m
    | _ => m) 0

/-- A result or a long load of the stream was in flight when its bundle issued. -/
def State.inFlightAtStart (s : State) : Bool :=
  s.active.any fun k =>
    let c := s.startCl k
    !c.flights.isEmpty || c.pbits &&& ~~~s.atomRegs (onCl s.cur k) != 0

/-- The second piece that RETT replays in place of a return to EPC; a return to EPC replays the whole bundle, and what was
kept for after the piece with it (R222, R258). -/
def Cluster.replayPiece (c : Cluster) : Cluster :=
  if c.xfer == 0 then { c with after := none } else { c with hold := .piece true c.epc c.xferOp c.xferAddr c.xfer [] }

/-- RETT of a stream whose handler may return (R222). A load that no longer translates traps at the resume point. -/
def State.rett (s : State) : State :=
  let i := s.cur
  let ks := s.active
  let s := s.modCls i ks fun c => { c with priv := c.ppriv, ti := false }
  let again := ks.any fun k => (s.curCl k).xfer != 0
  let c0 := s.curCl (ks.headD 0)
  let pc := if again then c0.xferNext else c0.epc
  let s := { s with iss := { s.iss with moved := true } }
  match s.bringBack i ks with
  | .ok s => s.modCls i ks fun c => { c.replayPiece with pc }
  | .error (l, cause, ea, aux) => (s.loseLine cause aux ea).takeTrap i cause l.cl c0.epc ea aux

def execRett (h : Hdr) (s : State) : Out :=
  let ks := s.active
  if (s.on h).isEmpty then s.done
  else
    match ks.find? fun k => !(s.startCl k).ti with
    | some k => s.trapped cILLOP k s.iss.addr 0
    | none => if s.inFlightAtStart then s.drained else s.rett.done

/-! ### Control registers (Tables ctx 1, 2, 4 and 7) -/

def bit01 (b : Bool) : Nat := if b then 1 else 0

/-- STAT (Table ctx 2). -/
def Cluster.stat (c : Cluster) (joined : Bool) (bank : Nat) : Nat :=
  bit01 c.priv + 2 * bit01 c.lt + 4 * bit01 c.ti + 8 * bit01 c.ppriv + 16 * bit01 joined + 32 * (bank % 2)

/-- CTXB (Table ctx 4). -/
def Core.ctxb (x : Core) : Nat :=
  x.fg % 2 + 2 * bit01 x.b0.occ + 4 * bit01 x.b1.occ + 8 * bit01 x.b0.parked + 16 * bit01 x.b1.parked +
    x.xcnt % 2 ^ 32 * 2 ^ 32

/-- PWCNT (Table ctx 4). -/
def Core.pwcnt (x : Core) : Nat :=
  (x.bank (x.fg % 2)).pwb.length % 65536 + (x.bank (1 - x.fg % 2)).pwb.length % 65536 * 65536 +
    (x.b0.replay.length + x.b1.replay.length) % 65536 * 2 ^ 32

def FqReg.value (r : FqReg) : Nat := r.base + r.size

/-- The value of a control register of a cluster of the present stream, as the bundle found it (R89, R223). -/
def State.crRead (s : State) (k : Fin 4) (idx : Nat) : Word :=
  let c := s.startCl k
  let b := s.curBank
  let t := s.curTile
  let w := BitVec.ofNat 64
  match idx with
  | 0x00 => w (c.stat b.joined s.cur.bank)
  | 0x01 => w (c.causeCode.toNat + c.causeAux.toNat * 2 ^ 32)
  | 0x02 => c.epc
  | 0x03 => c.eaddr
  | 0x04 => c.fctl.zeroExtend 64
  | 0x05 => c.fstat.zeroExtend 64
  | 0x06 => c.srseed
  | 0x07 => c.spillp
  | 0x08 => w c.rstop
  | 0x09 => w c.xfer
  | 0x0A => w (k.val + 16 * s.cur.core + 256 * s.cur.tile + 4096 * s.moduleId)
  | 0x10 | 0x11 | 0x12 | 0x13 => (c.lc.getD (idx - 0x10) 0).zeroExtend 64
  | 0x14 | 0x15 | 0x16 | 0x17 => c.lb.getD (idx - 0x14) 0
  | 0x18 | 0x19 | 0x1A | 0x1B => c.le.getD (idx - 0x18) 0
  | 0x20 => w (b.barBase + 256 * b.barDepth)
  | 0x21 => w s.curCore.ctxb
  | 0x22 => w s.curCore.pwcnt
  | 0x23 => b.taskid.zeroExtend 64
  | 0x24 => b.company.zeroExtend 64
  | 0x40 => w t.ttbase
  | 0x41 => w t.ptroot
  | 0x42 => w t.fqbase.c0.value
  | 0x43 => w t.fqbase.c1.value
  | 0x44 => w t.fqbase.c2.value
  | 0x45 => w t.fqbase.c3.value
  | 0x46 => w t.rdbase
  | 0x47 => w t.tvec
  | _ => 0

def execMfcr (h : Hdr) (d : Reg) (idx : BitVec 8) (s : State) : Out :=
  let ks := s.on h
  if s.pendOn ks [d] then s.stalled
  else (s.each ks fun s k => s.fly (onCl s.cur k) 1 (.reg d (s.crRead k idx.toNat) false) fNone).done

/-- A write to a register that each cluster holds; read-only fields keep their values (Table ctx 2, Table flow 6). -/
def Cluster.crWrite (c : Cluster) (idx : Nat) (v : Word) : Cluster :=
  match idx with
  | 0x00 =>
    if c.priv then { c with priv := v.getLsbD 0, lt := v.getLsbD 1, ti := v.getLsbD 2, ppriv := v.getLsbD 3 } else c
  | 0x01 => { c with causeCode := v.extractLsb' 0 8, causeAux := v.extractLsb' 32 32 }
  | 0x02 => { c with epc := v &&& 0x007FFFFFFFFFFFF8 }
  | 0x03 => { c with eaddr := v }
  | 0x04 => { c with fctl := v.extractLsb' 0 5 }
  | 0x05 => { c with fstat := v.extractLsb' 0 5 ||| c.flagsNow ||| c.flagsCyc }
  | 0x06 => { c with srseed := v }
  | 0x07 => { c with spillp := v &&& 0x007FFFFFFFFFFFF8 }
  | 0x09 => { c with xfer := (v.extractLsb' 0 5).toNat }
  | 0x10 | 0x11 | 0x12 | 0x13 => { c with lc := c.lc.set (idx - 0x10) (v.extractLsb' 0 32) }
  | 0x14 | 0x15 | 0x16 | 0x17 => { c with lb := c.lb.set (idx - 0x14) (v &&& 0x007FFFFFFFFFFFC0) }
  | 0x18 | 0x19 | 0x1A | 0x1B => { c with le := c.le.set (idx - 0x18) (v &&& 0x007FFFFFFFFFFFC0) }
  | _ => c

/-- The bits that a tile register keeps of a written value (Table ctx 7). -/
def tileMask (idx : Nat) : Word :=
  match idx with
  | 0x40 | 0x46 => 0xFFFFFFFFC0
  | 0x41 => 0xFFFFFFF000
  | 0x42 | 0x43 | 0x44 | 0x45 => 0xFFFFFFFFCF
  | 0x47 => 0xFFFFFFFC00
  | _ => 0

/-- A write to a core or tile register stands at the end of the cycle; the highest cluster's prevails (R208, R209). -/
def State.endWrite (s : State) (e : EndFx) : State :=
  s.modCore s.cur.tile s.cur.core fun x => { x with endFx := x.endFx ++ [e] }

/-- MTCR of a core or tile register: once its scalar is at hand and `ready` holds, the end-of-cycle change of each true
cluster in ascending order. -/
def lateWrite (h : Hdr) (a : Reg) (ready : State → Bool) (f : Word → EndFx) (s : State) : Out :=
  let ks := s.on h
  if s.pendOn ks [a] then s.stalled
  else if !ks.isEmpty && !ready s then s.stalled
  else (s.each ks fun s k => s.endWrite (f ((s.startCl k).reg a))).done

def execMtcr (h : Hdr) (a : Reg) (idx : BitVec 8) (s : State) : Out :=
  let n := idx.toNat
  if 0x40 ≤ n then lateWrite h a (fun _ => true) (fun v => .tileReg n (v &&& tileMask n)) s
  else
    let ks := s.on h
    if s.pendOn ks [a] then s.stalled
    else (s.each ks fun s k => s.modCurCl k fun c => c.crWrite n ((s.startCl k).reg a)).done

/-- RSTOP falls to a lower value; a larger one leaves it (R133). -/
def execMtcrRstop (h : Hdr) (a : Reg) (s : State) : Out :=
  let ks := s.on h
  if s.pendOn ks [a] then s.stalled
  else (s.each ks fun s k =>
    s.modCurCl k fun c => { c with rstop := min (((s.startCl k).reg a).extractLsb' 0 5).toNat c.rstop }).done

def execMtcrBarbase (h : Hdr) (a : Reg) (s : State) : Out :=
  lateWrite h a (fun _ => true) (fun v => .barbase s.cur.bank v) s

/-- The redirection copy is taken once every earlier store and atomic has been performed, after a short wait in which the tile
copies the table; how long it takes is not architected (R361). The lowest true cluster notes when it ends. -/
def execMtcrRdbase (h : Hdr) (a : Reg) (s : State) : Out :=
  match s.on h with
  | [] => s.done
  | k :: ks =>
    if s.pendOn (k :: ks) [a] || !s.storesDone s.cur s.active then s.stalled
    else
      match (s.curCl k).lbuf with
      | .sent due _ =>
        if s.quantum < due then s.stalled
        else
          lateWrite h a (fun _ => true) (fun v => .tileReg 0x46 (v &&& tileMask 0x46))
            (s.modCurCl k fun c => { c with lbuf := .idle })
      | _ =>
        let (due, s) := s.later
        (s.modCurCl k fun c => { c with lbuf := .sent due 0 }).stalled

def execMtcrFqbase (h : Hdr) (a : Reg) (n : BitVec 2) (s : State) : Out :=
  lateWrite h a (fun _ => true) (fun v => .tileReg (0x42 + n.toNat) (v &&& tileMask 0x42)) s

/-! ### What stands at the end of a cycle (R116, R208, R209, R224, R266) -/

/-- BARBASE as written: BASE reduced modulo a nonzero DEPTH (Table ctx 5). -/
def Bank.setBarbase (b : Bank) (v : Word) : Bank :=
  let base := (v.extractLsb' 0 8).toNat
  let depth := (v.extractLsb' 8 8).toNat
  { b with barBase := if depth == 0 then base else base % depth, barDepth := depth }

/-- BARROT rotates the base (R266). -/
def Bank.rotate (b : Bank) : Bank := if b.barDepth == 0 then b else { b with barBase := (b.barBase + 1) % b.barDepth }

/-- A fault queue's registers; an enabled queue starts empty (Table port 7). -/
def State.setFq (s : State) (t q : Nat) (v : Nat) : State :=
  let r : FqReg := ⟨v / 64 * 64, v % 16⟩
  let s := s.modTile t fun x => { x with fqbase := x.fqbase.set (Fin.ofNat 4 q) r }
  if r.size == 0 then s else (s.homeWrite r.base (leBytes 8 0) 16).homeWrite (r.base + 24) (leBytes 4 0) 16

/-- The tile copies the 1,024 bytes of its redirection table (R361). -/
def State.copyRedir (s : State) (t base : Nat) : State :=
  let (bs, s) := s.unitRead base 1024
  let es := (lanesOf 64 bs).zipIdx
  s.modTile t fun x =>
    { x with rdbase := base, redir := (es.filter fun e => e.1 != 0).map fun e => (e.2, BitVec.ofNat 64 e.1) }

def State.setTileReg (s : State) (t idx : Nat) (v : Word) : State :=
  let n := v.toNat
  match idx with
  | 0x40 => s.modTile t fun x => { x with ttbase := n }
  | 0x41 => s.modTile t fun x => { x with ptroot := n }
  | 0x42 | 0x43 | 0x44 | 0x45 => s.setFq t (idx - 0x42) n
  | 0x46 => s.copyRedir t n
  | 0x47 => s.modTile t fun x => { x with tvec := n }
  | _ => s

def State.applyEnd (s : State) (t c : Nat) (e : EndFx) : State :=
  match e with
  | .setps p ready => s.modCore t c fun x => x.setPst p (if ready then .ready else .empty)
  | .barbase b v => s.modCore t c fun x => x.modBank b fun k => k.setBarbase v
  | .barrot b => s.modCore t c fun x => x.modBank b Bank.rotate
  | .tileReg idx v => s.setTileReg t idx v
  | .marker v => s.modCore t c fun x => { x with marker := v, markers := x.markers + 1 }

/-- The changes that stand at the end of a core's cycle, in the order of their making. -/
def State.applyEnds (s : State) (t c : Nat) : State :=
  let es := (s.core t c).endFx
  es.foldl (fun s e => s.applyEnd t c e) (s.modCore t c fun x => { x with endFx := [] })

/-! ### TLBINV (R411) -/

/-- The cached translation is a leaf that covers the page of an address. -/
def TlbEnt.onPage (e : TlbEnt) (va : Nat) : Bool :=
  e.kind == 0 && (if e.large then e.key == va / 2 ^ 29 else e.key == va / 2 ^ 16)

/-- The cached translation is a leaf within the 512 MiB of an address. -/
def TlbEnt.onLarge (e : TlbEnt) (va : Nat) : Bool :=
  e.kind == 0 && (if e.large then e.key == va / 2 ^ 29 else e.key / 8192 == va / 2 ^ 29)

/-- Drop cached translations on the tiles that are named. -/
def State.dropTlb (s : State) (on : Tile → Nat → Bool) (drop : TlbEnt → Bool) : State :=
  (List.range 16).foldl (fun s t =>
    if on (s.tile t) t then s.modTile t fun x => x.mapTlb fun l => l.filter fun e => !drop e else s) s

/-- Every translated access with a number below `n` has been performed; a load of a parked stream translates anew. -/
def State.translatedDone (s : State) (n : Nat) : Bool :=
  s.reqs.all fun r =>
    decide (n ≤ r.id) || r.performed || r.stage == .lost || (r.comb && r.drop) ||
      (match r.loc, r.op with
       | .tsm .., _ | _, .frame .. => true
       | _, _ => false)

/-- TLBINV of the lowest true cluster: entries go once the earlier stores have been performed; the bundle issues once the
accesses made through them have been performed. -/
def tlbinvOp (h : Hdr) (srcs : List Reg) (drop : State → Fin 4 → State) (s : State) : Out :=
  match s.on h with
  | [] => s.done
  | k :: _ =>
    if s.pendOn [k] srcs then s.stalled
    else
      match (s.curCl k).lbuf with
      | .sent n _ =>
        if s.translatedDone n then (s.modCurCl k fun c => { c with lbuf := .idle }).done else s.stalled
      | _ =>
        if !s.storesDone s.cur s.active then s.stalled
        else
          let s := drop s k
          if s.translatedDone s.nextId then s.done
          else (s.modCurCl k fun c => { c with lbuf := .sent s.nextId 0 }).stalled

def execTlbinvPage (h : Hdr) (a : Reg) (s : State) : Out :=
  tlbinvOp h [a] (fun s k =>
    let va := ((s.startCl k).reg a).toNat % 2 ^ 55
    s.dropTlb (fun x _ => x.ptroot == s.curTile.ptroot) fun e => e.onPage va) s
def execTlbinvLarge (h : Hdr) (a : Reg) (s : State) : Out :=
  tlbinvOp h [a] (fun s k =>
    let va := ((s.startCl k).reg a).toNat % 2 ^ 55
    s.dropTlb (fun x _ => x.ptroot == s.curTile.ptroot) fun e => e.onLarge va) s
def execTlbinvCtx (h : Hdr) (s : State) : Out :=
  tlbinvOp h [] (fun s _ => s.dropTlb (fun _ t => t == s.cur.tile) fun _ => true) s
def execTlbinvAll (h : Hdr) (s : State) : Out := tlbinvOp h [] (fun s _ => s.dropTlb (fun _ _ => true) fun _ => true) s

/-! ### MSCOP and HINT (R224, R412) -/

/-- The parts of a byte range in each 64 KiB page it touches. -/
def pageParts (a n : Nat) : List (Nat × Nat) :=
  if n == 0 then []
  else
    (List.range ((a + n - 1) / 65536 + 1 - a / 65536)).map fun i =>
      let lo := max a ((a / 65536 + i) * 65536)
      let hi := min (a + n) ((a / 65536 + i + 1) * 65536)
      (lo, hi - lo)

/-- The module HBM address of a virtual address whose page is in tier 0 and not memory-side. -/
def State.mscPlace (s : State) (k : Fin 4) (va : Nat) : Option Nat × State :=
  match s.xl ⟨s.cur.tile, va, false, false, !(s.curCl k).priv, 0, 0, s.cur.core⟩ with
  | .ok (⟨.hbm a, false, _⟩, s) => (some a, s)
  | .ok (_, s) => (none, s)
  | .error _ => (none, s)

/-- Posted requests for the lines of a range, page by page: whole lines, which follow the stream's earlier stores to them. -/
def State.mscopOne (s : State) (k : Fin 4) (op a n : Nat) : State :=
  (pageParts a n).foldl (fun s p =>
    match s.mscPlace k p.1 with
    | (some pa, s) =>
      let lo := pa / 64 * 64
      s.request (.stream (onCl s.cur k)) (.mscop op ((pa + p.2 + 63) / 64 * 64 - lo)) (.hbm lo) .none .plain .core false false
    | (none, s) => s) s

def mscopOp (op : Nat) (h : Hdr) (a b : Reg) (s : State) : Out :=
  let ks := s.on h
  if s.pendOn ks [a, b] then s.stalled
  else (s.each ks fun s k =>
    let c := s.startCl k
    s.mscopOne k op (c.reg a).toNat (min (c.reg b).toNat (2 ^ 24))).done

def execMscopWriteback (h : Hdr) (a b : Reg) (s : State) : Out := mscopOp 0 h a b s
def execMscopInvalidate (h : Hdr) (a b : Reg) (s : State) : Out := mscopOp 1 h a b s
def execMscopRetain (h : Hdr) (a b : Reg) (s : State) : Out := mscopOp 2 h a b s
def execMscopEvictFirst (h : Hdr) (a b : Reg) (s : State) : Out := mscopOp 3 h a b s

/-- HINT of one cluster: kinds 0 and 3 inform the power arbiter, 1 and 2 mark a line of the MSC, 7 writes the trace marker;
the scheduler takes no advice, and kinds 8-31 do nothing. -/
def State.hintOne (s : State) (kind : Nat) (k : Fin 4) (v : Word) : State :=
  let mark := fun (op : Nat) =>
    match s.mscPlace k v.toNat with
    | (some a, s) => s.mscRun op (a / 64 * 64) 64 16
    | (none, s) => s
  match kind with
  | 0 => if 12500 ≤ v.toNat then s.modTile s.cur.tile fun x => { x with hint0 := true } else s
  | 1 => mark 2
  | 2 => mark 3
  | 3 => s.modTile s.cur.tile fun x => { x with hint3 := true }
  | 7 => s.endWrite (.marker v)
  | _ => s

def execHint (h : Hdr) (kind : BitVec 5) (a : Reg) (s : State) : Out :=
  (s.each (s.on h) fun s k =>
    if (s.startCl k).p a then s else s.hintOne kind.toNat k ((s.startCl k).reg a)).done

/-! ### FRAMEOP (R413) -/

/-- The rule of an operation for X[a]: a frame of this module outside the reserved region, or for a pop a tile number. -/
def State.frameArg (s : State) (op : Nat) (v : Word) : Option Nat :=
  let n := v.toNat
  if op == 4 then (if n < 16 then some n else none)
  else if n % 65536 != 0 || n / 2 ^ 40 != s.moduleId || paReserved (n % 2 ^ 40) then none
  else some (n % 2 ^ 40 / 65536)

/-- Where a frame-table step is made. -/
def frameHome (op f : Nat) : Loc := .hbm (if op == 4 then f % 16 * 2 ^ 36 + 0xFFF800000 else frameEntAddr f)

def frameOp (op : Nat) (h : Hdr) (d a b : Reg) (s : State) : Out :=
  let ks := s.on h
  if s.pendOn ks [d, a, b] then s.stalled
  else if ks.any fun k => (s.startCl k).inFlight d then s.drained
  else
    match ks.find? fun k => (s.frameArg op ((s.startCl k).reg a)).isNone with
    | some k => s.trapped cPROT k ((s.startCl k).reg a) 0
    | none =>
      (s.each ks fun s k =>
        let c := s.startCl k
        let f := (s.frameArg op (c.reg a)).getD 0
        (s.modCurCl k fun c => c.setP d true).request (.stream (onCl s.cur k)) (.frame op f (c.reg b)) (frameHome op f)
          (.frame d) .ar .mod false false).done

def execFrameopRead (h : Hdr) (d a b : Reg) (s : State) : Out := frameOp 0 h d a b s
def execFrameopAdjust (h : Hdr) (d a b : Reg) (s : State) : Out := frameOp 1 h d a b s
def execFrameopFlags (h : Hdr) (d a b : Reg) (s : State) : Out := frameOp 2 h d a b s
def execFrameopPush (h : Hdr) (d a b : Reg) (s : State) : Out := frameOp 3 h d a b s
def execFrameopPop (h : Hdr) (d a b : Reg) (s : State) : Out := frameOp 4 h d a b s
def execFrameopShoot (h : Hdr) (d a b : Reg) (s : State) : Out := frameOp 5 h d a b s

/-! ### LAUNCH (R318) -/

/-- Where a cluster's LAUNCH finds its record: alignment, then translation. -/
def State.launchPlace (s : State) (a : Reg) (k : Fin 4) : Except AErr (Place × State) :=
  let v := (s.startCl k).reg a
  if v.toNat % 64 != 0 then .error (cDALIGN, v, 0)
  else
    match s.xl ⟨s.cur.tile, v.toNat, false, false, !(s.curCl k).priv, 0, 0, s.cur.core⟩ with
    | .error e => .error (e.report v)
    | .ok r => .ok r

/-- The record a cluster has read. -/
def Cluster.recordIn (c : Cluster) : Option (List Byte) :=
  match c.lbuf with
  | .got bs => some bs
  | _ => none

/-- Push one cluster's record and answer its launch id. -/
def State.launchOne (s : State) (q : Nat) (d : Reg) (k : Fin 4) : State :=
  let x := tget LQ.reset s.lq q
  match (s.curCl k).recordIn with
  | none => s
  | some bs =>
    let s := s.homeWrite (x.base + 64 * (x.tail % 2 ^ x.size)) bs 16
    let s := s.modLq q fun y => { y with tail := (y.tail + 1) % 2 ^ 28 }
    (s.modCurCl k fun c => { c with lbuf := .idle }).fly (onCl s.cur k) 1
      (.reg d (BitVec.ofNat 64 (q * 2 ^ 28 + x.tail)) false) fNone

/-- Each cluster whose record can be read asks for it, once. -/
def State.launchRead (s : State) (a : Reg) (ks : List (Fin 4)) : State :=
  ks.foldl (fun s k =>
    match (s.curCl k).lbuf, s.launchPlace a k with
    | .idle, .ok (p, s) => s.rowRequest k [(p, 64)] .lbuf fun b c => { c with lbuf := b }
    | _, _ => s) s

/-- LAUNCH cannot issue yet: a record is not in, an earlier access is outstanding, or the queue has not a free slot for each
cluster. -/
def State.launchWaits (s : State) (q : Nat) (a : Reg) (ks : List (Fin 4)) : Bool :=
  let x := tget LQ.reset s.lq q
  let full := decide (2 ^ x.size < (x.tail + 2 ^ 28 - x.head) % 2 ^ 28 + ks.length)
  !ks.isEmpty && (!s.accessesDone s.cur s.active || (x.fed && x.size != 0 && full) ||
    ks.any fun k => (s.launchPlace a k).toOption.isSome && (s.curCl k).recordIn.isNone)

/-- The check that a cluster's LAUNCH fails at issue: alignment, translation, an enabled task-fed queue, privilege. -/
def State.launchBad (s : State) (q : Nat) (a : Reg) (k : Fin 4) : Option AErr :=
  let x := tget LQ.reset s.lq q
  let v := (s.startCl k).reg a
  match s.launchPlace a k with
  | .error e => some e
  | .ok _ =>
    let r := (s.curCl k).recordIn.getD []
    if x.size == 0 || !x.fed then some (cPROT, v, 0)
    else if !(s.curCl k).priv && (recSup r || recKind r != 0) then some (cPRIV, v, 0)
    else none

def execLaunch (h : Hdr) (d a : Reg) (qn : BitVec 4) (s : State) : Out :=
  let q := qn.toNat
  let ks := s.on h
  if s.pendOn ks [d, a] then s.stalled
  else
    let s := s.launchRead a ks
    if s.launchWaits q a ks then s.stalled
    else
      match ks.findSome? fun k => (s.launchBad q a k).map fun e => (k, e) with
      | some (k, c, e, aux) => s.trapped c k e aux
      | none => (ks.foldl (fun s k => s.launchOne q d k) s).done

/-! ### TRIGGER, WAITDEP, WAITX, POSTX, YIELD (R317-R324) -/

/-- Requests of the stream that are still to be performed. -/
def State.unperformed (s : State) : List Nat :=
  ((s.reqsOf s.cur s.active).filter fun r => !r.performed).map (·.id)

def execTrigger (h : Hdr) (s : State) : Out :=
  uniOp h (fun s =>
    match s.curBank.task with
    | none => s.done
    | some k =>
      if k.triggered then s.done
      else
        let s := s.modBank s.cur fun b => { b with task := some { k with triggered := true } }
        ({ s with trigs := s.trigs ++ [(⟨k.launch, s.cur.tile, k.cIdx, s.unperformed, false⟩ : TrigMsg)] } : State).done) s

def execWaitdep (h : Hdr) (s : State) : Out :=
  uniOp h (fun s =>
    match s.curBank.task with
    | none => s.done
    | some k => if k.early && !(k.deps.all s.triggered) then s.stalled else s.done) s

/-- WAITX notes its continuation; the task registers it and ends once its results have landed (R322). -/
def execWaitx (h : Hdr) (a : Reg) (cnt : BitVec 4) (disp : BitVec 32) (s : State) : Out :=
  if !s.curBank.joined then
    if (s.curCl s.cur.cl).guard h then s.trapped cDIVERGE s.cur.cl 0 (maskOf [s.cur.cl]) else s.done
  else
    uniOp h (fun s =>
      if s.pendOn [0] [a] then s.stalled
      else (s.modCurCl 0 fun c => { c with hold := .waitx (pc55 (s.target disp)) cnt.toNat a }).done) s

/-- The post may set out: its key has an entry or finds one, and room for one more post (R316). -/
def State.mayPost (s : State) (key : Word) : Bool :=
  let e := s.keyEnt key
  let onWay := (s.posts.filter fun (p : PostMsg) => p.key == key).length
  s.keyRoom key && (!e.waiters.isEmpty || decide (e.pending + onWay < 65535))

def execPostx (h : Hdr) (a : Reg) (s : State) : Out :=
  uniOp h (fun s =>
    match s.on h with
    | [] => s.done
    | k :: _ =>
      if s.pendOn [k] [a] then s.stalled
      else
        let key := (s.startCl k).reg a
        if !s.mayPost key then s.stalled
        else
          let m : PostMsg := ⟨s.tick + Config.delay s.fresh, s.cur.tile, s.cur.core, k.val, key, s.unperformed⟩
          ({ s with posts := s.posts ++ [m], fresh := s.fresh + 1 } : State).done) s

/-- YIELD at the end of its bundle: the banks exchange for a task able to run, or for a ready entry of at least the
task's priority (R324). -/
def execYield (h : Hdr) (s : State) : Out :=
  if !s.curBank.joined then s.done
  else
    uniOp h (fun s =>
      let t := s.cur.tile
      let c := s.cur.core
      let o := 1 - s.cur.bank
      let x := (s.core t c).bank o
      -- the present cycle is none of the 16
      let swap := fun (s : State) => (s.modCore t c fun x => { x.exchange with exch := 17 }).done
      if x.able then swap s
      else if x.occ then s.done
      else
        match s.bestEntry t c with
        | some e =>
          if (s.curBank.company.extractLsb' 16 2).toNat ≤ e.prio then swap (s.placeEntry t c o e) else s.done
        | none => s.done) s

/-! ### CUEQ, CUEWAIT, CUESEL (R382-R384) -/

/-- The executing company's sheet is the one in play (R366). -/
def State.seesSheet (s : State) : Bool :=
  let cue := s.curBank.task.bind (·.cue)
  cue.isSome && cue == s.sm.playing

/-- The answer of CUEQ. -/
def State.cueqVal (s : State) (h : Nat) : Word :=
  let x := s.handle s.cur.tile h
  if !s.seesSheet || x.st == 0 then 0x1C
  else
    let m := (tget Port.reset s.curTile.ports x.port).mode
    let w := if x.st == 2 then x.dark else if x.st == 1 then x.nextLive else 0
    BitVec.ofNat 64 (x.st % 4 + 4 * (x.port % 8) + 32 * (m % 4) + w % 2 ^ 48 * 65536)

def execCueq (h : Hdr) (d : Reg) (hd : Hnd) (s : State) : Out :=
  let v := s.cueqVal hd.toNat
  scalarOp h [] [d] 1 (fun _ => .reg d v false) s

def execCuewait (h : Hdr) (hd : Hnd) (s : State) : Out :=
  uniOp h (fun s =>
    let k := s.active.headD 0
    let st := if s.seesSheet then (s.handle s.cur.tile hd.toNat).st else 0
    if !s.bound then s.trapped cNOCIRC k (hd.zeroExtend 64) 0
    else if st == 3 then s.trapped cNOCIRC k (hd.zeroExtend 64) 3
    else if st == 2 then s.done
    else s.stalled) s

/-- A selection names scenes of the sheet in play (R384). -/
def State.cueselOk (s : State) (v : Word) : Bool :=
  match s.inPlay with
  | none => false
  | some x =>
    let p := (scenesOf (beforeRotate x.ents)).find? fun y => y.n == wf v 0 16
    let z := (scenesOf (afterRotate x.ents)).find? fun y => y.n == wf v 16 16
    wf v 33 31 == 0 &&
      match p with
      | none => false
      | some y => v.getLsbD 32 || (match z with | some w => w.len == y.len | none => false)

def execCuesel (h : Hdr) (a : Reg) (s : State) : Out :=
  match s.on h with
  | [] => s.done
  | k :: _ =>
    if s.pendOn [k] [a] then s.stalled
    else
      let v := (s.startCl k).reg a
      if !s.cueselOk v then s.trapped cPROT k v 0
      else ({ s with sm := { s.sm with forcing := s.sm.forcing ++ [(v, s.tick + 1)] } } : State).done

/-! ### FAULTACK (R352) -/

/-- The check of an address that FAULTACK is given. -/
def State.ackErr (s : State) (v : Word) : Option Nat :=
  if v.toNat % 32 != 0 then some cDALIGN
  else if 2 ^ 40 ≤ v.toNat || (s.slotQueue v.toNat).isNone then some cPROT
  else none

def execFaultack (h : Hdr) (a : Reg) (s : State) : Out :=
  let ks := s.on h
  if s.pendOn ks [a] then s.stalled
  else if !ks.isEmpty && !s.accessesDone s.cur s.active then s.stalled
  else
    match ks.findSome? fun k => (s.ackErr ((s.startCl k).reg a)).map fun c => (k, c) with
    | some (k, c) => s.trapped c k ((s.startCl k).reg a) 0
    | none =>
      (s.each ks fun s k =>
        let r := ((s.startCl k).reg a).toNat
        match s.slotQueue r with
        | some (t, q) => s.ackSlot t q r
        | none => s).done

/-! ### PERFRD (R235) -/

/-- The counter of an index, as it stood at the start of the cycle (Table count 11). -/
def State.perfVal (s : State) (n : Nat) : Word :=
  let x := s.curCore
  let t := s.curTile
  let b := s.curBank
  let k := t.cnt0
  let w := BitVec.ofNat 64
  let port := tget Port.reset t.ports ((n - 0x300) / 4)
  if 0x100 ≤ n && n < 0x200 then w (tget 0 x.sems0 (n - 0x100))
  else if 0x200 ≤ n && n < 0x300 then
    let a := tget Arrival.reset t.arrivals (n - 0x200)
    w (a.value + bit01 a.sat * 2 ^ 32)
  else if 0x300 ≤ n && n < 0x320 then
    match n % 4 with
    | 0 => port.erasures
    | 1 => port.corrected
    | 2 => port.dropped
    | _ => 0
  else
    match n with
    | 0x0000 => w s.tick
    | 0x0001 => w (s.cycles s.cur.tile)
    | 0x0002 => w x.done0
    | 0x0003 => w b.total
    | 0x0004 => w (b.cycles % 2 ^ 48)
    | 0x0010 => x.lsStalls
    | 0x0011 => x.bubbles
    | 0x0012 => x.marker
    | 0x0013 => x.markers
    | 0x0014 => x.ecc
    | 0x0320 => k.combOver
    | 0x0321 => k.lostSlips
    | 0x0322 => k.migSlips
    | 0x0323 => k.ecc
    | 0x0324 => k.hbmEcc
    | 0x0325 => k.mscHits
    | 0x0326 => k.mscMisses
    | 0x0327 => k.mscAllocs
    | 0x0328 => k.droppedRecs
    | _ => 0

def execPerfrd (h : Hdr) (d a : Reg) (s : State) : Out :=
  let ks := s.on h
  if s.pendOn ks [a, d] then s.stalled
  else (s.each ks fun s k =>
    s.fly (onCl s.cur k) 1 (.reg d (s.perfVal (((s.startCl k).reg a).extractLsb' 0 16).toNat) false) fNone).done

end Sys2Proof.Machine
end

