-- ==== Sys2Proof/Machine/HostIf.lean ====
section
/-!
DEFINITION. The host and the control die: the device-memory window and the control window (R307, R358, R415, R417), bring-up
and attestation (R420-R422), power limits, temperature and cold reset (R363, R423, R424).
-/

namespace Sys2Proof.Machine

/-! ### Launch queues (Table launch 2) -/

/-- One configuration word of a queue; a word giving Size 13-15 is discarded. -/
def LQ.configure (x : LQ) (word : Nat) (v : Word) : LQ :=
  let n := v.toNat
  let y := { x with head := 0, tail := 0, judged := none }
  match word with
  | 0 => { y with base := n / 64 % 2 ^ 34 * 64 }
  | 1 => if 13 ≤ n % 16 then x else { y with size := n % 16, fed := v.getLsbD 4 }
  | 2 => { y with cbase := n / 16 % 2 ^ 36 * 16 }
  | _ => { y with vector := n % 256 }

def execHostQueueConfigWrite (q word : Nat) (v : Word) (s : State) : Out :=
  if !(u16 q && decide (word < 4)) then .fault .noSuchUnit
  else if !s.up then .next s
  else .next (s.modLq q fun x => x.configure word v)

/-- A tail doorbell: accepted from the current Tail to Head plus the queue's slots, both ends included. -/
def LQ.doorbell (x : LQ) (v : Nat) : LQ :=
  let d := (v + 2 ^ 28 - x.head) % 2 ^ 28
  let cur := (x.tail + 2 ^ 28 - x.head) % 2 ^ 28
  if x.size == 0 || x.fed || d < cur || 2 ^ x.size < d then { x with overrun := true } else { x with tail := v }

def execHostTailWrite (q : Nat) (v : Word) (s : State) : Out :=
  if !(u16 q) then .fault .noSuchUnit
  else if !s.up then .next s
  else .next (s.modLq q fun x => x.doorbell (v.toNat % 2 ^ 28))

/-! ### The calendar (R358, Table tab 6) -/

/-- Eight owners of a configuration word, one a byte. -/
def ownersOf (v : Word) : List (BitVec 5) := (List.range 8).map fun i => v.extractLsb' (8 * i) 5

def execCalendarConfigWrite (t word : Nat) (v : Word) (s : State) : Out :=
  if !(u16 t && decide (word < 4)) then .fault .noSuchUnit
  else if !s.up then .next s
  else
    .next <| s.modTile t fun x =>
      let c := x.calNext.getD x.cal
      { x with calNext := some (c.take (8 * word) ++ ownersOf v ++ c.drop (8 * word + 8)) }

/-! ### Plain fields of the control window (Table host 1) -/

/-- A write to a field without behaviour of its own; before the release only Identity and Master take one. -/
def execHostRegisterWrite (off : Nat) (v : Word) (s : State) : Out :=
  let w := s.cw
  .next <|
    match off with
    | 0x0000 => { s with cw := { w with identity := v &&& 0xFFFFFF, named := true } }
    | 0x0010 => { s with cw := { w with master := v &&& 1 } }
    | _ =>
      if !s.up then s
      else
        match off with
        | 0x0018 => { s with cw := { w with quiesce := v.getLsbD 0 } }
        | 0x1018 => { s with cw := { w with cueLen := v.toNat % 2 ^ 13 } }
        | 0x3000 => { s with cw := { w with fring := v &&& 0xFFFFFFFFFFFFFFCF } }
        -- operations 6 and 7 are none: the field holds what is written, and no step is made
        | 0x4000 => if 6 ≤ v.toNat / 2 ^ 52 % 8 then { s with cw := { w with frame := v &&& 0x7FFFFFFFFFFFFF } } else s
        | 0x4008 => { s with cw := { w with frameB := v &&& 0xFFFF } }
        | _ => s

/-! ### Frame steps (R417) -/

/-- One frame-table step of the host, as a supervisor FRAMEOP makes it; one that must wait comes again in the next tick,
and an address that FRAMEOP refuses performs no step. A shootdown ends once the accesses to the frame that were translated
before it have been performed: those with a number under `below`, 0 before it is made (R411, R413). -/
def hostFrame (op : Nat) (a b : Word) (below : Nat) (s : State) : Out :=
  let a := a &&& 0xFFFFFFFFFFFFF
  let b := b &&& 0xFFFF
  if !s.up then .next s
  else
    let s := { s with cw := { s.cw with frame := a ||| BitVec.ofNat 64 (op * 2 ^ 52), frameB := b } }
    match s.frameArg op a with
    | none => .next s
    | some f =>
      let later := fun (s : State) (n : Nat) => ({ s with inputs := (s.tick + 1, .frame op a b n) :: s.inputs } : State)
      match if below == 0 then s.frameStep op f b else some (0, s) with
      | some (v, s) =>
        let n := if below == 0 then s.nextId else below
        if op == 5 && s.reqs.any (fun q => decide (q.id < n) && q.inFrame f) then .next (later s n)
        else .next { s with cw := { s.cw with frameR := BitVec.ofNat 64 v } }
      | none => .next (later s 0)

def execHostFrameRead (a b : Word) (s : State) : Out := hostFrame 0 a b 0 s
def execHostFrameAdjust (a b : Word) (s : State) : Out := hostFrame 1 a b 0 s
def execHostFrameFlags (a b : Word) (s : State) : Out := hostFrame 2 a b 0 s
def execHostFramePush (a b : Word) (s : State) : Out := hostFrame 3 a b 0 s
def execHostFramePop (a b : Word) (s : State) : Out := hostFrame 4 a b 0 s
def execHostFrameShoot (a b : Word) (s : State) : Out := hostFrame 5 a b 0 s

/-! ### The device-memory window (R415) -/

/-- The host writes: bytes of the reserved regions are discarded. -/
def State.hostWrite (s : State) (a : Nat) (bs : List Byte) : State :=
  (pieces 64 a bs).foldl (fun s p => if paReserved p.1 then s else s.homeWrite p.1 p.2 16) s

/-- The host asks for the bytes of a range, line by line; those of the reserved regions are zero. -/
def State.hostAsk (s : State) (a n : Nat) : State :=
  (pieces 64 a (List.replicate n 0)).foldl (fun s p =>
    if paReserved p.1 then s
    else s.request .host (.read p.2.length) (.hbm p.1) .host .plain .sys false false)
    { s with cw := { s.cw with reading := some (a, n) } }

/-- What a line of the host's read brought: free values, the `n`-th of them, in the place of uncorrectable bytes. -/
def Req.hostBytes (n : Nat) (r : Req) : List Byte :=
  match r.stage with
  | .reply bs _ false => bs
  | _ => (List.range r.op.size).map fun i => Config.lostByte n (64 * r.id + i)

/-- The lines of the host's read, in order, as the bytes of its range. -/
def hostData (n : Nat) : List (Nat × List Byte) → List Req → List Byte
  | [], _ => []
  | p :: ps, rs =>
    if paReserved p.1 then p.2 ++ hostData n ps rs
    else
      match rs with
      | [] => p.2 ++ hostData n ps []
      | r :: rs => r.hostBytes n ++ hostData n ps rs

/-- A read of the host ends once all its lines have come; a line that was uncorrectable gives a record of kind F. -/
def State.hostCollect (s : State) : State :=
  match s.cw.reading with
  | none => s
  | some (a, n) =>
    let rs := s.reqs.filter fun r => r.who == .host
    if !(rs.all fun r => r.stage.isReply && decide (r.due ≤ s.quantum)) then s
    else
      let s := (rs.filterMap (·.cell)).foldl (fun s b =>
        s.raise false (ueccRec b (paTile b.span.1) 0 kindF 7 false)) s
      { s with reqs := s.reqs.filter fun r => r.who != .host, fresh := s.fresh + 1,
               cw := { s.cw with readData := hostData s.fresh (pieces 64 a (List.replicate n 0)) rs, reading := none } }

/-- A host access; one that follows a read still under way waits for it (R273, R415). -/
def execHostMemoryAccess (wr : Bool) (addr n : Nat) (data : List Byte) (s : State) : Out :=
  if 2 ^ 40 < addr + (if wr then data.length else n) then .fault .noSuchUnit
  else if !s.up then .next s
  else if s.cw.reading.isSome then
    .next { s with inputs := (s.tick + 1, .access wr addr n data) :: s.inputs }
  else .next (if wr then s.hostWrite addr data else s.hostAsk addr n)

/-! ### Power limits and temperature (R363, R364, R423) -/

/-- A new Ceiling; a Point above it is lowered at the next tick. -/
def Tile.setCeiling (x : Tile) (v : Nat) : Tile :=
  let p := x.pointNext.getD x.point
  { x with ceiling := v, pointNext := if v < p then some v else x.pointNext }

/-- `which` 0-15 is a tile's Ceiling, 16-31 a tile's Floor, 32 the budget; values the interface refuses change nothing. -/
def execPldmPowerSet (which v : Nat) (s : State) : Out :=
  if 32 < which then .fault .noSuchUnit
  else if !s.up then .next s
  else if which == 32 then .next { s with budget := v }
  else
    let t := which % 16
    let x := s.tile t
    if which < 16 then
      if 5 < v || v < x.floor then .next s else .next (s.modTile t fun x => x.setCeiling v)
    else if 5 < v || x.ceiling < v then .next s
    else .next (s.modTile t fun x => { x with floor := v })

def execThermalHold (t : Nat) (s : State) : Out :=
  if !(u16 t) then .fault .noSuchUnit
  else .next (s.modTile t fun x => { x with hot := true, pointNext := some 0 })

def execThermalRelease (t : Nat) (s : State) : Out :=
  if !(u16 t) then .fault .noSuchUnit
  else .next (s.modTile t fun x => { x with hot := false })

/-- Cold reset: every record of the manual at its reset value; what lies outside the module, the fuses and the spent
signatures stay (R421, R422, R424). -/
def State.cold (s : State) : State :=
  { State.reset with
    hostMem := s.hostMem, pool := s.pool, refused := s.refused, inputs := s.inputs, fresh := s.fresh,
    rot := { Rot.reset with keyFuse := s.rot.keyFuse, versionFuse := s.rot.versionFuse, sigsLeft := s.rot.sigsLeft } }

def execColdReset (s : State) : Out := .next s.cold

/-- A tile above 115 °C cold-resets the module (R423). -/
def execThermalTrip (t : Nat) (s : State) : Out := if !(u16 t) then .fault .noSuchUnit else .next s.cold

/-! ### Bring-up (R420, R421) -/

/-- LS, TSM and HBM are zeroed and every free list is empty (R236, stage 6). -/
def State.zeroed (s : State) : State :=
  let s := s.allTiles fun x =>
    { x with tsm := [], cores := x.cores.map fun e => (e.1, { e.2 with ls := [] }), msc := [], wq := [], freeHead := 0,
             freeCount := 0 }
  { s with hbm := [], bad := s.bad.filter fun b => b.mem == 4 || b.mem == 5 }

/-- The failure code of a stage's work, 0 when it passes (Table host 2). -/
def stageCode (stage : Nat) (r : Nat) (old : Bool) : Nat :=
  if stage == 1 then (if r % 2 == 1 then 1 else if old then 2 else 0)
  else if stage == 8 || r % 2 == 0 then 0
  else stage + 1

/-- What a stage that passes leaves. -/
def State.stageWork (s : State) (stage r : Nat) (version : Word) : State :=
  match stage with
  | 1 => { s with rot := { s.rot with versionFuse := if s.rot.versionFuse < version then version else s.rot.versionFuse } }
  | 4 => { s with cw := { s.cw with edges := BitVec.ofNat 6 (r / 2) } }
  | 6 => s.zeroed
  | 7 => if s.cw.master.getLsbD 0 then s else { s with tick := Config.masterTick s.fresh % 2 ^ 64 }
  | _ => s

/-- The next stage of bring-up: its image is measured and its work passes or fails; a failed stage holds, and stage 7
waits for Identity. -/
def execBringupStage (s : State) : Out :=
  let k := s.cw.stage + 1
  if 8 < k || s.cw.failCode != 0 || (k == 7 && !s.cw.named) then .next s
  else
    let (f, s) := s.freshVal
    let r := Config.bringupResult f
    let v := Config.imageVersion f
    let code := stageCode k r (decide (v < s.rot.versionFuse))
    let s := { s with rot := { s.rot with measures := s.rot.measures.set (k - 1) (Config.measurement f) },
                      cw := { s.cw with stage := k, failCode := code } }
    .next (if code == 0 then s.stageWork k r v else s)

/-! ### Attestation (R422) -/

/-- The response: measurements, nonce, module id and the signature of the key's next leaf; refused with 0x0E once the
signatures are spent. -/
def execAttestationRequest (nonce : BitVec 256) (s : State) : Out :=
  let r := s.rot
  if !s.up then .next s
  else if r.sigsLeft == 0 then .next { s with rot := { r with response := [], status := 0x0E } }
  else
    let body := r.measures.flatMap (fun m => leBytes 32 m.toNat) ++ leBytes 32 nonce.toNat ++ leBytes 2 s.moduleId
    let sig := leBytes 1612 (Config.attestSignature (32768 - r.sigsLeft))
    .next { s with rot := { r with response := body ++ sig, status := 0, sigsLeft := r.sigsLeft - 1 } }

end Sys2Proof.Machine
end

