-- ==== Sys2Proof/Machine/Vector.lean ====
section
/-!
DEFINITION. The V class (spec 06, R144-R168): lane-wise operations on panel rows, conversions, moves and reductions.
-/

namespace Sys2Proof.Machine

/-! ### Operand lanes (R145, R146, R70) -/

/-- The row number a reference selects in a cluster. -/
def State.rowNo (s : State) (k : Fin 4) (r : RowRef) : Nat := (s.curCl k).rowSel r.r

/-- Bytes of a row operand as read at issue. -/
def State.rowBytes (s : State) (k : Fin 4) (r : RowRef) : List Byte := s.curCore.row r.p (s.rowNo k r)

/-- Lanes of a row operand. -/
def State.lanes (s : State) (k : Fin 4) (t : Ty) (r : RowRef) : List Nat := lanesOf (tyWidth t) (s.rowBytes k r)

/-- Lanes of operand b: a row, or the low bits of a scalar in every lane (R70, R145). -/
def State.bLanes (s : State) (k : Fin 4) (t : Ty) (b : VB) : List Nat :=
  match b with
  | .row r => s.lanes k t r
  | .scalar x => List.replicate (tyLanes t) (((s.curCl k).reg x).toNat % 2 ^ tyWidth t)

/-- Rows and scalars that operand b names. -/
def bRows (b : VB) : List RowRef :=
  match b with
  | .row r => [r]
  | .scalar _ => []
def bRegs (b : VB) : List Reg :=
  match b with
  | .row _ => []
  | .scalar x => [x]

/-- A result to bytes of a destination row. -/
def State.flyRow (s : State) (k : Fin 4) (lat : Nat) (d : RowRef) (off : Nat) (bs : List Byte) (fl : FFlags) : State :=
  s.fly (onCl s.cur k) lat (.row d.p (s.rowNo k d) off bs) fl

/-- An operation that names the rows `all`, reads the rows `srcs`, with their scale tags where `tags`, and the scalars
`regs` (R97, R144, R146-R148). -/
def vOp (h : Hdr) (all srcs : List RowRef) (regs : List Reg) (act : State → Fin 4 → State) (s : State)
    (tags : Bool := false) : Out :=
  let ks := s.on h
  if s.pendOn ks (regs ++ selRegs (all.map (·.r))) then s.stalled
  else
    match s.rowCheck ks all srcs tags with
    | .wait => s.stalled
    | .trap c k e aux => s.trapped c k e aux
    | .go => (ks.foldl act s).done

/-- The lanes of a, b and the old d, index by index. -/
def zip3 (a b d : List Nat) : List (Nat × Nat × Nat) := a.zip (b.zip d)

/-- A lane-wise operation with an element function of a, b and the old d; every element draws in mode 6 (R42, R145). -/
def laneOp (h : Hdr) (t : Ty) (rm : Rnd) (lat : Nat) (readsD : Bool) (d a : RowRef) (b : VB)
    (f : FEnv → Nat × Nat × Nat → Nat × FFlags) (s : State) : Out :=
  vOp h (d :: a :: bRows b) ((if readsD then [d] else []) ++ a :: bRows b) (bRegs b) (fun s k =>
    let c := s.curCl k
    let xs := zip3 (s.lanes k t a) (s.bLanes k t b) (s.lanes k t d)
    let (vs, fl, seed) := mapDraw (c.env rm) f c.srseed xs
    (s.modCurCl k fun c => { c with srseed := seed }).flyRow k lat d 0 (bytesOf (tyWidth t) vs) fl) s

/-- A lane-wise operation of row a alone. -/
def laneOp1 (h : Hdr) (t : Ty) (rm : Rnd) (lat : Nat) (d a : RowRef) (f : FEnv → Nat → Nat × FFlags) (s : State) : Out :=
  laneOp h t rm lat false d a (.row a) (fun env x => f env x.1) s

/-- The floating-point format of a type that has one. -/
def fpOf (t : Ty) : FFmt := (tyFmt t).getD fmtF32

/-! ### Floating-point lane arithmetic (R150-R153) -/

/-- An arithmetic operation on values read under FTZ (R44, R150). -/
def fpLane (t : Ty) (f : FFmt → FEnv → FVal → FVal → FVal → Nat × FFlags) (env : FEnv) (x : Nat × Nat × Nat) :
    Nat × FFlags :=
  let m := fpOf t
  f m env (m.readFtz env.ftz x.1) (m.readFtz env.ftz x.2.1) (m.readFtz env.ftz x.2.2)

def execVadd (h : Hdr) (t : Ty) (rm : Rnd) (d a : RowRef) (b : VB) (s : State) : Out :=
  laneOp h t rm 4 false d a b (fpLane t fun m env x y _ => m.add env x y) s
def execVsub (h : Hdr) (t : Ty) (rm : Rnd) (d a : RowRef) (b : VB) (s : State) : Out :=
  laneOp h t rm 4 false d a b (fpLane t fun m env x y _ => m.sub env x y) s
def execVmul (h : Hdr) (t : Ty) (rm : Rnd) (d a : RowRef) (b : VB) (s : State) : Out :=
  laneOp h t rm 4 false d a b (fpLane t fun m env x y _ => m.mul env x y) s
def execVfma (h : Hdr) (t : Ty) (rm : Rnd) (d a : RowRef) (b : VB) (s : State) : Out :=
  laneOp h t rm 4 true d a b (fpLane t fun m env x y z => m.fma env x y z) s
def execVmax (h : Hdr) (t : Ty) (d a : RowRef) (b : VB) (s : State) : Out :=
  laneOp h t .rne 4 false d a b (fun env x => (fpOf t).minmax true env.ftz x.1 x.2.1) s
def execVmin (h : Hdr) (t : Ty) (d a : RowRef) (b : VB) (s : State) : Out :=
  laneOp h t .rne 4 false d a b (fun env x => (fpOf t).minmax false env.ftz x.1 x.2.1) s

/-- The sign bit of a lane. -/
def signBit (t : Ty) : Nat := 2 ^ (tyWidth t - 1)

def execVabs (h : Hdr) (t : Ty) (d a : RowRef) (s : State) : Out :=
  laneOp1 h t .rne 4 d a (fun _ x => (x % signBit t, fNone)) s
def execVneg (h : Hdr) (t : Ty) (d a : RowRef) (s : State) : Out :=
  laneOp1 h t .rne 4 d a (fun _ x => (x ^^^ signBit t, fNone)) s

def execVscale (h : Hdr) (t : Ty) (rm : Rnd) (d a : RowRef) (b : VB) (s : State) : Out :=
  laneOp h t rm 4 false d a b (fun env x => (fpOf t).scale env x.1 (intOf true (tyWidth t) x.2.1)) s

/-- VEXP2, VLOG2, VRCP and VRSQ: latency 8 (R153). -/
def fpUnary (f : FFmt → FEnv → FVal → Nat × FFlags) (h : Hdr) (t : Ty) (rm : Rnd) (d a : RowRef) (s : State) : Out :=
  laneOp1 h t rm 8 d a (fun env x => f (fpOf t) env ((fpOf t).readFtz env.ftz x)) s

def execVexp2 (h : Hdr) (t : Ty) (rm : Rnd) (d a : RowRef) (s : State) : Out := fpUnary FFmt.exp2 h t rm d a s
def execVlog2 (h : Hdr) (t : Ty) (rm : Rnd) (d a : RowRef) (s : State) : Out := fpUnary FFmt.log2 h t rm d a s
def execVrcp (h : Hdr) (t : Ty) (rm : Rnd) (d a : RowRef) (s : State) : Out := fpUnary FFmt.rcp h t rm d a s
def execVrsq (h : Hdr) (t : Ty) (rm : Rnd) (d a : RowRef) (s : State) : Out := fpUnary FFmt.rsqrt h t rm d a s

/-! ### Conversions (R154-R156) -/

/-- A lane's value before conversion. -/
inductive LaneV where
  | fp (v : FVal)
  | int (z : Int)
  deriving Repr

/-- A floating-point value times a power of two. -/
def FVal.shift (v : FVal) (k : Int) : FVal :=
  match v with
  | .fin n m e => .fin n m (e + k)
  | v => v

/-- The value of a lane; a type-5 lane takes the block scale of its tag byte (R155, R38). -/
def laneVal (ftz : Bool) (t : Ty) (tag c : Nat) : LaneV :=
  match t, tyFmt t with
  | .e2m1, _ => if tag == 255 then .fp (.nan false) else .fp ((fmtE2M1.read c).shift ((tag : Int) - 127))
  | _, some f => .fp (f.readFtz ftz c)
  | t, none => .int (intOf (tySigned t) (tyWidth t) c)

/-- Convert a value to a lane of type `dt`, other than type 5 (R154, R46). -/
def laneTo (dt : Ty) (env : FEnv) (v : LaneV) : Nat × FFlags :=
  let w := tyWidth dt
  match tyFmt dt, v with
  | some f, .fp v => f.ofVal env v
  | some f, .int z => f.ofInt env z
  | none, .fp v =>
    let (z, fl) := fToInt env (intLo (tySigned dt) w) (intHi (tySigned dt) w) v
    (codeOf w z, fl)
  | none, .int z => (codeOf w z, fNone)

/-- The value as floating point. -/
def LaneV.toF : LaneV → FVal
  | .fp v => v
  | .int z => .fin (decide (z < 0)) z.natAbs 0

/-- floor(log2) of a finite nonzero magnitude. -/
def FVal.expo (v : FVal) : Option Int :=
  match v with
  | .fin _ m e => if m == 0 then none else some ((m.log2 : Int) + e)
  | _ => none

/-- The scale of a block converted to FP4 (R39). -/
def blockScale (vs : List LaneV) : Nat :=
  if vs.any fun v => v.toF.isNan then 255
  else
    match (vs.filterMap fun v => v.toF.expo) with
    | [] => 0
    | e :: es => (max (-127) (min 127 (es.foldl max e - 2)) + 127).toNat

/-- Convert one element of a block with its scale to FP4 (R39). -/
def laneToFp4 (env : FEnv) (x : Nat × LaneV) : Nat × FFlags :=
  if x.1 == 255 then (0, fNV) else fmtE2M1.ofVal env (x.2.toF.shift (127 - (x.1 : Int)))

/-- Groups of 32. -/
def blocks32 : Nat → List LaneV → List (List LaneV)
  | 0, _ => []
  | n + 1, vs => vs.take 32 :: blocks32 n (vs.drop 32)

/-- How rows of unequal width join: lanes converted, first source lane and first destination lane (R154). -/
def joinParts (dt st : Ty) (ra rd : Nat) : Nat × Nat × Nat :=
  let ws := tyWidth st
  let wd := tyWidth dt
  let n := 4096 / max ws wd
  if wd < ws then (n, 0, ra % (ws / wd) * n)
  else if ws < wd then (n, rd % (wd / ws) * n, 0)
  else (n, 0, 0)

/-- The source values of a conversion in a cluster. -/
def State.convSrc (s : State) (k : Fin 4) (ftz : Bool) (st : Ty) (a : RowRef) (first n : Nat) : List LaneV :=
  let tags := s.curCore.tagRow a.p (s.rowNo k a)
  (((s.lanes k st a).drop first).take n).zipIdx.map fun (c, i) =>
    laneVal ftz st ((tags.getD ((first + i) / 32) 0).toNat) c

def execVcvt (h : Hdr) (dt t : Ty) (rm : Rnd) (d a : RowRef) (s : State) : Out :=
  vOp h [d, a] [a] [] (fun s k =>
    let c := s.curCl k
    let env := c.env rm
    let (n, fa, fd) := joinParts dt t (s.rowNo k a) (s.rowNo k d)
    let vs := s.convSrc k env.ftz t a fa n
    let w := tyWidth dt
    if dt == .e2m1 then
      let bs := blocks32 (n / 32) vs
      let xs := bs.flatMap fun b => let sc := blockScale b; b.map fun v => (sc, v)
      let (rs, fl, seed) := mapDraw env laneToFp4 c.srseed xs
      let s := s.modCurCl k fun c => { c with srseed := seed }
      (s.flyRow k 4 d (fd / 2) (bytesOf 4 rs) fl).fly (onCl s.cur k) 4
        (.tag d.p (s.rowNo k d) (fd / 32) (bs.map fun b => BitVec.ofNat 8 (blockScale b))) fNone
    else
      let (rs, fl, seed) := mapDraw env (laneTo dt) c.srseed vs
      (s.modCurCl k fun c => { c with srseed := seed }).flyRow k 4 d (fd * w / 8) (bytesOf w rs) fl) s (t == .e2m1)

def execVsatn (h : Hdr) (dt t : Ty) (d a : RowRef) (s : State) : Out :=
  vOp h [d, a] [a] [] (fun s k =>
    let (n, fa, fd) := joinParts dt t (s.rowNo k a) (s.rowNo k d)
    let w := tyWidth dt
    let rs := (((s.lanes k t a).drop fa).take n).map fun c =>
      codeOf w (satInt (tySigned dt) w (intOf true (tyWidth t) c))
    s.flyRow k 4 d (fd * w / 8) (bytesOf w rs) fNone) s

/-! ### Compare and select (R157, R158) -/

/-- A comparison of integer lanes (R157). -/
def icmpLane (c : FCond) (x y : Int) : Bool :=
  match c with
  | .eq => x == y
  | .ne => x != y
  | .lt => decide (x < y)
  | .le => decide (x ≤ y)
  | .gt => decide (y < x)
  | .ge => decide (y ≤ x)
  | .un => false
  | .ord => true

/-- A comparison of two lanes (R157). -/
def cmpLane (t : Ty) (c : FCond) (ftz : Bool) (x y : Nat) : Bool × FFlags :=
  match tyFmt t with
  | some f => fcmp c f ftz x y
  | none => (icmpLane c (intOf (tySigned t) (tyWidth t) x) (intOf (tySigned t) (tyWidth t) y), fNone)

def execVcmp (h : Hdr) (t : Ty) (c : FCond) (d a : RowRef) (b : VB) (s : State) : Out :=
  laneOp h t .rne 4 false d a b (fun env x =>
    let (r, fl) := cmpLane t c env.ftz x.1 x.2.1
    (if r then 2 ^ tyWidth t - 1 else 0, fl)) s

def execVsel (h : Hdr) (t : Ty) (d a : RowRef) (b : VB) (s : State) : Out :=
  laneOp h t .rne 4 true d a b (fun _ x => (if signBit t ≤ x.2.2 then x.1 else x.2.1, fNone)) s

/-! ### Integer lane arithmetic (R159-R161) -/

/-- An integer operation on lanes read by the type's signedness; the result wraps (R159). -/
def intLane (h : Hdr) (t : Ty) (readsD : Bool) (d a : RowRef) (b : VB) (f : Int → Int → Int → Int) (s : State) : Out :=
  let z := intOf (tySigned t) (tyWidth t)
  laneOp h t .rne 4 readsD d a b (fun _ x => (codeOf (tyWidth t) (f (z x.1) (z x.2.1) (z x.2.2)), fNone)) s

/-- Saturate when selected (R159). -/
def satIf (sat : Bool) (t : Ty) (z : Int) : Int := if sat then satInt (tySigned t) (tyWidth t) z else z

def execViadd (h : Hdr) (t : Ty) (sat : Bool) (d a : RowRef) (b : VB) (s : State) : Out :=
  intLane h t false d a b (fun x y _ => satIf sat t (x + y)) s
def execVisub (h : Hdr) (t : Ty) (sat : Bool) (d a : RowRef) (b : VB) (s : State) : Out :=
  intLane h t false d a b (fun x y _ => satIf sat t (x - y)) s
def execVimul (h : Hdr) (t : Ty) (d a : RowRef) (b : VB) (s : State) : Out :=
  intLane h t false d a b (fun x y _ => x * y) s
def execVimac (h : Hdr) (t : Ty) (d a : RowRef) (b : VB) (s : State) : Out :=
  intLane h t true d a b (fun x y z => z + x * y) s
def execVimax (h : Hdr) (t : Ty) (d a : RowRef) (b : VB) (s : State) : Out :=
  intLane h t false d a b (fun x y _ => max x y) s
def execVimin (h : Hdr) (t : Ty) (d a : RowRef) (b : VB) (s : State) : Out :=
  intLane h t false d a b (fun x y _ => min x y) s

def execVrshr (h : Hdr) (t : Ty) (rm : Rnd) (d a : RowRef) (b : VB) (s : State) : Out :=
  laneOp h t rm 4 false d a b (fun env x =>
    let z := intOf true (tyWidth t) x.1
    (codeOf (tyWidth t) (roundInt env (decide (z < 0)) z.natAbs (-(x.2.1 : Int))).1, fNone)) s

def execVand (h : Hdr) (t : Ty) (d a : RowRef) (b : VB) (s : State) : Out :=
  laneOp h t .rne 4 false d a b (fun _ x => (x.1 &&& x.2.1, fNone)) s
def execVor (h : Hdr) (t : Ty) (d a : RowRef) (b : VB) (s : State) : Out :=
  laneOp h t .rne 4 false d a b (fun _ x => (x.1 ||| x.2.1, fNone)) s
def execVxor (h : Hdr) (t : Ty) (d a : RowRef) (b : VB) (s : State) : Out :=
  laneOp h t .rne 4 false d a b (fun _ x => (x.1 ^^^ x.2.1, fNone)) s

def execVshl (h : Hdr) (t : Ty) (d a : RowRef) (b : VB) (s : State) : Out :=
  let w := tyWidth t
  laneOp h t .rne 4 false d a b (fun _ x => (if w ≤ x.2.1 then 0 else x.1 * 2 ^ x.2.1 % 2 ^ w, fNone)) s

/-- A logical or arithmetic shift right of a lane of `w` bits (R161). -/
def shrLane (arith : Bool) (w x c : Nat) : Nat :=
  if arith then codeOf w (intOf true w x / 2 ^ min c w) else if w ≤ c then 0 else x / 2 ^ c

def execVshr (h : Hdr) (t : Ty) (arith : Bool) (d a : RowRef) (b : VB) (s : State) : Out :=
  laneOp h t .rne 4 false d a b (fun _ x => (shrLane arith (tyWidth t) x.1 x.2.1, fNone)) s

/-! ### Moves, lanes and permutes (R162-R167) -/

def execVmov (h : Hdr) (_t : Ty) (d a : RowRef) (s : State) : Out :=
  vOp h [d, a] [a] [] (fun s k =>
    (s.flyRow k 4 d 0 (s.rowBytes k a) fNone).fly (onCl s.cur k) 4
      (.tag d.p (s.rowNo k d) 0 (s.curCore.tagRow a.p (s.rowNo k a))) fNone) s true

def execVbcast (h : Hdr) (t : Ty) (d : RowRef) (a : Reg) (s : State) : Out :=
  vOp h [d] [] [a] (fun s k => s.flyRow k 4 d 0 (bytesOf (tyWidth t) (s.bLanes k t (.scalar a))) fNone) s

/-- A lane as a scalar: sign-extended for signed integer types (R164, R168). -/
def laneScalar (t : Ty) (c : Nat) : Word :=
  if tySigned t then BitVec.ofInt 64 (intOf true (tyWidth t) c) else BitVec.ofNat 64 c

def execVext (h : Hdr) (t : Ty) (d : Reg) (a : RowRef) (idx : Reg) (s : State) : Out :=
  if s.pendOn (s.on h) [d] then s.stalled
  else
    vOp h [a] [a] [idx] (fun s k =>
      let j := ((s.curCl k).reg idx).toNat % tyLanes t
      s.fly (onCl s.cur k) 4 (.reg d (laneScalar t ((s.lanes k t a).getD j 0)) false) fNone) s

def execVins (h : Hdr) (t : Ty) (d : RowRef) (a idx : Reg) (s : State) : Out :=
  vOp h [d] [] [a, idx] (fun s k =>
    let j := ((s.curCl k).reg idx).toNat % tyLanes t
    let n := tyWidth t / 8
    s.flyRow k 4 d (j * n) (leBytes n ((s.curCl k).reg a).toNat) fNone) s

/-- A row slid by `c` lanes, zeros entering (R165). -/
def slide (up : Bool) (c : Nat) (xs : List Nat) : List Nat :=
  let n := xs.length
  let c := min c n
  if up then List.replicate c 0 ++ xs.take (n - c) else xs.drop c ++ List.replicate c 0

def execVslide (h : Hdr) (t : Ty) (up : Bool) (d a : RowRef) (cnt : Reg) (s : State) : Out :=
  vOp h [d, a] [a] [cnt] (fun s k =>
    s.flyRow k 4 d 0 (bytesOf (tyWidth t) (slide up ((s.curCl k).reg cnt).toNat (s.lanes k t a))) fNone) s

/-- The lane that index `b` of position `i` takes (R166). -/
def permIdx (t : Ty) (i b : Nat) : Nat := if tyWidth t == 8 then i / 256 * 256 + b else b % tyLanes t

def execVperm (h : Hdr) (t : Ty) (d a b : RowRef) (s : State) : Out :=
  vOp h [d, a, b] [a, b] [] (fun s k =>
    let xs := (s.lanes k t a).toArray
    s.flyRow k 4 d 0 (bytesOf (tyWidth t)
      ((s.lanes k t b).zipIdx.map fun (x, i) => xs.getD (permIdx t i x) 0)) fNone) s

def execViota (h : Hdr) (t : Ty) (d : RowRef) (s : State) : Out :=
  vOp h [d] [] [] (fun s k =>
    s.flyRow k 4 d 0 (bytesOf (tyWidth t) ((List.range (tyLanes t)).map fun i => i % 2 ^ tyWidth t)) fNone) s

/-! ### Row reductions (R168, R50, R51) -/

/-- A reduction to a scalar: latency 10 (R94). -/
def redOp (h : Hdr) (ds : List Reg) (a : RowRef) (act : State → Fin 4 → State) (s : State) : Out :=
  if s.pendOn (s.on h) ds then s.stalled else vOp h [a] [a] [] act s

/-- Neighbouring pairs. -/
def pairs : List FVal → List (FVal × FVal)
  | x :: y :: r => (x, y) :: pairs r
  | _ => []

/-- The pairwise tree of R50: `n` levels over the values, the last sum, the flags and the generator's state. -/
def sumTree (env : FEnv) : Nat → List FVal → FFlags → Word → Nat × FFlags × Word
  | 0, vs, fl, seed => ((match vs with | v :: _ => (fmtF32.ofVal envRne v).1 | [] => 0), fl, seed)
  | n + 1, vs, fl, seed =>
    let (rs, f, seed) := mapDraw env (fun env p => fmtF32.add env p.1 p.2) seed (pairs vs)
    match rs with
    | [r] => (r, fl ||| f, seed)
    | rs => sumTree env n (rs.map (fmtF32.readFtz env.ftz)) (fl ||| f) seed

def execVrsum (h : Hdr) (t : Ty) (rm : Rnd) (d : Reg) (a : RowRef) (s : State) : Out :=
  redOp h [d] a (fun s k =>
    let c := s.curCl k
    let env := c.env rm
    let (v, fl, seed) := sumTree env 9 ((s.lanes k t a).map ((fpOf t).readFtz env.ftz)) fNone c.srseed
    (s.modCurCl k fun c => { c with srseed := seed }).fly (onCl s.cur k) 10 (.reg d (BitVec.ofNat 64 v) false) fl) s

def execVrisum (h : Hdr) (t : Ty) (d : Reg) (a : RowRef) (s : State) : Out :=
  redOp h [d] a (fun s k =>
    let z := (s.lanes k t a).foldl (fun z c => z + intOf (tySigned t) (tyWidth t) c) (0 : Int)
    s.fly (onCl s.cur k) 10 (.reg d (BitVec.ofInt 64 z) false) fNone) s

/-- The lane of highest (or lowest) key, the lower index among equals: its index and code (R51). -/
def rankBest (t : Ty) (isMax : Bool) (xs : List Nat) : Nat × Nat :=
  match xs.zipIdx with
  | [] => (0, 0)
  | (x, i) :: r =>
    r.foldl (fun (b : Nat × Nat) (e : Nat × Nat) =>
      let better := if isMax then decide (rankKeyTy t b.2 < rankKeyTy t e.1) else decide (rankKeyTy t e.1 < rankKeyTy t b.2)
      if better then (e.2, e.1) else b) (i, x)

def rankOp (isMax : Bool) (h : Hdr) (t : Ty) (d : Reg) (a : RowRef) (s : State) : Out :=
  redOp h [d] a (fun s k =>
    s.fly (onCl s.cur k) 10 (.reg d (laneScalar t (rankBest t isMax (s.lanes k t a)).2) false) fNone) s

def execVrmax (h : Hdr) (t : Ty) (d : Reg) (a : RowRef) (s : State) : Out := rankOp true h t d a s
def execVrmin (h : Hdr) (t : Ty) (d : Reg) (a : RowRef) (s : State) : Out := rankOp false h t d a s

def execVargmax (h : Hdr) (t : Ty) (d i : Reg) (a : RowRef) (s : State) : Out :=
  redOp h [d, i] a (fun s k =>
    let (j, c) := rankBest t true (s.lanes k t a)
    (s.fly (onCl s.cur k) 10 (.reg d (laneScalar t c) false) fNone).fly (onCl s.cur k) 10
      (.reg i (BitVec.ofNat 64 j) false) fNone) s

end Sys2Proof.Machine
end

