-- ==== Sys2Proof/Machine/Matrix.lean ====
section
/-!
DEFINITION. The matrix engine (spec 07): its window, starts and completions, and the arithmetic of MMA, MZERO, MCVT and
MTRN.
-/

namespace Sys2Proof.Machine

/-! ### Entries (Table matrix 3, Table matrix 4) -/

/-- Sources of an entry by its opcode. -/
def Slot.matSrcs (e : Slot) : List Pan :=
  match e.opcode with
  | 0 => [e.pa, e.pb, e.pb + 1]
  | 2 => []
  | _ => [e.pa]

/-- Every panel an entry names. -/
def Slot.matPans (e : Slot) : List Pan := e.pd :: e.matSrcs

/-- Duration in cycles (Table matrix 3). -/
def Slot.matCycles (e : Slot) : Nat :=
  match e.opcode with
  | 0 => 128
  | 2 => 16
  | _ => 64

/-- The panels allow the entry to start (Table matrix 4). -/
def Core.matReady (x : Core) (e : Slot) : Bool :=
  x.panelIn e.pd (if e.opcode == 0 then [.ready] else [.empty, .ready]) && e.matSrcs.all fun p => x.panelIn p [.ready]

/-- Two entries share a panel that one of them writes (R172). -/
def matConflict (a b : Slot) : Bool := b.matPans.contains a.pd || a.matPans.contains b.pd

/-! ### Window and start (R169, R172) -/

/-- The ring head enters the lowest free window slot (R169, R172). -/
def execMatrixWindowEntry (t c : Nat) (s : State) : Out :=
  if !(u16 t && u16 c) then .fault .noSuchUnit
  else
    let x := s.core t c
    match s.headOf t c .matrix with
    | none => .next s
    | some e =>
      match (List.range 4).find? fun n => !(x.mwin.ents.any fun m => m.n == n) with
      | none => .next s
      | some n =>
        if !x.waitMet e then .next s
        else
          match s.slotAsk t c .matrix 0 with
          | (false, s) => .next s
          | (true, s) =>
            .next <| s.modCore t c fun x =>
              let x := (x.takeWait e).popHead .matrix
              { x with mwin := { x.mwin with ents := x.mwin.ents ++ [⟨n, e⟩] } }

/-- The oldest entry that may start (R172). -/
def Core.matNext (x : Core) (may : MEnt → Bool) : List MEnt → List MEnt → Option MEnt
  | _, [] => none
  | older, m :: ms =>
    if may m && x.matReady m.e && !(older.any fun o => matConflict o.e m.e) then some m
    else x.matNext may (older ++ [m]) ms

/-- The engine starts an entry. An older entry of a company that is being saved does not start, and still holds back the
entries it conflicts with, for as long as it is in the window (R172, R182; log entry 61). -/
def execMatrixEntryStart (t c : Nat) (s : State) : Out :=
  if !(u16 t && u16 c) then .fault .noSuchUnit
  else
    let x := s.core t c
    if x.mwin.running != 4 || (x.sigs.get 0).held then .next s
    else
      match x.matNext (fun m => !s.coStops t m.e.companyId) [] x.mwin.ents with
      | none => .next s
      | some m =>
        .next <| s.modCore t c fun x =>
          { x.setPans m.e.matPans .busy with mwin := { x.mwin with running := m.n, remaining := m.e.matCycles } }

/-! ### Arithmetic (R176-R179) -/

/-- The elements of a row of type `t` as values (Table matrix 5). -/
def matElems (x : Core) (t : Ty) (k : Nat) (p : Pan) (r : Nat) : List FVal :=
  let tags := x.tagRow p r
  ((lanesOf (tyWidth t) (x.row p r)).take k).zipIdx.map fun (c, i) =>
    (laneVal false t (tags.getD (i / 32) 0).toNat c).toF

/-- K of a type (Table matrix 5). -/
def matK (t : Ty) : Nat := if t == .f32 then 16 else tyLanes t

/-- The panel and row of B column `j`. -/
def bColumn (e : Slot) (j : Nat) : Pan × Nat := if j < 64 then (e.pb, j) else (e.pb + 1, j - 64)

/-- One floating-point element: groups of 32 products, one rounding each; a NaN product sets NV (R49). -/
def mmaElem (d : Nat) (as bs : List FVal) : Nat × FFlags :=
  ((groups 32 64 as).zip (groups 32 64 bs)).foldl (fun (acc : Nat × FFlags) (g : List FVal × List FVal) =>
    let v := dotVals g.1 g.2
    let (r, f) := accF32 acc.1 (v.1, v.1.isNan)
    (r, acc.2 ||| f)) (d, fNone)

/-- One integer element: groups of 32 products, wrapping; OF when an exact sum leaves INT32 (R49). -/
def mmaIntElem (d : Nat) (as bs : List Int) : Nat × FFlags :=
  ((groups 32 64 as).zip (groups 32 64 bs)).foldl (fun (acc : Nat × FFlags) (g : List Int × List Int) =>
    let z := intOf true 32 acc.1 + (g.1.zipWith (· * ·) g.2).foldl (· + ·) 0
    (codeOf 32 z, acc.2 ||| flagIf (decide (z < intLo true 32) || decide (intHi true 32 < z)) fOF)) (d, fNone)

/-- The rows of the destination with the flags of a list of rows of elements. -/
def matRows (w : Nat) (rs : List (List (Nat × FFlags))) : List (List Byte) × FFlags :=
  (rs.map fun r => bytesOf w (r.map (·.1)), rs.foldl (fun f r => r.foldl (fun f e => f ||| e.2) f) fNone)

/-- MMA (R176). -/
def mmaRows (x : Core) (e : Slot) : List (List Byte) × FFlags :=
  let t := (Ty.ofCode (e.w0.extractLsb' 0 4)).getD .f32
  let k := matK t
  let d := fun i => lanesOf 32 (x.row e.pd i)
  if tyFmt t == none then
    let el := fun (p : Pan) (r : Nat) => (lanesOf 8 (x.row p r)).map (intOf (tySigned t) 8)
    let bs := (List.range 128).map fun j => let (p, r) := bColumn e j; el p r
    matRows 32 ((List.range 64).map fun i =>
      let a := el e.pa i
      ((d i).zip bs).map fun (d, b) => mmaIntElem d a b)
  else
    let bs := (List.range 128).map fun j => let (p, r) := bColumn e j; matElems x t k p r
    matRows 32 ((List.range 64).map fun i =>
      let a := matElems x t k e.pa i
      ((d i).zip bs).map fun (d, b) => mmaElem d a b)

/-- The rounding environment captured by an entry (R169, R178). -/
def Slot.env (e : Slot) : FEnv :=
  ⟨resolveRm ((Rnd.ofCode (e.w0.extractLsb' 6 3)).getD .dyn) (e.fctl.extractLsb' 0 3), e.fctl.getLsbD 3, e.fctl.getLsbD 4, 0⟩

/-- MCVT: 64 rows of 128 lanes, drawing in row order (R178). -/
def mcvtRows (x : Core) (e : Slot) : List (List Byte) × FFlags :=
  let t := (Ty.ofCode (e.w0.extractLsb' 0 4)).getD .f32
  let w := tyWidth t
  let src := (List.range 64).flatMap fun i => lanesOf 32 (x.row e.pa i)
  let (vs, fl, _) :=
    if (tyFmt t).isSome then mapDraw e.env (fun env c => laneTo t env (laneVal env.ftz .f32 0 c)) e.w2 src
    else (src.map fun c => codeOf w (satInt (tySigned t) w (intOf true 32 c)), fNone, 0)
  ((groups 128 64 vs).map (bytesOf w), fl)

/-- MTRN: every square tile of 64 elements transposed (R179). -/
def mtrnRows (x : Core) (e : Slot) : List (List Byte) :=
  let w := tyWidth ((Ty.ofCode (e.w0.extractLsb' 0 4)).getD .f32)
  let a := ((List.range 64).map fun i => (lanesOf w (x.row e.pa i)).toArray).toArray
  (List.range 64).map fun r =>
    bytesOf w ((List.range (4096 / w)).map fun l => (a.getD (l % 64) #[]).getD (l / 64 * 64 + r) 0)

/-- What the entry writes: rows of the destination, whether its tags become zero, and flags. -/
def matResult (x : Core) (e : Slot) : List (List Byte) × Bool × FFlags :=
  match e.opcode with
  | 0 => let (r, f) := mmaRows x e; (r, false, f)
  | 2 => (List.replicate 64 (List.replicate 512 0), true, fNone)
  | 3 => let (r, f) := mcvtRows x e; (r, false, f)
  | _ => (mtrnRows x e, false, fNone)

/-- The entry reads a panel's scale tags: an MMA of FP4 those of A and B (R176). -/
def Slot.readsTags (e : Slot) (p : Pan) : Bool :=
  e.opcode == 0 && e.w0.extractLsb' 0 4 == Ty.e2m1.code && e.matSrcs.contains p

/-- The panels an entry reads, D of an MMA included. -/
def Slot.matReads (e : Slot) : List Pan := if e.opcode == 0 then e.matPans else e.matSrcs

/-- The running entry's last cycle has ended: its destination is written, its panels become READY, its flags go out and
its signal follows; an uncorrectable row leaves the destination unwritten (R173, R177-R181), with a record whose address is the
row's byte offset in the panel file (the model's choice, log entry 51). -/
def execMatrixEntryComplete (t c : Nat) (s : State) : Out :=
  if !(u16 t && u16 c) then .fault .noSuchUnit
  else
    let x := s.core t c
    if x.mwin.remaining != 0 then .next s
    else
      match x.mwin.ents.find? fun m => m.n == x.mwin.running with
      | none => .next s
      | some m =>
        let e := m.e
        let s := s.modCore t c fun x =>
          { x.setPans e.matPans .ready with
            mwin := { x.mwin with ents := x.mwin.ents.filter (fun o => o.n != m.n), running := 4 } }
        match e.matReads.findSome? fun p => (s.badPanel t c p 64 (e.readsTags p)).map fun r => (p, r) with
        | some (p, r) =>
          .next ((s.raise false
            { mkRec cUECC t c kindF 1 (ueccPanelAux p r) (BitVec.ofNat 64 (panAddr p r)) with
              cl := e.clNo.val, bank := e.bankNo }).signal t c .matrix e)
        | none =>
          let (rows, zeroTags, fl) := matResult x e
          let s := s.putRows t c e.pd 0 rows
          let s := if zeroTags then s.zeroTags t c e.pd else s
          .next ((s.engineFlags t c e fl).signal t c .matrix e)

end Sys2Proof.Machine
end

