-- ==== Sys2Proof/Machine/Preempt.lean ====
section
/-!
DEFINITION. Pre-emption of companies (R326-R329): the cost estimator, draining, saving, discarding and restoring, with what
each engine does (R182, R192, R300, R347, R410).
-/

namespace Sys2Proof.Machine

/-! ### What a company holds -/

/-- Cores of a tile that hold anything. -/
def Tile.coreNos (x : Tile) : List Nat := x.cores.map (·.1)

/-- The bank holds a task of the launch. -/
def Bank.holds (b : Bank) (launch : Nat) : Bool := b.occ && (b.task.map (·.launch)) == some launch

/-- The banks of a core that hold a task of the launch. -/
def Core.banksOf (x : Core) (launch : Nat) : List Nat := [0, 1].filter fun b => (x.bank b).holds launch

/-- The entries of a ring, oldest first. -/
def Core.ringList (x : Core) (g : Eng) : List Slot :=
  let r := x.rings.get (engIdx g)
  (List.range r.count).map fun i => readSlot x.ls g (r.head + i)

/-- Rewrite a ring with these entries in consecutive slots from Head (Table eq 4). -/
def Core.putRing (x : Core) (g : Eng) (es : List Slot) : Core :=
  let r := x.rings.get (engIdx g)
  let ls := es.zipIdx.foldl (fun m (e, i) => mputs m (ringBase g + 64 * ((r.head + i) % 64)) e.bytes) x.ls
  { x with ls, rings := x.rings.set (engIdx g) ⟨r.head, (r.head + es.length) % 64, es.length⟩ }

def engines : List Eng := [.matrix, .proj, .courier, .port]

/-- The projection unit, or the courier, holds an entry of the company. -/
def Core.projOf (x : Core) (id : Nat) : Bool := x.proj.busy && x.proj.e.companyId == id
def Core.courOf (x : Core) (id : Nat) : Bool := x.cour.busy && !x.cour.act && x.cour.e.companyId == id

/-- The company's entries in a core's rings and engines (R327). -/
def Core.entryCount (x : Core) (id : Nat) : Nat :=
  engines.foldl (fun n g => n + ((x.ringList g).filter fun e => e.companyId == id).length)
    ((x.mwin.ents.filter fun m => m.e.companyId == id).length + (if x.projOf id then 1 else 0) +
      if x.courOf id then 1 else 0)

/-- Continuation records of a company. -/
def State.contsOf (s : State) (launch t : Nat) : List Nat :=
  (s.conts.filter fun e => e.2.task.launch == launch && e.2.tile == t).map (·.1)

/-- The launch record of a launch. -/
def State.launchRec (s : State) (launch : Nat) : List Byte :=
  ((s.launches.find? fun (l : Launch) => l.id == launch).map (·.recd)).getD []

/-! ### The cost estimator (R327) -/

def ceilDiv (a b : Nat) : Nat := (a + b - 1) / b

/-- rem of a task; none is infinite. -/
def Bank.rem (b : Bank) : Option Nat :=
  if b.total ≤ b.done then some 0
  else if b.done == 0 then none
  else some (ceilDiv (b.cycles * (b.total - b.done)) b.done)

/-- The greatest of sums over cores; none is infinite. -/
def maxOpt (xs : List (Option Nat)) : Option Nat :=
  xs.foldl (fun m x => match m, x with
    | some a, some b => some (max a b)
    | _, _ => none) (some 0)

def sumOpt (xs : List (Option Nat)) : Option Nat :=
  xs.foldl (fun m x => match m, x with
    | some a, some b => some (a + b)
    | _, _ => none) (some 0)

def popcount (n : Nat) : Nat := ((List.range 32).filter n.testBit).length

/-- S: the bytes of the save area's body. -/
def State.saveSize (s : State) (launch t : Nat) : Nat :=
  let r := s.launchRec launch
  let id := companyId launch
  (s.tile t).cores.foldl (fun n e =>
    let k := (e.2.banksOf launch).length
    if k == 0 then n
    else n + 4096 * k + 32768 * popcount (recField r 28 4) + 512 * recField r 62 2 + 64 * e.2.entryCount id) 0

/-- The action the estimator chooses: 0 drain, 1 discard, 2 save. -/
def State.chooseAction (s : State) (launch t Δ : Nat) : Nat :=
  let x := s.tile t
  let cd := if (x.ready.any fun e => e.launch == launch) || !(s.contsOf launch t).isEmpty then none
    else maxOpt (x.cores.map fun e => sumOpt ((e.2.banksOf launch).map fun b => (e.2.bank b).rem))
  let cl := (x.cores.map fun e => ((e.2.banksOf launch).map fun b => (e.2.bank b).cycles).foldl (· + ·) 0).foldl max 0
  let f := x.clk.mhz
  let ts := ceilDiv (s.saveSize launch t) 40960 + 4
  let drains := match cd with
    | some c => decide (ceilDiv (100 * c) f ≤ Δ)
    | none => false
  if drains then 0
  else if recRestart (s.launchRec launch) && (decide (ceilDiv (100 * cl) f ≤ ts) || decide (Δ < ts)) then 1
  else 2

/-! ### Save areas and completion (R328, R308) -/

/-- Module physical address of a tile's save area. -/
def saveAddr (t off : Nat) : Nat := t * 2 ^ 36 + off

/-- The header of a save area. -/
def saveHeader (launch t action size tick : Nat) : List Byte :=
  leBytes 8 (launch + t * 2 ^ 32 + action * 2 ^ 36) ++ leBytes 4 size ++ leBytes 8 tick ++ List.replicate 44 0

def State.modCompany (s : State) (launch t : Nat) (f : Company → Company) : State :=
  { s with companies := s.companies.map fun c => if c.launch == launch && c.tile == t then f c else c }

/-- The completion record of a pre-emption or restore whose tiles have all ended (R308, R326). -/
def State.preDone (s : State) (id : Nat) : State :=
  match s.preRecs.find? fun (p : PreRec) => p.id == id with
  | none => s
  | some p =>
    if p.actions.length < (recTiles p.recd).length || s.preempts.any fun (q : Preempt) => q.id == id then s
    else
      let late := p.actions.foldl (fun n a => if a.2.2 then n + 2 ^ a.1 else n) 0
      let acts := p.actions.foldl (fun n a => n + a.2.1 * 4 ^ a.1) 0
      { s with preRecs := s.preRecs.filter fun (q : PreRec) => q.id != id }.completion id 0 p.kind late acts

/-- A tile's action has ended. -/
def State.preReport (s : State) (id t action : Nat) (late : Bool) : State :=
  let s := { s with preRecs := s.preRecs.map fun (p : PreRec) =>
    if p.id == id then { p with actions := p.actions ++ [(t, action, late)] } else p }
  s.preDone id

/-- The action of a pre-emption in progress has ended in tick `k`: the header is written and the tile reports (R326). -/
def State.preEnd (s : State) (p : Preempt) (size k : Nat) : State :=
  let s := s.homeWrite (saveAddr p.tile p.offset) (saveHeader p.launch p.tile p.action size k) 16
  let s := { s with preempts := s.preempts.filter fun (q : Preempt) => !(q.id == p.id && q.tile == p.tile) }
  s.preReport p.id p.tile p.action (p.late || decide (p.deadline < k))

/-! ### The request (R326, R327) -/

/-- The oldest record of a kind that has not acted yet. -/
def State.nextPreRec (s : State) (kind : Nat) : Option PreRec :=
  s.preRecs.find? fun (p : PreRec) =>
    p.kind == kind && p.actions.isEmpty && !(s.preempts.any fun (q : Preempt) => q.id == p.id)

/-- A kind-1 record acts on each tile of its mask in the tick it is taken. -/
def execPreemptionRequest (s : State) : Out :=
  match s.nextPreRec 1 with
  | none => .next s
  | some p =>
    let id := p.id
    let r := p.recd
    let launch := recDep r 0
    let Δ := recField r 8 4
    .next <| (recTiles r).foldl (fun s t =>
      match s.companyOf launch t with
      | none => s.preReport id t 3 false
      | some c =>
        if c.over || c.saved || c.preempt != 0 then s.preReport id t 3 false
        else
          let a := s.chooseAction launch t Δ
          let q : Preempt := ⟨id, launch, t, a, p.tick + Δ, recField r 0 8, false⟩
          { s with preempts := s.preempts ++ [q] }.modCompany launch t fun c => { c with preempt := a + 1 }) s

/-- The pre-emption in progress of a company. -/
def State.preOf (s : State) (t co : Nat) : Option Preempt := s.preempts.find? fun (q : Preempt) => q.tile == t && q.launch == co

/-- A drain becomes discard or save (R328). -/
def State.drainTurns (s : State) (p : Preempt) : State :=
  let a := if recRestart (s.launchRec p.launch) then 1 else 2
  let s := { s with preempts := s.preempts.map fun (q : Preempt) =>
    if q.id == p.id && q.tile == p.tile then { q with action := a, late := decide (p.deadline < s.tick) } else q }
  s.modCompany p.launch p.tile fun c => { c with preempt := a + 1 }

/-- No lineage of the company is left. -/
def State.coGone (s : State) (launch t : Nat) : Bool :=
  match s.companyOf launch t with
  | some c => c.over
  | none => true

/-- A drain whose company ended in the tick before has ended with it; one whose deadline has passed turns (R328). -/
def State.drainStep (s : State) (p : Preempt) : State :=
  if p.action != 0 then s
  else if s.coGone p.launch p.tile then
    (s.preEnd p 0 (s.tick - 1)).modCompany p.launch p.tile fun c => { c with preempt := 0 }
  else if p.deadline < s.tick then s.drainTurns p
  else s

/-- Every drain in progress is examined. -/
def execPreemptionDeadline (s : State) : Out := .next (s.preempts.foldl State.drainStep s)

/-! ### Stopping streams (R328) -/

/-- Clear the Stalled bit of a stream that waits in a barrier. -/
def State.unstall (s : State) (t b n : Nat) : State :=
  let r := s.barRec t b
  s.putBar t b { r with stalled := setBit r.stalled n false }

/-- What a stopped stream keeps waiting for: of a barrier, its Generation; WAITX's registration. -/
def State.keptHold (s : State) (i : StreamId) : Hold :=
  match (s.cl i).hold with
  | .barw id => .barwGen id (s.barRec i.tile id).gen
  | .barwGen id g => .barwGen id g
  | .waitx e n k => .waitx e n k
  | _ => .none

/-- A stream stops at a bundle boundary as a parked trap; it goes on by itself when restored. -/
def State.stopStream (s : State) (i : StreamId) : State :=
  let c := s.cl i
  let ks := s.clsOf i
  if c.st != .running || ks.any (fun k => (s.cl (onCl i k)).hold.isPiece || (s.cl (onCl i k)).after.isSome) then s
  else
    let h := s.keptHold i
    let s := match c.hold with
      | .barw id => s.unstall i.tile id (4 * i.core + i.cl.val)
      | _ => s
    let s := s.recordLoads i ks false
    let s := s.modBank i fun b => ks.foldl (fun b k => b.drain k) b
    (s.modCls i ks fun c => { c with st := .parked, answered := true, ansTick := s.tick }).modCl i fun c => { c with hold := h }

/-- The streams of a bank that still run. -/
def Bank.moving (b : Bank) : List (Fin 4) := b.streams.filter fun k => (b.cl.get k).st == .running

/-- An atomic of the bank has not replied. -/
def State.atomicOut (s : State) (i : StreamId) : Bool :=
  s.reqs.any fun (q : Req) => q.who.isStream i cls4 && !q.drop &&
    match q.dst with
    | .atom _ | .frame _ => true
    | _ => false

/-- The banks of a tile that hold tasks of a launch. -/
def State.coBanks (s : State) (launch t : Nat) : List StreamId :=
  (s.tile t).cores.flatMap fun e => (e.2.banksOf launch).map fun b => ⟨t, e.1, b, 0⟩

/-! ### Engines at rest (R182, R192, R300, R347) -/

/-- The engines of a core stand where the company's entries can be saved: no matrix entry of it runs, the projection unit stands
between rows and the courier at a 512-byte boundary, or either is suspended. -/
def Core.atRest (x : Core) (id : Nat) : Bool :=
  let running := x.mwin.ents.any fun m => m.n == x.mwin.running && m.e.companyId == id
  let r := x.cour
  !running && (!x.projOf id || x.proj.wait == 0) &&
    (!x.courOf id || (r.cow.isEmpty && r.mig.isNone && r.wait == 0 && (r.suspended || r.atBlock)))

/-- An entry of a send queue has been acknowledged up to where it stopped, or waits for an answer. -/
def HQ.entAtRest (q : HQ) (e : PEnt) : Bool :=
  if e.fin.isSome then e.waits else !e.sentAll && ((q.head.map (·.id)) != some e.id || e.acked == q.prog)

/-- The company's entries of a handle can be saved. -/
def HQ.atRest (q : HQ) (id : Nat) : Bool := q.send.all fun e => e.company != id || q.entAtRest e

/-! ### Saving (R328) -/

/-- An entry of the matrix window goes back to ring form, its wait taken. -/
def Slot.unwaited (e : Slot) : Slot := { e with w0 := e.w0 &&& ~~~(0xF000000000 : Word) }

/-- The cells of a memory in a list of ranges. -/
def cellsIn (m : Mem) (rs : List (Nat × Nat)) : Mem :=
  m.filter fun c => rs.any fun r => decide (r.1 ≤ c.1) && decide (c.1 < r.1 + r.2)

/-- The panels of a mask. -/
def maskPans (mask : Nat) : List Pan := ((List.range 32).filter mask.testBit).map (BitVec.ofNat 5)

/-- The company's entries of a tile's handle queues in queue order, with their handles and progress (R347). -/
def State.portsOf (s : State) (t id : Nat) : List (Nat × PEnt) :=
  (s.tile t).hq.flatMap fun (h, q) =>
    let mine := fun (e : PEnt) => e.company == id
    (q.send.filter mine).map (fun e =>
      (h, { e with start := if (q.head.map (·.id)) == some e.id then q.prog else e.start, headTick := none, waits := false })) ++
    (q.recv.filter mine).map fun e =>
      (h, { e with start := if (q.recv.head?.map (·.id)) == some e.id then q.fill else e.start })

/-- Remove the company's entries from a tile's handle queues. -/
def State.dropPorts (s : State) (t id : Nat) : State :=
  ((s.portsOf t id).foldl (fun s e => s.dropReads (s.portAcc t e.2)) s).modTile t fun x =>
    { x with hq := x.hq.map fun (h, q) =>
        let heldR := (q.recv.head?.map (·.company)) == some id
        let recv := q.recv.filter fun e => e.company != id
        let q := { q with send := q.send.filter fun e => e.company != id, rsusp := q.rsusp && !heldR }
        let q := if heldR then q.nextRecv recv else { q with recv }
        (h, q.mark s.tick) }

/-- Records that wait for a unit whose entry leaves resume nothing. -/
def State.dropWaiters (s : State) (f : Waiter → Bool) : State :=
  { s with
    records := s.records.map (fun (r : FRec) => if f r.waiter then { r with waiter := .none } else r),
    posted := s.posted.map (fun (p : Posted) => if f p.waiter then { p with waiter := .none } else p) }

/-- Waiters of the units of a core, and of the handle queues, that hold entries of the company. -/
def State.unitWaiter (s : State) (t id : Nat) (w : Waiter) : Bool :=
  match w with
  | .proj u c => u == t && (s.core t c).projOf id
  | .cour u c => u == t && (s.core t c).courOf id
  | .send u h n => u == t && ((s.hq t h).send ++ (s.tile t).ends).any fun e => e.id == n && e.company == id
  | .recv u h => u == t && (((s.hq t h).recv.head?.map (·.company)) == some id)
  | _ => false

/-- What an earlier restore of the company left waiting for a core. -/
def State.owedCore (s : State) (launch t c : Nat) : Option SavedCore :=
  s.savedCores.find? fun (v : SavedCore) => v.launch == launch && v.tile == t && v.core == c

/-- The reads of a core's engines that carry on in no entry are dropped. -/
def State.dropEngineReads (s : State) (t c : Nat) (g : Eng) : State :=
  { s with reqs := s.reqs.filter fun q => !(q.who == .engine t c g 0 && !q.op.writes) }

/-- What is saved of a core beside its banks; window entries come before those of the ring. -/
def State.savedCore (s : State) (launch t c : Nat) : SavedCore :=
  let x := s.core t c
  let r := s.launchRec launch
  let id := companyId launch
  let task := !(x.banksOf launch).isEmpty
  let pans := if task then maskPans (recField r 28 4) else []
  let lo := 512 * recField r 60 2
  let len := if task then min (512 * recField r 62 2) (0x200000 - lo) else 0
  let ring := fun (g : Eng) => (x.ringList g).filter fun e => e.companyId == id
  let ments := (x.mwin.ents.filter fun m => m.e.companyId == id).map fun m => m.e.unwaited
  let owed := s.owedCore launch t c
  let left := fun (g : Eng) => (owed.map fun v => v.rings.get (engIdx g)).getD []
  { launch, tile := t, core := c, panels := cellsIn x.panels (pans.map fun p => (panAddr p 0, 32768)),
    tags := cellsIn x.tags (pans.map fun p => (tagAddr p 0, 2048)), pstate := pans.map fun p => (p.toNat, x.pst p),
    lsStart := lo, ls := cellsIn x.ls [(lo, len)], lsLen := len,
    rings := ⟨ments ++ ring .matrix ++ left .matrix, ring .proj ++ left .proj, ring .courier ++ left .courier,
      ring .port ++ left .port⟩,
    proj := if x.projOf id then some { x.proj with suspended := false } else owed.bind (·.proj),
    cour := if x.courOf id then some { x.cour with suspended := false, sub := 0, cow := [], acts := [] } else owed.bind (·.cour) }

/-- Save what a core holds of a company beside its banks, and remove it there. -/
def State.saveCore (s : State) (launch t c : Nat) : State :=
  let x := s.core t c
  let id := companyId launch
  let v := s.savedCore launch t c
  let s := { s with savedCores :=
    (s.savedCores.filter fun (w : SavedCore) => !(w.launch == launch && w.tile == t && w.core == c)) ++ [v] }
  let s := if x.projOf id then s.dropEngineReads t c .proj else s
  let s := if x.courOf id then s.dropEngineReads t c .courier else s
  s.modCore t c fun x =>
    let x := x.setPans (v.pstate.map fun e => BitVec.ofNat 5 e.1) .empty
    let x := engines.foldl (fun (x : Core) g => x.putRing g ((x.ringList g).filter fun e => e.companyId != id)) x
    { x with
      mwin := { x.mwin with ents := x.mwin.ents.filter fun m => m.e.companyId != id },
      proj := if x.projOf id then Proj.reset else x.proj,
      cour := if x.courOf id then { Cour.reset with cow := x.cour.cow, acts := x.cour.acts } else x.cour }

/-- Save what a tile holds of a company, and remove it there: task entries and the entries of the handles' queues. -/
def State.saveTile (s : State) (launch t : Nat) : State :=
  let id := companyId launch
  let ports := s.portsOf t id
  let held := fun (o : PortOrd) => ports.any fun e => e.2.id == o.id
  let v : SavedTile :=
    { launch, tile := t, ents := (s.tile t).ready.filter fun e => e.launch == launch, ports,
      ords := (s.tile t).portOrd.filter held }
  ({ s with savedTiles := s.savedTiles ++ [v] }.dropPorts t id).modTile t fun x =>
    { x with ready := x.ready.filter fun e => e.launch != launch, portOrd := x.portOrd.filter fun o => !held o }

/-- Records of a bank's parked streams follow its image (R328). -/
def State.toImages (s : State) (i : StreamId) : State :=
  let n := (s.bank i).taskid.toNat
  let f := fun (w : Waiter) =>
    match w with
    | .stream j => if j.tile == i.tile && j.core == i.core && j.bank == i.bank then Waiter.image i.tile n j.cl else w
    | w => w
  { s with records := s.records.map (fun (r : FRec) => { r with waiter := f r.waiter }),
           posted := s.posted.map fun (p : Posted) => { p with waiter := f p.waiter } }

/-- The loads of a bank whose records await an answer. -/
def State.lostLoads (s : State) (i : StreamId) : List LoadRec :=
  ((s.records.map (·.waiter)) ++ s.posted.map (·.waiter)).filterMap fun w =>
    match w with
    | .load j l => if j.tile == i.tile && j.core == i.core && j.bank == i.bank then some l else none
    | _ => none

/-- They are performed anew when the image resumes, as those of the replay list are. -/
def Bank.awaits (b : Bank) (ls : List LoadRec) : Bank :=
  ls.foldl (fun b l => { b.modCl l.cl fun c => c.setP l.d false with replay := b.replay ++ [l] }) b

/-- Save a bank and free it. -/
def State.saveBank (s : State) (launch : Nat) (i : StreamId) : State :=
  let b := (s.bank i).awaits (s.lostLoads i)
  let s := { s with saved := s.saved ++ [(⟨launch, i.tile, i.core, i.bank, s.cycles i.tile, b⟩ : Saved)] }
  ((s.toImages i).forget i).modBank i Bank.freed

/-- Everything of the company has stopped. -/
def State.coStopped (s : State) (launch t : Nat) : Bool :=
  let id := companyId launch
  ((s.coBanks launch t).all fun i => (s.bank i).moving.isEmpty && !s.atomicOut i) &&
    ((s.tile t).cores.all fun e => e.2.atRest id) && ((s.tile t).hq.all fun e => e.2.atRest id) &&
    (s.tile t).ends.all fun e => e.company != id || e.waits

/-- Save a company whose streams and entries have stopped: the state is kept, the area written, the banks freed. -/
def State.saveCompany (s : State) (p : Preempt) : State :=
  let t := p.tile
  let l := p.launch
  let id := companyId l
  let size := s.saveSize l t
  let s := s.dropWaiters (s.unitWaiter t id)
  let s := ((s.tile t).coreNos.foldl (fun s c => s.saveCore l t c) s).saveTile l t
  let s := (s.coBanks l t).foldl (fun s i => s.saveBank l i) s
  let body := (List.range size).map fun i => Config.saveByte s.fresh i
  let s := { s with fresh := s.fresh + 1 }.homeWrite (saveAddr t p.offset + 64) body 16
  (s.modCompany l t fun c => { c with saved := true, preempt := 0 }).preEnd p size s.tick

/-! ### Discarding (R328) -/

/-- The records of a barrier's list, in order. -/
def State.barList (s : State) : Nat → Nat → List Nat
  | 0, _ => []
  | k + 1, n => n :: s.barList k (tget Cont.reset s.conts n).next

/-- Link records into a barrier's list. -/
def State.relink (s : State) (t b : Nat) (ns : List Nat) : State :=
  let s := (ns.zip (ns.drop 1)).foldl (fun s (m, n) =>
    { s with conts := tmod Cont.reset s.conts m fun c => { c with next := n } }) s
  s.putBar t b { s.barRec t b with head := ns.headD 0, parked := ns.length }

/-- Unlink and free the continuation records of a company. -/
def State.dropConts (s : State) (launch t : Nat) : State :=
  let gone := s.contsOf launch t
  let bars := (gone.filterMap fun n =>
    let c := tget Cont.reset s.conts n
    if c.key.isNone then some c.bar else none).eraseDups
  let s := bars.foldl (fun s b =>
    let r := s.barRec t b
    if r.parked == 0 then s else s.relink t b ((s.barList r.parked r.head).filter fun n => !gone.contains n)) s
  let keys := (s.keys.map fun (e : KeyEnt) => { e with waiters := e.waiters.filter fun n => !gone.contains n }).filter
    fun e => e.pending != 0 || !e.waiters.isEmpty
  { s with keys, conts := s.conts.filter fun e => !gone.contains e.1,
           regsPending := s.regsPending.filter fun (r : RegMsg) => !gone.contains r.num }

/-- Discard a bank: its streams stop, a Stalled bit of theirs is cleared, the bank is free. -/
def State.discardBank (s : State) (i : StreamId) : State :=
  let s := cls4.foldl (fun s k =>
    match (s.cl (onCl i k)).hold with
    | .barw id => s.unstall i.tile id (4 * i.core + k.val)
    | _ => s) s
  (s.forget i).modBank i Bank.freed

/-- Zero a panel and leave it EMPTY. -/
def State.wipePanel (s : State) (t c : Nat) (p : Pan) : State :=
  ((s.putRows t c p 0 (List.replicate 64 (List.replicate 512 0))).zeroTags t c p).modCore t c fun x => x.setPst p .empty

/-- The matrix engine under discard (R182). -/
def State.discardMatrix (s : State) (t c id : Nat) : State :=
  let x := s.core t c
  let s := match x.mwin.ents.find? fun m => m.n == x.mwin.running && m.e.companyId == id with
    | none => s
    | some m =>
      (s.modCore t c fun x =>
        { x.setPans m.e.matSrcs .ready with mwin := { x.mwin with running := 4, remaining := 0 } }).wipePanel t c m.e.pd
  s.modCore t c fun x => { x with mwin := { x.mwin with ents := x.mwin.ents.filter fun m => m.e.companyId != id } }

/-- The projection unit under discard (R192). -/
def State.discardProj (s : State) (t c id : Nat) : State :=
  let x := s.core t c
  if !x.projOf id then s
  else
    let s := s.dropEngineReads t c .proj
    let p := x.proj.e.pd
    let s := if x.proj.before.isEmpty then s
      else
        let z := List.replicate 512 (0 : Byte)
        let s := s.putRows t c p 0 (List.replicate 36 z)
        (s.putRows t c p 63 [z]).modCore t c fun y =>
          (x.proj.before.foldl (fun y (q : Pan × PSt) => y.setPst q.1 q.2) y).setPst p .empty
    s.modCore t c fun y => { y with proj := Proj.reset }

/-- The courier under discard: a migration that has switched completes (R300, R410). -/
def State.discardCour (s : State) (t c id : Nat) : State :=
  let r := (s.core t c).cour
  if !(s.core t c).courOf id then s
  else
    let switched : Bool := match r.mig with
      | some (h, n) => (s.migAt h n).any fun m => m.phase == 2
      | none => r.e.opcode == 0x40 && r.progress != 0
    if switched then s
    else
      let s := s.dropEngineReads t c .courier
      let s := match r.mig with
        | some (h, n) => s.migBack h n
        | none => s
      let s := if r.e.opcode == 0x21 then s.modCore t c fun x => x.setPans r.e.run .ready
        else r.e.run.foldl (fun s p => s.wipePanel t c p) s
      s.modCour t c fun y => { Cour.reset with cow := y.cow, acts := y.acts }

/-- The rings and engines of a core under discard. -/
def State.discardCore (s : State) (t id c : Nat) : State :=
  let s := ((s.discardMatrix t c id).discardProj t c id).discardCour t c id
  s.modCore t c fun x =>
    engines.foldl (fun (x : Core) g => x.putRing g ((x.ringList g).filter fun e => e.companyId != id)) x

/-- The port engine under discard (R347). -/
def State.discardPorts (s : State) (t id : Nat) : State :=
  let gone : List PEnt := ((s.tile t).hq.flatMap fun e => e.2.send ++ e.2.recv) ++
    ((s.tile t).execq ++ (s.tile t).buckets).map (·.e) ++ (s.tile t).ends
  let ids := (gone.filter fun e => e.company == id).map (·.id)
  (s.dropPorts t id).modTile t fun x =>
    { x with
      armed := x.armed.filter fun e => e.2.company != id,
      buckets := x.buckets.filter fun f => f.e.company != id, execq := x.execq.filter fun f => f.e.company != id,
      ends := x.ends.filter fun e => e.company != id, portOrd := x.portOrd.filter fun o => !ids.contains o.id }

/-- Discard a company: nothing of it is left but its record. -/
def State.discardCompany (s : State) (p : Preempt) : State :=
  let t := p.tile
  let l := p.launch
  let id := companyId l
  let s := s.dropWaiters (s.unitWaiter t id)
  let s := (s.coBanks l t).foldl State.discardBank s
  let s := (s.dropConts l t).modTile t fun x => { x with ready := x.ready.filter fun e => e.launch != l }
  let s := (s.tile t).coreNos.foldl (fun s c => s.discardCore t id c) s
  let s := s.discardPorts t id
  let s := { s with savedCores := s.savedCores.filter fun (v : SavedCore) => !(v.launch == l && v.tile == t) }
  let s := s.modCompany l t fun c =>
    { c with preempt := 0, lineages := c.lineages.map fun x => { x with ended := true } }
  (s.preEnd p 0 s.tick).retire l

/-- A discard takes place; a save stops the streams and, once all has stopped, takes place; a drain under which a continuation
has been registered turns (R328). -/
def execPreemptionSaveWrite (t co : Nat) (s : State) : Out :=
  match s.preOf t co with
  | none => .next s
  | some p =>
    match p.action with
    | 1 => .next (s.discardCompany p)
    | 2 =>
      let s := (s.coBanks co t).foldl (fun s i =>
        (s.bank i).moving.foldl (fun s k => s.stopStream (onCl i k)) s) s
      .next (if s.coStopped co t then s.saveCompany p else s)
    | 0 => .next (if (s.contsOf co t).isEmpty then s else s.drainTurns p)
    | _ => .next s

/-! ### Restoring (R329) -/

/-- Put back the panels with their states and the LS window of a core. -/
def State.restoreCore (s : State) (v : SavedCore) : State :=
  let t := v.tile
  let c := v.core
  let s := { s with bad := s.bad.filter fun b =>
    match b with
    | .panel t' c' a => !(t' == t && c' == c && v.pstate.any fun e => e.1 == a / 32768)
    | .tag t' c' a => !(t' == t && c' == c && v.pstate.any fun e => e.1 == a / 2048)
    | _ => true }
  let s := s.modCore t c fun x =>
    v.pstate.foldl (fun (x : Core) (e : Nat × PSt) =>
      let p : Pan := BitVec.ofNat 5 e.1
      { x with panels := mputs x.panels (panAddr p 0) (mgets v.panels (panAddr p 0) 32768),
               tags := mputs x.tags (tagAddr p 0) (mgets v.tags (tagAddr p 0) 2048) }.setPst p e.2) x
  let len := min v.lsLen (0x1FC000 - v.lsStart)
  if len == 0 then s else s.lsWrite t c v.lsStart (mgets v.ls v.lsStart len)

/-- Put back a tile's entries: those of the handles' queues in queue order (R347), and the tasks not yet placed, which become
kind-2 entries (R329). -/
def State.restoreTile (s : State) (v : SavedTile) : State :=
  let s := v.ports.foldl (fun s (h, e) =>
    s.modHq v.tile h fun q =>
      if e.kind == 3 then q.addRecv e else ({ q with send := q.send ++ [e] } : HQ).mark s.tick) s
  s.modTile v.tile fun x =>
    { x with portOrd := x.portOrd ++ v.ords, ready := x.ready ++ v.ents.map fun e => { e with kind := 2, tick := s.tick } }

/-- A ring takes back the restored entries for which it has room, in their order (R182, R300). -/
def State.refillRing (s : State) (v : SavedCore) (g : Eng) : State :=
  let es := v.rings.get (engIdx g)
  let n := 64 - ((s.core v.tile v.core).rings.get (engIdx g)).count
  if es.isEmpty || n == 0 then s
  else
    ((es.take n).foldl (fun s e => s.pushSlot v.tile v.core g e) s).modSavedCore v fun w =>
      { w with rings := w.rings.set (engIdx g) ((w.rings.get (engIdx g)).drop n) }

/-- Something of a restored core is still to be taken back. -/
def SavedCore.owes (v : SavedCore) : Bool := v.proj.isSome || v.cour.isSome || engines.any fun g => !(v.rings.get (engIdx g)).isEmpty

/-- Rings take restored entries back. -/
def State.refill (s : State) : State :=
  let vs := s.savedCores.filter fun v => !s.coSaved v.launch v.tile
  let s := vs.foldl (fun s v => engines.foldl (fun s g => s.refillRing v g) s) s
  { s with savedCores := s.savedCores.filter fun (v : SavedCore) => s.coSaved v.launch v.tile || v.owes }

/-- The saved tasks of a company become kind-2 entries. -/
def State.restoreTasks (s : State) (launch t : Nat) : State :=
  let r := s.launchRec launch
  (s.saved.filter fun (v : Saved) => v.launch == launch && v.tile == t).foldl (fun s (v : Saved) =>
    let k := v.bank.task.getD Task.reset
    s.modTile t fun x =>
      { x with ready := x.ready ++ [{ taskid := v.bank.taskid.toNat, company := companyId launch, core := v.core, kind := 2,
                                      prio := recPrio r, tick := s.tick, order := lqOf launch * 2 ^ 24 + k.cIdx, cont := 0,
                                      broken := false, dIdx := k.dIdx, cIdx := k.cIdx, launch }] }) s

/-- Restore a saved company: panels and LS windows first, then its tasks; none when the part keeps no such company (R329). -/
def State.restoreSaved (s : State) (launch t : Nat) : Option State :=
  if !s.coSaved launch t then none
  else
    let s := (s.savedCores.filter fun (v : SavedCore) => v.launch == launch && v.tile == t).foldl State.restoreCore s
    let s := { s with savedCores := s.savedCores.map fun (v : SavedCore) =>
      if v.launch == launch && v.tile == t then { v with panels := [], tags := [], pstate := [], ls := [], lsLen := 0 } else v }
    let s := (s.savedTiles.filter fun (v : SavedTile) => v.launch == launch && v.tile == t).foldl State.restoreTile s
    let s := { s with savedTiles := s.savedTiles.filter fun (v : SavedTile) => !(v.launch == launch && v.tile == t) }
    some ((s.restoreTasks launch t).modCompany launch t fun c => { c with saved := false }).refill

/-- Create a discarded company again from its launch record; none when it lives or its table cannot be read. -/
def State.recreate (s : State) (launch t : Nat) : Option State :=
  match s.launches.find? fun (l : Launch) => l.id == launch with
  | none => none
  | some l =>
    let (ls, code, s) := s.readTable l.recd
    match (recTiles l.recd).findIdx? (· == t) with
    | none => none
    | some d =>
      if !s.coGone launch t || code != 0 then none
      else
        let s := { s with
          launches := s.launches.map (fun (x : Launch) => if x.id == launch then { x with retired := false } else x),
          companies := s.companies.filter fun c => !(c.launch == launch && c.tile == t) }
        some (s.createCompany { l with levels := ls } t (dIndex ls d))

/-- A kind-2 record acts on each tile of its mask from the header of its save area. -/
def execPreemptionRestore (s : State) : Out :=
  match s.nextPreRec 2 with
  | none => .next s
  | some p =>
    let id := p.id
    let r := p.recd
    let launch := recDep r 0
    .next <| (recTiles r).foldl (fun s t =>
      let (hd, s) := s.unitRead (saveAddr t (recField r 0 8)) 64
      let a := recField hd 4 1 / 16 % 4
      let res : Option State :=
        if recField hd 0 4 != launch then none
        else if a == 2 then s.restoreSaved launch t
        else if a == 1 then s.recreate launch t
        else none
      match res with
      | some s => s.preReport id t a false
      | none => s.preReport id t 3 false) s

end Sys2Proof.Machine
end

