-- ==== Sys2Proof/Machine/Cycle.lean ====
section
/-!
DEFINITION. The clockwork (log entry 1): quanta of 0.8 ns, in each of which every tile whose core clock has an edge runs one
cycle in the phases of R227 and R354; ticks of 10 ns (R3, R19); and what comes from outside (log entry 2). What a phase
calls for stands on the agenda as rows of the table, each of which checks for itself that it applies.
-/

namespace Sys2Proof.Machine

/-! ### Which tiles run a cycle (R3) -/

/-- The tile's core clock has an edge in the present part of this quantum: before the tick boundary that falls in it, or from
the boundary on (R3). -/
def State.runs (s : State) (t : Nat) : Bool :=
  s.cycles t != { s with quantum := s.quantum + 1 }.cycles t && s.afterBoundary t == s.late

/-- The tiles of this quantum's cycle. -/
def State.running (s : State) : List (Nat × Tile) := s.tiles.filter fun e => s.runs e.1

/-- Their cores. -/
def State.runCores (s : State) : List (Nat × Nat × Core) :=
  s.running.flatMap fun e => e.2.cores.map fun c => (e.1, c.1, c.2)

/-- Change every core of the running tiles. -/
def State.modRunning (s : State) (f : Core → Core) : State :=
  s.running.foldl (fun s e => s.modTile e.1 fun x => { x with cores := x.cores.map fun c => (c.1, f c.2) }) s

/-- Change every running tile. -/
def State.modRunTiles (s : State) (f : Tile → Tile) : State := s.running.foldl (fun s e => s.modTile e.1 f) s

def engs : List Eng := [.matrix, .proj, .courier, .port]

/-! ### A cycle -/

/-- The start of a cycle: what SEMGET, GETPS, PSTAT and PERFRD read, and every LS bank free that is not kept for an engine
(R117, R227, R235, R238, R239). -/
def Core.begin (x : Core) : Core :=
  let fresh := fun (b : Bank) => { b with cl := b.cl.map fun c => { c with flagsCyc := 0 } }
  let y := { x with b0 := fresh x.b0, b1 := fresh x.b1, sems0 := x.sems, pst0 := x.pstate, done0 := (x.bank (x.fg % 2)).done,
                    lsUsed := 0, lsStallNow := false }
  y.keepBanks

/-- One cycle of the engines' durations and of an exchange passes (R172, R211). -/
def Core.passes (x : Core) : Core :=
  { x with
    mwin := if x.mwin.running == 4 then x.mwin else { x.mwin with remaining := x.mwin.remaining - 1 },
    proj := { x.proj with wait := x.proj.wait - 1 },
    cour := { x.cour with wait := x.cour.wait - 1 },
    exch := if 1 < x.exch then x.exch - 1 else x.exch }

/-- The end of a cycle: the foreground task's cycles and the LS stalls are counted (R233, R238). -/
def Core.ends (x : Core) : Core :=
  let x := if (x.bank (x.fg % 2)).occ then
      x.modBank (x.fg % 2) fun b => { b with cycles := (b.cycles + 1) % 2 ^ 48 }
    else x
  if x.lsStallNow then { x with lsStalls := x.lsStalls + 1, lsStallNow := false } else x

/-- Busy cycles of the power arbiter's interval (R364). -/
def Tile.counts (x : Tile) : Tile :=
  { x with busyCycles := x.busyCycles + (x.cores.filter fun e => e.2.b0.occ || e.2.b1.occ).length,
           intervalCycles := x.intervalCycles + 16 }

/-- The row by which a request's answer reaches its stream. -/
def Req.replyRow (r : Req) : Option Instr :=
  match r.who, r.dst with
  | .stream _, .load _ | .stream _, .spec _ | .stream _, .buf | .stream _, .lbuf | .stream _, .code =>
    some (.longLoadReturn r.id)
  | .stream _, .atom _ | .stream _, .frame _ => some (.atomicReply r.id)
  | .stream _, .fill => some (.returnStackFill r.id)
  | _, _ => none

/-- Replies, and phase 1 of R227. -/
def State.agenda0 (s : State) : List Instr :=
  (s.reqs.filterMap fun r => if r.stage.isReply && decide (r.due ≤ s.quantum) then r.replyRow else none) ++
    s.runCores.flatMap fun (t, c, x) =>
      engs.flatMap fun g => (x.sigs.get (engIdx g)).q.map fun _ => Instr.engineSignal t c g

/-- The streams of the cycle, in ascending core and cluster order; an exited one while results of it are in flight. -/
def State.turns (s : State) : List StreamId :=
  s.runCores.flatMap fun (t, c, x) =>
    let b := x.bank (x.fg % 2)
    if b.occ then
      (cls4.filter fun k =>
        ((b.cl.get k).st == .running && (!b.joined || k == 0)) ||
          ((b.cl.get k).st == .exited && !(b.cl.get k).flights.isEmpty)).map fun k => ⟨t, c, x.fg % 2, k⟩
    else []

/-- Heads that enter the matrix window; exchanges whose 16 cycles are over. -/
def State.agenda2 (s : State) : List Instr :=
  s.runCores.flatMap fun (t, c, x) =>
    (if x.exch == 1 then [Instr.bankExchangeEnd t c] else []) ++
      if (x.rings.get 0).count != 0 then [.matrixWindowEntry t c] else []

/-- Clusters of a core with results whose cycles are over. -/
def landing (t c : Nat) (x : Core) : List Instr :=
  [0, 1].flatMap fun b => (cls4.filter fun k => ((x.bank b).cl.get k).flights.any fun f => f.left == 0).map fun k =>
    Instr.resultWriteback ⟨t, c, b, k⟩

/-- Saves in progress, work and completions of the engines, and results that become visible (R354, step 1). -/
def State.agenda3 (s : State) : List Instr :=
  (s.preempts.map fun (p : Preempt) => Instr.preemptionSaveWrite p.tile p.launch) ++
    s.runCores.flatMap fun (t, c, x) =>
      (if x.mwin.running != 4 then [Instr.matrixEntryComplete t c] else []) ++
        (if x.proj.busy then [.projectionGroup t c, .projectionComplete t c] else []) ++
        (if x.cour.cow.isEmpty then [] else [.cowCopyComplete t c]) ++
        (if x.cour.busy then [.courierPart t c, .courierComplete t c] else []) ++ landing t c x

/-- The starts of the boundary, engine by engine (R330, R354, step 3). -/
def State.agenda4 (s : State) : List Instr :=
  s.runCores.flatMap fun (t, c, _) =>
    [Instr.matrixEntryStart t c, .projectionStart t c, .courierTake t c, .portRingTake t c]

/-- Free choices, one for each of `n` opportunities. -/
def State.coins (s : State) (n : Nat) : List Bool × State :=
  ((List.range n).map fun k => Config.soon (s.fresh + k), { s with fresh := s.fresh + n })

/-- Cores of a tile with ready entries. -/
def Tile.readyCores (x : Tile) : List Nat := (List.range 16).filter fun c => x.ready.any fun e => e.core == c

/-- Placements take a time that is not architected (R314): each opportunity is taken or not. -/
def State.placements (s : State) : List Instr × State :=
  let ps := s.running.flatMap fun e => e.2.readyCores.map fun c => Instr.taskPlacement e.1 c
  let (bs, s) := s.coins ps.length
  ((ps.zip bs).filterMap fun (i, b) => if b then some i else none, s)

/-- Exchanges, tasks that start, and one stream a core that resumes (R28, R217, R314). -/
def State.coreAgenda (s : State) : List Instr :=
  s.runCores.flatMap fun (t, c, x) =>
    (if x.mustExchange then [Instr.bankExchange t c] else []) ++
      ([0, 1].filter fun b => (x.bank b).occ && !(x.bank b).started).map (fun b => Instr.taskStart t c b) ++
      (((cls4.map fun k => (⟨t, c, x.fg % 2, k⟩ : StreamId)).find? s.mayResume).toList.map Instr.streamResume)

/-- A calendar slot begins in this quantum (R359). -/
def State.slotNow (s : State) : Bool := !s.late && decide ((100 * s.tick + s.sub) % 40 < 8)

/-- What the memory units can do for a request that waits. -/
def State.reqRow (s : State) (r : Req) : Option Instr :=
  if s.quantum < r.due then none
  else
    match r.stage, r.loc with
    | .wait, .tsm t a => if s.runs t then some (.tsmBankStep t (tsmBank a)) else none
    | .wait, _ | .out _, _ => some (.routerRequest r.id)
    | .unit, .hbm a => some (.atomicUnitStep (paTile (s.homeAddr a)) (paUnit (s.homeAddr a)))
    | .home, _ =>
      match r.op with
      | .frame op f _ => some (.frameTableStep (if op == 4 then f % 16 else f / 2 ^ 20 % 16))
      | _ => none
    | .reply .., _ =>
      match r.dst with
      | .comb t e => if s.runs t then some (.combinedReply t e) else none
      | _ => none
    | _, _ => none

/-- Place of a request among those that reach a combining stage in one cycle: the tile's own cores by core, cluster and slot,
then the input ports (R387). -/
def Req.combKey (r : Req) : List Nat :=
  match r.who with
  | .stream i => if r.input == 8 then [0, i.core, i.cl.val, r.id] else [1, r.input, 0, r.id]
  | _ => [1, r.input, 0, r.id]

/-- Combinable requests that have reached the combining stage of a router whose tile runs a cycle, in the order of R387. -/
def State.combArrivals (s : State) : List Instr :=
  let rs := s.reqs.filter fun r => (match r.atRouter with | some t => s.runs t | none => false) && decide (r.due ≤ s.quantum)
  (sortBy Req.combKey rs).map fun r => .combineArrival r.id

/-- Memory units: banks, routers, combining tables, calendars, atomic units, migrations. -/
def State.memAgenda (s : State) : List Instr :=
  s.combArrivals ++ (s.reqs.filterMap s.reqRow).eraseDups ++
    (s.tiles.flatMap fun (t, x) =>
      ((x.comb.filter fun e => !e.2.sent).map fun e => Instr.combinedSend t e.1) ++
        x.migs.flatMap fun e => [Instr.migrationLineCopy t e.1, .migrationSwitch t e.1, .migrationArrival t e.1]) ++
    if s.slotNow then (List.range 16).map Instr.calendarSlot else []

/-- Port engines: acknowledgements, blocks sent and received, fired entries. -/
def State.portAgenda (s : State) : List Instr :=
  (s.acks.map fun a => Instr.sendAcknowledged a.tile a.handle).eraseDups ++ (s.tiles.flatMap fun (t, x) =>
    (if x.execq.isEmpty then [] else [Instr.firedEntryEnqueue t]) ++
      (x.hq.filter fun e => !e.2.send.isEmpty).flatMap fun e => [.sendAcknowledged t e.1, .sendBlock t e.1]) ++
    (s.blocks.filter fun b => b.kind == 0 && b.tile < 16).map fun b => Instr.blockArrival b.id

/-- Records to be delivered, one unit each. -/
def State.recordAgenda (s : State) : List Instr := s.records.map fun _ => Instr.faultRecordDeliver

/-! ### Ticks -/

/-- Packets that have arrived, in ascending tile, port and arrival order (R230). -/
def State.packets (s : State) : List Instr :=
  (List.range 16).flatMap fun t => (List.range 8).flatMap fun p =>
    (s.blocks.filter fun b => b.kind == 1 && b.tile == t && (s.handle t b.handle).port % 8 == p).map fun b =>
      Instr.packetArrival b.id

/-- Timeouts that may have expired (R344, R392, R393). -/
def State.timeouts (s : State) : List Instr :=
  (s.reqs.filterMap fun r =>
    if r.comb && !r.drop && decide (r.tick + 2 ^ 17 ≤ s.tick) then some (.atomicReplyTimeout r.id) else none) ++
    s.tiles.flatMap fun (t, x) =>
      ((x.comb.filter fun e => e.2.sent).map fun e => Instr.combiningEntryTimeout t e.1) ++
        (x.armed.map fun e => .workEntryTimeout t e.1 true) ++
        (x.hq.filter fun e => !e.2.send.isEmpty).map fun e => .workEntryTimeout t e.1 false

/-- The rows that a tick calls for first: the stage manager, power, the caches' filters, the schedulers and the
distributor. -/
def tickAgenda : List Instr :=
  [.lossRecordReceipt, .laserSwitchover, .darkPoint, .rotationEnd, .sceneStart, .liveTick, .powerRegrant, .mscFilterClear,
    .taskAging, .distributorTake]

/-- The rows that follow in a tick: pre-emption, the continuation store, work packets and timeouts. -/
def State.tickAgenda2 (s : State) : List Instr :=
  (s.preRecs.map fun _ => Instr.preemptionRequest) ++ (s.preRecs.map fun _ => Instr.preemptionRestore) ++
    .preemptionDeadline :: (s.preempts.map fun (p : Preempt) => Instr.preemptionSaveWrite p.tile p.launch) ++
    (s.regsPending.map fun _ => Instr.continuationRegistration) ++ (s.posts.map fun _ => Instr.postApply) ++
    s.packets ++ s.timeouts

/-! ### What comes from outside (log entry 2) -/

/-- The rows that are inputs: events of the physical module, writes and requests of the host. -/
def fromOutside (i : Instr) : Bool :=
  match i with
  | .droopBubble .. | .laneFailure .. | .ringtune .. | .laser .. | .hostQueueConfigWrite .. | .hostTailWrite ..
  | .cueLoad .. | .cueStart .. | .cueChange .. | .cueStop .. | .calendarConfigWrite .. | .faultAnswer ..
  | .hostFrameRead .. | .hostFrameAdjust .. | .hostFrameFlags .. | .hostFramePush .. | .hostFramePop ..
  | .hostFrameShoot .. | .hostRegisterWrite .. | .hostMemoryAccess .. | .pldmPowerSet .. | .attestationRequest ..
  | .thermalHold .. | .thermalTrip .. | .thermalRelease .. | .coldReset => true
  | _ => false

/-- A request that has come from another module stands at the edge relay. -/
def State.fromModule (s : State) (r : Req) : Req :=
  { r with id := s.nextId, who := (match r.who with | .remote t => .remote t | _ => .remote 0), dst := .remote,
           due := s.quantum, tick := s.tick, stage := .out 16, drop := false, cell := none, after := 0, alloc := false,
             input := 8,
           via := [] }

/-- A block that arrives from another module on a tile's handle goes on by the relays of its input port (R377); one that leaves
the module again, or finds a circuit on its way dark, is gone from here. -/
def State.blockIn (s : State) (b : Block) : State :=
  let put := fun (s : State) (t h due : Nat) =>
    { s with blocks := s.blocks ++ [{ b with id := s.nextId, tile := t, handle := h, due, again := false, dropped := false, put := 0,
                                             fills := [] }],
             nextId := s.nextId + 1 }
  match s.follow 97 b.tile (s.handle b.tile b.handle).port [] false with
  | .tile t h outs _ => put (s.takeTimes outs) t h (s.quantum + 13 * outs.length)
  | .edge outs _ => s.takeTimes outs
  | .none => s

/-- An input that is no row of the table. -/
def State.input (s : State) (i : Input) : State :=
  match i with
  | .row _ => s
  | .frame op a b below =>
    match hostFrame op a b below s with
    | .next s => s
    | _ => s
  | .access wr a n bs =>
    match execHostMemoryAccess wr a n bs s with
    | .next s => s
    | _ => s
  | .block b => s.blockIn b
  | .ack a => { s with acks := s.acks ++ [{ a with at_ := 16, due := s.quantum }] }
  | .reply id bs nv bad =>
    match s.findReq id with
    | some r => match r.loc with
      | .far _ => if r.stage == .home then s.answer r bs nv bad else s
      | _ => s
    | none => s
  | .request r => { s with reqs := s.reqs ++ [s.fromModule r], nextId := s.nextId + 1 }
  | .bad b => if s.bad.contains b then s else { s with bad := s.bad ++ [b] }
  | .corrected t c hbm =>
    match c with
    | some c => s.modCore t c fun x => { x with ecc := x.ecc + 1 }
    | none => s.modTile t fun x =>
      { x with cnt := if hbm then { x.cnt with hbmEcc := x.cnt.hbmEcc + 1 } else { x.cnt with ecc := x.cnt.ecc + 1 } }
  | .symbols t p n => s.modTile t fun x =>
    { x with ports := tmod Port.reset x.ports p fun y => { y with corrected := y.corrected + BitVec.ofNat 64 n } }
  | .dropBlock id => { s with blocks := s.blocks.map fun b => if b.id == id then { b with dropped := true } else b }
  | .noLock t p => { s with noLocks := (t, p) :: s.noLocks }
  | .farFailed t h reason => s.farFailure t h reason
  | .pool a bs => { s with pool := mputs s.pool a bs }
  | .poolRefuses n yes => { s with refused := s.refused.filter (· != n) ++ if yes then [n] else [] }

/-- An access of the host's to device memory: it waits for a read that is under way. -/
def Input.hostAccess : Input → Bool
  | .row (.hostMemoryAccess ..) | .access .. => true
  | _ => false

/-- The first input that is due and need not wait. -/
def State.dueInput (s : State) : Option (Nat × Input) :=
  s.inputs.find? fun e => decide (e.1 ≤ s.tick) && !(s.cw.reading.isSome && e.2.hostAccess)

/-- Take one input: a row of the table goes on the agenda, anything else takes effect. -/
def State.takeInput (s : State) (e : Nat × Input) : State :=
  let s := { s with inputs := s.inputs.erase e }
  match e.2 with
  | .row i => if fromOutside i then { s with agenda := [i] } else s
  | i => s.input i

/-! ### Advancing -/

/-- The quantum ends, or its part before a tick boundary: the tick follows, with the operating points that stand from it on
(R364), and then the cycles that start after it (R3). The count has 64 bits (R19). -/
def State.endQuantum (s : State) : State :=
  let u := s.sub + 8
  if u < 100 then { s with quantum := s.quantum + 1, sub := u, phase := 0 }
  else if s.late then { s with quantum := s.quantum + 1, sub := u - 100, late := false, phase := 0 }
  else (s.tiles.map (·.1)).foldl State.applyPoint { s with tick := (s.tick + 1) % 2 ^ 64, late := true, phase := 7 }

/-- A tick: first the inputs in turn; before the tiles are released only bring-up goes on (R420). -/
def State.atTick (s : State) : State :=
  let s := s.hostCollect
  match s.dueInput with
  | some e => s.takeInput e
  | none =>
    if s.up then
      { s with phase := 8, agenda := tickAgenda }
    else
      let (bs, s) := s.coins 1
      { s with phase := 0, agenda := if bs.headD false then [.bringupStage] else [] }

/-- The rest of a tick; a vector's message may leave (R419). -/
def State.lateTick (s : State) : State :=
  let a := s.tickAgenda2
  let (bs, s) := s.coins 1
  { s with phase := 0, agenda := a, vectors := if bs.headD false then [] else s.vectors }

/-- Nothing of the present phase is left: the next one begins. -/
def State.nextPhase (s : State) : State :=
  match s.phase with
  | 7 => s.atTick
  | 8 => s.lateTick
  | p =>
    if !s.up then s.endQuantum
    else
      match p with
      | 0 =>
        let s := (s.modRunning Core.begin).modRunTiles fun x => { x with cnt0 := x.cnt, bankUsed := [] }
        { s with phase := 1, agenda := s.agenda0 }
      | 1 => { s with phase := 2, turn := s.turns }
      | 2 => { s with phase := 3, agenda := s.agenda2 }
      | 3 => let s := s.modRunning Core.passes; { s with phase := 4, agenda := s.agenda3 }
      | 4 =>
        let s := s.runCores.foldl (fun s (t, c, x) => if x.endFx.isEmpty then s else s.applyEnds t c) s
        { s with phase := 5, agenda := s.agenda4 }
      | 5 =>
        let s := s.flushTrigs.refill
        let a := s.coreAgenda
        let (ps, s) := s.placements
        { s with phase := 6, agenda := a ++ ps ++ s.memAgenda ++ s.portAgenda ++ s.recordAgenda }
      | _ => ((s.modRunning Core.ends).modRunTiles Tile.counts).endQuantum

end Sys2Proof.Machine
end

