-- ==== Sys2Proof/Machine/Scalar.lean ====
section
/-!
DEFINITION. The S-class operations (spec 04, R99-R120; R229): one meaning each, over the shared operand forms.
-/

namespace Sys2Proof.Machine

/-- An integer operation of two scalars (R91). -/
def alu2 (h : Hdr) (lat : Nat) (d a b : Reg) (f : Word → Word → Word) (s : State) : Out :=
  scalarOp h [a, b] [d] lat (fun c => .reg d (f (c.reg a) (c.reg b)) (c.dOr [a, b])) s

/-- An integer operation of one scalar (R91). -/
def alu1 (h : Hdr) (d a : Reg) (f : Word → Word) (s : State) : Out :=
  scalarOp h [a] [d] 1 (fun c => .reg d (f (c.reg a)) (c.dOr [a])) s

/-- A predicate operation on scalars (R91, R107). -/
def toPred (h : Hdr) (q : Prd) (srcs : List Reg) (f : Cluster → Bool) (s : State) : Out :=
  scalarOp h srcs [] 1 (fun c => .pred q (f c)) s

/-! ### Addition (R99) -/

def execAdd (h : Hdr) (d a b : Reg) (s : State) : Out := alu2 h 1 d a b (fun x y => x + y) s
def execSub (h : Hdr) (d a b : Reg) (s : State) : Out := alu2 h 1 d a b (fun x y => x - y) s
def execAddi (h : Hdr) (d a : Reg) (imm : BitVec 32) (s : State) : Out :=
  alu1 h d a (fun x => x + imm.signExtend 64) s
def execAddsh (h : Hdr) (d a b : Reg) (sh : BitVec 3) (s : State) : Out :=
  alu2 h 1 d a b (fun x y => x + (y <<< sh.toNat)) s

/-! ### Multiplication and division (R100, R101) -/

def execMul (h : Hdr) (d a b : Reg) (s : State) : Out := alu2 h 3 d a b (fun x y => x * y) s
def execMulh (h : Hdr) (d a b : Reg) (s : State) : Out :=
  alu2 h 3 d a b (fun x y => BitVec.ofInt 64 ((x.toInt * y.toInt) / 2 ^ 64)) s
def execMulhn (h : Hdr) (d a b : Reg) (s : State) : Out :=
  alu2 h 3 d a b (fun x y => BitVec.ofNat 64 (x.toNat * y.toNat / 2 ^ 64)) s

/-- Signed quotient truncating toward zero, with the cases of Table scalar 6 (R101). -/
def divS (x y : Word) : Word := if y == 0 then -1 else BitVec.ofInt 64 (x.toInt.tdiv y.toInt)
/-- Signed remainder with the sign of the dividend (R101). -/
def remS (x y : Word) : Word := if y == 0 then x else BitVec.ofInt 64 (x.toInt.tmod y.toInt)
def divU (x y : Word) : Word := if y == 0 then -1 else BitVec.ofNat 64 (x.toNat / y.toNat)
def remU (x y : Word) : Word := if y == 0 then x else BitVec.ofNat 64 (x.toNat % y.toNat)

def execDiv (h : Hdr) (d a b : Reg) (s : State) : Out := alu2 h 34 d a b divS s
def execDivn (h : Hdr) (d a b : Reg) (s : State) : Out := alu2 h 34 d a b divU s
def execRem (h : Hdr) (d a b : Reg) (s : State) : Out := alu2 h 34 d a b remS s
def execRemn (h : Hdr) (d a b : Reg) (s : State) : Out := alu2 h 34 d a b remU s

/-! ### Logic and shifts (R102, R103) -/

def execAnd (h : Hdr) (d a b : Reg) (s : State) : Out := alu2 h 1 d a b (fun x y => x &&& y) s
def execOr (h : Hdr) (d a b : Reg) (s : State) : Out := alu2 h 1 d a b (fun x y => x ||| y) s
def execXor (h : Hdr) (d a b : Reg) (s : State) : Out := alu2 h 1 d a b (fun x y => x ^^^ y) s
def execAndn (h : Hdr) (d a b : Reg) (s : State) : Out := alu2 h 1 d a b (fun x y => x &&& ~~~y) s
def execAndi (h : Hdr) (d a : Reg) (imm : BitVec 32) (s : State) : Out :=
  alu1 h d a (fun x => x &&& imm.signExtend 64) s
def execOri (h : Hdr) (d a : Reg) (imm : BitVec 32) (s : State) : Out :=
  alu1 h d a (fun x => x ||| imm.signExtend 64) s
def execXori (h : Hdr) (d a : Reg) (imm : BitVec 32) (s : State) : Out :=
  alu1 h d a (fun x => x ^^^ imm.signExtend 64) s

/-- The shift count X[b][5:0] (R103). -/
def cnt6 (y : Word) : Nat := y.toNat % 64

def execShl (h : Hdr) (d a b : Reg) (s : State) : Out := alu2 h 1 d a b (fun x y => x <<< cnt6 y) s
def execShr (h : Hdr) (d a b : Reg) (s : State) : Out := alu2 h 1 d a b (fun x y => x >>> cnt6 y) s
def execSra (h : Hdr) (d a b : Reg) (s : State) : Out := alu2 h 1 d a b (fun x y => x.sshiftRight (cnt6 y)) s
def execRotr (h : Hdr) (d a b : Reg) (s : State) : Out := alu2 h 1 d a b (fun x y => x.rotateRight (cnt6 y)) s
def execShli (h : Hdr) (d a : Reg) (n : BitVec 6) (s : State) : Out := alu1 h d a (fun x => x <<< n.toNat) s
def execShri (h : Hdr) (d a : Reg) (n : BitVec 6) (s : State) : Out := alu1 h d a (fun x => x >>> n.toNat) s
def execSrai (h : Hdr) (d a : Reg) (n : BitVec 6) (s : State) : Out :=
  alu1 h d a (fun x => x.sshiftRight n.toNat) s

/-! ### Minimum, maximum and counts (R104) -/

def execMin (h : Hdr) (d a b : Reg) (s : State) : Out := alu2 h 1 d a b (fun x y => if y.slt x then y else x) s
def execMax (h : Hdr) (d a b : Reg) (s : State) : Out := alu2 h 1 d a b (fun x y => if x.slt y then y else x) s
def execMinn (h : Hdr) (d a b : Reg) (s : State) : Out := alu2 h 1 d a b (fun x y => if y.ult x then y else x) s
def execMaxn (h : Hdr) (d a b : Reg) (s : State) : Out := alu2 h 1 d a b (fun x y => if x.ult y then y else x) s

/-- Leading zero bits (R104). -/
def clz64 (x : Word) : Nat := if x == 0 then 64 else 63 - x.toNat.log2
/-- One bits (R104). -/
def popc64 (x : Word) : Nat := (List.range 64).foldl (fun n i => if x.getLsbD i then n + 1 else n) 0

def execClz (h : Hdr) (d a : Reg) (s : State) : Out := alu1 h d a (fun x => BitVec.ofNat 64 (clz64 x)) s
def execPopc (h : Hdr) (d a : Reg) (s : State) : Out := alu1 h d a (fun x => BitVec.ofNat 64 (popc64 x)) s

/-! ### Bit fields (R105) -/

/-- X[a][pos+w-1:pos], zero-extended (R105). -/
def bfxU (pos w : Nat) (x : Word) : Word := BitVec.ofNat 64 (x.toNat / 2 ^ pos % 2 ^ w)
/-- X[a][pos+w-1:pos], sign-extended (R105). -/
def bfxS (pos w : Nat) (x : Word) : Word := BitVec.ofInt 64 (intOf true w (x.toNat / 2 ^ pos))
/-- Insertion under the mask of w bits at pos (R105). -/
def bfIns (pos w : Nat) (old x : Word) : Word :=
  let mask : Word := BitVec.ofNat 64 ((2 ^ w - 1) * 2 ^ pos)
  (old &&& ~~~mask) ||| ((x <<< pos) &&& mask)

def execBfx (h : Hdr) (d a : Reg) (pos : BitVec 6) (w : BitVec 7) (s : State) : Out :=
  alu1 h d a (bfxU pos.toNat w.toNat) s
def execBfxs (h : Hdr) (d a : Reg) (pos : BitVec 6) (w : BitVec 7) (s : State) : Out :=
  alu1 h d a (bfxS pos.toNat w.toNat) s
def execBfi (h : Hdr) (d a : Reg) (pos : BitVec 6) (w : BitVec 7) (s : State) : Out :=
  scalarOp h [a, d] [d] 1
    (fun c => .reg d (bfIns pos.toNat w.toNat (c.reg d) (c.reg a)) (c.dOr [a, d])) s

/-! ### Moves and selection (R106) -/

def execSel (h : Hdr) (d : Reg) (q : Prd) (a b : Reg) (s : State) : Out :=
  scalarOp h [a, b] [d] 1 (fun c => if c.q q then .reg d (c.reg a) (c.d a) else .reg d (c.reg b) (c.d b)) s
def execMovi (h : Hdr) (d : Reg) (imm : BitVec 32) (s : State) : Out :=
  scalarOp h [] [d] 1 (fun _ => .reg d (imm.signExtend 64) false) s
def execMovhi (h : Hdr) (d : Reg) (imm : BitVec 32) (s : State) : Out :=
  scalarOp h [d] [d] 1 (fun c => .reg d (imm ++ (c.reg d).extractLsb' 0 32) (c.d d)) s
def execMov (h : Hdr) (d a : Reg) (s : State) : Out :=
  scalarOp h [a] [d] 1 (fun c => .reg d (c.reg a) (c.d a)) s

/-! ### Compares, tests and predicates (R107-R110) -/

/-- The integer conditions (R107). -/
def icond (c : ICond) (x v : Word) : Bool :=
  match c with
  | .eq => x == v
  | .ne => x != v
  | .lt => x.slt v
  | .ge => !x.slt v
  | .ltn => x.ult v
  | .gen => !x.ult v
  | .any => x &&& v != 0
  | .none => x &&& v == 0

def execCmp (h : Hdr) (c : ICond) (q : Prd) (a b : Reg) (s : State) : Out :=
  toPred h q [a, b] (fun x => icond c (x.reg a) (x.reg b)) s
def execCmpi (h : Hdr) (c : ICond) (q : Prd) (a : Reg) (imm : BitVec 32) (s : State) : Out :=
  toPred h q [a] (fun x => icond c (x.reg a) (imm.signExtend 64)) s
def execTstd (h : Hdr) (q : Prd) (a : Reg) (s : State) : Out := toPred h q [a] (fun x => x.d a) s
def execQand (h : Hdr) (d a b : Prd) (s : State) : Out := toPred h d [] (fun x => x.q a && x.q b) s
def execQor (h : Hdr) (d a b : Prd) (s : State) : Out := toPred h d [] (fun x => x.q a || x.q b) s
def execQxor (h : Hdr) (d a b : Prd) (s : State) : Out := toPred h d [] (fun x => x.q a != x.q b) s
def execQandn (h : Hdr) (d a b : Prd) (s : State) : Out := toPred h d [] (fun x => x.q a && !x.q b) s
def execQmov (h : Hdr) (d a : Prd) (s : State) : Out := toPred h d [] (fun x => x.q a) s

/-- The eight predicates packed, bit 0 reading 1 (R110). -/
def Cluster.packQ (c : Cluster) : Word := ((c.preds ||| 1).zeroExtend 64)

def execQtos (h : Hdr) (d : Reg) (s : State) : Out := scalarOp h [] [d] 1 (fun c => .reg d c.packQ false) s

/-! ### Scalar floating point (R111-R115) -/

/-- Low 32 bits of a scalar. -/
def lo32 (x : Word) : Nat := x.toNat % 2 ^ 32

/-- A floating-point operation with a rounding field: one draw in mode 6, result and flags after 4 cycles (R111). -/
def sfOp (h : Hdr) (rm : Rnd) (d : Reg) (srcs : List Reg) (f : FEnv → Cluster → Word × FFlags) (s : State) : Out :=
  let ks := s.on h
  if s.pendOn ks (d :: srcs) then s.stalled
  else
    (s.each ks fun s k =>
      let c := s.curCl k
      let (env, c') := c.draw1 rm
      let (v, fl) := f env c
      (s.modCurCl k fun x => { x with srseed := c'.srseed }).fly (onCl s.cur k) 4 (.reg d v (c.dOr srcs)) fl).done

/-- FP32 operand of a cluster, read under FTZ (R111, R44). -/
def Cluster.f32 (c : Cluster) (env : FEnv) (r : Reg) : FVal := fmtF32.readFtz env.ftz (lo32 (c.reg r))

/-- A code zero-extended to a scalar. -/
def zext (x : Nat × FFlags) : Word × FFlags := (BitVec.ofNat 64 x.1, x.2)

def execSfadd (h : Hdr) (rm : Rnd) (d a b : Reg) (s : State) : Out :=
  sfOp h rm d [a, b] (fun env c => zext (fmtF32.add env (c.f32 env a) (c.f32 env b))) s
def execSfsub (h : Hdr) (rm : Rnd) (d a b : Reg) (s : State) : Out :=
  sfOp h rm d [a, b] (fun env c => zext (fmtF32.sub env (c.f32 env a) (c.f32 env b))) s
def execSfmul (h : Hdr) (rm : Rnd) (d a b : Reg) (s : State) : Out :=
  sfOp h rm d [a, b] (fun env c => zext (fmtF32.mul env (c.f32 env a) (c.f32 env b))) s
def execSfma (h : Hdr) (rm : Rnd) (d a b : Reg) (s : State) : Out :=
  sfOp h rm d [a, b, d] (fun env c => zext (fmtF32.fma env (c.f32 env a) (c.f32 env b) (c.f32 env d))) s

def execSfcmp (h : Hdr) (cc : FCond) (q : Prd) (a b : Reg) (s : State) : Out :=
  let ks := s.on h
  if s.pendOn ks [a, b] then s.stalled
  else
    (s.each ks fun s k =>
      let c := s.curCl k
      let (v, fl) := fcmp cc fmtF32 (c.fctl.getLsbD 4) (lo32 (c.reg a)) (lo32 (c.reg b))
      s.fly (onCl s.cur k) 4 (.pred q v) fl).done

/-- SFMIN and SFMAX: no rounding, no draw (R113). -/
def sfMinmax (isMax : Bool) (h : Hdr) (d a b : Reg) (s : State) : Out :=
  sfOp h .rne d [a, b]
    (fun env c => zext (fmtF32.minmax isMax env.ftz (lo32 (c.reg a)) (lo32 (c.reg b)))) s

def execSfmin (h : Hdr) (d a b : Reg) (s : State) : Out := sfMinmax false h d a b s
def execSfmax (h : Hdr) (d a b : Reg) (s : State) : Out := sfMinmax true h d a b s

/-- Source and destination types of a conversion code (Table enc 5). -/
def CvtTypes (c : CvtCode) : Ty × Ty :=
  match c with
  | .f32_i32 => (.f32, .i32)
  | .f32_n32 => (.f32, .n32)
  | .f32_i64 => (.f32, .i64)
  | .i32_f32 => (.i32, .f32)
  | .n32_f32 => (.n32, .f32)
  | .i64_f32 => (.i64, .f32)
  | .f32_bf16 => (.f32, .bf16)
  | .bf16_f32 => (.bf16, .f32)
  | .f32_f16 => (.f32, .f16)
  | .f16_f32 => (.f16, .f32)
  | .f32_e4m3 => (.f32, .e4m3)
  | .e4m3_f32 => (.e4m3, .f32)
  | .f32_e5m2 => (.f32, .e5m2)
  | .e5m2_f32 => (.e5m2, .f32)

/-- The conversion of a scalar, placed under Table scalar 8 (R115). -/
def sfConv (env : FEnv) (c : CvtCode) (x : Word) : Word × FFlags :=
  let (st, dt) := CvtTypes c
  let (v, fl) := convLane env dt st (x.toNat % 2 ^ tyWidth st)
  (if dt == .i32 then (BitVec.ofNat 32 v).signExtend 64 else BitVec.ofNat 64 v, fl)

def execSfcvt (h : Hdr) (cc : CvtCode) (rm : Rnd) (d a : Reg) (s : State) : Out :=
  sfOp h rm d [a] (fun env c => sfConv env cc (c.reg a)) s

/-! ### Panel states (R116, R117) -/

/-- A panel's state at the start of the cycle. -/
def Core.pst0At (x : Core) (p : Pan) : PSt := tget .empty x.pst0 p.toNat

def execSetps (h : Hdr) (p : Pan) (ready : Bool) (s : State) : Out :=
  if (s.on h).isEmpty then s.done
  else
    match s.curCore.pst p with
    | .empty | .ready =>
      (s.modCore s.cur.tile s.cur.core fun x => { x with endFx := x.endFx ++ [.setps p ready] }).done
    | _ => s.stalled

def execGetps (h : Hdr) (d : Reg) (p : Pan) (s : State) : Out :=
  let st := s.curCore.pst0At p
  let code : Word :=
    match st with
    | .empty => 0
    | .filling => 1
    | .ready => 2
    | .busy => 3
    | .draining => 4
  scalarOp h [] [d] 1 (fun _ => .reg d code false) s

def execPstat (h : Hdr) (q : Prd) (p : Pan) (st : PSt) (s : State) : Out :=
  let v := s.curCore.pst0At p == st
  toPred h q [] (fun _ => v) s

/-! ### Semaphores (R229) -/

/-- Phase 2 of the clusters in ascending order: the first that leaves the range, else the new state (R229). -/
def semPhase (k : Sem) (newVal : Cluster → Nat → Int) (put : State → Fin 4 → Nat → State) :
    List (Fin 4) → State → Except (Fin 4 × Bool) State
  | [], s => .ok s
  | j :: js, s =>
    let old := s.curCore.sem k
    let v := newVal (s.curCl j) old
    if v < 0 then .error (j, true)
    else if 65535 < v then .error (j, false)
    else
      let s := s.modCore s.cur.tile s.cur.core fun x => x.setSem k v.toNat
      semPhase k newVal put js (put s j old)

/-- aux of SEMOVF: the semaphore, and bit 8 for a result below zero (R229). -/
def semAux (k : Sem) (below : Bool) : BitVec 32 := BitVec.ofNat 32 (k.toNat + if below then 256 else 0)

def execSemadd (h : Hdr) (d : Reg) (k : Sem) (a : Reg) (s : State) : Out :=
  let ks := s.on h
  if s.pendOn ks [a, d] then s.stalled
  else
    match semPhase k (fun c old => (old : Int) + (c.reg a).toInt)
        (fun s j old => s.fly (onCl s.cur j) 1 (.reg d (BitVec.ofNat 64 old) ((s.curCl j).d a)) fNone) ks s with
    | .ok s' => s'.done
    | .error (j, below) => s.trapped cSEMOVF j ((s.curCl j).reg a) (semAux k below)

def execSemget (h : Hdr) (d : Reg) (k : Sem) (s : State) : Out :=
  let v := tget 0 s.curCore.sems0 k.toNat
  scalarOp h [] [d] 1 (fun _ => .reg d (BitVec.ofNat 64 v) false) s

def execSemset (h : Hdr) (k : Sem) (a : Reg) (s : State) : Out :=
  let ks := s.on h
  if s.pendOn ks [a] then s.stalled
  else
    match semPhase k (fun c _ => ((c.reg a).toNat : Int)) (fun s _ _ => s) ks s with
    | .ok s' => s'.done
    | .error (j, below) => s.trapped cSEMOVF j ((s.curCl j).reg a) (semAux k below)

/-! ### Deferred-bit clear, time and identity (R118-R120) -/

def execClrd (h : Hdr) (d : Reg) (s : State) : Out := scalarOp h [] [d] 1 (fun _ => .clearD d) s
def execRdtick (h : Hdr) (d : Reg) (s : State) : Out :=
  let v := BitVec.ofNat 64 s.tick
  scalarOp h [] [d] 1 (fun _ => .reg d v false) s
def execRdclk (h : Hdr) (d : Reg) (s : State) : Out :=
  let v := BitVec.ofNat 64 (s.cycles s.cur.tile)
  scalarOp h [] [d] 1 (fun _ => .reg d v false) s

/-- The identity a selector names (R120). -/
def cidVal (s : State) (k : Fin 4) (sel : CidSel) : Word :=
  match sel with
  | .cluster => BitVec.ofNat 64 k.val
  | .core => BitVec.ofNat 64 s.cur.core
  | .tile => BitVec.ofNat 64 s.cur.tile
  | .module => (s.cw.identity.extractLsb' 0 12).zeroExtend 64

def execCid (h : Hdr) (d : Reg) (sel : CidSel) (s : State) : Out :=
  let ks := s.on h
  if s.pendOn ks [d] then s.stalled
  else (s.each ks fun s k => s.fly (onCl s.cur k) 1 (.reg d (cidVal s k sel) false) fNone).done

end Sys2Proof.Machine
end

