-- ==== Sys2Proof/Machine/Dispatch.lean ====
section
/-!
DEFINITION. The dispatch of an instruction to its meaning: one arm per constructor, no default.
-/

namespace Sys2Proof.Machine

def exec (i : Instr) (s : State) : Host.Outcome State Fault Refusal :=
  match i with
  | .add h d a b => Sys2Proof.Machine.execAdd h d a b s
  | .sub h d a b => Sys2Proof.Machine.execSub h d a b s
  | .addi h d a imm => Sys2Proof.Machine.execAddi h d a imm s
  | .addsh h d a b sh => Sys2Proof.Machine.execAddsh h d a b sh s
  | .mul h d a b => Sys2Proof.Machine.execMul h d a b s
  | .mulh h d a b => Sys2Proof.Machine.execMulh h d a b s
  | .mulhn h d a b => Sys2Proof.Machine.execMulhn h d a b s
  | .div h d a b => Sys2Proof.Machine.execDiv h d a b s
  | .divn h d a b => Sys2Proof.Machine.execDivn h d a b s
  | .rem h d a b => Sys2Proof.Machine.execRem h d a b s
  | .remn h d a b => Sys2Proof.Machine.execRemn h d a b s
  | .and h d a b => Sys2Proof.Machine.execAnd h d a b s
  | .or h d a b => Sys2Proof.Machine.execOr h d a b s
  | .xor h d a b => Sys2Proof.Machine.execXor h d a b s
  | .andn h d a b => Sys2Proof.Machine.execAndn h d a b s
  | .andi h d a imm => Sys2Proof.Machine.execAndi h d a imm s
  | .ori h d a imm => Sys2Proof.Machine.execOri h d a imm s
  | .xori h d a imm => Sys2Proof.Machine.execXori h d a imm s
  | .shl h d a b => Sys2Proof.Machine.execShl h d a b s
  | .shr h d a b => Sys2Proof.Machine.execShr h d a b s
  | .sra h d a b => Sys2Proof.Machine.execSra h d a b s
  | .rotr h d a b => Sys2Proof.Machine.execRotr h d a b s
  | .shli h d a n => Sys2Proof.Machine.execShli h d a n s
  | .shri h d a n => Sys2Proof.Machine.execShri h d a n s
  | .srai h d a n => Sys2Proof.Machine.execSrai h d a n s
  | .min h d a b => Sys2Proof.Machine.execMin h d a b s
  | .max h d a b => Sys2Proof.Machine.execMax h d a b s
  | .minn h d a b => Sys2Proof.Machine.execMinn h d a b s
  | .maxn h d a b => Sys2Proof.Machine.execMaxn h d a b s
  | .clz h d a => Sys2Proof.Machine.execClz h d a s
  | .popc h d a => Sys2Proof.Machine.execPopc h d a s
  | .bfx h d a pos w => Sys2Proof.Machine.execBfx h d a pos w s
  | .bfxs h d a pos w => Sys2Proof.Machine.execBfxs h d a pos w s
  | .bfi h d a pos w => Sys2Proof.Machine.execBfi h d a pos w s
  | .sel h d q a b => Sys2Proof.Machine.execSel h d q a b s
  | .movi h d imm => Sys2Proof.Machine.execMovi h d imm s
  | .movhi h d imm => Sys2Proof.Machine.execMovhi h d imm s
  | .mov h d a => Sys2Proof.Machine.execMov h d a s
  | .cmp h c q a b => Sys2Proof.Machine.execCmp h c q a b s
  | .cmpi h c q a imm => Sys2Proof.Machine.execCmpi h c q a imm s
  | .tstd h q a => Sys2Proof.Machine.execTstd h q a s
  | .qand h d a b => Sys2Proof.Machine.execQand h d a b s
  | .qor h d a b => Sys2Proof.Machine.execQor h d a b s
  | .qxor h d a b => Sys2Proof.Machine.execQxor h d a b s
  | .qandn h d a b => Sys2Proof.Machine.execQandn h d a b s
  | .qmov h d a => Sys2Proof.Machine.execQmov h d a s
  | .qtos h d => Sys2Proof.Machine.execQtos h d s
  | .sfadd h rm d a b => Sys2Proof.Machine.execSfadd h rm d a b s
  | .sfsub h rm d a b => Sys2Proof.Machine.execSfsub h rm d a b s
  | .sfmul h rm d a b => Sys2Proof.Machine.execSfmul h rm d a b s
  | .sfma h rm d a b => Sys2Proof.Machine.execSfma h rm d a b s
  | .sfcmp h c q a b => Sys2Proof.Machine.execSfcmp h c q a b s
  | .sfcvt h c rm d a => Sys2Proof.Machine.execSfcvt h c rm d a s
  | .sfmin h d a b => Sys2Proof.Machine.execSfmin h d a b s
  | .sfmax h d a b => Sys2Proof.Machine.execSfmax h d a b s
  | .setps h p ready => Sys2Proof.Machine.execSetps h p ready s
  | .getps h d p => Sys2Proof.Machine.execGetps h d p s
  | .pstat h q p st => Sys2Proof.Machine.execPstat h q p st s
  | .semadd h d k a => Sys2Proof.Machine.execSemadd h d k a s
  | .semget h d k => Sys2Proof.Machine.execSemget h d k s
  | .semset h k a => Sys2Proof.Machine.execSemset h k a s
  | .clrd h d => Sys2Proof.Machine.execClrd h d s
  | .rdtick h d => Sys2Proof.Machine.execRdtick h d s
  | .rdclk h d => Sys2Proof.Machine.execRdclk h d s
  | .cid h d sel => Sys2Proof.Machine.execCid h d sel s
  | .br h m disp => Sys2Proof.Machine.execBr h m disp s
  | .bri h m a => Sys2Proof.Machine.execBri h m a s
  | .call h m disp => Sys2Proof.Machine.execCall h m disp s
  | .calli h m a => Sys2Proof.Machine.execCalli h m a s
  | .ret h m => Sys2Proof.Machine.execRet h m s
  | .chk h m a disp => Sys2Proof.Machine.execChk h m a disp s
  | .fork h disp => Sys2Proof.Machine.execFork h disp s
  | .join h set mask => Sys2Proof.Machine.execJoin h set mask s
  | .loop h lvl a disp => Sys2Proof.Machine.execLoop h lvl a disp s
  | .loopi h lvl count disp => Sys2Proof.Machine.execLoopi h lvl count disp s
  | .exit h => Sys2Proof.Machine.execExit h s
  | .returnStackFill id => Sys2Proof.Machine.execReturnStackFill id s
  | .ld h d m => Sys2Proof.Machine.execLd h d m s
  | .ldx h d m idx sh => Sys2Proof.Machine.execLdx h d m idx sh s
  | .st h d m => Sys2Proof.Machine.execSt h d m s
  | .stx h d m idx sh => Sys2Proof.Machine.execStx h d m idx sh s
  | .lds h d sz sp base off => Sys2Proof.Machine.execLds h d sz sp base off s
  | .ldm h d cnt1 sp base off => Sys2Proof.Machine.execLdm h d cnt1 sp base off s
  | .stm h d cnt1 sp base off => Sys2Proof.Machine.execStm h d cnt1 sp base off s
  | .ldmStmSecondPiece id => Sys2Proof.Machine.execLdmStmSecondPiece id s
  | .ldrow h r sp base idx sh off => Sys2Proof.Machine.execLdrow h r sp base idx sh off s
  | .strow h r sp base idx sh off => Sys2Proof.Machine.execStrow h r sp base idx sh off s
  | .pf h base idx sh off => Sys2Proof.Machine.execPf h base idx sh off s
  | .aadd h d m a comb => Sys2Proof.Machine.execAadd h d m a comb s
  | .afadd h d m a comb => Sys2Proof.Machine.execAfadd h d m a comb s
  | .amin h d m a => Sys2Proof.Machine.execAmin h d m a s
  | .amax h d m a => Sys2Proof.Machine.execAmax h d m a s
  | .aminn h d m a => Sys2Proof.Machine.execAminn h d m a s
  | .amaxn h d m a => Sys2Proof.Machine.execAmaxn h d m a s
  | .aand h d m a => Sys2Proof.Machine.execAand h d m a s
  | .aor h d m a => Sys2Proof.Machine.execAor h d m a s
  | .axor h d m a => Sys2Proof.Machine.execAxor h d m a s
  | .axchg h d m a => Sys2Proof.Machine.execAxchg h d m a s
  | .acas h d m a => Sys2Proof.Machine.execAcas h d m a s
  | .bred h r op t base off => Sys2Proof.Machine.execBred h r op t base off s
  | .fence h scp ord => Sys2Proof.Machine.execFence h scp ord s
  | .barinit h o a => Sys2Proof.Machine.execBarinit h o a s
  | .bara h o => Sys2Proof.Machine.execBara h o s
  | .barw h o => Sys2Proof.Machine.execBarw h o s
  | .barp h o a cnt => Sys2Proof.Machine.execBarp h o a cnt s
  | .barrot h => Sys2Proof.Machine.execBarrot h s
  | .vadd h t rm d a b => Sys2Proof.Machine.execVadd h t rm d a b s
  | .vsub h t rm d a b => Sys2Proof.Machine.execVsub h t rm d a b s
  | .vmul h t rm d a b => Sys2Proof.Machine.execVmul h t rm d a b s
  | .vfma h t rm d a b => Sys2Proof.Machine.execVfma h t rm d a b s
  | .vmax h t d a b => Sys2Proof.Machine.execVmax h t d a b s
  | .vmin h t d a b => Sys2Proof.Machine.execVmin h t d a b s
  | .vabs h t d a => Sys2Proof.Machine.execVabs h t d a s
  | .vneg h t d a => Sys2Proof.Machine.execVneg h t d a s
  | .vscale h t rm d a b => Sys2Proof.Machine.execVscale h t rm d a b s
  | .vexp2 h t rm d a => Sys2Proof.Machine.execVexp2 h t rm d a s
  | .vlog2 h t rm d a => Sys2Proof.Machine.execVlog2 h t rm d a s
  | .vrcp h t rm d a => Sys2Proof.Machine.execVrcp h t rm d a s
  | .vrsq h t rm d a => Sys2Proof.Machine.execVrsq h t rm d a s
  | .vcvt h dt t rm d a => Sys2Proof.Machine.execVcvt h dt t rm d a s
  | .vcmp h t c d a b => Sys2Proof.Machine.execVcmp h t c d a b s
  | .vsel h t d a b => Sys2Proof.Machine.execVsel h t d a b s
  | .viadd h t sat d a b => Sys2Proof.Machine.execViadd h t sat d a b s
  | .visub h t sat d a b => Sys2Proof.Machine.execVisub h t sat d a b s
  | .vimul h t d a b => Sys2Proof.Machine.execVimul h t d a b s
  | .vimac h t d a b => Sys2Proof.Machine.execVimac h t d a b s
  | .vrshr h t rm d a b => Sys2Proof.Machine.execVrshr h t rm d a b s
  | .vsatn h dt t d a => Sys2Proof.Machine.execVsatn h dt t d a s
  | .vand h t d a b => Sys2Proof.Machine.execVand h t d a b s
  | .vor h t d a b => Sys2Proof.Machine.execVor h t d a b s
  | .vxor h t d a b => Sys2Proof.Machine.execVxor h t d a b s
  | .vshl h t d a b => Sys2Proof.Machine.execVshl h t d a b s
  | .vshr h t arith d a b => Sys2Proof.Machine.execVshr h t arith d a b s
  | .vimax h t d a b => Sys2Proof.Machine.execVimax h t d a b s
  | .vimin h t d a b => Sys2Proof.Machine.execVimin h t d a b s
  | .vmov h t d a => Sys2Proof.Machine.execVmov h t d a s
  | .vbcast h t d a => Sys2Proof.Machine.execVbcast h t d a s
  | .vext h t d a idx => Sys2Proof.Machine.execVext h t d a idx s
  | .vins h t d a idx => Sys2Proof.Machine.execVins h t d a idx s
  | .vslide h t up d a cnt => Sys2Proof.Machine.execVslide h t up d a cnt s
  | .vperm h t d a b => Sys2Proof.Machine.execVperm h t d a b s
  | .viota h t d => Sys2Proof.Machine.execViota h t d s
  | .vrsum h t rm d a => Sys2Proof.Machine.execVrsum h t rm d a s
  | .vrisum h t d a => Sys2Proof.Machine.execVrisum h t d a s
  | .vrmax h t d a => Sys2Proof.Machine.execVrmax h t d a s
  | .vrmin h t d a => Sys2Proof.Machine.execVrmin h t d a s
  | .vargmax h t d x a => Sys2Proof.Machine.execVargmax h t d x a s
  | .mma h y d a b t => Sys2Proof.Machine.execMma h y d a b t s
  | .mzero h y d => Sys2Proof.Machine.execMzero h y d s
  | .mcvt h y d a rm t => Sys2Proof.Machine.execMcvt h y d a rm t s
  | .mtrn h y d a t => Sys2Proof.Machine.execMtrn h y d a t s
  | .vpinit h y p a => Sys2Proof.Machine.execVpinit h y p a s
  | .vproj h y p p2 a => Sys2Proof.Machine.execVproj h y p p2 a s
  | .vpback h y p p2 a => Sys2Proof.Machine.execVpback h y p p2 a s
  | .vpmerge h y p p2 => Sys2Proof.Machine.execVpmerge h y p p2 s
  | .vpemit h y p a => Sys2Proof.Machine.execVpemit h y p a s
  | .cpylp h y d src cnt => Sys2Proof.Machine.execCpylp h y d src cnt s
  | .cpysp h y dst p cnt => Sys2Proof.Machine.execCpysp h y dst p cnt s
  | .cpymm h y dst src cnt => Sys2Proof.Machine.execCpymm h y dst src cnt s
  | .cpygp h y d list cnt => Sys2Proof.Machine.execCpygp h y d list cnt s
  | .cpyred h y dst src cnt op t => Sys2Proof.Machine.execCpyred h y dst src cnt op t s
  | .cpyz h y dst cnt => Sys2Proof.Machine.execCpyz h y dst cnt s
  | .migr h y page target deadline => Sys2Proof.Machine.execMigr h y page target deadline s
  | .send h y hd src cnt hold => Sys2Proof.Machine.execSend h y hd src cnt hold s
  | .recv h y hd dst cnt => Sys2Proof.Machine.execRecv h y hd dst cnt s
  | .pwr h y hd desc => Sys2Proof.Machine.execPwr h y hd desc s
  | .pwred h y hd desc relay => Sys2Proof.Machine.execPwred h y hd desc relay s
  | .arm h y desc => Sys2Proof.Machine.execArm h y desc s
  | .trap h n => Sys2Proof.Machine.execTrap h n s
  | .rett h => Sys2Proof.Machine.execRett h s
  | .mfcr h d idx => Sys2Proof.Machine.execMfcr h d idx s
  | .mtcr h a idx => Sys2Proof.Machine.execMtcr h a idx s
  | .mtcrRstop h a => Sys2Proof.Machine.execMtcrRstop h a s
  | .mtcrBarbase h a => Sys2Proof.Machine.execMtcrBarbase h a s
  | .mtcrRdbase h a => Sys2Proof.Machine.execMtcrRdbase h a s
  | .mtcrFqbase h a n => Sys2Proof.Machine.execMtcrFqbase h a n s
  | .tlbinvPage h a => Sys2Proof.Machine.execTlbinvPage h a s
  | .tlbinvLarge h a => Sys2Proof.Machine.execTlbinvLarge h a s
  | .tlbinvCtx h => Sys2Proof.Machine.execTlbinvCtx h s
  | .tlbinvAll h => Sys2Proof.Machine.execTlbinvAll h s
  | .mscopWriteback h a b => Sys2Proof.Machine.execMscopWriteback h a b s
  | .mscopInvalidate h a b => Sys2Proof.Machine.execMscopInvalidate h a b s
  | .mscopRetain h a b => Sys2Proof.Machine.execMscopRetain h a b s
  | .mscopEvictFirst h a b => Sys2Proof.Machine.execMscopEvictFirst h a b s
  | .launch h d a q => Sys2Proof.Machine.execLaunch h d a q s
  | .trigger h => Sys2Proof.Machine.execTrigger h s
  | .waitdep h => Sys2Proof.Machine.execWaitdep h s
  | .waitx h a cnt disp => Sys2Proof.Machine.execWaitx h a cnt disp s
  | .postx h a => Sys2Proof.Machine.execPostx h a s
  | .yield h => Sys2Proof.Machine.execYield h s
  | .cueq h d hd => Sys2Proof.Machine.execCueq h d hd s
  | .cuewait h hd => Sys2Proof.Machine.execCuewait h hd s
  | .cuesel h a => Sys2Proof.Machine.execCuesel h a s
  | .faultack h a => Sys2Proof.Machine.execFaultack h a s
  | .perfrd h d a => Sys2Proof.Machine.execPerfrd h d a s
  | .hint h kind a => Sys2Proof.Machine.execHint h kind a s
  | .frameopRead h d a b => Sys2Proof.Machine.execFrameopRead h d a b s
  | .frameopAdjust h d a b => Sys2Proof.Machine.execFrameopAdjust h d a b s
  | .frameopFlags h d a b => Sys2Proof.Machine.execFrameopFlags h d a b s
  | .frameopPush h d a b => Sys2Proof.Machine.execFrameopPush h d a b s
  | .frameopPop h d a b => Sys2Proof.Machine.execFrameopPop h d a b s
  | .frameopShoot h d a b => Sys2Proof.Machine.execFrameopShoot h d a b s
  | .resultWriteback id => Sys2Proof.Machine.execResultWriteback id s
  | .illop addr priv => Sys2Proof.Machine.execIllop addr priv s
  | .instructionFetchFault prot blk aux => Sys2Proof.Machine.execInstructionFetchFault prot blk aux s
  | .longLoadReturn id => Sys2Proof.Machine.execLongLoadReturn id s
  | .atomicReply id => Sys2Proof.Machine.execAtomicReply id s
  | .atomicReplyTimeout id => Sys2Proof.Machine.execAtomicReplyTimeout id s
  | .streamResume id => Sys2Proof.Machine.execStreamResume id s
  | .matrixWindowEntry t c => Sys2Proof.Machine.execMatrixWindowEntry t c s
  | .matrixEntryStart t c => Sys2Proof.Machine.execMatrixEntryStart t c s
  | .matrixEntryComplete t c => Sys2Proof.Machine.execMatrixEntryComplete t c s
  | .projectionStart t c => Sys2Proof.Machine.execProjectionStart t c s
  | .projectionGroup t c => Sys2Proof.Machine.execProjectionGroup t c s
  | .projectionComplete t c => Sys2Proof.Machine.execProjectionComplete t c s
  | .courierTake t c => Sys2Proof.Machine.execCourierTake t c s
  | .courierPart t c => Sys2Proof.Machine.execCourierPart t c s
  | .courierComplete t c => Sys2Proof.Machine.execCourierComplete t c s
  | .cowCopyComplete t c => Sys2Proof.Machine.execCowCopyComplete t c s
  | .migrationLineCopy t slot => Sys2Proof.Machine.execMigrationLineCopy t slot s
  | .migrationSwitch t slot => Sys2Proof.Machine.execMigrationSwitch t slot s
  | .migrationArrival t slot => Sys2Proof.Machine.execMigrationArrival t slot s
  | .engineSignal t c g => Sys2Proof.Machine.execEngineSignal t c g s
  | .portRingTake t c => Sys2Proof.Machine.execPortRingTake t c s
  | .sendBlock t h => Sys2Proof.Machine.execSendBlock t h s
  | .blockArrival id => Sys2Proof.Machine.execBlockArrival id s
  | .sendAcknowledged t h => Sys2Proof.Machine.execSendAcknowledged t h s
  | .packetArrival id => Sys2Proof.Machine.execPacketArrival id s
  | .firedEntryEnqueue t => Sys2Proof.Machine.execFiredEntryEnqueue t s
  | .workEntryTimeout t n armed => Sys2Proof.Machine.execWorkEntryTimeout t n armed s
  | .frameTableStep t => Sys2Proof.Machine.execFrameTableStep t s
  | .tsmBankStep t b => Sys2Proof.Machine.execTsmBankStep t b s
  | .atomicUnitStep t u => Sys2Proof.Machine.execAtomicUnitStep t u s
  | .calendarSlot t => Sys2Proof.Machine.execCalendarSlot t s
  | .routerRequest id => Sys2Proof.Machine.execRouterRequest id s
  | .combineArrival id => Sys2Proof.Machine.execCombineArrival id s
  | .combinedSend t e => Sys2Proof.Machine.execCombinedSend t e s
  | .combinedReply t e => Sys2Proof.Machine.execCombinedReply t e s
  | .combiningEntryTimeout t e => Sys2Proof.Machine.execCombiningEntryTimeout t e s
  | .taskPlacement t c => Sys2Proof.Machine.execTaskPlacement t c s
  | .taskStart t c b => Sys2Proof.Machine.execTaskStart t c b s
  | .bankExchange t c => Sys2Proof.Machine.execBankExchange t c s
  | .bankExchangeEnd t c => Sys2Proof.Machine.execBankExchangeEnd t c s
  | .preemptionSaveWrite t co => Sys2Proof.Machine.execPreemptionSaveWrite t co s
  | .preemptionRequest => Sys2Proof.Machine.execPreemptionRequest s
  | .preemptionDeadline => Sys2Proof.Machine.execPreemptionDeadline s
  | .preemptionRestore => Sys2Proof.Machine.execPreemptionRestore s
  | .mscFilterClear => Sys2Proof.Machine.execMscFilterClear s
  | .distributorTake => Sys2Proof.Machine.execDistributorTake s
  | .taskAging => Sys2Proof.Machine.execTaskAging s
  | .continuationRegistration => Sys2Proof.Machine.execContinuationRegistration s
  | .postApply => Sys2Proof.Machine.execPostApply s
  | .faultRecordDeliver => Sys2Proof.Machine.execFaultRecordDeliver s
  | .sceneStart => Sys2Proof.Machine.execSceneStart s
  | .liveTick => Sys2Proof.Machine.execLiveTick s
  | .darkPoint => Sys2Proof.Machine.execDarkPoint s
  | .rotationEnd => Sys2Proof.Machine.execRotationEnd s
  | .droopBubble t c mask => Sys2Proof.Machine.execDroopBubble t c mask s
  | .laneFailure t p lane => Sys2Proof.Machine.execLaneFailure t p lane s
  | .ringtune t p lane => Sys2Proof.Machine.execRingtune t p lane s
  | .laser n => Sys2Proof.Machine.execLaser n s
  | .laserSwitchover => Sys2Proof.Machine.execLaserSwitchover s
  | .lossRecordReceipt => Sys2Proof.Machine.execLossRecordReceipt s
  | .powerRegrant => Sys2Proof.Machine.execPowerRegrant s
  | .hostQueueConfigWrite q word v => Sys2Proof.Machine.execHostQueueConfigWrite q word v s
  | .hostTailWrite q v => Sys2Proof.Machine.execHostTailWrite q v s
  | .cueLoad v => Sys2Proof.Machine.execCueLoad v s
  | .cueStart v => Sys2Proof.Machine.execCueStart v s
  | .cueChange v => Sys2Proof.Machine.execCueChange v s
  | .cueStop v => Sys2Proof.Machine.execCueStop v s
  | .calendarConfigWrite t word v => Sys2Proof.Machine.execCalendarConfigWrite t word v s
  | .faultAnswer v => Sys2Proof.Machine.execFaultAnswer v s
  | .hostFrameRead a b => Sys2Proof.Machine.execHostFrameRead a b s
  | .hostFrameAdjust a b => Sys2Proof.Machine.execHostFrameAdjust a b s
  | .hostFrameFlags a b => Sys2Proof.Machine.execHostFrameFlags a b s
  | .hostFramePush a b => Sys2Proof.Machine.execHostFramePush a b s
  | .hostFramePop a b => Sys2Proof.Machine.execHostFramePop a b s
  | .hostFrameShoot a b => Sys2Proof.Machine.execHostFrameShoot a b s
  | .hostRegisterWrite off v => Sys2Proof.Machine.execHostRegisterWrite off v s
  | .hostMemoryAccess wr addr n data => Sys2Proof.Machine.execHostMemoryAccess wr addr n data s
  | .pldmPowerSet which v => Sys2Proof.Machine.execPldmPowerSet which v s
  | .attestationRequest nonce => Sys2Proof.Machine.execAttestationRequest nonce s
  | .thermalHold t => Sys2Proof.Machine.execThermalHold t s
  | .thermalTrip t => Sys2Proof.Machine.execThermalTrip t s
  | .thermalRelease t => Sys2Proof.Machine.execThermalRelease t s
  | .coldReset => Sys2Proof.Machine.execColdReset s
  | .bringupStage => Sys2Proof.Machine.execBringupStage s

end Sys2Proof.Machine
end

