-- ==== Sys2Proof/Machine/Step.lean ====
section
/-!
DEFINITION. One step: the head of the agenda, else the turn of the next stream, else the next phase (log entry 1); and the
state whose next step fetches a given word (log entry 5).
-/

namespace Sys2Proof.Machine

def step (s : State) : Host.Outcome State Fault Refusal :=
  match s.agenda with
  | i :: r => exec i { s with agenda := r }
  | [] =>
    match s.turn with
    | i :: r => { s with turn := r }.turnOf exec i
    | [] => .next s.nextPhase

/-! ### Placing one instruction (log entry 5) -/

/-- Tables that map the first 512 MiB onto the first frames of HBM: root at 0x20000, its first entry at 0x30000. -/
def loaderTables (m : Mem) : Mem := mputs (mputs m 0x20000 (leBytes 8 0x30001)) 0x30000 (leBytes 8 0x1F)

/-- The bundle at 0x40000: the word, and the padding bundle of an S-class operation when it does not end its bundle. -/
def loaderCode (m : Mem) (w : Nat) : Mem :=
  mputs m 0x40000 (leBytes 8 w ++ if w / 2 ^ 63 % 2 == 0 then leBytes 8 0x8000000000000000 else [])

/-- The four joined clusters of the placed task. -/
def loaderCluster (c : Cluster) : Cluster :=
  { c with pc := 0x40000, st := .running, priv := true, hold := .none, bubbles := 0, resumeAt := 0 }

/-- The placed task of a core: in the foreground, started and supervisor. -/
def loaderCore (x : Core) : Core :=
  { x with fg := 0, exch := 0,
           b0 := { x.b0 with occ := true, joined := true, started := true, cl := x.b0.cl.map loaderCluster,
                             task := some Task.reset, company := 0x80000 } }

/-- The released module with a task on core 0 of tile 0 whose next bundle is the word; it is that stream's turn. -/
def State.withFetchWord (s : State) (_nbits w : Nat) : State :=
  let s := s.modTile 0 fun x => { x.mapTlb (fun _ => []) with ptroot := 0x20000 }
  let s := s.modCore 0 0 fun x => loaderCore (x.cacheCode 0x1000 (mgets (loaderCode [] w) 0x40000 64))
  { s with hbm := loaderCode (loaderTables s.hbm) w, cw := { s.cw with stage := 8, identity := 0 }, phase := 2, agenda := [],
           turn := [StreamId.zero] }

end Sys2Proof.Machine
end

