-- ==== Sys2Proof/Safety.lean ====
section
/-!
DEFINITION. The terms in which claims about the machine are written: frames (what a step leaves as it was), results put in
flight by an operation, and the state of the module before its tiles are released.
-/

namespace Sys2Proof.Safety

open Sys2Proof.Machine

/-! ### Frames -/

/-- Everything of the module but its tiles and the outcome of the operation is as before. -/
def SameModule (s t : State) : Prop := { t with tiles := s.tiles, iss := s.iss } = s

/-- Every tile is as before but for its cores: its TSM, tables, queues and registers. -/
def SameTiles (s t : State) : Prop := ∀ n, { t.tile n with cores := (s.tile n).cores } = s.tile n

/-- Every core but the present stream's is as before. -/
def SameOtherCores (s t : State) : Prop :=
  ∀ n c, (n = s.cur.tile ∧ c = s.cur.core) ∨ t.core n c = s.core n c

/-- The present stream's core is as before but for its banks: LS, panels, tags, panel states, semaphores, rings, engines. -/
def SameCore (s t : State) : Prop := { t.curCore with b0 := s.curCore.b0, b1 := s.curCore.b1 } = s.curCore

/-- The core's other bank is as before, and the present one but for its clusters. -/
def SameBanks (s t : State) : Prop :=
  (∀ b, (b = 0 ↔ s.cur.bank = 0) ∨ t.curCore.bank b = s.curCore.bank b) ∧
    { t.curBank with cl := s.curBank.cl } = s.curBank

/-- A step changes the present stream's core alone, and the outcome. -/
structure OnlyCore (s t : State) : Prop where
  module : SameModule s t
  tiles : SameTiles s t
  cores : SameOtherCores s t

/-- A step changes clusters of the present stream's bank alone, and the outcome: all of memory, every panel, semaphore,
ring and engine, and every other stream's bank are as before. -/
structure OnlyClusters (s t : State) : Prop extends OnlyCore s t where
  core : SameCore s t
  banks : SameBanks s t

/-- A step changes the present stream's bank alone, and the outcome. -/
structure OnlyBank (s t : State) : Prop extends OnlyCore s t where
  core : SameCore s t
  other : ∀ b, (b = 0 ↔ s.cur.bank = 0) ∨ t.curCore.bank b = s.curCore.bank b

/-! ### Operations that complete -/

/-- The operation answers a next state in which it has taken effect. -/
def Completes (i : Instr) (s : State) (post : State → Prop) : Prop :=
  ∃ t, exec i s = .next t ∧ t.iss = { s.iss with res := .ok } ∧ post t

/-- The operation completes, and changes each cluster whose guard is true by `out` and nothing else. -/
def Does (i : Instr) (s : State) (h : Hdr) (out : Fin 4 → Cluster → Cluster) : Prop :=
  Completes i s fun t =>
    OnlyClusters s t ∧ ∀ k, t.curCl k = if k ∈ s.on h then out k (s.curCl k) else s.curCl k

/-- A result on its way: `lat` advancing cycles from now it writes `dst` and raises `fl` (R94, R95). -/
def fly (lat : Nat) (dst : FDst) (fl : FFlags) (c : Cluster) : Cluster :=
  { c with flights := c.flights ++ [⟨lat, dst, fl, 0⟩] }

/-- A scalar result without flags. -/
def flyReg (lat : Nat) (d : Reg) (v : Word) (df : Bool) (c : Cluster) : Cluster := fly lat (.reg d v df) 0 c

/-- A predicate result without flags. -/
def flyPred (lat : Nat) (q : Prd) (v : Bool) (c : Cluster) : Cluster := fly lat (.pred q v) 0 c

/-- The operation completes, and what it does is that each true cluster's register `d` receives `v` after `lat` advancing
cycles, deferred when a register of `srcs` is (R89, R91, R94). -/
def Gives (i : Instr) (s : State) (h : Hdr) (lat : Nat) (d : Reg) (srcs : List Reg) (v : Cluster → Word) : Prop :=
  Does i s h fun _ c => flyReg lat d (v c) (srcs.any c.d) c

/-- The operation completes, and what it does is that each true cluster's predicate `q` receives `v` after one advancing
cycle (R91, R94). -/
def Tests (i : Instr) (s : State) (h : Hdr) (q : Prd) (v : Cluster → Bool) : Prop :=
  Does i s h fun _ c => flyPred 1 q (v c) c

/-- No cluster whose guard is true has one of the registers pending (R97). -/
def NonePending (s : State) (h : Hdr) (rs : List Reg) : Prop :=
  ∀ k ∈ s.on h, ∀ r ∈ rs, (s.startCl k).p r = false

/-! ### Values -/

/-- The integer conditions of Table enc 5 on two values (R107). -/
def condHolds (c : ICond) (x y : Word) : Bool :=
  match c with
  | .eq => decide (x.toNat = y.toNat)
  | .ne => decide (x.toNat ≠ y.toNat)
  | .lt => decide (x.toInt < y.toInt)
  | .ge => decide (y.toInt ≤ x.toInt)
  | .ltn => decide (x.toNat < y.toNat)
  | .gen => decide (y.toNat ≤ x.toNat)
  | .any => (List.range 64).any fun i => x.getLsbD i && y.getLsbD i
  | .none => (List.range 64).all fun i => !(x.getLsbD i && y.getLsbD i)

/-- The cluster rounds in the stochastic mode: the rounding field says so, or dynamic with FCTL.RM = 6 (R41). -/
def stochastic (c : Cluster) (rm : Rnd) : Bool := decide (rm = .sr ∨ rm = .dyn ∧ c.fctl.toNat % 8 = 6)

/-- The generator's state after the `n`-th draw from the cluster's SRSEED (R42). -/
def drawn (c : Cluster) (n : Nat) : Word := srDraws n c.srseed

/-- The rounding environment of the `n`-th rounding of an operation, `n` from 1 on (R41, R42). -/
def roundEnv (c : Cluster) (rm : Rnd) (n : Nat) : FEnv :=
  { rm := resolveRm rm (c.fctl.extractLsb' 0 3), sat := c.fctl.getLsbD 3, ftz := c.fctl.getLsbD 4,
    u := if stochastic c rm then (drawn c n).toNat / 2 ^ 32 else 0 }

/-- An FP32 operand as read: the low 32 bits of the scalar, a subnormal as zero under FTZ (R44, R111). -/
def f32In (e : FEnv) (c : Cluster) (r : Reg) : FVal := fmtF32.readFtz e.ftz ((c.reg r).toNat % 2 ^ 32)

/-- A floating-point operation on scalars: one rounding, one draw in mode 6, flags and result after 4 cycles (R111). -/
def RoundsTo (i : Instr) (s : State) (h : Hdr) (rm : Rnd) (d : Reg) (srcs : List Reg)
    (f : FEnv → Cluster → Word × FFlags) : Prop :=
  Does i s h fun _ c =>
    Safety.fly 4 (.reg d (f (roundEnv c rm 1) c).1 (srcs.any c.d)) (f (roundEnv c rm 1) c).2
      (if stochastic c rm then { c with srseed := drawn c 1 } else c)

/-- The same for a result of 32 bits, zero-extended. -/
def Rounds (i : Instr) (s : State) (h : Hdr) (rm : Rnd) (d : Reg) (srcs : List Reg) (f : FEnv → Cluster → Nat × FFlags) :
    Prop :=
  RoundsTo i s h rm d srcs fun e c => (BitVec.ofNat 64 (f e c).1, (f e c).2)

/-! ### Lanes (R35, R145) -/

/-- The row of the panel file that a cluster's operand names. -/
def rowOf (x : Core) (c : Cluster) (r : RowRef) : List Byte := x.row r.p (c.rowSel r.r)

/-- Lane `i` of width `w`: bits w*i on of the row read as one little-endian number (R35). -/
def laneAt (w : Nat) (bs : List Byte) (i : Nat) : Nat := leNat bs / 2 ^ (w * i) % 2 ^ w

/-- Lane `i` of operand b: of a row, or the low bits of a scalar (R145). -/
def laneB (x : Core) (c : Cluster) (w : Nat) (b : VB) (i : Nat) : Nat :=
  match b with
  | .row r => laneAt w (rowOf x c r) i
  | .scalar q => (c.reg q).toNat % 2 ^ w

/-- A lane as a signed or unsigned integer, by its type. -/
def laneInt (t : Ty) (v : Nat) : Int := if tySigned t ∧ 2 ^ (tyWidth t - 1) ≤ v then (v : Int) - 2 ^ tyWidth t else v

/-- Bytes of `n` elements of width `w` put in flight to a row from byte `off` on, with the flags of all of them. -/
def flyLanes (lat : Nat) (p : Pan) (row off w n : Nat) (f : Nat → Nat × FFlags) (c : Cluster) : Cluster :=
  Safety.fly lat (.row p row off (bytesOf w ((List.range n).map fun i => (f i).1)))
    ((List.range n).foldl (fun fl i => fl ||| (f i).2) 0) c

/-- The cluster after `n` draws, when it rounds stochastically (R42). -/
def afterDraws (c : Cluster) (rm : Rnd) (n : Nat) : Cluster :=
  if stochastic c rm then { c with srseed := drawn c n } else c

/-- The conditions under which an operation that names the rows `all` and reads the rows `srcs` and the scalars `regs`
issues: nothing pending (R97), panels READY (R147), row selects in range (R148), rows readable (R144). -/
structure RowsOk (s : State) (h : Hdr) (all srcs : List RowRef) (regs : List Reg) : Prop where
  free : NonePending s h (regs ++ selRegs (all.map (·.r)))
  ready : ∀ r ∈ all, s.curCore.pst r.p = .ready
  range : ∀ k ∈ s.on h, ∀ r ∈ all, (s.curCl k).rowSel r.r ≤ 63
  good : ∀ k ∈ s.on h, ∀ r ∈ srcs, s.badPanelRow s.cur.tile s.cur.core r.p ((s.curCl k).rowSel r.r) = false

/-- The scale tags of the rows that the true clusters' operand names are readable (R144). -/
def TagsOk (s : State) (h : Hdr) (a : RowRef) : Prop :=
  ∀ k ∈ s.on h, ∀ b ∈ s.bad, b.inTag s.cur.tile s.cur.core a.p ((s.curCl k).rowSel a.r) = false

/-- A lane-wise operation of type `t`: lane i of row d becomes `f` of the environment of the (i+1)-th rounding and of lanes
i of a, of b and of the old d; every lane draws in mode 6 (R42, R145, R146). -/
def Lanes (i : Instr) (s : State) (h : Hdr) (t : Ty) (rm : Rnd) (lat : Nat) (d a : RowRef) (b : VB)
    (f : FEnv → Nat → Nat → Nat → Nat × FFlags) : Prop :=
  Does i s h fun _ c =>
    flyLanes lat d.p (c.rowSel d.r) 0 (tyWidth t) (tyLanes t)
      (fun i => f (roundEnv c rm (i + 1)) (laneAt (tyWidth t) (rowOf s.curCore c a) i) (laneB s.curCore c (tyWidth t) b i)
        (laneAt (tyWidth t) (rowOf s.curCore c d) i))
      (afterDraws c rm (tyLanes t))

/-- A lane-wise operation that neither rounds nor raises a flag. -/
def LanesPure (i : Instr) (s : State) (h : Hdr) (t : Ty) (d a : RowRef) (b : VB) (f : Nat → Nat → Nat → Nat) : Prop :=
  Lanes i s h t .rne 4 d a b fun _ x y z => (f x y z, 0)

/-- An integer reduced to a lane modulo 2^w (R40). -/
def wrapTo (w : Nat) (z : Int) : Nat := (z % (2 : Int) ^ w).toNat

/-- An integer clamped to the range of a lane type. -/
def clampTo (t : Ty) (z : Int) : Int := max (intLo (tySigned t) (tyWidth t)) (min (intHi (tySigned t) (tyWidth t)) z)

/-! ### Conversions between rows of unequal width (R154) -/

/-- Elements that a conversion converts. -/
def partLen (dt st : Ty) : Nat := 4096 / max (tyWidth st) (tyWidth dt)

/-- First source lane: a widening reads the part that the destination row's number selects. -/
def partSrc (dt st : Ty) (rd : Nat) : Nat := if tyWidth st < tyWidth dt then rd % (tyWidth dt / tyWidth st) * partLen dt st else 0

/-- First destination lane: a narrowing writes the part that the source row's number selects. -/
def partDst (dt st : Ty) (ra : Nat) : Nat := if tyWidth dt < tyWidth st then ra % (tyWidth st / tyWidth dt) * partLen dt st else 0

/-- The value of a source lane, with the block scale of its row's tag for FP4 (R155). -/
def srcLane (x : Core) (c : Cluster) (st : Ty) (a : RowRef) (i : Nat) : LaneV :=
  laneVal (c.fctl.getLsbD 4) st ((x.tagRow a.p (c.rowSel a.r)).getD (i / 32) 0).toNat (laneAt (tyWidth st) (rowOf x c a) i)

/-! ### Control flow (R121-R133) -/

/-- The operation completes and has no other effect. -/
def Passes (i : Instr) (s : State) : Prop := exec i s = .next { s with iss := { s.iss with res := .ok } }

/-- The operation does not issue in this cycle and changes nothing. -/
def Stalls (i : Instr) (s : State) : Prop := exec i s = .next { s with iss := { s.iss with res := .stall } }

/-- One bit a cluster, as DIVERGE reports them (R124). -/
def clusterBits (ks : List (Fin 4)) : BitVec 32 := BitVec.ofNat 32 ((ks.map fun k => 2 ^ k.val).sum)

/-- The joined decision of Table flow 3 when `n` clusters' bits are set, none where it diverges; a forked stream goes by
its own bit (R123). -/
def taken (s : State) (m : JMode) (n : Nat) : Option Bool :=
  if s.curBank.joined then
    match m with
    | .uni => if n = 4 then some true else if n = 0 then some false else none
    | .any => some (decide (0 < n))
    | .all => some (decide (n = 4))
  else some (decide (0 < n))

/-- The operation acts, passes or diverges as the bits of the clusters `on` decide under the mode (R123, R124). -/
def Decides (i : Instr) (s : State) (m : JMode) (on : List (Fin 4)) (act : Prop) : Prop :=
  match taken s m on.length with
  | some true => act
  | some false => Passes i s
  | none => exec i s = .next (s.trapOp cDIVERGE 0 0 (clusterBits on))

/-- Low 55 bits of an address (Table flow 1). -/
def codeAddr (a : Word) : Word := BitVec.ofNat 64 (a.toNat % 2 ^ 55)

/-- Every active cluster changes by `f` and continues at `a`, and nothing else changes. -/
def Moves (i : Instr) (s : State) (a : Word) (f : Cluster → Cluster) : Prop :=
  ∃ t, exec i s = .next t ∧ t.iss = { s.iss with res := .ok, moved := true } ∧ OnlyClusters s t ∧
    ∀ k, t.curCl k = if k ∈ s.active then { f (s.curCl k) with pc := codeAddr a } else s.curCl k

/-- The target of a relative transfer: 64 times the displacement from the operation's fetch block (R59). -/
def codeTarget (s : State) (disp : BitVec 32) : Word := BitVec.ofInt 64 ((s.iss.addr.toNat / 64 * 64 : Nat) + 64 * disp.toInt)

/-- The return address: the fetch block after the operation's (R126). -/
def returnAddr (s : State) : Word := BitVec.ofNat 64 ((s.iss.addr.toNat / 64 * 64 + 64) % 2 ^ 55)

/-- A push onto a stack that has room (R131). -/
def pushed (ra : Word) (c : Cluster) : Cluster := { c with rstack := c.rstack.set c.rstop ra, rstop := c.rstop + 1 }

/-- A loop level set to a count, a body's first and its last block (R134, R137). -/
def levelSet (n : Nat) (count : BitVec 32) (first last : Word) (c : Cluster) : Cluster :=
  { c with lc := c.lc.set n count, lb := c.lb.set n first, le := c.le.set n last }

/-! ### Requests (R255) -/

/-- The request that an access makes: the number that follows the `n` of the same step before it, the tick and cycle of
its issue; a write follows what stood before the cluster's latest FENCE with release (R275). Its time, which the manual leaves
open, is not part of it (log entry 3). -/
def asked (s : State) (n : Nat) (i : StreamId) (op : MemOp) (p : Place) (dst : RDst) (ord : MOrd) (scp : Scp) (comb : Bool) :
    Req :=
  { id := s.nextId + n, who := .stream i, op, loc := p.loc, dst, ord, scp, comb, memside := p.memside, stage := .wait,
    due := 0, tick := s.tick, cyc := s.cycles i.tile, drop := false, cell := none,
    after := if op.writes then (s.cl i).fenced else 0, alloc := false, input := 8, via := [] }

/-- The requests `new` join those of `s`: they are `rs` but for their times, which come after the present quantum; of two that
meet at one point the later one's comes no sooner (R255, R258, R261, R263). -/
def Joins (s t : State) (rs : List Req) : Prop :=
  ∃ new, t.reqs = s.reqs ++ new ∧ (new.map fun r => { r with due := 0 }) = rs ∧ (∀ r ∈ new, s.quantum < r.due) ∧
    new.Pairwise fun q r => q.loc.samePoint r.loc = true → q.due ≤ r.due

/-- A stream's posted write: the flag window takes the low five bits, other memory the bytes (R240, R256). -/
def postOp (p : Place) (bs : List Byte) : MemOp :=
  match p.loc with
  | .tsm _ a => if 0x4000000 ≤ a ∧ a < 0x4001100 then .flag (BitVec.ofNat 5 (leNat bs)) else .write bs
  | _ => .write bs

/-- The effective address: base, index times a power of two, and a signed offset, modulo 2^64 (R253). -/
def effAddr (c : Cluster) (base idx : Reg) (sh : BitVec 3) (off : BitVec 18) : Word :=
  BitVec.ofInt 64 ((c.reg base).toNat + (c.reg idx).toNat * 2 ^ sh.toNat + off.toInt)

/-- Bytes of a loaded value as the destination receives them: the sizes named by i are signed (R256). -/
def loadedAs (sz : Siz) (bs : List Byte) : Word :=
  match sz with
  | .i8 | .i16 | .i32 | .i64 => BitVec.ofInt 64 (Int.bmod (leNat bs) (2 ^ (8 * sizBytes sz)))
  | _ => BitVec.ofNat 64 (leNat bs)

/-- `n` bytes of a memory from `a` on, each read alone. -/
def bytesAt (m : Mem) (a n : Nat) : List Byte := (List.range n).map fun i => mget m (a + i)

/-- LS accesses of the true clusters, of `n` bytes from `a k` on, lie inside the LS and are granted in this cycle: no bank
that serves them is in use or serves two of them, and none was granted before (R236, R238). -/
structure Granted (s : State) (h : Hdr) (a : Fin 4 → Nat) (n : Nat) : Prop where
  held : ∀ k, (s.curCl k).lsHeld = false
  inside : ∀ k ∈ s.on h, a k + n ≤ 0x200000
  free : ∀ k ∈ s.on h, ∀ i < n, s.curCore.lsUsed.getLsbD ((a k + i) / 16 % 32) = false
  apart : ∀ k ∈ s.on h, ∀ j ∈ s.on h, k ≠ j → ∀ x < n, ∀ y < n, (a k + x) / 16 % 32 ≠ (a j + y) / 16 % 32

/-- The banks that the accesses use are taken for the rest of the cycle (R238). -/
def BanksTaken (s t : State) (h : Hdr) (a : Fin 4 → Nat) (n : Nat) : Prop :=
  ∀ b, t.curCore.lsUsed.getLsbD b =
    (s.curCore.lsUsed.getLsbD b || (s.on h).any fun k => (List.range n).any fun i => (a k + i) / 16 % 32 == b)

/-- The operation reads LS bytes: it completes, takes the banks, changes each true cluster by `out` and nothing else. -/
def ReadsLs (i : Instr) (s : State) (h : Hdr) (a : Fin 4 → Nat) (n : Nat) (out : Fin 4 → Cluster → Cluster) : Prop :=
  Completes i s fun t => OnlyCore s t ∧ SameBanks s t ∧
    { t.curCore with b0 := s.curCore.b0, b1 := s.curCore.b1, lsUsed := s.curCore.lsUsed } = s.curCore ∧
    BanksTaken s t h a n ∧ ∀ k, t.curCl k = if k ∈ s.on h then out k (s.curCl k) else s.curCl k

/-- What stood before a FENCE with release of the true clusters has been performed (R275). -/
def FencePassed (s : State) (h : Hdr) : Prop :=
  ∀ r ∈ s.reqsOf s.cur s.active, ∀ k ∈ s.on h, r.performed = true ∨ (s.curCl k).fenced ≤ r.id

/-- The operation writes LS bytes: it completes, takes the banks, puts byte `x` of `v k` at `a k + x` for every true
cluster and leaves every other byte and everything else as it was. -/
def WritesLs (i : Instr) (s : State) (h : Hdr) (a : Fin 4 → Nat) (n : Nat) (v : Fin 4 → List Byte) : Prop :=
  Completes i s fun t => OnlyCore s t ∧ SameBanks s t ∧
    { t.curCore with b0 := s.curCore.b0, b1 := s.curCore.b1, lsUsed := s.curCore.lsUsed, ls := s.curCore.ls } = s.curCore ∧
    BanksTaken s t h a n ∧ (∀ k, t.curCl k = s.curCl k) ∧
    (∀ k ∈ s.on h, ∀ x < n, mget t.curCore.ls (a k + x) = (v k).getD x 0) ∧
    ∀ b, (∀ k ∈ s.on h, b < a k ∨ a k + n ≤ b) → mget t.curCore.ls b = mget s.curCore.ls b

/-- A step adds requests and changes, beside clusters of the present bank, only what is cached of translations: all of
memory is as before (R255, R398). -/
structure Sends (s t : State) (rs : List Req) : Prop where
  module : { t with tiles := s.tiles, iss := s.iss, reqs := s.reqs, nextId := s.nextId, fresh := s.fresh } = s
  tiles : ∀ n, { t.tile n with cores := (s.tile n).cores, tlb := (s.tile n).tlb } = s.tile n
  cores : SameOtherCores s t
  core : { t.curCore with b0 := s.curCore.b0, b1 := s.curCore.b1, tlb := s.curCore.tlb } = s.curCore
  banks : SameBanks s t
  reqs : Joins s t rs
  next : t.nextId = s.nextId + rs.length
  fresh : t.fresh = s.fresh + rs.length

/-- The checked accesses with the place of each. -/
def placed (xs : List MAcc) : List (MAcc × Place) := xs.filterMap fun x => x.tgt.place.map fun p => (x, p)

/-- A place some bytes further on. -/
def Place.plus (p : Place) (n : Nat) : Place :=
  { p with loc := match p.loc with | .tsm t a => .tsm t (a + n) | .hbm a => .hbm (a + n) | .far a => .far (a + n) }

/-- The operation completes by one request for each checked access, and changes each true cluster by `out`. -/
def Asks (i : Instr) (s : State) (h : Hdr) (xs : List MAcc) (req : Nat → MAcc → Place → Req) (out : Fin 4 → Cluster → Cluster) :
    Prop :=
  Completes i s fun t => Sends s t ((placed xs).mapIdx fun n x => req n x.1 x.2) ∧ (placed xs).length = (s.on h).length ∧
    ∀ k, t.curCl k = if k ∈ s.on h then out k (s.curCl k) else s.curCl k

/-! ### Entries of an engine's ring (R289-R292) -/

/-- LS offset of an engine's ring (Table eq 1). -/
def ringAt : Eng → Nat
  | .matrix => 0x1FC000
  | .proj => 0x1FD000
  | .courier => 0x1FE000
  | .port => 0x1FF000

/-- The ring record of an engine of the present core. -/
def ringOf (x : Core) (g : Eng) : Ring :=
  match g with
  | .matrix => x.rings.c0
  | .proj => x.rings.c1
  | .courier => x.rings.c2
  | .port => x.rings.c3

/-- LS offset of the slot that the `n`-th entry of a bundle takes. -/
def slotAt (s : State) (g : Eng) (n : Nat) : Nat := ringAt g + 64 * (((ringOf s.curCore g).tail + n) % 64)

/-- The eight words of an entry (Table eq 2): the operation with E and guard replaced by bank and cluster, the issuer's
FCTL and company, a draw or 0, three scalars or 0, the cycle of the enqueue, 0. -/
def entryWords (s : State) (w : Word) (k : Fin 4) (draw : Bool) (v3 v4 v5 : Word) : List Nat :=
  [w.toNat % 2 ^ 63 / 2 ^ 52 * 2 ^ 52 + s.cur.bank % 2 * 2 ^ 50 + k.val * 2 ^ 48 + w.toNat % 2 ^ 48,
    (s.curCl k).fctl.toNat + s.curBank.company.toNat % 2 ^ 16 * 2 ^ 32,
    if draw then (drawn (s.curCl k) 1).toNat else 0, v3.toNat, v4.toNat, v5.toNat, s.cycles s.cur.tile % 2 ^ 64, 0]

/-- The operation appends one entry for each true cluster, in ascending order, to the engine's ring, a cluster that `draws`
drawing once; every other byte of the LS and everything else is as before. Without room, or while entries of a restored company
stand before it (R182, R300), it does not issue. -/
def Enqueues (i : Instr) (s : State) (h : Hdr) (g : Eng) (v3 v4 v5 : Cluster → Word) (draws : Cluster → Bool) : Prop :=
  ∀ w, encode i = some w →
    let r := ringOf s.curCore g
    (s.on h ≠ [] → 64 < r.count + (s.on h).length ∨ s.ringOwed s.cur.tile s.cur.core g = true → Stalls i s) ∧
    (s.on h = [] ∨ r.count + (s.on h).length ≤ 64 ∧ s.ringOwed s.cur.tile s.cur.core g = false →
      (∀ n < (s.on h).length, s.badLs s.cur.tile s.cur.core (slotAt s g n) 64 = []) →
      Completes i s fun t => OnlyCore s t ∧ SameBanks s t ∧
        { t.curCore with b0 := s.curCore.b0, b1 := s.curCore.b1, ls := s.curCore.ls, rings := s.curCore.rings } = s.curCore ∧
        (∀ f, f ≠ g → ringOf t.curCore f = ringOf s.curCore f) ∧
        (r.tail < 64 → ringOf t.curCore g = ⟨r.head, (r.tail + (s.on h).length) % 64, r.count + (s.on h).length⟩) ∧
        (∀ k, t.curCl k =
          if k ∈ s.on h ∧ draws (s.curCl k) then { s.curCl k with srseed := drawn (s.curCl k) 1 } else s.curCl k) ∧
        (∀ n k, (s.on h)[n]? = some k → bytesAt t.curCore.ls (slotAt s g n) 64 =
          (entryWords s w k (draws (s.curCl k)) (v3 (s.curCl k)) (v4 (s.curCl k)) (v5 (s.curCl k))).flatMap (leBytes 8)) ∧
        ∀ a, (∀ n < (s.on h).length, a < slotAt s g n ∨ slotAt s g n + 64 ≤ a) → mget t.curCore.ls a = mget s.curCore.ls a)

/-- A line of 64 bytes of this module that no migration and no error touches. -/
structure PlainLine (s : State) (a : Nat) : Prop where
  inside : a < 2 ^ 40
  aligned : a % 64 = 0
  still : s.migOf a = none
  good : s.badHbm a 64 = []
  lines : ∀ e ∈ (s.tile (paTile a)).msc, e.2.data.length = 64

/-! ### The Y class -/

/-- The operation completes, and all it does beside is to note changes that stand at the end of the core's cycle (R208). -/
def AtCycleEnd (i : Instr) (s : State) (es : List EndFx) : Prop :=
  Completes i s fun t => OnlyCore s t ∧ SameBanks s t ∧ (∀ k, t.curCl k = s.curCl k) ∧
    { t.curCore with b0 := s.curCore.b0, b1 := s.curCore.b1, endFx := s.curCore.endFx } = s.curCore ∧
    t.curCore.endFx = s.curCore.endFx ++ es

/-- A flag as a bit of a word at place `n`. -/
def flagAt (n : Nat) (b : Bool) : Nat := if b then 2 ^ n else 0

/-- An address cut to multiples of `n` within 55 bits (Tables flow 1, ctx 1). -/
def cutAddr (n : Nat) (v : Word) : Word := BitVec.ofNat 64 (v.toNat % 2 ^ 55 / n * n)

/-- No request of the bank's clusters `ks` is under way. -/
def NothingAwaited (s : State) (i : StreamId) (ks : List (Fin 4)) : Prop := ∀ r ∈ s.reqs, r.who.isStream i ks = false

/-- What is left of a cluster that has trapped: nothing it waited for, and in flight only what the present cycle still ends
(R95, R212). -/
def drainedCl (c : Cluster) : Cluster :=
  { c with flights := c.flights.filter (·.left = 0), hold := .none, buf := .idle, lbuf := .idle, fill := .idle, code := .idle,
           waitAns := false, lsHeld := false, after := none }

/-- The results of a cluster that a trap moves to the pending-write buffer (R212). -/
def drainedTo (c : Cluster) (k : Fin 4) : List PwEnt := (c.flights.filter (·.left ≠ 0)).map fun f => ⟨k, f⟩

/-- CAUSE, EPC and EADDR as a trap writes them (R215). -/
def noted (cause : Nat) (aux : BitVec 32) (epc eaddr : Word) (c : Cluster) : Cluster :=
  { c with causeCode := BitVec.ofNat 8 cause, causeAux := aux, epc := cutAddr 8 epc, eaddr := eaddr }

/-- The cached translations of the tiles that `on` names are those that `drop` spares; everything else is as before. -/
def Invalidates (i : Instr) (s : State) (on : Nat → Bool) (drop : TlbEnt → Bool) : Prop :=
  Completes i s fun t => { t with tiles := s.tiles, iss := s.iss } = s ∧
    ∀ n < 16, t.tile n = if on n then (s.tile n).mapTlb (List.filter fun e => !drop e) else s.tile n

/-! ### Units -/

/-- The row answers a next state of which `post` holds. -/
def Steps (i : Instr) (s : State) (post : State → Prop) : Prop := ∃ u, exec i s = .next u ∧ post u

/-- The head of an engine's ring has left it, and the semaphore it waited on holds that much less (R226, R293). -/
def HeadTaken (x y : Core) (g : Eng) (e : Slot) : Prop :=
  (∀ k, tget 0 y.sems k = if k = e.wsem.toNat then tget 0 x.sems k - e.wcnt else tget 0 x.sems k) ∧
    ringOf y g = ⟨((ringOf x g).head + 1) % 64, (ringOf x g).tail, (ringOf x g).count - 1⟩

/-- The LS banks of the slot at the head of an engine's ring are free in this cycle, and none are kept for the engine (R239,
R292). -/
def SlotFree (x : Core) (g : Eng) : Prop :=
  x.lsUsed &&& lsBanks (ringAt g + 64 * ((ringOf x g).head % 64)) 64 = 0 ∧ (x.lsEng.get (engIdx g)).given = false

/-- Those banks are in use. -/
def SlotBusy (x : Core) (g : Eng) : Prop :=
  x.lsUsed &&& lsBanks (ringAt g + 64 * ((ringOf x g).head % 64)) 64 ≠ 0 ∧ (x.lsEng.get (engIdx g)).given = false

/-- The core is as before but for the LS banks its engines use and wait for. -/
def OnlyBanks (x y : Core) : Prop := { y with lsUsed := x.lsUsed, lsEng := x.lsEng } = x

/-- The wait of an entry is met (R226). -/
def WaitMet (x : Core) (e : Slot) : Prop := e.wcnt = 0 ∨ e.wcnt ≤ tget 0 x.sems e.wsem.toNat

/-- The signals of an engine that stand in line. -/
def sigsOf (x : Core) (g : Eng) : Sigs :=
  match g with
  | .matrix => x.sigs.c0
  | .proj => x.sigs.c1
  | .courier => x.sigs.c2
  | .port => x.sigs.c3

/-- The signal of a completed entry joins those in line, when it has one (R171, R226). -/
def Signalled (x y : Core) (g : Eng) (e : Slot) : Prop :=
  (sigsOf y g).q = (sigsOf x g).q ++ if e.sinc = 0 then [] else [⟨e.ssem, e.sinc, e.clNo, e.bankNo⟩]

/-- A performed request's answer sets out, or the request is done when nothing awaits it. -/
def Answered (s u : State) (r : Req) (bs : List Byte) (nv bad : Bool) : Prop :=
  (r.dst = .none ∨ r.dst = .remote → ∀ q ∈ u.reqs, q.id ≠ r.id) ∧
    (r.dst ≠ .none → r.dst ≠ .remote → ∀ q, u.findReq r.id = some q → q.stage = .reply bs nv bad ∧ s.quantum < q.due)

/-! ### Scheduling (R28, R211, R219) -/

/-- A stream can run: it is not parked, or the record for which it is parked has been answered. -/
def mayRun (c : Cluster) : Prop := (c.st = .running ∧ c.waitAns = false) ∨ (c.st = .parked ∧ c.answered = true)

/-- A stream is parked on a fault: parked, or stalled on data whose record awaits an answer (R216, R219). -/
def faulted (c : Cluster) : Prop := c.st = .parked ∨ c.waitAns = true

/-- A stream stands: it is parked on a fault, or waits in a join set whose clusters that have not arrived all are (R142). -/
def stands (b : Bank) (k : Fin 4) : Prop :=
  faulted (b.cl.get k) ∨ ((b.cl.get k).st = .joinWait ∧ ∃ j ∈ b.joins, j.2.busy = true ∧ j.2.arrived.getLsbD k.val = true ∧
    ∀ n : Fin 4, j.2.expected.getLsbD n.val = true → j.2.arrived.getLsbD n.val = true ∨ faulted (b.cl.get n))

/-- The task has this cluster's stream: one while joined, else those that have not exited. -/
def hasStream (b : Bank) (k : Fin 4) : Prop :=
  if b.joined then k = 0 else (b.cl.get k).st ≠ .exited ∧ (b.cl.get k).st ≠ .idle

/-- The bank holds a task with a stream that can run. -/
def Able (b : Bank) : Prop := b.occ = true ∧ ∃ k, hasStream b k ∧ mayRun (b.cl.get k)

/-- The foreground bank gives way: it is free, or every stream of its task stands and none can run. -/
def GivesWay (b : Bank) : Prop := b.occ = false ∨ ∀ k, hasStream b k → stands b k ∧ ¬mayRun (b.cl.get k)

/-- The core becomes `y`; every other core and all else of the module is as before. -/
def CoreBecomes (s u : State) (t c : Nat) (y : Core) : Prop :=
  { u with tiles := s.tiles } = s ∧ (∀ n, { u.tile n with cores := (s.tile n).cores } = s.tile n) ∧
    ∀ n d, u.core n d = if n = t ∧ d = c then y else s.core n d

/-- Every tile changes by `f`; all else of the module is as before. -/
def TilesBecome (s u : State) (f : Nat → Tile → Tile) : Prop :=
  { u with tiles := s.tiles } = s ∧ ∀ n < 16, u.tile n = f n (s.tile n)

/-- Entry `e` is placed before `f`: a higher priority, then a lower tick, then a lower order (R314). -/
def placedBefore (e f : TaskEnt) : Prop :=
  f.prio < e.prio ∨ (f.prio = e.prio ∧ (e.tick < f.tick ∨ (e.tick = f.tick ∧ e.order < f.order)))

/-- The bank that a placement takes: the free foreground bank unless the other can run, else the other when free. -/
def TakesTask (x : Core) (b : Nat) : Prop :=
  (b = x.fg % 2 ∧ (x.bank b).occ = false ∧ ¬Able (x.bank (1 - b))) ∨
    (b = 1 - x.fg % 2 ∧ (x.bank (x.fg % 2)).occ = true ∧ (x.bank b).occ = false)

/-- A parked stream whose record was answered in an earlier tick, at or after the cycle from which it may resume (R217; log
entry 37). -/
def Ready (s : State) (i : StreamId) : Prop :=
  (s.cl i).st = .parked ∧ (s.cl i).answered = true ∧ (s.cl i).resumeAt ≤ s.cycles i.tile ∧ (s.cl i).ansTick < s.tick

/-- The stream is the next of its core to resume: the first by the tick of its answer, then by its cluster. -/
structure Resumes (s : State) (i : StreamId) : Prop where
  task : (s.bank i).occ = true ∧ (s.bank i).started = true
  here : (s.core i.tile i.core).exch = 0 ∧ (s.core i.tile i.core).fg % 2 = i.bank
  ready : Ready s i
  stream : (s.bank i).joined = true → i.cl = 0
  first : ∀ k, Ready s (onCl i k) → (s.cl i).ansTick < (s.cl (onCl i k)).ansTick ∨
    ((s.cl i).ansTick = (s.cl (onCl i k)).ansTick ∧ i.cl ≤ k)

/-- The bytes of a little-endian completion record (Table launch 2, R308). -/
def completionBytes (launch status kind late actions : Nat) : List Byte :=
  leBytes 8 (launch + status * 2 ^ 32 + kind * 2 ^ 40 + late * 2 ^ 48) ++ leBytes 8 actions

/-! ### Memories -/

/-- Every memory of the module is in canonical form. -/
def Canonical (s : State) : Prop :=
  Memory.wf s.hbm ∧ Memory.wf s.hostMem ∧ Memory.wf s.pool ∧
    ∀ n, Memory.wf (s.tile n).tsm ∧ ∀ c, Memory.wf (s.core n c).ls ∧ Memory.wf (s.core n c).panels ∧ Memory.wf (s.core n c).tags

/-! ### Before release -/

/-- Before the tiles are released nothing runs but the host's accesses, events from outside and bring-up itself (R420). -/
def PreRelease (s : State) : Prop :=
  s.cw.stage < 8 ∧ s.phase ≠ 8 ∧ s.turn = [] ∧ ∀ i ∈ s.agenda, fromOutside i = true ∨ i = .bringupStage

end Sys2Proof.Safety
end

