-- ==== Sys2Proof/Certificates/Slice0/Obligations.lean ====
section
/-!
DEFINITION. The statements for the provers: what the rules of the manual say of the encoding, of each instruction, of the
steps of the machine's units and of the whole machine.
-/

open Sys2Proof Sys2Proof.Machine Sys2Proof.Safety

/-! ### S class -/

/-- R99-R101: sums, products, quotients and remainders, written in integer arithmetic; the D bit is the OR of the sources'
(R91), the latency that of Table scalar 5, and nothing but the true clusters' results in flight changes. -/
def Obligations.ScalarArithmetic : Prop :=
  ∀ (s : State) (h : Hdr) (d a b : Reg) (imm : BitVec 32) (sh : BitVec 3), NonePending s h [a, b, d] →
    Gives (.add h d a b) s h 1 d [a, b] (fun c => BitVec.ofNat 64 ((c.reg a).toNat + (c.reg b).toNat)) ∧
    Gives (.sub h d a b) s h 1 d [a, b] (fun c => BitVec.ofInt 64 ((c.reg a).toInt - (c.reg b).toInt)) ∧
    Gives (.addi h d a imm) s h 1 d [a] (fun c => BitVec.ofInt 64 ((c.reg a).toInt + imm.toInt)) ∧
    Gives (.addsh h d a b sh) s h 1 d [a, b]
      (fun c => BitVec.ofNat 64 ((c.reg a).toNat + (c.reg b).toNat * 2 ^ sh.toNat)) ∧
    Gives (.mul h d a b) s h 3 d [a, b] (fun c => BitVec.ofNat 64 ((c.reg a).toNat * (c.reg b).toNat)) ∧
    Gives (.mulh h d a b) s h 3 d [a, b] (fun c => BitVec.ofInt 64 (((c.reg a).toInt * (c.reg b).toInt).fdiv (2 ^ 64))) ∧
    Gives (.mulhn h d a b) s h 3 d [a, b] (fun c => BitVec.ofNat 64 ((c.reg a).toNat * (c.reg b).toNat / 2 ^ 64)) ∧
    Gives (.div h d a b) s h 34 d [a, b] (fun c =>
      if c.reg b = 0 then BitVec.allOnes 64 else BitVec.ofInt 64 ((c.reg a).toInt.tdiv (c.reg b).toInt)) ∧
    Gives (.divn h d a b) s h 34 d [a, b] (fun c =>
      if c.reg b = 0 then BitVec.allOnes 64 else BitVec.ofNat 64 ((c.reg a).toNat / (c.reg b).toNat)) ∧
    Gives (.rem h d a b) s h 34 d [a, b] (fun c =>
      if c.reg b = 0 then c.reg a else BitVec.ofInt 64 ((c.reg a).toInt.tmod (c.reg b).toInt)) ∧
    Gives (.remn h d a b) s h 34 d [a, b] (fun c =>
      if c.reg b = 0 then c.reg a else BitVec.ofNat 64 ((c.reg a).toNat % (c.reg b).toNat))

/-- R102-R106: logic, shifts, minima and maxima, counts, bit fields, selection and moves. -/
def Obligations.ScalarLogic : Prop :=
  ∀ (s : State) (h : Hdr) (d a b : Reg) (q : Prd) (imm : BitVec 32) (n pos : BitVec 6) (w : BitVec 7),
    NonePending s h [a, b, d] →
    Gives (.and h d a b) s h 1 d [a, b] (fun c => c.reg a &&& c.reg b) ∧
    Gives (.or h d a b) s h 1 d [a, b] (fun c => c.reg a ||| c.reg b) ∧
    Gives (.xor h d a b) s h 1 d [a, b] (fun c => c.reg a ^^^ c.reg b) ∧
    Gives (.andn h d a b) s h 1 d [a, b] (fun c => c.reg a &&& (BitVec.allOnes 64 ^^^ c.reg b)) ∧
    Gives (.andi h d a imm) s h 1 d [a] (fun c => c.reg a &&& BitVec.ofInt 64 imm.toInt) ∧
    Gives (.ori h d a imm) s h 1 d [a] (fun c => c.reg a ||| BitVec.ofInt 64 imm.toInt) ∧
    Gives (.xori h d a imm) s h 1 d [a] (fun c => c.reg a ^^^ BitVec.ofInt 64 imm.toInt) ∧
    Gives (.shl h d a b) s h 1 d [a, b] (fun c => BitVec.ofNat 64 ((c.reg a).toNat * 2 ^ ((c.reg b).toNat % 64))) ∧
    Gives (.shr h d a b) s h 1 d [a, b] (fun c => BitVec.ofNat 64 ((c.reg a).toNat / 2 ^ ((c.reg b).toNat % 64))) ∧
    Gives (.sra h d a b) s h 1 d [a, b] (fun c => BitVec.ofInt 64 ((c.reg a).toInt / 2 ^ ((c.reg b).toNat % 64))) ∧
    Gives (.rotr h d a b) s h 1 d [a, b] (fun c =>
      BitVec.ofNat 64 ((c.reg a).toNat / 2 ^ ((c.reg b).toNat % 64) + (c.reg a).toNat * 2 ^ (64 - (c.reg b).toNat % 64))) ∧
    Gives (.shli h d a n) s h 1 d [a] (fun c => BitVec.ofNat 64 ((c.reg a).toNat * 2 ^ n.toNat)) ∧
    Gives (.shri h d a n) s h 1 d [a] (fun c => BitVec.ofNat 64 ((c.reg a).toNat / 2 ^ n.toNat)) ∧
    Gives (.srai h d a n) s h 1 d [a] (fun c => BitVec.ofInt 64 ((c.reg a).toInt / 2 ^ n.toNat)) ∧
    Gives (.min h d a b) s h 1 d [a, b] (fun c => BitVec.ofInt 64 (Min.min (c.reg a).toInt (c.reg b).toInt)) ∧
    Gives (.max h d a b) s h 1 d [a, b] (fun c => BitVec.ofInt 64 (Max.max (c.reg a).toInt (c.reg b).toInt)) ∧
    Gives (.minn h d a b) s h 1 d [a, b] (fun c => BitVec.ofNat 64 (Min.min (c.reg a).toNat (c.reg b).toNat)) ∧
    Gives (.maxn h d a b) s h 1 d [a, b] (fun c => BitVec.ofNat 64 (Max.max (c.reg a).toNat (c.reg b).toNat)) ∧
    Gives (.clz h d a) s h 1 d [a] (fun c => (c.reg a).clz) ∧
    Gives (.popc h d a) s h 1 d [a] (fun c => (c.reg a).cpop) ∧
    (bfWf pos w →
      Gives (.bfx h d a pos w) s h 1 d [a] (fun c => ((c.reg a).extractLsb' pos.toNat w.toNat).zeroExtend 64) ∧
      Gives (.bfxs h d a pos w) s h 1 d [a] (fun c => ((c.reg a).extractLsb' pos.toNat w.toNat).signExtend 64) ∧
      Gives (.bfi h d a pos w) s h 1 d [a, d] (fun c =>
        BitVec.ofNat 64 ((c.reg d).toNat / 2 ^ (pos.toNat + w.toNat) * 2 ^ (pos.toNat + w.toNat) +
          (c.reg a).toNat % 2 ^ w.toNat * 2 ^ pos.toNat + (c.reg d).toNat % 2 ^ pos.toNat))) ∧
    Does (.sel h d q a b) s h (fun _ c =>
      if c.q q then flyReg 1 d (c.reg a) (c.d a) c else flyReg 1 d (c.reg b) (c.d b) c) ∧
    Gives (.movi h d imm) s h 1 d [] (fun _ => BitVec.ofInt 64 imm.toInt) ∧
    Gives (.movhi h d imm) s h 1 d [d] (fun c => BitVec.ofNat 64 (imm.toNat * 2 ^ 32 + (c.reg d).toNat % 2 ^ 32)) ∧
    Gives (.mov h d a) s h 1 d [a] (fun c => c.reg a)

/-- R107-R110, R117: compares, the D-bit test, predicate logic and the packed predicates. R117-R120, R229: what the reads of
the machine give: a panel's state and a semaphore as they stood when the cycle began, the tick and cycle counts, the identity;
and CLRD, which clears the D bit alone. -/
def Obligations.PredicatesAndReads : Prop :=
  (∀ (s : State) (h : Hdr) (c : ICond) (q : Prd) (a b d : Reg) (imm : BitVec 32) (x y : Prd) (p : Pan) (st : PSt),
     NonePending s h [a, b, d] →
     Tests (.cmp h c q a b) s h q (fun k => condHolds c (k.reg a) (k.reg b)) ∧
     Tests (.cmpi h c q a imm) s h q (fun k => condHolds c (k.reg a) (BitVec.ofInt 64 imm.toInt)) ∧
     Tests (.tstd h q a) s h q (fun k => k.d a) ∧
     Tests (.qand h q x y) s h q (fun k => k.q x && k.q y) ∧
     Tests (.qor h q x y) s h q (fun k => k.q x || k.q y) ∧
     Tests (.qxor h q x y) s h q (fun k => xor (k.q x) (k.q y)) ∧
     Tests (.qandn h q x y) s h q (fun k => k.q x && !k.q y) ∧
     Tests (.qmov h q x) s h q (fun k => k.q x) ∧
     Tests (.pstat h q p st) s h q (fun _ => decide (tget .empty s.curCore.pst0 p.toNat = st)) ∧
     Gives (.qtos h d) s h 1 d [] (fun k =>
       BitVec.ofNat 64 (((List.range 8).map fun n => if k.q (BitVec.ofNat 3 n) then 2 ^ n else 0).sum))) ∧
  (∀ (s : State) (h : Hdr) (d : Reg) (p : Pan) (k : Sem), NonePending s h [d] →
     Gives (.getps h d p) s h 1 d [] (fun _ =>
       match tget .empty s.curCore.pst0 p.toNat with | .empty => 0 | .filling => 1 | .ready => 2 | .busy => 3 | .draining => 4) ∧
     Gives (.semget h d k) s h 1 d [] (fun _ => BitVec.ofNat 64 (tget 0 s.curCore.sems0 k.toNat)) ∧
     Does (.clrd h d) s h (fun _ => Safety.fly 1 (.clearD d) 0) ∧
     Gives (.rdtick h d) s h 1 d [] (fun _ => BitVec.ofNat 64 s.tick) ∧
     Gives (.rdclk h d) s h 1 d [] (fun _ => BitVec.ofNat 64 (s.cycles s.cur.tile)) ∧
     Does (.cid h d .cluster) s h (fun k => flyReg 1 d (BitVec.ofNat 64 k.val) false) ∧
     Gives (.cid h d .core) s h 1 d [] (fun _ => BitVec.ofNat 64 s.cur.core) ∧
     Gives (.cid h d .tile) s h 1 d [] (fun _ => BitVec.ofNat 64 s.cur.tile) ∧
     Gives (.cid h d .module) s h 1 d [] (fun _ => BitVec.ofNat 64 (s.cw.identity.toNat % 2 ^ 12)))

/-- R111-R115: scalar floating point. The rounding environment is the cluster's; in mode 6 the operation draws once and leaves
the generator's new state in SRSEED (R42); flags and result become visible together after four cycles. What is the model's own
choice in it: log entry 6. -/
def Obligations.ScalarFloat : Prop :=
  ∀ (s : State) (h : Hdr) (rm : Rnd) (d a b : Reg) (cc : CvtCode) (fc : FCond) (q : Prd), NonePending s h [a, b, d] →
    Rounds (.sfadd h rm d a b) s h rm d [a, b] (fun e c => fmtF32.add e (f32In e c a) (f32In e c b)) ∧
    Rounds (.sfsub h rm d a b) s h rm d [a, b] (fun e c => fmtF32.sub e (f32In e c a) (f32In e c b)) ∧
    Rounds (.sfmul h rm d a b) s h rm d [a, b] (fun e c => fmtF32.mul e (f32In e c a) (f32In e c b)) ∧
    Rounds (.sfma h rm d a b) s h rm d [a, b, d] (fun e c => fmtF32.fma e (f32In e c a) (f32In e c b) (f32In e c d)) ∧
    Rounds (.sfmin h d a b) s h .rne d [a, b] (fun e c =>
      fmtF32.minmax false e.ftz ((c.reg a).toNat % 2 ^ 32) ((c.reg b).toNat % 2 ^ 32)) ∧
    Rounds (.sfmax h d a b) s h .rne d [a, b] (fun e c =>
      fmtF32.minmax true e.ftz ((c.reg a).toNat % 2 ^ 32) ((c.reg b).toNat % 2 ^ 32)) ∧
    RoundsTo (.sfcvt h cc rm d a) s h rm d [a] (fun e c => sfConv e cc (c.reg a)) ∧
    Does (.sfcmp h fc q a b) s h (fun _ c =>
      Safety.fly 4 (.pred q (fcmp fc fmtF32 (c.fctl.getLsbD 4) ((c.reg a).toNat % 2 ^ 32) ((c.reg b).toNat % 2 ^ 32)).1)
        (fcmp fc fmtF32 (c.fctl.getLsbD 4) ((c.reg a).toNat % 2 ^ 32) ((c.reg b).toNat % 2 ^ 32)).2 c)

/-- R97: an operation that reads or writes a pending scalar of a true cluster does not issue; nothing but the outcome of the
attempt changes. R147, R148: a V-class operation waits while a panel it names is not READY, and a row select above 63 raises
PSHAPE for the lowest such cluster with the offending value; the trap leaves no other effect of the operation. R297, R298
and Table eq 10: what the checks of CPYLP and CPYSP refuse: reserved bits of the count, a count that is no multiple of 512,
rows past the last panel, an LS or TSM address whose bytes leave the memory or, where written, reach the ring region, and an
address that is no multiple of 32. Virtual and tensor addresses are checked when a part is moved. What is the model's own
choice in it: log entries 7, 8, 60. -/
def Obligations.IssueConditions : Prop :=
  (∀ (s : State) (h : Hdr) (d a b r : Reg) (rm : Rnd) (c : ICond) (q : Prd) (imm : BitVec 32) (k : Fin 4),
     k ∈ s.on h → (s.startCl k).p r = true →
     (r ∈ [d, a, b] → ∀ i ∈ [Instr.add h d a b, .sub h d a b, .mul h d a b, .mulh h d a b, .mulhn h d a b, .div h d a b,
       .divn h d a b, .rem h d a b, .remn h d a b, .and h d a b, .or h d a b, .xor h d a b, .andn h d a b, .shl h d a b,
       .shr h d a b, .sra h d a b, .rotr h d a b, .min h d a b, .max h d a b, .minn h d a b, .maxn h d a b,
       .sel h d q a b, .sfadd h rm d a b, .sfsub h rm d a b, .sfmul h rm d a b, .sfma h rm d a b, .sfmin h d a b,
       .sfmax h d a b], exec i s = .next { s with iss := { s.iss with res := .stall } }) ∧
     (r ∈ [d, a] → ∀ i ∈ [Instr.addi h d a imm, .andi h d a imm, .ori h d a imm, .xori h d a imm, .mov h d a, .clz h d a,
       .popc h d a], exec i s = .next { s with iss := { s.iss with res := .stall } }) ∧
     (r ∈ [a, b] → exec (.cmp h c q a b) s = .next { s with iss := { s.iss with res := .stall } }) ∧
     (r = a → exec (.tstd h q a) s = .next { s with iss := { s.iss with res := .stall } }) ∧
     (r = d → ∀ i ∈ [Instr.movi h d imm, .movhi h d imm, .clrd h d, .rdtick h d, .rdclk h d, .qtos h d],
       exec i s = .next { s with iss := { s.iss with res := .stall } })) ∧
  (∀ (s : State) (h : Hdr) (t : Ty) (rm : Rnd) (d a : RowRef) (b : VB) (i : Instr),
     i ∈ [Instr.vadd h t rm d a b, .vsub h t rm d a b, .vmul h t rm d a b, .vfma h t rm d a b, .vmax h t d a b,
       .vmin h t d a b, .vsel h t d a b, .vimul h t d a b, .vimac h t d a b, .vand h t d a b, .vor h t d a b,
       .vxor h t d a b, .vshl h t d a b, .vimax h t d a b, .vimin h t d a b] →
     s.on h ≠ [] → NonePending s h (bRegs b ++ selRegs ((d :: a :: bRows b).map (·.r))) →
     ((∃ r ∈ d :: a :: bRows b, s.curCore.pst r.p ≠ .ready) →
       exec i s = .next { s with iss := { s.iss with res := .stall } }) ∧
     ((∀ r ∈ d :: a :: bRows b, s.curCore.pst r.p = .ready) →
       ∀ k v, k ∈ s.on h → (∀ j ∈ s.on h, j < k → ∀ r ∈ d :: a :: bRows b, (s.curCl j).rowSel r.r ≤ 63) →
         (d :: a :: bRows b).findSome? (fun r => if 63 < (s.curCl k).rowSel r.r then some ((s.curCl k).rowSel r.r) else none)
           = some v →
         exec i s = .next (s.trapOp cPSHAPE k 0 (BitVec.ofNat 32 v)))) ∧
  (∀ (p : Pan) (addr cnt : Word) (w : Bool),
     let n := cnt.toNat % 2 ^ 21
     let row0 := cnt.toNat / 2 ^ 24 % 64
     let bytes := n / 512 * if cnt.toNat / 2 ^ 63 = 1 then 544 else 512
     let err := panCopyErr p addr cnt w
     (cnt.toNat / 2 ^ 21 % 8 ≠ 0 ∨ cnt.toNat / 2 ^ 30 % 2 ^ 33 ≠ 0 → err = some (cPSHAPE, cnt, 1)) ∧
     (cnt.toNat / 2 ^ 21 % 8 = 0 → cnt.toNat / 2 ^ 30 % 2 ^ 33 = 0 →
       (n = 0 → err = none) ∧
       (n ≠ 0 → n % 512 ≠ 0 → err = some (cPSHAPE, cnt, 2)) ∧
       (n ≠ 0 → n % 512 = 0 →
         (2048 < p.toNat * 64 + row0 + n / 512 → err = some (cPSHAPE, cnt, 3)) ∧
         (p.toNat * 64 + row0 + n / 512 ≤ 2048 →
           (addr.toNat < 2 ^ 55 → err = if addr.toNat % 32 = 0 then none else some (cDALIGN, addr, 0)) ∧
           (∀ off < 2 ^ 21, addr.toNat = 2 ^ 62 + off → err =
             if 0x200000 < off + bytes ∨ w = true ∧ 0x1FC000 < off + bytes then some (cPROT, addr, 0)
             else if off % 32 = 0 then none else some (cDALIGN, addr, 0)) ∧
           (∀ off < 2 ^ 27, addr.toNat = 2 ^ 63 + off → err =
             if 0x4000000 < off + bytes then some (cPROT, addr, 0)
             else if off % 32 = 0 then none else some (cDALIGN, addr, 0)) ∧
           (3 * 2 ^ 62 ≤ addr.toNat → err = none) ∧
           (2 ^ 55 ≤ addr.toNat → addr.toNat < 2 ^ 62 → err = some (cPROT, addr, 0))))))

/-- R116: SETPS changes an EMPTY or READY panel at the end of the cycle, and waits for any other state; with every guard false
it does nothing. R229: SEMADD adds the clusters' values in ascending order, each receiving the value it found; SEMSET leaves
the highest true cluster's value. A cluster whose result leaves 0 to 65,535 raises SEMOVF and nothing is added. -/
def Obligations.PanelStatesAndSemaphores : Prop :=
  (∀ (s : State) (h : Hdr) (p : Pan) (ready : Bool),
     (s.on h = [] → exec (.setps h p ready) s = .next { s with iss := { s.iss with res := .ok } }) ∧
     (s.on h ≠ [] → s.curCore.pst p = .empty ∨ s.curCore.pst p = .ready →
       exec (.setps h p ready) s = .next { s.modCore s.cur.tile s.cur.core (fun x =>
         { x with endFx := x.endFx ++ [.setps p ready] }) with iss := { s.iss with res := .ok } }) ∧
     (s.on h ≠ [] → s.curCore.pst p ≠ .empty → s.curCore.pst p ≠ .ready →
       exec (.setps h p ready) s = .next { s with iss := { s.iss with res := .stall } })) ∧
  (∀ (s : State) (h : Hdr) (d a : Reg) (n : Sem), NonePending s h [a, d] →
     let found := fun (k : Fin 4) =>
       ((tget 0 s.curCore.sems n.toNat : Nat) : Int) + (((s.on h).filter (· < k)).map fun j => ((s.curCl j).reg a).toInt).sum
     let sum := fun (k : Fin 4) => found k + ((s.curCl k).reg a).toInt
     let put := fun (t : State) (v : Nat) =>
       OnlyCore s t ∧ SameBanks s t ∧
         { t.curCore with b0 := s.curCore.b0, b1 := s.curCore.b1, sems := s.curCore.sems } = s.curCore ∧
         ∀ m, tget 0 t.curCore.sems m = if m = n.toNat then v else tget 0 s.curCore.sems m
     ((∀ k ∈ s.on h, 0 ≤ sum k ∧ sum k ≤ 65535) → ∀ k ∈ (s.on h).getLast?,
       Completes (.semadd h d n a) s fun t => put t (sum k).toNat ∧
         ∀ k, t.curCl k =
           if k ∈ s.on h then flyReg 1 d (BitVec.ofInt 64 (found k)) ((s.curCl k).d a) (s.curCl k) else s.curCl k) ∧
     (∀ k ∈ s.on h, sum k < 0 ∨ 65535 < sum k → (∀ j ∈ s.on h, j < k → 0 ≤ sum j ∧ sum j ≤ 65535) →
       exec (.semadd h d n a) s =
         .next (s.trapOp cSEMOVF k ((s.curCl k).reg a) (BitVec.ofNat 32 (n.toNat + if sum k < 0 then 256 else 0)))) ∧
     ((∀ k ∈ s.on h, ((s.curCl k).reg a).toNat ≤ 65535) → ∀ k ∈ (s.on h).getLast?,
       Completes (.semset h n a) s fun t => put t ((s.curCl k).reg a).toNat ∧ ∀ k, t.curCl k = s.curCl k) ∧
     (∀ k ∈ s.on h, 65535 < ((s.curCl k).reg a).toNat → (∀ j ∈ s.on h, j < k → ((s.curCl j).reg a).toNat ≤ 65535) →
       exec (.semset h n a) s = .next (s.trapOp cSEMOVF k ((s.curCl k).reg a) (BitVec.ofNat 32 n.toNat))))

/-! ### V class -/

/-- R150-R153: floating-point lanes. What is the model's own choice in it: log entry 6. -/
def Obligations.VectorFloat : Prop :=
  ∀ (s : State) (h : Hdr) (t : Ty) (rm : Rnd) (d a : RowRef) (b : VB) (m : FFmt), tyFmt t = some m → t.fp →
    (RowsOk s h (d :: a :: bRows b) (a :: bRows b) (bRegs b) →
      Lanes (.vadd h t rm d a b) s h t rm 4 d a b (fun e x y _ => m.add e (m.readFtz e.ftz x) (m.readFtz e.ftz y)) ∧
      Lanes (.vsub h t rm d a b) s h t rm 4 d a b (fun e x y _ => m.sub e (m.readFtz e.ftz x) (m.readFtz e.ftz y)) ∧
      Lanes (.vmul h t rm d a b) s h t rm 4 d a b (fun e x y _ => m.mul e (m.readFtz e.ftz x) (m.readFtz e.ftz y)) ∧
      Lanes (.vmax h t d a b) s h t .rne 4 d a b (fun e x y _ => m.minmax true e.ftz x y) ∧
      Lanes (.vmin h t d a b) s h t .rne 4 d a b (fun e x y _ => m.minmax false e.ftz x y) ∧
      Lanes (.vscale h t rm d a b) s h t rm 4 d a b (fun e x y _ => m.scale e x (intOf true (tyWidth t) y))) ∧
    (RowsOk s h (d :: a :: bRows b) (d :: a :: bRows b) (bRegs b) →
      Lanes (.vfma h t rm d a b) s h t rm 4 d a b
        (fun e x y z => m.fma e (m.readFtz e.ftz x) (m.readFtz e.ftz y) (m.readFtz e.ftz z))) ∧
    (RowsOk s h [d, a] [a] [] →
      Lanes (.vabs h t d a) s h t .rne 4 d a (.row a) (fun _ x _ _ => (x % 2 ^ (tyWidth t - 1), 0)) ∧
      Lanes (.vneg h t d a) s h t .rne 4 d a (.row a)
        (fun _ x _ _ => (if x < 2 ^ (tyWidth t - 1) then x + 2 ^ (tyWidth t - 1) else x - 2 ^ (tyWidth t - 1), 0)) ∧
      Lanes (.vexp2 h t rm d a) s h t rm 8 d a (.row a) (fun e x _ _ => m.exp2 e (m.readFtz e.ftz x)) ∧
      Lanes (.vlog2 h t rm d a) s h t rm 8 d a (.row a) (fun e x _ _ => m.log2 e (m.readFtz e.ftz x)) ∧
      Lanes (.vrcp h t rm d a) s h t rm 8 d a (.row a) (fun e x _ _ => m.rcp e (m.readFtz e.ftz x)) ∧
      Lanes (.vrsq h t rm d a) s h t rm 8 d a (.row a) (fun e x _ _ => m.rsqrt e (m.readFtz e.ftz x)))

/-- R157-R161: comparison and selection of lanes, integer lanes, logic and shifts. R162-R167: moves of rows and lanes. -/
def Obligations.VectorIntegerAndMoves : Prop :=
  (∀ (s : State) (h : Hdr) (t : Ty) (rm : Rnd) (c : FCond) (sat : Bool) (d a : RowRef) (b : VB),
     (RowsOk s h (d :: a :: bRows b) (a :: bRows b) (bRegs b) →
       Lanes (.vcmp h t c d a b) s h t .rne 4 d a b (fun e x y _ =>
         match tyFmt t with
         | some m => (if (fcmp c m e.ftz x y).1 then 2 ^ tyWidth t - 1 else 0, (fcmp c m e.ftz x y).2)
         | none => (if icmpLane c (laneInt t x) (laneInt t y) then 2 ^ tyWidth t - 1 else 0, 0)) ∧
       LanesPure (.viadd h t sat d a b) s h t d a b (fun x y _ =>
         wrapTo (tyWidth t) (if sat then clampTo t (laneInt t x + laneInt t y) else laneInt t x + laneInt t y)) ∧
       LanesPure (.visub h t sat d a b) s h t d a b (fun x y _ =>
         wrapTo (tyWidth t) (if sat then clampTo t (laneInt t x - laneInt t y) else laneInt t x - laneInt t y)) ∧
       LanesPure (.vimul h t d a b) s h t d a b (fun x y _ => wrapTo (tyWidth t) (laneInt t x * laneInt t y)) ∧
       LanesPure (.vimax h t d a b) s h t d a b (fun x y _ => wrapTo (tyWidth t) (max (laneInt t x) (laneInt t y))) ∧
       LanesPure (.vimin h t d a b) s h t d a b (fun x y _ => wrapTo (tyWidth t) (min (laneInt t x) (laneInt t y))) ∧
       Lanes (.vrshr h t rm d a b) s h t rm 4 d a b (fun e x y _ =>
         (wrapTo (tyWidth t) (roundInt e (decide (intOf true (tyWidth t) x < 0)) (intOf true (tyWidth t) x).natAbs (-y)).1,
           0)) ∧
       LanesPure (.vand h t d a b) s h t d a b (fun x y _ => x &&& y) ∧
       LanesPure (.vor h t d a b) s h t d a b (fun x y _ => x ||| y) ∧
       LanesPure (.vxor h t d a b) s h t d a b (fun x y _ => x ^^^ y) ∧
       LanesPure (.vshl h t d a b) s h t d a b (fun x y _ => if tyWidth t ≤ y then 0 else x * 2 ^ y % 2 ^ tyWidth t) ∧
       LanesPure (.vshr h t false d a b) s h t d a b (fun x y _ => x / 2 ^ y) ∧
       LanesPure (.vshr h t true d a b) s h t d a b (fun x y _ =>
         wrapTo (tyWidth t) (intOf true (tyWidth t) x / 2 ^ min y (tyWidth t)))) ∧
     (RowsOk s h (d :: a :: bRows b) (d :: a :: bRows b) (bRegs b) →
       LanesPure (.vsel h t d a b) s h t d a b (fun x y z => if 2 ^ (tyWidth t - 1) ≤ z then x else y) ∧
       LanesPure (.vimac h t d a b) s h t d a b (fun x y z =>
         wrapTo (tyWidth t) (laneInt t z + laneInt t x * laneInt t y)))) ∧
  (∀ (s : State) (h : Hdr) (t : Ty) (d a b : RowRef) (r i x : Reg),
     (RowsOk s h [d, a] [a] [] → TagsOk s h a →
       Does (.vmov h t d a) s h (fun _ c =>
         Safety.fly 4 (.tag d.p (c.rowSel d.r) 0 (s.curCore.tagRow a.p (c.rowSel a.r))) 0
           (Safety.fly 4 (.row d.p (c.rowSel d.r) 0 (rowOf s.curCore c a)) 0 c))) ∧
     (RowsOk s h [d] [] [x] →
       Does (.vbcast h t d x) s h (fun _ c =>
         flyLanes 4 d.p (c.rowSel d.r) 0 (tyWidth t) (tyLanes t) (fun _ => ((c.reg x).toNat % 2 ^ tyWidth t, 0)) c)) ∧
     (RowsOk s h [a] [a] [i] → NonePending s h [r] →
       Does (.vext h t r a i) s h (fun _ c =>
         flyReg 4 r (laneScalar t (laneAt (tyWidth t) (rowOf s.curCore c a) ((c.reg i).toNat % tyLanes t))) false c)) ∧
     (t.wide → RowsOk s h [d] [] [x, i] →
       Does (.vins h t d x i) s h (fun _ c =>
         flyLanes 4 d.p (c.rowSel d.r) ((c.reg i).toNat % tyLanes t * (tyWidth t / 8)) (tyWidth t) 1
           (fun _ => ((c.reg x).toNat % 2 ^ tyWidth t, 0)) c)) ∧
     (RowsOk s h [d, a] [a] [x] →
       Does (.vslide h t true d a x) s h (fun _ c =>
         flyLanes 4 d.p (c.rowSel d.r) 0 (tyWidth t) (tyLanes t) (fun j =>
           (if j < (c.reg x).toNat then 0 else laneAt (tyWidth t) (rowOf s.curCore c a) (j - (c.reg x).toNat), 0)) c) ∧
       Does (.vslide h t false d a x) s h (fun _ c =>
         flyLanes 4 d.p (c.rowSel d.r) 0 (tyWidth t) (tyLanes t) (fun j =>
           (if j + (c.reg x).toNat < tyLanes t then laneAt (tyWidth t) (rowOf s.curCore c a) (j + (c.reg x).toNat) else 0,
             0)) c)) ∧
     (RowsOk s h [d, a, b] [a, b] [] →
       Does (.vperm h t d a b) s h (fun _ c =>
         flyLanes 4 d.p (c.rowSel d.r) 0 (tyWidth t) (tyLanes t) (fun j =>
           (laneAt (tyWidth t) (rowOf s.curCore c a)
             (if tyWidth t = 8 then j / 256 * 256 + laneAt 8 (rowOf s.curCore c b) j
              else laneAt (tyWidth t) (rowOf s.curCore c b) j % tyLanes t), 0)) c)) ∧
     (RowsOk s h [d] [] [] →
       Does (.viota h t d) s h (fun _ c =>
         flyLanes 4 d.p (c.rowSel d.r) 0 (tyWidth t) (tyLanes t) (fun j => (j % 2 ^ tyWidth t, 0)) c)))

/-- R154-R156, R39: conversions between rows of equal or unequal width, to FP4 with one scale for each block of 32, and
saturating narrowing. What is the model's own choice in it: log entry 66. -/
def Obligations.VectorConversions : Prop :=
  ∀ (s : State) (h : Hdr) (dt t : Ty) (rm : Rnd) (d a : RowRef), RowsOk s h [d, a] [a] [] → (t = .e2m1 → TagsOk s h a) →
    (dt ≠ .e2m1 →
      Does (.vcvt h dt t rm d a) s h (fun _ c =>
        flyLanes 4 d.p (c.rowSel d.r) (partDst dt t (c.rowSel a.r) * tyWidth dt / 8) (tyWidth dt) (partLen dt t)
          (fun i => laneTo dt (roundEnv c rm (i + 1)) (srcLane s.curCore c t a (partSrc dt t (c.rowSel d.r) + i)))
          (afterDraws c rm (partLen dt t)))) ∧
    Does (.vcvt h .e2m1 t rm d a) s h (fun _ c =>
      Safety.fly 4 (.tag d.p (c.rowSel d.r) (partDst .e2m1 t (c.rowSel a.r) / 32)
          ((List.range (partLen .e2m1 t / 32)).map fun j =>
            BitVec.ofNat 8 (blockScale ((List.range 32).map fun i =>
              srcLane s.curCore c t a (partSrc .e2m1 t (c.rowSel d.r) + 32 * j + i))))) 0
        (flyLanes 4 d.p (c.rowSel d.r) (partDst .e2m1 t (c.rowSel a.r) / 2) 4 (partLen .e2m1 t)
          (fun i => laneToFp4 (roundEnv c rm (i + 1))
            (blockScale ((List.range 32).map fun l =>
              srcLane s.curCore c t a (partSrc .e2m1 t (c.rowSel d.r) + i / 32 * 32 + l)),
             srcLane s.curCore c t a (partSrc .e2m1 t (c.rowSel d.r) + i)))
          (afterDraws c rm (partLen .e2m1 t)))) ∧
    Does (.vsatn h dt t d a) s h (fun _ c =>
      flyLanes 4 d.p (c.rowSel d.r) (partDst dt t (c.rowSel a.r) * tyWidth dt / 8) (tyWidth dt) (partLen dt t)
        (fun i => (wrapTo (tyWidth dt) (clampTo dt (intOf true (tyWidth t)
          (laneAt (tyWidth t) (rowOf s.curCore c a) (partSrc dt t (c.rowSel d.r) + i)))), 0)) c)

/-- R168, R50, R51: reductions of a row to scalars after ten cycles: the pairwise tree of VRSUM, the exact integer sum modulo
2^64, and the extremes by ranking order with the lowest index among equals. -/
def Obligations.VectorReductions : Prop :=
  (∀ (s : State) (h : Hdr) (t : Ty) (rm : Rnd) (d i : Reg) (a : RowRef), RowsOk s h [a] [a] [] → NonePending s h [d, i] →
    Does (.vrsum h t rm d a) s h (fun _ c =>
      let r := sumTree (c.env rm) 9
        ((List.range (tyLanes t)).map fun j =>
          (fpOf t).readFtz (c.fctl.getLsbD 4) (laneAt (tyWidth t) (rowOf s.curCore c a) j)) 0 c.srseed
      Safety.fly 10 (.reg d (BitVec.ofNat 64 r.1) false) r.2.1 { c with srseed := r.2.2 }) ∧
    Does (.vrisum h t d a) s h (fun _ c =>
      flyReg 10 d (BitVec.ofInt 64
        ((List.range (tyLanes t)).map fun j => laneInt t (laneAt (tyWidth t) (rowOf s.curCore c a) j)).sum) false c) ∧
    Does (.vrmax h t d a) s h (fun _ c =>
      flyReg 10 d (laneScalar t (rankBest t true ((List.range (tyLanes t)).map (laneAt (tyWidth t) (rowOf s.curCore c a)))).2)
        false c) ∧
    Does (.vrmin h t d a) s h (fun _ c =>
      flyReg 10 d (laneScalar t (rankBest t false ((List.range (tyLanes t)).map (laneAt (tyWidth t) (rowOf s.curCore c a)))).2)
        false c) ∧
    Does (.vargmax h t d i a) s h (fun _ c =>
      flyReg 10 i (BitVec.ofNat 64
          (rankBest t true ((List.range (tyLanes t)).map (laneAt (tyWidth t) (rowOf s.curCore c a)))).1) false
        (flyReg 10 d (laneScalar t
          (rankBest t true ((List.range (tyLanes t)).map (laneAt (tyWidth t) (rowOf s.curCore c a)))).2) false c))) ∧
  (∀ (t : Ty) (x : Nat) (xs : List Nat),
    (let b := rankBest t true (x :: xs)
     (x :: xs)[b.1]? = some b.2 ∧ ∀ j y, (x :: xs)[j]? = some y →
       rankKeyTy t y ≤ rankKeyTy t b.2 ∧ (j < b.1 → rankKeyTy t y < rankKeyTy t b.2)) ∧
    (let b := rankBest t false (x :: xs)
     (x :: xs)[b.1]? = some b.2 ∧ ∀ j y, (x :: xs)[j]? = some y →
       rankKeyTy t b.2 ≤ rankKeyTy t y ∧ (j < b.1 → rankKeyTy t b.2 < rankKeyTy t y)))

/-! ### B class -/

/-- R59, R123, R124, R128: BR, BRI and CHK act, pass or diverge by the joined decision; a transfer sets the pc of every
cluster of the stream and nothing else. A register target must agree among the clusters and be a multiple of 64. R126, R129,
R131: a call pushes the address of the fetch block after its own on the return stack of every cluster. A full stack gives up
its oldest entry to the slot that SPILLP names, as a write of 8 bytes, and SPILLP advances; a slot that fails to translate
raises RSPILL (R132). What is the model's own choice in it: log entries 20, 65. -/
def Obligations.BranchesAndCalls : Prop :=
  (∀ (s : State) (h : Hdr) (m : JMode) (a : Reg) (disp : BitVec 32),
     Decides (.br h m disp) s m (s.on h) (Moves (.br h m disp) s (codeTarget s disp) id) ∧
     ((∀ k ∈ s.on h, (s.startCl k).p a = false) →
       Decides (.chk h m a disp) s m ((s.on h).filter fun k => (s.curCl k).d a)
         (Moves (.chk h m a disp) s (codeTarget s disp) id)) ∧
     ((∀ k ∈ s.active, (s.startCl k).p a = false) →
       Decides (.bri h m a) s m (s.on h)
         (∀ k ks, s.active = k :: ks →
           if ∀ j ∈ ks, (s.curCl j).reg a = (s.curCl k).reg a then
             if ((s.curCl k).reg a).toNat % 64 = 0 then Moves (.bri h m a) s ((s.curCl k).reg a) id
             else exec (.bri h m a) s = .next (s.trapOp cALIGN k ((s.curCl k).reg a) 0)
           else exec (.bri h m a) s = .next (s.trapOp cDIVERGE 0 0 (clusterBits (s.on h)))))) ∧
  (∀ (s : State) (h : Hdr) (m : JMode) (disp : BitVec 32) (a : Reg) (i : Instr) (target : Word),
     (i = .call h m disp ∧ target = codeTarget s disp ∨
       i = .calli h m a ∧ target.toNat % 64 = 0 ∧ ∀ k ∈ s.active, (s.startCl k).p a = false ∧ (s.curCl k).reg a = target) →
     Decides i s m (s.on h)
       (((∀ k ∈ s.active, (s.curCl k).rstop < 16) → Moves i s target (pushed (returnAddr s))) ∧
         (∀ ps s1, State.slotCheck true (fun c => c.spillp) (s.active.filter fun k => (s.curCl k).rstop == 16) s = .ok (ps, s1) →
           ∃ t, exec i s = .next t ∧ t.iss = { s.iss with res := .ok, moved := true } ∧
             (∀ k ∈ s.active, (s.curCl k).rstop = 16 → t.curCl k =
               { s.curCl k with pc := codeAddr target, rstack := (s.curCl k).rstack.drop 1 ++ [returnAddr s],
                                spillp := BitVec.ofNat 64 (((s.curCl k).spillp.toNat + 8) / 8 * 8 % 2 ^ 55) }) ∧
             Joins s t (ps.mapIdx fun n x =>
               asked s n (onCl s.cur x.1) (postOp x.2 (leBytes 8 ((s.curCl x.1).rstack.headD 0).toNat)) x.2 .none .plain .core
                 false)) ∧
         (∀ k c e aux, State.slotCheck true (fun c => c.spillp) (s.active.filter fun k => (s.curCl k).rstop == 16) s =
             .error (k, c, e, aux) →
           c = cRSPILL ∧ e = (s.curCl k).spillp ∧ exec i s = .next (s.trapOp cRSPILL k e aux))))

/-- R127, R131-R133: a return takes the top entry of every cluster's stack; an empty one reads the slot below SPILLP first,
while the bundle waits, and then moves SPILLP down. Addresses that differ diverge. R131, R132: the data of a return-stack fill
reaches the RET that waits for it. What is the model's own choice in it: log entries 3, 20. -/
def Obligations.ReturnsAndFills : Prop :=
  (∀ (s : State) (h : Hdr) (m : JMode),
     Decides (.ret h m) s m (s.on h)
       ((∀ a, (∀ k ∈ s.active, (s.curCl k).popped = some a) → Moves (.ret h m) s a Cluster.pop) ∧
         (∀ a b, (∀ k ∈ s.active, (s.curCl k).popped.isSome) → (∃ k ∈ s.active, (s.curCl k).popped = some a) →
           (∃ k ∈ s.active, (s.curCl k).popped = some b) → a ≠ b →
           exec (.ret h m) s = .next (s.trapOp cDIVERGE 0 0 (clusterBits (s.on h)))) ∧
         (∀ k ∈ s.active, (s.curCl k).rstop = 0 → (s.curCl k).fill = .lost →
           (∀ j ∈ s.active, j < k → (s.curCl j).fill ≠ .lost) →
           exec (.ret h m) s = .next (s.trapOp cRSPILL k
             (BitVec.ofNat 64 (((s.curCl k).spillp - 8).toNat / 8 * 8 % 2 ^ 55)) (BitVec.ofNat 32 cUECC))) ∧
         (∀ ps s1, (∀ k ∈ s.active, (s.curCl k).fill ≠ .lost) → ps ≠ [] →
           State.slotCheck false Cluster.fillSlot
             (s.active.filter fun k => (s.curCl k).rstop == 0 && (s.curCl k).fill == .idle) s = .ok (ps, s1) →
           ∃ t, exec (.ret h m) s = .next t ∧ t.iss = { s.iss with res := .stall } ∧
             Joins s t (ps.mapIdx fun n x => asked s n (onCl s.cur x.1) (.read 8) x.2 .fill .plain .core false))) ∧
     ∀ c : Cluster,
       (0 < c.rstop → c.popped = some (BitVec.ofNat 64 ((c.rstack.getD (c.rstop - 1) 0).toNat / 64 * 64)) ∧
         c.pop = { c with rstop := c.rstop - 1 }) ∧
       (c.rstop = 0 → ∀ bs, c.fill = .got bs →
         c.popped = some (BitVec.ofNat 64 ((BitVec.ofNat 64 (leNat bs)).toNat / 64 * 64)) ∧
         c.pop = { c with spillp := BitVec.ofNat 64 ((c.spillp - 8).toNat / 8 * 8 % 2 ^ 55), fill := .idle })) ∧
  (∀ (s : State) (id : Nat) (r : Req) (i : StreamId) (bs : List Byte) (nv : Bool),
     s.findReq id = some r → r.stage = .reply bs nv false → r.due ≤ s.quantum → r.who = .stream i → r.dst = .fill →
     r.drop = false →
     exec (.returnStackFill id) s =
       .next ((s.delReq id).modCl i fun c => { c with fill := .got bs }))

/-- R134-R137: LOOP and LOOPI set a level's count and the first and last blocks of its body; a zero count skips it. The
clusters must agree on whether to skip. R135: the end-of-body test of a cluster whose only live level that ends at the block
is `n`: the count falls by one, and control returns to the body's first block until it reaches zero. -/
def Obligations.HardwareLoops : Prop :=
  (∀ (s : State) (h : Hdr) (lvl : BitVec 2) (a : Reg) (disp : BitVec 32) (n : BitVec 16) (d : BitVec 16),
     let first := BitVec.ofNat 64 ((s.iss.addr.toNat / 64 * 64 + 64) % 2 ^ 55)
     let last := fun (x : Int) => BitVec.ofInt 64 (((s.iss.addr.toNat / 64 * 64 : Nat) + 64 * x) % 2 ^ 55)
     let level := fun (i : Instr) (x : Int) (count : Cluster → Nat) =>
       Decides i s .uni (s.on h)
         (((∀ k ∈ s.active, count (s.curCl k) ≠ 0) →
           ∃ t, exec i s = .next t ∧ t.iss = { s.iss with res := .ok } ∧ OnlyClusters s t ∧ ∀ k, t.curCl k =
             if k ∈ s.active then levelSet lvl.toNat (BitVec.ofNat 32 (count (s.curCl k))) first (last x) (s.curCl k)
             else s.curCl k) ∧
         ((∀ k ∈ s.active, count (s.curCl k) = 0) →
           Moves i s (BitVec.ofInt 64 ((s.iss.addr.toNat / 64 * 64 : Nat) + 64 * x + 64)) (levelSet lvl.toNat 0 first (last x))) ∧
         ((∃ k ∈ s.active, count (s.curCl k) = 0) → (∃ k ∈ s.active, count (s.curCl k) ≠ 0) →
           exec i s = .next (s.trapOp cDIVERGE 0 0 (clusterBits (s.active.filter fun k => count (s.curCl k) ≠ 0)))))
     ((∀ k ∈ s.on h, (s.startCl k).p a = false) →
       level (.loop h lvl a disp) disp.toInt fun c => (c.reg a).toNat % 2 ^ 32) ∧
     level (.loopi h lvl n d) d.toInt fun _ => n.toNat) ∧
  (∀ (c : Cluster) (b : Word) (n : Nat), n < 4 → c.lc.length = 4 → c.lc.getD n 0 ≠ 0 → c.le.getD n 0 = b →
     (∀ m < 4, m ≠ n → c.lc.getD m 0 = 0 ∨ c.le.getD m 0 ≠ b) →
     Cluster.bodyTest b 4 c =
       (if (c.lc.getD n 0).toNat = 1 then none else some (c.lb.getD n 0),
         { c with lc := c.lc.set n (BitVec.ofNat 32 ((c.lc.getD n 0).toNat - 1)) }, [n]))

/-- R139, R142: FORK splits a joined bank: a true cluster k continues at the target plus k fetch blocks, another at the next
bundle. It diverges in a forked stream whose guard is true. R140, R141: a forked stream's JOIN arrives in its set: the last
member frees the set and every member goes on at the next bundle, joined when all four are members; an earlier one waits at
its bundle. A stream that is no member, a member that has exited, or a set in use with another mask or address raises
JOINMIS. R143: EXIT of a joined task, or of the last forked stream, frees the bank: every cluster idle with nothing in
flight, empty return stack and loop levels, its scalars left as they are. R233: Done of a task whose loop table counts no
level is 1 then. The EXIT of another forked stream ends that stream. What is the model's own choice in it: log entries 20,
73. -/
def Obligations.ForksJoinsExits : Prop :=
  (∀ (s : State) (h : Hdr) (disp : BitVec 32),
     (s.on h = [] → Passes (.fork h disp) s) ∧
     (s.on h ≠ [] → s.curBank.joined = false →
       exec (.fork h disp) s = .next (s.trapOp cDIVERGE s.cur.cl 0 (clusterBits (s.on h)))) ∧
     (s.on h ≠ [] → s.curBank.joined = true → ∃ t, exec (.fork h disp) s = .next t ∧
       t.iss = { s.iss with res := .ok, moved := true } ∧ OnlyBank s t ∧
       { t.curBank with cl := s.curBank.cl } = { s.curBank with joined := false } ∧
       ∀ k, t.curCl k = { s.curCl k with
         pc := if k ∈ s.on h then codeAddr (codeTarget s disp + BitVec.ofNat 64 (64 * k.val)) else s.iss.next })) ∧
  (∀ (s : State) (h : Hdr) (set : BitVec 3) (mask : BitVec 4),
     let j := tget JoinSet.reset s.curBank.joins set.toNat
     let c := s.cur.cl
     let mismatch := fun (k : Fin 4) => exec (.join h set mask) s = .next (s.trapOp cJOINMIS k s.iss.addr
       (BitVec.ofNat 32 (j.expected.toNat + 16 * j.arrived.toNat + 256 * set.toNat)))
     (s.curBank.joined = true →
       Decides (.join h set mask) s .uni (s.on h) (if mask = 15 then Passes (.join h set mask) s else mismatch 0)) ∧
     (s.curBank.joined = false →
       (s.on h = [] → Passes (.join h set mask) s) ∧
       (s.on h ≠ [] → mask.getLsbD c.val = false ∨ (∃ k : Fin 4, mask.getLsbD k.val ∧ (s.curCl k).st = .exited) ∨
         (j.busy ∧ (j.expected ≠ mask ∨ j.addr ≠ s.iss.addr)) → mismatch c) ∧
       (s.on h ≠ [] → mask.getLsbD c.val = true → (∀ k : Fin 4, mask.getLsbD k.val → (s.curCl k).st ≠ .exited) →
         (j.busy = true → j.expected = mask ∧ j.addr = s.iss.addr) →
         ∃ t, exec (.join h set mask) s = .next t ∧ t.iss = { s.iss with res := .ok, moved := true } ∧ OnlyBank s t ∧
           (∀ m, m ≠ set.toNat → tget JoinSet.reset t.curBank.joins m = tget JoinSet.reset s.curBank.joins m) ∧
           if (∀ k : Fin 4, mask.getLsbD k.val → k = c ∨ j.arrived.getLsbD k.val) ∧
               (∀ k : Fin 4, j.arrived.getLsbD k.val → mask.getLsbD k.val) then
             tget JoinSet.reset t.curBank.joins set.toNat = JoinSet.reset ∧ t.curBank.joined = decide (mask = 15) ∧
               ∀ k, t.curCl k =
                 if mask.getLsbD k.val then { s.curCl k with st := .running, pc := s.iss.next } else s.curCl k
           else
             tget JoinSet.reset t.curBank.joins set.toNat =
                 ⟨true, mask, j.arrived ||| BitVec.ofNat 4 (2 ^ c.val), s.iss.addr⟩ ∧ t.curBank.joined = false ∧
               ∀ k, t.curCl k =
                 if k = c then { s.curCl k with st := .joinWait, pc := s.iss.bundle } else s.curCl k))) ∧
  (∀ (s : State) (h : Hdr),
     let ended := ∃ t, exec (.exit h) s = .next t ∧ t.iss = { s.iss with res := .ok, moved := true } ∧
       t.curBank.occ = false ∧ t.curBank.joined = s.curBank.joined ∧ t.curBank.joins = [] ∧ t.curBank.pwb = [] ∧
       t.curBank.replay = [] ∧ t.curBank.task = none ∧
       (∀ k, s.curBank.task = some k → k.counted = none → t.curBank.done = 1) ∧
       ∀ k, (t.curCl k).st = .idle ∧ (t.curCl k).flights = [] ∧ (t.curCl k).hold = .none ∧ (t.curCl k).rstop = 0 ∧
         (∀ n, (t.curCl k).lc.getD n 0 = 0) ∧ (t.curCl k).pbits = 0 ∧ (t.curCl k).regs = (s.curCl k).regs
     (s.curBank.joined = true → Decides (.exit h) s .uni (s.on h) ended) ∧
     (s.curBank.joined = false → (s.on h = [] → Passes (.exit h) s) ∧
       (s.on h ≠ [] → (∀ e ∈ s.curBank.joins, e.2.busy = true → e.2.expected.getLsbD s.cur.cl.val = false) →
         ((∀ k, k ≠ s.cur.cl → (s.curCl k).st = .exited) → ended) ∧
         ((∃ k, k ≠ s.cur.cl ∧ (s.curCl k).st ≠ .exited) → ∃ t, exec (.exit h) s = .next t ∧
           t.iss = { s.iss with res := .ok, moved := true } ∧ OnlyClusters s t ∧
           ∀ k, t.curCl k = if k = s.cur.cl then { s.curCl k with st := .exited } else s.curCl k))))

/-! ### M class -/

/-- R236, R238, R253, R256: loads and stores of the LS. An aligned access inside the LS whose banks are granted reads its
bytes, sign- or zero-extended, to the destination after six cycles; a store below the ring region, no FENCE with release in
its way (R275), writes the low bytes of its register and no other byte. R238: a bundle whose LS accesses are not all granted
waits; a granted one is held until the others are. What is the model's own choice in it: log entry 23. -/
def Obligations.LocalAccesses : Prop :=
  (∀ (s : State) (h : Hdr) (d : Reg) (m : Acc) (idx : Reg) (sh : BitVec 3) (i j : Instr) (a : Fin 4 → Nat),
     (i = .ldx h d m idx sh ∧ j = .stx h d m idx sh ∨ i = .ld h d m ∧ j = .st h d m ∧ idx = 0 ∧ sh = 0) →
     (∀ k, a k = (effAddr (s.curCl k) m.base idx sh m.off).toNat) → m.sp = .ls → NonePending s h [d, m.base, idx] →
     (∀ k ∈ s.on h, a k % sizBytes m.sz = 0) → Granted s h a (sizBytes m.sz) →
     (ordRel m.ord = true → s.accessesDone s.cur s.active = true) →
     (∀ k ∈ s.on h, s.badLs s.cur.tile s.cur.core (a k) (sizBytes m.sz) = []) →
     ReadsLs i s h a (sizBytes m.sz) (fun k =>
       flyReg 6 d (loadedAs m.sz (bytesAt s.curCore.ls (a k) (sizBytes m.sz))) false) ∧
     ((∀ k ∈ s.on h, a k + sizBytes m.sz ≤ 0x1FC000) → FencePassed s h →
       WritesLs j s h a (sizBytes m.sz) fun k => leBytes (sizBytes m.sz) ((s.curCl k).reg d).toNat)) ∧
  (∀ (s : State) (h : Hdr) (d : Reg) (m : Acc) (k j : Fin 4),
     m.sp = .ls → NonePending s h [d, m.base] → (∀ k, (s.curCl k).lsHeld = false) → s.on h = [k, j] → k ≠ j →
     ordRel m.ord = false →
     let a := fun (k : Fin 4) => (effAddr (s.curCl k) m.base 0 0 m.off).toNat
     (∀ x ∈ [k, j], a x % sizBytes m.sz = 0 ∧ a x + sizBytes m.sz ≤ 0x200000 ∧
       s.curCore.lsUsed.getLsbD (a x / 16 % 32) = false) →
     a k / 16 % 32 = a j / 16 % 32 →
     ∃ t, exec (.ld h d m) s = .next t ∧ t.iss = { s.iss with res := .stall } ∧ (t.curCl k).lsHeld = true ∧
       (t.curCl j).lsHeld = false ∧ t.curCore.ls = s.curCore.ls ∧ t.curCore.lsStallNow = true ∧
       ∀ x, (t.curCl x).flights = (s.curCl x).flights)

/-- R97, R255, R256: a load of TSM or of virtual memory makes its destination pending and sends a read; a store is posted.
R240, R257: LDS gives the deferred fault, zero with the D bit, where its access fails, as one of a flag window does, and loads
otherwise; of an uncorrectable granule that its translation meets a record of kind F is routed (R252). What is the model's own
choice in it: log entries 3, 17. -/
def Obligations.LongAndSpeculativeLoads : Prop :=
  (∀ (s s1 : State) (h : Hdr) (d : Reg) (m : Acc) (idx : Reg) (sh : BitVec 3) (i j : Instr) (xs : List MAcc),
     (i = .ldx h d m idx sh ∧ j = .stx h d m idx sh ∨ i = .ld h d m ∧ j = .st h d m ∧ idx = 0 ∧ sh = 0) →
     m.sp ≠ .ls → NonePending s h [d, m.base, idx] →
     ((∀ k ∈ s.on h, (s.startCl k).inFlight d = false) →
       State.checkAll m.sp (sizBytes m.sz) (sizBytes m.sz) false (if m.sz == .i64 && m.ord == .plain then .read else .none)
         (fun c => effAddr c m.base idx sh m.off) (s.on h) s = .ok (xs, s1) →
       Asks i s h xs (fun n x p => asked s n (onCl s.cur x.k) (.read (sizBytes m.sz)) p
         (.load ⟨x.k, d, m.sz, m.sp, x.ea, m.ord, m.scp, false⟩) m.ord m.scp false) fun _ c => c.setP d true) ∧
     (State.checkAll m.sp (sizBytes m.sz) (sizBytes m.sz) true (if m.sz == .i64 && m.ord == .plain then .write else .none)
         (fun c => effAddr c m.base idx sh m.off) (s.on h) s = .ok (xs, s1) →
       Asks j s h xs (fun n x p => asked s n (onCl s.cur x.k)
         (postOp p (leBytes (sizBytes m.sz) ((s.curCl x.k).reg d).toNat)) p .none m.ord m.scp false) fun _ c => c)) ∧
  (∀ (s : State) (h : Hdr) (d : Reg) (sz : Siz) (sp : Spc) (base : Reg) (off : BitVec 18) (k : Fin 4),
     NonePending s h [d, base] → s.on h = [k] → (∀ k, (s.curCl k).lsHeld = false) →
     let ea := effAddr (s.curCl k) base 0 0 off
     let check := s.accessCheck k sp ea (sizBytes sz) (sizBytes sz) false FlagUse.none
     let l : LoadRec := ⟨k, d, sz, sp, ea, .plain, .core, true⟩
     ((sp = .ls ∨ (s.startCl k).inFlight d = false) → (∃ e, check = .error e ∧ e.1 ≠ cUECC) →
       Does (.lds h d sz sp base off) s h fun _ => flyReg 6 d 0 true) ∧
     (∀ ea aux, (s.startCl k).inFlight d = false → check = .error (cUECC, ea, aux) →
       s.route s.cur.tile cUECC 2 (s.curCl k).priv ≠ .drop →
       Completes (.lds h d sz sp base off) s fun t => (t.curCl k).flights = (s.curCl k).flights ++ [⟨6, .reg d 0 true, 0, 0⟩] ∧
         ∃ r, t.records = s.records ++ [r] ∧ r.cause = cUECC ∧ r.kind = 2 ∧ r.aux = aux ∧ r.addr = ea ∧
           r.tile = s.cur.tile ∧ r.core = s.cur.core ∧ r.cl = k.val ∧ r.bank = s.cur.bank) ∧
     (∀ a s1, sp = .ls → check = .ok (.ls a, s1) → s.curCore.lsUsed.getLsbD (a / 16 % 32) = false →
       s.badLs s.cur.tile s.cur.core a (sizBytes sz) = [] →
       ReadsLs (.lds h d sz sp base off) s h (fun _ => a) (sizBytes sz) fun _ =>
         flyReg 6 d (loadedAs sz (bytesAt s.curCore.ls a (sizBytes sz))) false) ∧
     (∀ p n ps s1, sp ≠ .ls → (s.startCl k).inFlight d = false → check = .ok (.mem ((p, n) :: ps), s1) →
       Completes (.lds h d sz sp base off) s fun t =>
         Sends s t [asked s 0 (onCl s.cur k) (.read (sizBytes sz)) p (.spec l) .plain .core false] ∧
         ∀ j, t.curCl j = if j = k then (s.curCl k).setP d true else s.curCl j))

/-- R254 and Table memop 1: an access is checked for alignment first, then for its space: the LS's end and, for a write, its
ring region; the TSM's data and, for a 64-bit access in order plain, its flag windows; 55 address bits of virtual memory. The
lowest failing cluster's cause, address and aux are what the trap reports. -/
def Obligations.AccessChecks : Prop :=
  (∀ (s : State) (k : Fin 4) (sp : Spc) (ea : Word) (n gran : Nat) (wr : Bool) (fw : FlagUse), 0 < n →
    (ea.toNat % gran ≠ 0 → s.accessCheck k sp ea n gran wr fw = .error (cDALIGN, ea, 0)) ∧
    (ea.toNat % gran = 0 →
      (s.accessCheck k .ls ea n gran wr fw =
        if 0x200000 < ea.toNat + n ∨ wr = true ∧ 0x1FC000 < ea.toNat + n then .error (cPROT, ea, 0)
        else .ok (.ls ea.toNat, s)) ∧
      (s.accessCheck k .tsm ea n gran wr fw =
        if ea.toNat + n ≤ 0x4000000 ∨
            0x4000000 ≤ ea.toNat ∧ ea.toNat < 0x4001100 ∧ (fw = .read ∨ fw = .write ∧ (s.curCl k).priv = true) then
          .ok (.mem [(⟨.tsm s.cur.tile ea.toNat, false, none⟩, n)], s)
        else .error (cPROT, ea, 0)) ∧
      (2 ^ 55 ≤ ea.toNat →
        s.accessCheck k .virt ea n gran wr fw = .error (cPROT, ea, BitVec.ofNat 32 (if wr then 4 else 0))))) ∧
  (∀ (s : State) (h : Hdr) (d : Reg) (m : Acc) (idx : Reg) (sh : BitVec 3) (k : Fin 4) (c : Nat) (e : Word)
      (aux : BitVec 32), NonePending s h [d, m.base, idx] →
    (State.checkAll m.sp (sizBytes m.sz) (sizBytes m.sz) false (if m.sz == .i64 && m.ord == .plain then .read else .none)
        (fun c => effAddr c m.base idx sh m.off) (s.on h) s = .error (k, c, e, aux) →
      exec (.ldx h d m idx sh) s = .next (s.trapOp c k e aux)) ∧
    (State.checkAll m.sp (sizBytes m.sz) (sizBytes m.sz) true (if m.sz == .i64 && m.ord == .plain then .write else .none)
        (fun c => effAddr c m.base idx sh m.off) (s.on h) s = .error (k, c, e, aux) →
      exec (.stx h d m idx sh) s = .next (s.trapOp c k e aux)))

/-- R261, R262: an atomic makes its destination pending and sends its operand and, for ACAS, the value to compare, each cut to
the access's size; AADD and AFADD may be combinable. R261, Table memop 3: what an atomic writes: the sum modulo the size, a
minimum or maximum, a bitwise function, the operand, or the operand only where the old value equals the one to compare. -/
def Obligations.Atomics : Prop :=
  (∀ (s s1 : State) (h : Hdr) (d : Reg) (m : Acc) (a : Reg) (comb : Bool) (xs : List MAcc),
     NonePending s h [d, m.base, a] → (∀ k ∈ s.on h, (s.startCl k).inFlight d = false) →
     State.checkAll m.sp (sizBytes m.sz) (sizBytes m.sz) true .none (fun c => effAddr c m.base 0 0 m.off) (s.on h) s =
       .ok (xs, s1) →
     ∀ e ∈ [(AOp.add, comb, Instr.aadd h d m a comb), (.fadd, comb, .afadd h d m a comb), (.min, false, .amin h d m a),
       (.max, false, .amax h d m a), (.minn, false, .aminn h d m a), (.maxn, false, .amaxn h d m a),
       (.and, false, .aand h d m a), (.or, false, .aor h d m a), (.xor, false, .axor h d m a),
       (.xchg, false, .axchg h d m a), (.cas, false, .acas h d m a)],
       m.sp ≠ .ls →
       Asks e.2.2 s h xs (fun n x p => asked s n (onCl s.cur x.k)
         (.atom e.1 m.sz (BitVec.ofNat 64 (((s.curCl x.k).reg a).toNat % 2 ^ (8 * sizBytes m.sz)))
           (BitVec.ofNat 64 (((s.curCl x.k).reg d).toNat % 2 ^ (8 * sizBytes m.sz)))) p (.atom d) m.ord m.scp e.2.1)
         fun _ c => c.setP d true) ∧
  (∀ (sz : Siz) (old x c : Nat), let w := 8 * sizBytes sz
     old < 2 ^ w → x < 2 ^ w →
     let sg := fun (v : Nat) => if 2 ^ (w - 1) ≤ v then (v : Int) - 2 ^ w else (v : Int)
     atomStep .add sz old x c = (some ((old + x) % 2 ^ w), 0) ∧
     atomStep .min sz old x c = (some (if sg x < sg old then x else old), 0) ∧
     atomStep .max sz old x c = (some (if sg old < sg x then x else old), 0) ∧
     atomStep .minn sz old x c = (some (min old x), 0) ∧ atomStep .maxn sz old x c = (some (max old x), 0) ∧
     atomStep .and sz old x c = (some (old &&& x), 0) ∧ atomStep .or sz old x c = (some (old ||| x), 0) ∧
     atomStep .xor sz old x c = (some (old ^^^ x), 0) ∧ atomStep .xchg sz old x c = (some x, 0) ∧
     atomStep .cas sz old x c = (if old = c then some x else none, 0))

/-- R258: LDM and STM of the LS move the registers below the first multiple of 65,536 above the address in one piece; the rest
is held, with the address, the bundle, the operation and the values that the registers left have at issue (R89), for the next
advancing cycle. R258: the second piece of a forked stream's LDM or STM moves the registers that are left and ends the wait; a
replayed one stores the registers as they stand and clears XFER. What is the model's own
choice in it: log entry 9. -/
def Obligations.MultipleRegisters : Prop :=
  (∀ (s : State) (h : Hdr) (d : Reg) (cnt1 : BitVec 5) (base : Reg) (off : BitVec 18) (k : Fin 4),
     let cnt := cnt1.toNat + 1
     let run := (List.range cnt).map fun j => d + BitVec.ofNat 5 j
     let ea := effAddr (s.curCl k) base 0 0 off
     let n := min cnt ((65536 - ea.toNat % 65536) / 8)
     s.on h = [k] → NonePending s h (base :: run) → ea.toNat % 8 = 0 → Granted s h (fun _ => ea.toNat) (8 * n) →
     let held := fun (i : Instr) (c : Cluster) =>
       if n < cnt then { c with hold := .piece false s.iss.bundle ((encode i).getD 0) (ea + BitVec.ofNat 64 (8 * n)) n
                                                   ((run.drop n).map (s.curCl k).reg) } else c
     (s.badLs s.cur.tile s.cur.core ea.toNat (8 * n) = [] →
       ReadsLs (.ldm h d cnt1 .ls base off) s h (fun _ => ea.toNat) (8 * n) fun _ c =>
         held (.ldm h d cnt1 .ls base off) { c with flights := c.flights ++ (List.range n).map fun j =>
           ⟨6, .reg (d + BitVec.ofNat 5 j) (loadedAs .i64 (bytesAt s.curCore.ls (ea.toNat + 8 * j) 8)) false, 0, 0⟩ }) ∧
     (s.badLs s.cur.tile s.cur.core ea.toNat (8 * n) = [] → ea.toNat + 8 * n ≤ 0x1FC000 → FencePassed s h →
       Completes (.stm h d cnt1 .ls base off) s fun t => OnlyCore s t ∧
         t.curCl k = held (.stm h d cnt1 .ls base off) (s.curCl k) ∧
         (∀ j < n, bytesAt t.curCore.ls (ea.toNat + 8 * j) 8 = leBytes 8 ((s.curCl k).reg (d + BitVec.ofNat 5 j)).toNat) ∧
         ∀ b, b < ea.toNat ∨ ea.toNat + 8 * n ≤ b → mget t.curCore.ls b = mget s.curCore.ls b)) ∧
  (∀ (s : State) (id : StreamId) (rp : Bool) (b op ea : Word) (done : Nat) (h : Hdr) (d : Reg) (cnt1 : BitVec 5) (base : Reg)
       (off : BitVec 18) (store : Bool) (vals : List Word),
     let c := s.cl id
     let n := cnt1.toNat + 1 - done
     let x := s.core id.tile id.core
     decodeWord op = .ok (if store then .stm h d cnt1 .ls base off else .ldm h d cnt1 .ls base off) →
     (s.bank id).joined = false → c.hold = .piece rp b op ea done vals → ea.toNat % 8 = 0 → ea.toNat + 8 * n ≤ 0x1FC000 →
       0 < n →
     c.lsHeld = false → x.lsUsed = 0 → s.badLs id.tile id.core ea.toNat (8 * n) = [] →
     (store = true → ∀ r ∈ s.reqs, r.who.isStream id cls4 = true → r.performed = true ∨ c.fenced ≤ r.id) →
     ∃ t, exec (.ldmStmSecondPiece id) s = .next t ∧
       (t.cl id).hold = .none ∧ (t.cl id).xfer = (if rp then 0 else c.xfer) ∧
       (store = false → (t.cl id).flights = c.flights ++ (List.range n).map fun j =>
         ⟨6, .reg (d + BitVec.ofNat 5 (done + j)) (loadedAs .i64 (bytesAt x.ls (ea.toNat + 8 * j) 8)) false, 0, 0⟩) ∧
       (store = true → ∀ j < n, bytesAt (t.core id.tile id.core).ls (ea.toNat + 8 * j) 8 =
         leBytes 8 (if rp then c.reg (d + BitVec.ofNat 5 (done + j)) else vals.getD j 0).toNat) ∧
       ∀ a, store = false ∨ a < ea.toNat ∨ ea.toNat + 8 * n ≤ a → mget (t.core id.tile id.core).ls a = mget x.ls a)

/-- R144, R259, R263: LDROW of the LS brings 512 bytes to a panel row after six cycles; of other memory it sends eight reads
and waits, and brings the row once they have come. STROW and BRED send a row in eight parts of 64 bytes; STROW to the LS
writes it. R260: PF traps on nothing and changes no register and no byte of memory; it posts a request for the line of 64 bytes
to the line's home, and none where the address does not translate. What is the model's own choice in it: log entries 3, 23. -/
def Obligations.RowTransfersAndPrefetch : Prop :=
  (∀ (s s1 : State) (h : Hdr) (r : RowRef) (sp : Spc) (base idx : Reg) (sh : BitVec 3) (off : BitVec 18) (op : RedOp)
       (ty : RedTy) (k : Fin 4) (p : Place) (ps : List (Place × Nat)) (n : Nat) (bs : List Byte),
     s.on h = [k] → RowsOk s h [r] [r] [base, idx] → 
     let row := (s.curCl k).rowSel r.r
     let a := fun (_ : Fin 4) => (effAddr (s.curCl k) base idx sh off).toNat
     let part := fun (j : Nat) => ((rowOf s.curCore (s.curCl k) r).drop (64 * j)).take 64
     (sp = .ls → a k % 64 = 0 → Granted s h a 512 → s.badLs s.cur.tile s.cur.core (a k) 512 = [] →
       ReadsLs (.ldrow h r sp base idx sh off) s h a 512 (fun _ =>
         Safety.fly 6 (.row r.p row 0 (bytesAt s.curCore.ls (a k) 512)) 0) ∧
       (a k + 512 ≤ 0x1FC000 → FencePassed s h → WritesLs (.strow h r sp base idx sh off) s h a 512 fun _ => rowOf s.curCore (s.curCl k) r)) ∧
     (sp ≠ .ls → s.accessCheck k sp (effAddr (s.curCl k) base idx sh off) 512 64 false .none = .ok (.mem ps, s1) →
       ((s.curCl k).buf = .idle → ps = [(p, 512)] → ∃ t, exec (.ldrow h r sp base idx sh off) s = .next t ∧
         t.iss = { s.iss with res := .stall } ∧ (t.curCl k).buf = .sent s.nextId 8 ∧
         Sends s t ((List.range 8).map fun j =>
           asked s j (onCl s.cur k) (.read 64) (Place.plus p (64 * j)) .buf .plain .core false)) ∧
       ((s.curCl k).buf = .sent n 8 → ∃ t, exec (.ldrow h r sp base idx sh off) s = .next t ∧
         t.iss = { s.iss with res := .stall } ∧ Sends s t [] ∧ ∀ j, t.curCl j = s.curCl j) ∧
       ((s.curCl k).buf = .got bs → Completes (.ldrow h r sp base idx sh off) s fun t => Sends s t [] ∧
         ∀ j, t.curCl j =
           if j = k then { Safety.fly 6 (.row r.p row 0 bs) 0 (s.curCl k) with buf := .idle } else s.curCl j)) ∧
     (sp ≠ .ls → s.accessCheck k sp (effAddr (s.curCl k) base idx sh off) 512 64 true .none = .ok (.mem [(p, 512)], s1) →
       Completes (.strow h r sp base idx sh off) s fun t => (∀ j, t.curCl j = s.curCl j) ∧
         Sends s t ((List.range 8).map fun j =>
           asked s j (onCl s.cur k) (postOp (Place.plus p (64 * j)) (part j)) (Place.plus p (64 * j)) .none .plain .core
             false)) ∧
     (s.accessCheck k .tsm (effAddr (s.curCl k) base 0 0 off) 512 64 true .none = .ok (.mem [(p, 512)], s1) →
       p.memside = false →
       Completes (.bred h r op ty base off) s fun t => (∀ j, t.curCl j = s.curCl j) ∧
         Sends s t ((List.range 8).map fun j =>
           asked s j (onCl s.cur k) (.red op ty (part j)) (Place.plus p (64 * j)) .none .plain .core false))) ∧
  (∀ (s : State) (h : Hdr) (base idx : Reg) (sh : BitVec 3) (off : BitVec 18), NonePending s h [base, idx] →
     Completes (.pf h base idx sh off) s fun t => (∀ k, t.curCl k = s.curCl k) ∧
       (∃ rs, Sends s t rs ∧ ∀ r ∈ rs, r.op = .pf ∧ r.dst = .none) ∧
       ∀ k, s.on h = [k] →
         let x : XReq := ⟨s.cur.tile, (effAddr (s.curCl k) base idx sh off).toNat, false, false, !(s.curCl k).priv, 0, 0,
           s.cur.core⟩
         (∀ p s1 a, s.xl x = .ok (p, s1) → p.loc = .hbm a →
           Sends s t [asked s 0 (onCl s.cur k) .pf { p with loc := .hbm (a / 64 * 64) } .none .plain .core false]) ∧
         (∀ e, s.xl x = .error e → Sends s t []))

/-- R264: a fence completes once the stream's earlier loads or stores that its order names are done, and waits until then;
with release it keeps the writes after it behind every access before it (R275). R265-R267: the barrier operations of a stream
whose accesses are done, as one step of the bank that holds the record (R241); they wait while that bank is busy. BARINIT sets a
barrier's count and clears its arrivals unless a stream waits; BARA and BARW arrive; BARW waits unless it completes the
generation; BARROT rotates the base at the end of the cycle. R267, R325: BARP of a joined task counts its arrival, registers the
continuation of cluster registers from s1 on and ends the task; the record is released at once when the arrival completes the
generation and parked in the barrier otherwise; in a forked stream it diverges. What is the model's own choice in it: log
entries 18, 22, 24. -/
def Obligations.FencesAndBarriers : Prop :=
  (∀ (s : State) (h : Hdr) (scp : Scp) (ord : MOrd),
     (s.on h = [] → Passes (.fence h scp ord) s) ∧
     (s.on h ≠ [] →
       ((ordAcq ord = true → s.loadsDone s.cur s.active = true) →
         (ordRel ord = true → s.storesDone s.cur s.active = true) →
         (ordRel ord = false → Passes (.fence h scp ord) s) ∧
         (ordRel ord = true → Does (.fence h scp ord) s h fun _ c => { c with fenced := s.iss.below.getD s.nextId })) ∧
       (ordAcq ord = true → s.loadsDone s.cur s.active = false → Stalls (.fence h scp ord) s) ∧
       (ordRel ord = true → s.storesDone s.cur s.active = false → Stalls (.fence h scp ord) s))) ∧
  (∀ (s : State) (h : Hdr) (o : BitVec 12) (a : Reg) (k : Fin 4) (ks : List (Fin 4)),
     s.on h = k :: ks → NonePending s h [a] →
     let b := s.curBank
     let id := if b.barDepth ≠ 0 ∧ o.toNat < b.barDepth then (b.barBase + o.toNat) % b.barDepth else o.toNat
     let r := s.barRec s.cur.tile id
     let u := s.modTile s.cur.tile fun x => { x with bankUsed := id % 512 :: x.bankUsed }
     let next := { r with arrived := (r.arrived + 1) % 65536 }
     let ok := fun (t : State) => ({ t with iss := { s.iss with res := .ok } } : State)
     let bit := 4 * s.cur.core + if b.joined then 0 else s.cur.cl.val
     let completes := r.count = 0 ∨ (r.arrived + 1) % 65536 = r.count
     let released := (u.putBar s.cur.tile id { r with arrived := 0, gen := (r.gen + 1) % 65536 }).barRelease s.cur.tile id r false
     (s.accessesDone s.cur s.active = false ∨ s.barBankFree s.cur.tile id = false →
       ∀ i ∈ [Instr.barinit h o a, .bara h o, .barw h o], Stalls i s) ∧
     (s.accessesDone s.cur s.active = true → s.barBankFree s.cur.tile id = true →
       (r.stalled = 0 ∧ r.parked = 0 → exec (.barinit h o a) s = .next (ok (u.putBar s.cur.tile id
         { r with count := ((s.curCl k).reg a).toNat % 65536, arrived := 0 }))) ∧
       (r.stalled ≠ 0 ∨ r.parked ≠ 0 →
         exec (.barinit h o a) s = .next (u.trapOp cBARBUSY k 0 (BitVec.ofNat 32 id))) ∧
       (completes → exec (.bara h o) s = .next (ok released) ∧ exec (.barw h o) s = .next (ok released)) ∧
       (¬completes → exec (.bara h o) s = .next (ok (u.putBar s.cur.tile id next)) ∧
         ∃ t, exec (.barw h o) s = .next t ∧ t.iss = { s.iss with res := .ok } ∧
           (t.curCl (if b.joined then 0 else s.cur.cl)).hold = .barw id ∧
           (t.barRec s.cur.tile id).arrived = (r.arrived + 1) % 65536 ∧ (t.barRec s.cur.tile id).gen = r.gen ∧
           (s.cur.core < 16 → (t.barRec s.cur.tile id).stalled.getLsbD bit = true))) ∧
     exec (.barrot h) s = .next (ok (s.modCore s.cur.tile s.cur.core fun x =>
       { x with endFx := x.endFx ++ [.barrot s.cur.bank] }))) ∧
  (∀ (s : State) (h : Hdr), s.on h = [] → Passes (.barrot h) s) ∧
  (∀ (s : State) (h : Hdr) (o : BitVec 12) (a : Reg) (cnt : BitVec 4) (k : Fin 4) (ks : List (Fin 4)) (m : Nat),
     s.curBank.joined = true → s.on h = k :: ks → NonePending s h [a] → s.accessesDone s.cur s.active = true →
     (∀ j : Fin 4, ∀ n < cnt.toNat, (s.startCl j).p (1 + BitVec.ofNat 5 n) = false) →
     ((s.curCl k).reg a).toNat % 64 = 0 → s.freeCont = some m →
     let b := s.curBank
     let id := if b.barDepth ≠ 0 ∧ o.toNat < b.barDepth then (b.barBase + o.toNat) % b.barDepth else o.toNat
     let r := s.barRec s.cur.tile id
     s.barBankFree s.cur.tile id = true →
     ∃ t, exec (.barp h o a cnt) s = .next t ∧ t.iss = { s.iss with res := .ok } ∧ t.curBank.occ = false ∧
       (¬(r.count = 0 ∨ (r.arrived + 1) % 65536 = r.count) →
         tget Cont.reset t.conts m = { s.contOf s.cur ((s.curCl k).reg a) cnt.toNat none id with next := 0 } ∨ r.parked ≠ 0) ∧
       (r.count = 0 ∨ (r.arrived + 1) % 65536 = r.count → ∃ e ∈ (t.tile s.cur.tile).ready, e.kind = 1 ∧ e.cont = m)) ∧
  (∀ (s : State) (h : Hdr) (o : BitVec 12) (a : Reg) (cnt : BitVec 4), s.curBank.joined = false →
     if (s.curCl s.cur.cl).guard h then
       exec (.barp h o a cnt) s = .next (s.trapOp cDIVERGE s.cur.cl 0 (clusterBits [s.cur.cl]))
     else Passes (.barp h o a cnt) s)

/-! ### E class -/

/-- R170, R187, R289-R292: the operations of the matrix engine and the projection unit append their entries; a destination
panel that is a source raises PSHAPE. MCVT to a floating-point type draws in mode 6, VPEMIT always (R42, R205). R289-R292,
R297, R298, R406: the courier's operations append their entries with the scalars they name, when the values pass the checks
of Table eq 10; the first failing cluster's check is what the trap reports. R330, R331: SEND, RECV, PWR, PWRED and ARM
append an entry for the port engine. A company bound to no cue sheet raises NOCIRC, before the checks of the addresses; ARM
names no handle. What is the model's own choice in it: log entries 8, 62. -/
def Obligations.EngineEntries : Prop :=
  (∀ (s : State) (h : Hdr) (y : Sync) (d a b : Pan) (t : Ty) (rm : Rnd) (r : Reg),
     let none := fun (_ : Cluster) => (0 : Word)
     let no := fun (_ : Cluster) => false
     let clash := fun (i : Instr) (x : Pan) => ∀ k ks, s.on h = k :: ks →
       exec i s = .next (s.trapOp cPSHAPE k 0 (BitVec.ofNat 32 (d.toNat + 32 * x.toNat)))
     (d ≠ a → d ≠ b → d ≠ b + 1 → Enqueues (.mma h y d a b t) s h .matrix none none none no) ∧
     (d = a → clash (.mma h y d a b t) a) ∧ (d ≠ a → d = b → clash (.mma h y d a b t) b) ∧
     (d ≠ a → d ≠ b → d = b + 1 → clash (.mma h y d a b t) (b + 1)) ∧
     Enqueues (.mzero h y d) s h .matrix none none none no ∧
     (d ≠ a → Enqueues (.mcvt h y d a rm t) s h .matrix none none none
       fun c => (tyFmt t).isSome && stochastic c rm) ∧
     (d ≠ a → Enqueues (.mtrn h y d a t) s h .matrix none none none no) ∧
     (d = a → clash (.mcvt h y d a rm t) a ∧ clash (.mtrn h y d a t) a) ∧
     (d ≠ a → Enqueues (.vpmerge h y d a) s h .proj none none none no) ∧
     (d = a → clash (.vpmerge h y d a) a) ∧
     (NonePending s h [r] →
       Enqueues (.vpinit h y d r) s h .proj none none (fun c => c.reg r) no ∧
       (d ≠ a → Enqueues (.vproj h y d a r) s h .proj none none (fun c => c.reg r) no ∧
         Enqueues (.vpback h y d a r) s h .proj none none (fun c => c.reg r) no) ∧
       (d = a → clash (.vproj h y d a r) a ∧ clash (.vpback h y d a r) a) ∧
       Enqueues (.vpemit h y d r) s h .proj none none (fun c => c.reg r) fun _ => true)) ∧
  (∀ (s : State) (h : Hdr) (y : Sync) (p : Pan) (x a n : Reg) (op : RedOp) (t : RedTy), NonePending s h [x, a, n] →
     let none := fun (_ : Cluster) => (0 : Word)
     let no := fun (_ : Cluster) => false
     let entry := fun (i : Instr) (v3 v4 v5 : Cluster → Word) (chk : Cluster → Option AErr) =>
       ((∀ k ∈ s.on h, chk (s.curCl k) = .none) → Enqueues i s h .courier v3 v4 v5 no) ∧
       ∀ k ∈ s.on h, ∀ e, chk (s.curCl k) = some e → (∀ j ∈ s.on h, j < k → chk (s.curCl j) = .none) →
         exec i s = .next (s.trapOp e.1 k e.2.1 e.2.2)
     let X := fun (r : Reg) (c : Cluster) => c.reg r
     entry (.cpylp h y p a n) none (X a) (X n) (fun c => panCopyErr p (c.reg a) (c.reg n) false) ∧
     entry (.cpysp h y x p n) (X x) none (X n) (fun c => panCopyErr p (c.reg x) (c.reg n) true) ∧
     entry (.cpymm h y x a n) (X x) (X a) (X n) (fun c => copyErr .none (c.reg x) (c.reg a) (c.reg n)) ∧
     entry (.cpygp h y p a n) none (X a) (X n) (fun c => gatherErr p (c.reg a) (c.reg n)) ∧
     entry (.cpyred h y x a n op t) (X x) (X a) (X n)
       (fun c => copyErr (some (if t = .bf16 then 2 else 4)) (c.reg x) (c.reg a) (c.reg n)) ∧
     entry (.cpyz h y x n) (X x) none (X n)
       (fun c => if byteCnt (c.reg n) == 0 then .none else addrErr (c.reg x) (byteCnt (c.reg n)) true false) ∧
     entry (.migr h y x a n) (X x) (X a) (X n) (fun c => migrErr (c.reg x) (c.reg a))) ∧
  (∀ (s : State) (h : Hdr) (y : Sync) (hd : Hnd) (a n : Reg) (f : Bool), NonePending s h [a, n] →
     let none := fun (_ : Cluster) => (0 : Word)
     let no := fun (_ : Cluster) => false
     let X := fun (r : Reg) (c : Cluster) => c.reg r
     let bound := ∃ t u, s.curBank.task = some t ∧ t.cue = some u
     let clear := fun (chk : Cluster → Option AErr) => ∀ k ∈ s.on h, chk (s.curCl k) = .none
     let traps := fun (i : Instr) (chk : Cluster → Option AErr) => ∀ k ∈ s.on h, ∀ e, chk (s.curCl k) = some e →
       (∀ j ∈ s.on h, j < k → chk (s.curCl j) = .none) → exec i s = .next (s.trapOp e.1 k e.2.1 e.2.2)
     let buf := fun (w : Bool) (c : Cluster) =>
       if (c.reg n).toNat % 2 ^ 40 = 0 then .none else addrErr (c.reg a) ((c.reg n).toNat % 2 ^ 40) w false
     let desc := fun (c : Cluster) =>
       let v := (c.reg a).toNat
       if v % 64 ≠ 0 then some (cDALIGN, c.reg a, 0) else if 0x1FC000 < v + 64 then some (cPROT, c.reg a, 0) else Option.none
     (bound → (clear (buf false) → Enqueues (.send h y hd a n f) s h .port (X a) (X n) none no) ∧
       traps (.send h y hd a n f) (buf false) ∧
       (clear (buf true) → Enqueues (.recv h y hd a n) s h .port (X a) (X n) none no) ∧ traps (.recv h y hd a n) (buf true) ∧
       (clear desc → Enqueues (.pwr h y hd a) s h .port (X a) none none no ∧
         Enqueues (.pwred h y hd a f) s h .port (X a) none none no) ∧
       traps (.pwr h y hd a) desc ∧ traps (.pwred h y hd a f) desc) ∧
     (clear desc → Enqueues (.arm h y a) s h .port (X a) none none no) ∧ traps (.arm h y a) desc ∧
     (¬bound → ∀ k ks, s.on h = k :: ks →
       ∀ i ∈ [Instr.send h y hd a n f, .recv h y hd a n, .pwr h y hd a, .pwred h y hd a f],
         exec i s = .next (s.trapOp cNOCIRC k (BitVec.ofNat 64 hd.toNat) 0)))

/-! ### Y class, traps and control registers -/

/-- R212, R214, R215: taking a trap on a stream of the present core whose loads are all back. Its results move to the
pending-write buffer, but for those that the present cycle still ends (R95), and CAUSE, EPC and EADDR are written while TI = 0.
A forked stream with LT set and TI clear, one that waits in a join set too, continues in supervisor mode at its tile's TVEC plus
256 times its cluster; any other is parked at `epc` and its record routed, with the MSC or HBM bank of an uncorrectable granule
(R252). R216: a trap enters the stream's outstanding long load in the replay list, clears its P bit and discards its data;
while the stream is parked the load keeps its place among the stream's accesses (R273). What is the model's own choice in it:
log entry 3. -/
def Obligations.TakingATrap : Prop :=
  (∀ (s : State) (k : Fin 4) (cause : Nat) (rep : Fin 4) (epc eaddr : Word) (aux : BitVec 32),
     let i := onCl s.cur k
     let b := s.curBank
     let ks := if b.joined then cls4 else [k]
     let t := s.takeTrap i cause rep epc eaddr aux
     let bank := if cause ≠ cUECC then 0 else if aux.toNat % 16 = 2 then eaddr.toNat / 64 % 32
       else if aux.toNat % 16 = 3 then eaddr.toNat / 256 % 64 else 0
     rep ∈ ks → NothingAwaited s i ks →
     (∀ n c, (n = s.cur.tile ∧ c = s.cur.core) ∨ t.core n c = s.core n c) ∧ t.reqs = s.reqs ∧ t.hbm = s.hbm ∧
     t.curBank.pwb = b.pwb ++ ks.flatMap (fun j => drainedTo (s.curCl j) j) ∧
     (∀ j, j ∉ ks → t.curCl j = s.curCl j) ∧
     if b.joined = false ∧ (s.curCl k).lt = true ∧ (s.curCl k).ti = false then
       t.curCl k = { noted cause aux epc eaddr (drainedCl (s.curCl k)) with
         st := .running, ppriv := (s.curCl k).priv, priv := true, ti := true,
           pc := BitVec.ofNat 64 (s.curTile.tvec + 256 * k.val) } ∧
       t.records = s.records
     else
       (∀ j ∈ ks, t.curCl j =
         { (if (s.curCl rep).ti then drainedCl (s.curCl j) else noted cause aux epc eaddr (drainedCl (s.curCl j))) with
           st := .parked, pc := epc, answered := false }) ∧
       (s.route i.tile cause 0 (s.curCl rep).priv ≠ .drop → ∃ r, t.records = s.records ++ [r] ∧
         r.cause = cause ∧ r.tile = i.tile ∧ r.core = i.core ∧ r.cl = rep.val ∧ r.bank = i.bank ∧ r.kind = 0 ∧
         r.source = 0 ∧ r.aux = aux ∧ r.pc = BitVec.ofNat 64 (epc.toNat % 2 ^ 55 + bank * 2 ^ 55) ∧ r.addr = eaddr ∧ r.tick = s.tick ∧
         r.dest = s.route i.tile cause 0 (s.curCl rep).priv ∧ r.waiter = .stream (onCl s.cur rep))) ∧
  (∀ (s : State) (k : Fin 4) (cause : Nat) (epc eaddr : Word) (aux : BitVec 32) (r : Req) (l : LoadRec),
     let t := s.takeTrap (onCl s.cur k) cause k epc eaddr aux
     s.curBank.joined = false → s.reqs = [r] → r.who = .stream (onCl s.cur k) → r.drop = false → r.dst = .load l → l.cl = k →
     r.stage ≠ .lost →
     t.curBank.replay = s.curBank.replay ++ [l] ∧ (t.curCl k).p l.d = false ∧
       t.reqs = (if (s.curCl k).lt = true ∧ (s.curCl k).ti = false then [{ r with drop := true }]
         else [{ r with stage := .lost }]) ∧
       ∀ x, x ≠ l.d → (t.curCl k).p x = (s.curCl k).p x)

/-- R75-R78, R221: TRAP n raises cause 40H + n after its bundle, reported by the lowest true cluster with the next bundle's
address; where the bundle forked the core, each of the new streams takes it (R139; log entry 68). ILLOP, PRIV and a fetch
fault are reported by the stream's lowest cluster with the offending address. R76, R223: of the words of a bundle fetched at
user level the first that is a supervisor operation is reported as PRIV, unless a word before it does not decode; at
supervisor level it is an operation of the bundle. What is the model's own choice in it: log entries 11, 64. -/
def Obligations.RaisedTraps : Prop :=
  (∀ (s : State) (h : Hdr) (n : BitVec 6) (a : Word) (f : Bool) (aux : BitVec 32) (k : Fin 4) (ks : List (Fin 4)),
     (s.on h = [] → Passes (.trap h n) s) ∧
     (s.on h = k :: ks → s.curBank.joined = true ∨ s.active = [k] → exec (.trap h n) s =
       .next { s.takeTrap (onCl s.cur k) (64 + n.toNat) k (s.curCl k).pc 0 0 with
         iss := { s.iss with res := .trap (64 + n.toNat) k 0 0 } }) ∧
     (s.on h = k :: ks → s.curBank.joined = false → exec (.trap h n) s =
       .next { s.active.foldl (fun t j => t.takeTrap (onCl t.cur j) (64 + n.toNat) j (t.cl (onCl t.cur j)).pc 0 0) s with
         iss := { s.iss with res := .trap (64 + n.toNat) k 0 0 } }) ∧
     (s.active = k :: ks →
       exec (.illop a f) s = .next (s.trapOp (if f then cPRIV else cILLOP) k a 0) ∧
       exec (.instructionFetchFault f a aux) s = .next (s.trapOp (if f then cPROT else cPAGE) k a aux))) ∧
  (∀ (w : Word) (ws : List Word) (n : Nat) (i : Instr), decodeWord w = .ok i →
     (i.supervisor = true → decodeBundle true (w :: ws) n = .error (n, true)) ∧
     (∀ is, decodeBundle false ws (n + 1) = .ok is → decodeBundle false (w :: ws) n = .ok (i :: is)) ∧
     (∀ h d a b, i ∈ [Instr.frameopRead h d a b, .frameopAdjust h d a b, .frameopFlags h d a b, .frameopPush h d a b,
       .frameopPop h d a b, .frameopShoot h d a b, .rett h, .tlbinvAll h, .tlbinvCtx h, .tlbinvPage h a, .tlbinvLarge h a,
       .faultack h a, .cuesel h a, .mtcr h a 0x41, .mtcrRdbase h a] → i.supervisor = true))

/-- R96, R213, R222: RETT returns a stream from its handler: PRIV from PPRIV, TI clear, the pending-write buffer's results
back in flight before those of its own bundle, the pc at EPC. It raises ILLOP where TI is clear, and waits for results in
flight. What is the model's own choice in it: log entries 9, 48. -/
def Obligations.TrapReturn : Prop :=
  ∀ (s : State) (h : Hdr), s.on h ≠ [] → s.active = s.clsOf s.cur →
    (∀ k ∈ s.active, (s.startCl k).ti = false → (∀ j ∈ s.active, j < k → (s.startCl j).ti = true) →
      exec (.rett h) s = .next (s.trapOp cILLOP k s.iss.addr 0)) ∧
    ((∀ k ∈ s.active, (s.startCl k).ti = true) →
      (s.inFlightAtStart = true → exec (.rett h) s = .next { s with iss := { s.iss with res := .drain } }) ∧
      (s.inFlightAtStart = false → (∀ l ∈ s.curBank.replay, l.cl ∉ s.active) →
        (∀ k ∈ s.active, (s.curCl k).xfer = 0) → ∀ k0 ks, s.active = k0 :: ks →
        ∃ t, exec (.rett h) s = .next t ∧ t.iss = { s.iss with res := .ok, moved := true } ∧ OnlyBank s t ∧
          { t.curBank with cl := s.curBank.cl } =
            { s.curBank with pwb := s.curBank.pwb.filter fun e => !s.active.contains e.cl } ∧
          ∀ k, t.curCl k =
            if k ∈ s.active then
              { s.curCl k with
                priv := (s.curCl k).ppriv, ti := false, pc := (s.curCl k0).epc, after := none,
                flights := (s.curBank.pwb.filter fun e => e.cl == k).map (·.fl) ++ (s.curCl k).flights }
            else s.curCl k) ∧
      (s.inFlightAtStart = false → s.curBank.joined = false → s.curBank.replay = [] →
        ∀ k, s.active = [k] → (s.curCl k).xfer ≠ 0 →
        ∃ t, exec (.rett h) s = .next t ∧ (t.curCl k).pc = (s.curCl k).xferNext ∧ (t.curCl k).ti = false ∧
          (t.curCl k).hold =
            .piece true (s.curCl k).epc (s.curCl k).xferOp (s.curCl k).xferAddr (s.curCl k).xfer []))

/-- R89, R206, R223, Tables ctx 1, 2, 4 and 7: what MFCR reads of each register, as it stood when the bundle issued. -/
def Obligations.ControlReads : Prop :=
  ∀ (s : State) (h : Hdr) (d : Reg), NonePending s h [d] →
    let b := s.curBank
    let x := s.curCore
    let t := s.curTile
    let w := BitVec.ofNat 64
    ∀ e ∈ ([(0x00, fun _ c => w (flagAt 0 c.priv + flagAt 1 c.lt + flagAt 2 c.ti + flagAt 3 c.ppriv + flagAt 4 b.joined +
        s.cur.bank % 2 * 2 ^ 5)),
      (0x01, fun _ c => w (c.causeCode.toNat + c.causeAux.toNat * 2 ^ 32)), (0x02, fun _ c => c.epc),
      (0x03, fun _ c => c.eaddr), (0x04, fun _ c => w c.fctl.toNat), (0x05, fun _ c => w c.fstat.toNat),
      (0x06, fun _ c => c.srseed), (0x07, fun _ c => c.spillp), (0x08, fun _ c => w c.rstop), (0x09, fun _ c => w c.xfer),
      (0x0A, fun k _ => w (k.val + s.cur.core * 2 ^ 4 + s.cur.tile * 2 ^ 8 + s.cw.identity.toNat % 2 ^ 12 * 2 ^ 12)),
      (0x10, fun _ c => w (c.lc.getD 0 0).toNat), (0x11, fun _ c => w (c.lc.getD 1 0).toNat),
      (0x12, fun _ c => w (c.lc.getD 2 0).toNat), (0x13, fun _ c => w (c.lc.getD 3 0).toNat),
      (0x14, fun _ c => c.lb.getD 0 0), (0x15, fun _ c => c.lb.getD 1 0), (0x16, fun _ c => c.lb.getD 2 0),
      (0x17, fun _ c => c.lb.getD 3 0), (0x18, fun _ c => c.le.getD 0 0), (0x19, fun _ c => c.le.getD 1 0),
      (0x1A, fun _ c => c.le.getD 2 0), (0x1B, fun _ c => c.le.getD 3 0),
      (0x20, fun _ _ => w (b.barBase + b.barDepth * 2 ^ 8)),
      (0x21, fun _ _ => w (x.fg % 2 + flagAt 1 x.b0.occ + flagAt 2 x.b1.occ + flagAt 3 x.b0.parked + flagAt 4 x.b1.parked +
        x.xcnt % 2 ^ 32 * 2 ^ 32)),
      (0x22, fun _ _ => w ((x.bank (x.fg % 2)).pwb.length % 2 ^ 16 + (x.bank (1 - x.fg % 2)).pwb.length % 2 ^ 16 * 2 ^ 16 +
        (x.b0.replay.length + x.b1.replay.length) % 2 ^ 16 * 2 ^ 32)),
      (0x23, fun _ _ => w b.taskid.toNat), (0x24, fun _ _ => w b.company.toNat), (0x40, fun _ _ => w t.ttbase),
      (0x41, fun _ _ => w t.ptroot), (0x42, fun _ _ => w (t.fqbase.c0.base + t.fqbase.c0.size)),
      (0x43, fun _ _ => w (t.fqbase.c1.base + t.fqbase.c1.size)), (0x44, fun _ _ => w (t.fqbase.c2.base + t.fqbase.c2.size)),
      (0x45, fun _ _ => w (t.fqbase.c3.base + t.fqbase.c3.size)), (0x46, fun _ _ => w t.rdbase),
      (0x47, fun _ _ => w t.tvec)] : List (BitVec 8 × (Fin 4 → Cluster → Word))),
      Does (.mfcr h d e.1) s h fun k c => flyReg 1 d (e.2 k (s.startCl k)) false c

/-- R207, R133, Tables ctx 1, 2 and flow 6: what MTCR leaves in each register that a cluster holds. STAT's writable bits
change at supervisor level alone, XFER keeps five bits, RSTOP only falls. R208, R209, R361, Table ctx 7: a write of a core or
tile register stands at the end of the cycle, cut to the bits the register holds; that of the redirection table waits for the
stream's stores and then for a short time in which the tile copies the table. R116, R208, R224, R266: what stands at the end
of a core's cycle: a panel's new state, BARBASE with its base reduced modulo a nonzero depth, a base rotated by one, a tile
register, a trace marker counted. What is the model's own choice in it: log entry 49. -/
def Obligations.ControlWrites : Prop :=
  (∀ (s : State) (h : Hdr) (a : Reg), NonePending s h [a] → (∀ k, (s.startCl k).reg a = (s.curCl k).reg a) →
     let level := fun (n : Nat) (l : List Word) (v : Word) => l.set n (cutAddr 64 v)
     (∀ e ∈ ([(0x00, fun c v => if c.priv then
           { c with priv := v.getLsbD 0, lt := v.getLsbD 1, ti := v.getLsbD 2, ppriv := v.getLsbD 3 } else c),
       (0x01, fun c v => { c with causeCode := v.extractLsb' 0 8, causeAux := v.extractLsb' 32 32 }),
       (0x02, fun c v => { c with epc := cutAddr 8 v }), (0x03, fun c v => { c with eaddr := v }),
       (0x04, fun c v => { c with fctl := v.extractLsb' 0 5 }),
       (0x05, fun c v => { c with fstat := v.extractLsb' 0 5 ||| c.flagsNow ||| c.flagsCyc }),
         (0x06, fun c v => { c with srseed := v }),
       (0x07, fun c v => { c with spillp := cutAddr 8 v }), (0x09, fun c v => { c with xfer := v.toNat % 32 }),
       (0x10, fun c v => { c with lc := c.lc.set 0 (v.extractLsb' 0 32) }),
       (0x11, fun c v => { c with lc := c.lc.set 1 (v.extractLsb' 0 32) }),
       (0x12, fun c v => { c with lc := c.lc.set 2 (v.extractLsb' 0 32) }),
       (0x13, fun c v => { c with lc := c.lc.set 3 (v.extractLsb' 0 32) }),
       (0x14, fun c v => { c with lb := level 0 c.lb v }), (0x15, fun c v => { c with lb := level 1 c.lb v }),
       (0x16, fun c v => { c with lb := level 2 c.lb v }), (0x17, fun c v => { c with lb := level 3 c.lb v }),
       (0x18, fun c v => { c with le := level 0 c.le v }), (0x19, fun c v => { c with le := level 1 c.le v }),
       (0x1A, fun c v => { c with le := level 2 c.le v }), (0x1B, fun c v => { c with le := level 3 c.le v })] :
         List (BitVec 8 × (Cluster → Word → Cluster))),
       Does (.mtcr h a e.1) s h fun _ c => e.2 c (c.reg a)) ∧
     Does (.mtcrRstop h a) s h fun _ c => { c with rstop := min ((c.reg a).toNat % 32) c.rstop }) ∧
  (∀ (s : State) (h : Hdr) (a : Reg) (n : BitVec 2), NonePending s h [a] →
     let v := fun (k : Fin 4) => (s.startCl k).reg a
     (∀ e ∈ ([(0x40, 0xFFFFFFFFC0), (0x41, 0xFFFFFFF000), (0x47, 0xFFFFFFFC00)] : List (BitVec 8 × Word)),
       AtCycleEnd (.mtcr h a e.1) s ((s.on h).map fun k => .tileReg e.1.toNat (v k &&& e.2))) ∧
     AtCycleEnd (.mtcrFqbase h a n) s ((s.on h).map fun k => .tileReg (0x42 + n.toNat) (v k &&& 0xFFFFFFFFCF)) ∧
     AtCycleEnd (.mtcrBarbase h a) s ((s.on h).map fun k => .barbase s.cur.bank (v k)) ∧
     (s.on h = [] → Passes (.mtcrRdbase h a) s) ∧
     ∀ k ks, s.on h = k :: ks →
       (s.storesDone s.cur s.active = false → Stalls (.mtcrRdbase h a) s) ∧
       (s.storesDone s.cur s.active = true →
         ((∀ due m, (s.curCl k).lbuf ≠ .sent due m) → ∃ t due, exec (.mtcrRdbase h a) s = .next t ∧
           t.iss = { s.iss with res := .stall } ∧ s.quantum < due ∧ t.curCore.endFx = s.curCore.endFx ∧
           ∀ j, t.curCl j = if j = k then { s.curCl k with lbuf := .sent due 0 } else s.curCl j) ∧
         (∀ due m, (s.curCl k).lbuf = .sent due m →
           (s.quantum < due → Stalls (.mtcrRdbase h a) s) ∧
           (due ≤ s.quantum → Completes (.mtcrRdbase h a) s fun t => OnlyCore s t ∧ SameBanks s t ∧
             (∀ j, t.curCl j = if j = k then { s.curCl k with lbuf := .idle } else s.curCl j) ∧
             { t.curCore with b0 := s.curCore.b0, b1 := s.curCore.b1, endFx := s.curCore.endFx } = s.curCore ∧
             t.curCore.endFx = s.curCore.endFx ++ (s.on h).map fun j => .tileReg 0x46 (v j &&& 0xFFFFFFFFC0))))) ∧
  (∀ (s : State) (n c : Nat) (p : Pan) (f : Bool) (b : Nat) (v : Word) (e : EndFx),
     (s.core n c).endFx = [e] →
     let t := s.applyEnds n c
     let x := s.core n c
     let y := t.core n c
     let base := v.toNat % 256
     let depth := v.toNat / 256 % 256
     y.endFx = [] ∧
     (e = .setps p f → ∀ q, y.pst q = if q = p then (if f then .ready else .empty) else x.pst q) ∧
     (e = .barbase b v → (y.bank b).barDepth = depth ∧ (y.bank b).barBase = if depth = 0 then base else base % depth) ∧
     (e = .barrot b → (y.bank b).barDepth = (x.bank b).barDepth ∧ (y.bank b).barBase =
       if (x.bank b).barDepth = 0 then (x.bank b).barBase else ((x.bank b).barBase + 1) % (x.bank b).barDepth) ∧
     (e = .marker v → y.marker = v ∧ y.markers = x.markers + 1) ∧
     (e = .tileReg 0x40 v → (t.tile n).ttbase = v.toNat) ∧ (e = .tileReg 0x41 v → (t.tile n).ptroot = v.toNat) ∧
     (e = .tileReg 0x47 v → (t.tile n).tvec = v.toNat))

/-- R411: TLBINV drops cached translations: those of a page or of 512 MiB on every tile that shares the page-table root, all
of the tile, or all of the module; it changes nothing else. R402, R412, R413: MSCOP posts a request for the lines of a range
in each page, and FRAMEOP sends a frame-table step, of order acq+rel, for a frame of this module outside the reserved regions
or, for a pop, a tile; any other raises PROT. What is the model's own choice in it: log entry 14. -/
def Obligations.TranslationMscAndFrameOperations : Prop :=
  (∀ (s : State) (h : Hdr) (a : Reg) (k : Fin 4) (ks : List (Fin 4)),
     s.on h = k :: ks → (s.startCl k).p a = false → (∀ id n, (s.curCl k).lbuf ≠ .sent id n) →
     s.storesDone s.cur s.active = true → s.translatedDone s.nextId = true →
     let va := ((s.startCl k).reg a).toNat % 2 ^ 55
     let root := fun (n : Nat) => (s.tile n).ptroot == s.curTile.ptroot
     Invalidates (.tlbinvPage h a) s root (fun e => e.kind = 0 ∧ e.key = if e.large then va / 2 ^ 29 else va / 2 ^ 16) ∧
     Invalidates (.tlbinvLarge h a) s root
       (fun e => e.kind = 0 ∧ (if e.large then e.key else e.key / 2 ^ 13) = va / 2 ^ 29) ∧
     Invalidates (.tlbinvCtx h) s (fun n => n == s.cur.tile) (fun _ => true) ∧
     Invalidates (.tlbinvAll h) s (fun _ => true) (fun _ => true)) ∧
  (∀ (s : State) (h : Hdr) (d a b : Reg) (k : Fin 4), s.on h = [k] → NonePending s h [d, a, b] →
     let x := s.startCl k
     let va := (x.reg a).toNat
     let n := min (x.reg b).toNat (2 ^ 24)
     (∀ e ∈ [(0, Instr.mscopWriteback h a b), (1, .mscopInvalidate h a b), (2, .mscopRetain h a b),
         (3, .mscopEvictFirst h a b)],
       (n = 0 → Completes e.2 s fun t => t = { s with iss := t.iss }) ∧
       (∀ pa blk s1, 0 < n → va % 65536 + n ≤ 65536 →
         s.xl ⟨s.cur.tile, va, false, false, !(s.curCl k).priv, 0, 0, s.cur.core⟩ = .ok (⟨.hbm pa, false, blk⟩, s1) →
         Completes e.2 s fun t => (∀ j, t.curCl j = s.curCl j) ∧
           Sends s t [asked s 0 (onCl s.cur k) (.mscop e.1 ((pa + n + 63) / 64 * 64 - pa / 64 * 64))
             ⟨.hbm (pa / 64 * 64), false, none⟩ .none .plain .core false])) ∧
     (x.inFlight d = false →
       ∀ e ∈ [(0, Instr.frameopRead h d a b), (1, .frameopAdjust h d a b), (2, .frameopFlags h d a b),
         (3, .frameopPush h d a b), (4, .frameopPop h d a b), (5, .frameopShoot h d a b)],
         let frame := va % 65536 = 0 ∧ va / 2 ^ 40 = s.cw.identity.toNat % 4096 ∧ va % 2 ^ 36 < 0xFFF000000
         let f := va % 2 ^ 40 / 65536
         let sends := fun (f loc : Nat) => Completes e.2 s fun t =>
           (∀ j, t.curCl j = if j = k then (s.curCl k).setP d true else s.curCl j) ∧
           Sends s t [asked s 0 (onCl s.cur k) (.frame e.1 f (x.reg b)) ⟨.hbm loc, false, none⟩ (.frame d) .ar .mod false]
         (e.1 ≠ 4 → if frame then sends f (f / 2 ^ 20 % 16 * 2 ^ 36 + 0xFFF000000 + 8 * (f % 2 ^ 20))
           else exec e.2 s = .next (s.trapOp cPROT k (x.reg a) 0)) ∧
         (e.1 = 4 → if va < 16 then sends va (va * 2 ^ 36 + 0xFFF800000)
           else exec e.2 s = .next (s.trapOp cPROT k (x.reg a) 0))))

/-- R318: LAUNCH reads its record of 64 bytes while the bundle waits, pushes it at the tail of a task-fed queue and gives the
launch id. It waits until the stream's accesses are done and the queue has room; at issue a misaligned address raises DALIGN,
a queue that is not task-fed PROT, and a record of supervisor tasks, or of a pre-emption, from user level PRIV. R315-R320,
R322, R323: TRIGGER marks its task's lineage once the stream's accesses are performed, WAITDEP of an early task waits for the
launches it names, WAITX ends a joined task once its results are in, POSTX sends a post. R211, R324: YIELD exchanges the
banks, 16 cycles after the present one, for a task able to run, or for a ready entry of at least the task's priority that it
places in the free bank; without either it does nothing, and no forked stream yields. What is the model's own choice in it:
log entries 3, 7, 21, 34. -/
def Obligations.LaunchAndTaskOperations : Prop :=
  (∀ (s : State) (h : Hdr) (d a : Reg) (q : BitVec 4) (k : Fin 4), s.on h = [k] → NonePending s h [d, a] →
     let v := (s.startCl k).reg a
     let x := tget LQ.reset s.lq q.toNat
     let full := x.size ≠ 0 ∧ x.fed = true ∧ 2 ^ x.size ≤ (x.tail + 2 ^ 28 - x.head) % 2 ^ 28
     let mayIssue := s.accessesDone s.cur s.active = true ∧ ¬full
     (v.toNat % 64 ≠ 0 →
       (mayIssue → exec (.launch h d a q) s = .next (s.trapOp cDALIGN k v 0)) ∧ (¬mayIssue → Stalls (.launch h d a q) s)) ∧
     ∀ p s1, v.toNat % 64 = 0 →
       s.xl ⟨s.cur.tile, v.toNat, false, false, !(s.curCl k).priv, 0, 0, s.cur.core⟩ = .ok (p, s1) →
       ((s.curCl k).lbuf = .idle → ∃ t, exec (.launch h d a q) s = .next t ∧ t.iss = { s.iss with res := .stall } ∧
         (t.curCl k).lbuf = .sent s.nextId 1 ∧
         Sends s t [asked s 0 (onCl s.cur k) (.read 64) p .lbuf .plain .core false]) ∧
       ∀ bs, (s.curCl k).lbuf = .got bs →
         (¬mayIssue → Stalls (.launch h d a q) s) ∧
         (mayIssue →
           (x.size = 0 ∨ x.fed = false → exec (.launch h d a q) s = .next (s.trapOp cPROT k v 0)) ∧
           (x.size ≠ 0 → x.fed = true →
             ((s.curCl k).priv = false → recSup bs = true ∨ recKind bs ≠ 0 →
               exec (.launch h d a q) s = .next (s.trapOp cPRIV k v 0)) ∧
             ((s.curCl k).priv = true ∨ recSup bs = false ∧ recKind bs = 0 →
               ∃ t, exec (.launch h d a q) s = .next t ∧ t.iss = { s.iss with res := .ok } ∧
                 tget LQ.reset t.lq q.toNat = { x with tail := (x.tail + 1) % 2 ^ 28 } ∧
                 t.curCl k =
                   { flyReg 1 d (BitVec.ofNat 64 (q.toNat * 2 ^ 28 + x.tail)) false (s.curCl k) with lbuf := .idle } ∧
                 t.reqs = s.reqs ∧ (bs.length = 64 → PlainLine s (x.base + 64 * (x.tail % 2 ^ x.size)) →
                   t.homeRead (x.base + 64 * (x.tail % 2 ^ x.size)) 64 = bs))))) ∧
  (∀ (s : State) (h : Hdr) (a : Reg) (cnt : BitVec 4) (disp : BitVec 32),
     let ids := ((s.reqsOf s.cur s.active).filter fun r => !r.performed).map (·.id)
     Decides (.trigger h) s .uni (s.on h)
       (match s.curBank.task with
        | none => Passes (.trigger h) s
        | some k => if k.triggered then Passes (.trigger h) s else
          ∃ t, exec (.trigger h) s = .next t ∧ t.iss = { s.iss with res := .ok } ∧
            t.curBank = { s.curBank with task := some { k with triggered := true } } ∧
            t.trigs = s.trigs ++ [⟨k.launch, s.cur.tile, k.cIdx, ids, false⟩] ∧ t.hbm = s.hbm ∧ t.reqs = s.reqs) ∧
     Decides (.waitdep h) s .uni (s.on h)
       (if ∀ k, s.curBank.task = some k → k.early = true → ∀ l ∈ k.deps, s.triggered l = true then Passes (.waitdep h) s
        else Stalls (.waitdep h) s) ∧
     (s.curBank.joined = true → (s.startCl 0).p a = false →
       Decides (.waitx h a cnt disp) s .uni (s.on h)
         (∃ t, exec (.waitx h a cnt disp) s = .next t ∧ t.iss = { s.iss with res := .ok } ∧ OnlyClusters s t ∧
           ∀ k, t.curCl k =
             if k = 0 then { s.curCl 0 with hold := .waitx (codeAddr (codeTarget s disp)) cnt.toNat a } else s.curCl k)) ∧
     (s.curBank.joined = false → s.active = [s.cur.cl] →
       (s.on h = [] → Passes (.waitx h a cnt disp) s) ∧
       (s.on h ≠ [] → exec (.waitx h a cnt disp) s = .next (s.trapOp cDIVERGE s.cur.cl 0 (clusterBits [s.cur.cl])))) ∧
     ∀ k ks, s.on h = k :: ks → (s.startCl k).p a = false →
       Decides (.postx h a) s .uni (s.on h)
         (if s.mayPost ((s.startCl k).reg a) then
           exec (.postx h a) s = .next { s with
             posts := s.posts ++ [⟨s.tick + Config.delay s.fresh, s.cur.tile, s.cur.core, k.val, (s.startCl k).reg a, ids⟩],
             fresh := s.fresh + 1, iss := { s.iss with res := .ok } }
         else Stalls (.postx h a) s)) ∧
  (∀ (s : State) (h : Hdr),
     let t := s.cur.tile
     let c := s.cur.core
     let o := s.curCore.bank (1 - s.cur.bank)
     let swap := fun (s : State) => s.modCore t c fun x =>
       { x with fg := 1 - x.fg % 2, xcnt := (x.xcnt + 1) % 2 ^ 32, exch := 17 }
     let gives := fun (u : State) => exec (.yield h) s = .next { u with iss := { s.iss with res := .ok } }
     (s.curBank.joined = false → gives s) ∧
     (s.curBank.joined = true → Decides (.yield h) s .uni (s.on h)
       ((o.able = true → gives (swap s)) ∧ (o.able = false → o.occ = true → gives s) ∧
         (o.able = false → o.occ = false →
           (s.bestEntry t c = none → gives s) ∧
           ∀ e, s.bestEntry t c = some e →
             if s.curBank.company.toNat / 2 ^ 16 % 4 ≤ e.prio then gives (swap (s.placeEntry t c (1 - s.cur.bank) e))
             else gives s))))

/-- R382-R384: CUEQ tells a handle's state to a company of the sheet in play, CUEWAIT waits until it is live and raises NOCIRC
for an unbound company or a lost circuit, CUESEL notes a selection for the next tick. R235, R352: FAULTACK answers the record
in a queue's slot after the stream's accesses are done; an address that is no multiple of 32 raises DALIGN, one that is no
slot PROT. PERFRD gives the counters of Table count 11 as they
stood when the cycle began. R224, R364: HINT never traps and never waits. Kind 0 of at least
12,500 cycles and kind 3 are noted for the power arbiter, kind 7 writes the trace marker at the end of the cycle, kinds 4 to 6
and 8 to 31 do nothing; a value that is pending makes it do nothing. What is the model's own choice in it: log entry 50. -/
def Obligations.CueAnswerAndHintOperations : Prop :=
  (∀ (s : State) (h : Hdr) (d a : Reg) (hd : Hnd),
     let x := tget Handle.reset s.curTile.handles hd.toNat
     let sheet := s.curBank.task.bind (·.cue)
     let sees := sheet.isSome ∧ sheet = s.sm.playing
     let mode := (tget Port.reset s.curTile.ports x.port).mode
     (NonePending s h [d] → Gives (.cueq h d hd) s h 1 d [] fun _ =>
       if sees ∧ x.st ≠ 0 then
         BitVec.ofNat 64 (x.st % 4 + x.port % 8 * 4 + mode % 4 * 32 +
           (if x.st = 2 then x.dark else if x.st = 1 then x.nextLive else 0) % 2 ^ 48 * 2 ^ 16)
       else 28) ∧
     Decides (.cuewait h hd) s .uni (s.on h)
       ((sheet = none → ∀ k ks, s.active = k :: ks →
           exec (.cuewait h hd) s = .next (s.trapOp cNOCIRC k (BitVec.ofNat 64 hd.toNat) 0)) ∧
         (sees → x.st = 3 → ∀ k ks, s.active = k :: ks →
           exec (.cuewait h hd) s = .next (s.trapOp cNOCIRC k (BitVec.ofNat 64 hd.toNat) 3)) ∧
         (sees → x.st = 2 → Passes (.cuewait h hd) s) ∧
         (sheet.isSome → ¬(sees ∧ (x.st = 2 ∨ x.st = 3)) → Stalls (.cuewait h hd) s)) ∧
     (s.on h = [] → Passes (.cuesel h a) s) ∧
     ∀ k ks, s.on h = k :: ks → (s.startCl k).p a = false →
       exec (.cuesel h a) s = .next (if s.cueselOk ((s.startCl k).reg a) then
         { s with sm := { s.sm with forcing := s.sm.forcing ++ [((s.startCl k).reg a, s.tick + 1)] },
                  iss := { s.iss with res := .ok } }
         else s.trapOp cPROT k ((s.startCl k).reg a) 0)) ∧
  (∀ (s : State) (h : Hdr) (d a : Reg) (k : Fin 4), s.on h = [k] → NonePending s h [a, d] →
     let v := (s.startCl k).reg a
     let x := s.curCore
     let t := s.curTile
     (s.accessesDone s.cur s.active = false → Stalls (.faultack h a) s) ∧
     (s.accessesDone s.cur s.active = true →
       (v.toNat % 32 ≠ 0 → exec (.faultack h a) s = .next (s.trapOp cDALIGN k v 0)) ∧
       (v.toNat % 32 = 0 → v.toNat < 2 ^ 40 → ∀ n q, s.slotQueue v.toNat = some (n, q) →
         exec (.faultack h a) s = .next { s.ackSlot n q v.toNat with iss := { (s.ackSlot n q v.toNat).iss with res := .ok } }) ∧
       (v.toNat % 32 = 0 → 2 ^ 40 ≤ v.toNat ∨ s.slotQueue v.toNat = none →
         exec (.faultack h a) s = .next (s.trapOp cPROT k v 0))) ∧
     ∀ e ∈ ([(0, BitVec.ofNat 64 s.tick), (1, BitVec.ofNat 64 (s.cycles s.cur.tile)), (2, BitVec.ofNat 64 x.done0),
         (3, BitVec.ofNat 64 s.curBank.total), (4, BitVec.ofNat 64 (s.curBank.cycles % 2 ^ 48)), (0x10, x.lsStalls),
         (0x11, x.bubbles), (0x12, x.marker), (0x13, x.markers), (0x14, x.ecc),
         (0x103, BitVec.ofNat 64 (tget 0 x.sems0 3)),
         (0x207, BitVec.ofNat 64 ((tget Arrival.reset t.arrivals 7).value + flagAt 32 (tget Arrival.reset t.arrivals 7).sat)),
         (0x304, (tget Port.reset t.ports 1).erasures), (0x305, (tget Port.reset t.ports 1).corrected),
         (0x306, (tget Port.reset t.ports 1).dropped), (0x320, t.cnt0.combOver), (0x321, t.cnt0.lostSlips),
         (0x322, t.cnt0.migSlips), (0x323, t.cnt0.ecc), (0x324, t.cnt0.hbmEcc), (0x325, t.cnt0.mscHits),
           (0x326, t.cnt0.mscMisses),
         (0x327, t.cnt0.mscAllocs), (0x328, t.cnt0.droppedRecs)] : List (Nat × Word)),
       v.toNat % 2 ^ 16 = e.1 → Gives (.perfrd h d a) s h 1 d [] fun _ => e.2) ∧
  (∀ (s : State) (h : Hdr) (n : BitVec 5) (a : Reg) (k : Fin 4), s.on h = [k] →
     let v := (s.startCl k).reg a
     ((s.startCl k).p a = true → Passes (.hint h n a) s) ∧
     ((s.startCl k).p a = false →
       (n.toNat ∉ [0, 1, 2, 3, 7] → Passes (.hint h n a) s) ∧
       (n = 0 → v.toNat < 12500 → Passes (.hint h n a) s) ∧
       (n = 0 → 12500 ≤ v.toNat → exec (.hint h n a) s = .next
         { s.modTile s.cur.tile fun x => { x with hint0 := true } with iss := { s.iss with res := .ok } }) ∧
       (n = 3 → exec (.hint h n a) s = .next
         { s.modTile s.cur.tile fun x => { x with hint3 := true } with iss := { s.iss with res := .ok } }) ∧
       (n = 1 ∨ n = 2 → Completes (.hint h n a) s fun t =>
         (∀ m c, { t.core m c with tlb := (s.core m c).tlb } = s.core m c) ∧ t.reqs = s.reqs ∧ t.records = s.records) ∧
       (n = 7 → AtCycleEnd (.hint h n a) s [.marker v])))

/-! ### Engines of a core -/

/-- R12: a step of a unit that the module does not have is none: each such row stops as a fault. R226-R228: the first signal
of an engine is added to its semaphore in phase 1; one that would pass 65,535 is held and reported as SEMOVF with semaphore,
increment and engine. What is the model's own choice in it: log entry 55. -/
def Obligations.UnitRangesAndSignals : Prop :=
  (∀ (s : State) (t c n : Nat) (m : BitVec 4) (g : Eng) (f : Bool),
     (16 ≤ t ∨ 16 ≤ c → ∀ i ∈ [Instr.droopBubble t c m, .engineSignal t c g, .matrixWindowEntry t c, .matrixEntryStart t c,
       .matrixEntryComplete t c, .projectionStart t c, .projectionGroup t c, .projectionComplete t c, .courierTake t c,
       .courierPart t c, .courierComplete t c, .cowCopyComplete t c, .portRingTake t c, .bankExchange t c,
       .bankExchangeEnd t c, .taskPlacement t c], exec i s = .fault .noSuchUnit) ∧
     (16 ≤ t ∨ 2 ≤ n ∨ 16 ≤ c → exec (.taskStart t c n) s = .fault .noSuchUnit) ∧
     (16 ≤ t ∨ 32 ≤ n → exec (.atomicUnitStep t n) s = .fault .noSuchUnit) ∧
     (16 ≤ t ∨ 64 ≤ n → ∀ i ∈ [Instr.sendBlock t n, .sendAcknowledged t n], exec i s = .fault .noSuchUnit) ∧
     (16 ≤ t ∨ 80 ≤ n → ∀ i ∈ [Instr.migrationLineCopy t n, .migrationSwitch t n, .migrationArrival t n],
       exec i s = .fault .noSuchUnit) ∧
     (16 ≤ t ∨ 512 ≤ n → exec (.tsmBankStep t n) s = .fault .noSuchUnit) ∧
     (16 ≤ t ∨ 1024 ≤ n → ∀ i ∈ [Instr.combinedSend t n, .combinedReply t n, .combiningEntryTimeout t n],
       exec i s = .fault .noSuchUnit) ∧
     (16 ≤ t → ∀ i ∈ [Instr.calendarSlot t, .frameTableStep t, .firedEntryEnqueue t, .workEntryTimeout t n f],
       exec i s = .fault .noSuchUnit)) ∧
  (∀ (s : State) (t c : Nat) (g : Eng) (k : Sig) (ks : List Sig), t < 16 → c < 16 →
     let x := s.core t c
     sigsOf x g = ⟨k :: ks, false⟩ →
     (tget 0 x.sems k.sem.toNat + k.inc.toNat ≤ 65535 → Steps (.engineSignal t c g) s fun u =>
       let y := u.core t c
       sigsOf y g = ⟨ks, false⟩ ∧ (∀ h, h ≠ g → sigsOf y h = sigsOf x h) ∧ u.records = s.records ∧
       ∀ n, tget 0 y.sems n = if n = k.sem.toNat then tget 0 x.sems n + k.inc.toNat else tget 0 x.sems n) ∧
     (65535 < tget 0 x.sems k.sem.toNat + k.inc.toNat → Steps (.engineSignal t c g) s fun u =>
       let y := u.core t c
       let code := match g with | .matrix => 0 | .proj => 1 | .courier => 2 | .port => 3
       sigsOf y g = ⟨k :: ks, true⟩ ∧ y.sems = x.sems ∧
       (s.route t cSEMOVF 1 false ≠ .drop → ∃ r, u.records = s.records ++ [r] ∧ r.cause = cSEMOVF ∧ r.tile = t ∧
         r.core = c ∧ r.kind = 1 ∧ r.source = 1 + code ∧ r.waiter = .sig t c g ∧
         r.aux = BitVec.ofNat 32 (k.sem.toNat + k.inc.toNat * 2 ^ 8 + code * 2 ^ 12))))

/-- R169, R172, R226, R292: the head of the matrix ring whose wait is met takes the lowest free window slot in a cycle in
which the LS banks of its ring slot are free; the oldest entry whose panels allow it and that conflicts with no older one
starts, its panels BUSY for 128, 16 or 64 cycles; one of a company that is being saved does not. R173, R177, R181: the running
entry whose cycles are over leaves the window, its panels READY and its signal in line. MZERO leaves zero rows and zero tags;
an uncorrectable source, a scale tag of an FP4 one too, leaves every panel as it was, with a record. R49, R176, R178, R179: an
integer element of MMA is the old one plus the sum of the products modulo 2^32; MTRN puts element (i, j) of every square tile
of 64 at (j, i); MCVT to an integer type saturates. -/
def Obligations.MatrixEngine : Prop :=
  (∀ (s : State) (t c n : Nat) (e : Slot) (old new : List MEnt) (m : MEnt), t < 16 → c < 16 →
     let x := s.core t c
     (s.headOf t c .matrix = some e → n < 4 → (∀ o ∈ x.mwin.ents, o.n ≠ n) → (∀ j < n, ∃ o ∈ x.mwin.ents, o.n = j) →
       (¬WaitMet x e → exec (.matrixWindowEntry t c) s = .next s) ∧
       (WaitMet x e → SlotBusy x .matrix → Steps (.matrixWindowEntry t c) s fun u => OnlyBanks x (u.core t c)) ∧
       (WaitMet x e → SlotFree x .matrix → Steps (.matrixWindowEntry t c) s fun u =>
         (u.core t c).mwin = { x.mwin with ents := x.mwin.ents ++ [⟨n, e⟩] } ∧ HeadTaken x (u.core t c) .matrix e ∧
         (u.core t c).pstate = x.pstate ∧ (u.core t c).ls = x.ls)) ∧
     (x.mwin.running = 4 → x.sigs.c0.held = false → x.mwin.ents = old ++ m :: new →
       (∀ pre o post, old = pre ++ o :: post → x.matReady o.e = false ∨ s.coStops t o.e.companyId = true ∨
         ∃ p ∈ pre, matConflict p.e o.e = true) →
       (∀ o ∈ old, matConflict o.e m.e = false) → s.coStops t m.e.companyId = false → x.matReady m.e = true →
         Steps (.matrixEntryStart t c) s fun u =>
         let y := u.core t c
         y.mwin.ents = x.mwin.ents ∧ y.mwin.running = m.n ∧
         y.mwin.remaining = (if m.e.opcode = 0 then 128 else if m.e.opcode = 2 then 16 else 64) ∧
         ∀ p, y.pst p = if p ∈ m.e.matPans then .busy else x.pst p)) ∧
  (∀ (s : State) (t c : Nat) (m : MEnt), t < 16 → c < 16 →
     let x := s.core t c
     x.mwin.remaining = 0 → (x.mwin.ents.find? fun o => o.n == x.mwin.running) = some m →
     Steps (.matrixEntryComplete t c) s fun u =>
       let y := u.core t c
       y.mwin.running = 4 ∧ y.mwin.ents = (x.mwin.ents.filter fun o => o.n != m.n) ∧ Signalled x y .matrix m.e ∧
       (∀ p, y.pst p = if p ∈ m.e.matPans then .ready else x.pst p) ∧
       (∀ p, p ≠ m.e.pd → ∀ r < 64, y.row p r = x.row p r) ∧
       (m.e.opcode = 2 → ∀ r < 64, y.row m.e.pd r = List.replicate 512 0 ∧ y.tagRow m.e.pd r = List.replicate 32 0) ∧
       ((∃ p ∈ m.e.matReads, s.badPanel t c p 64 (m.e.readsTags p) ≠ none) → y.panels = x.panels ∧ y.tags = x.tags)) ∧
  ((∀ (d : Nat) (as bs : List Int), as.length = bs.length → as.length ≤ 2048 →
     (mmaIntElem d as bs).1 = if as = [] then d else wrapTo 32 (intOf true 32 d + (as.zipWith (· * ·) bs).sum)) ∧
   (∀ (x : Core) (e : Slot) (t : Ty) (r l : Nat), Ty.ofCode (e.w0.extractLsb' 0 4) = some t → t.wide →
     r < 64 → l < 4096 / tyWidth t →
     laneAt (tyWidth t) ((mtrnRows x e).getD r []) l = laneAt (tyWidth t) (x.row e.pa (l % 64)) (l / 64 * 64 + r)) ∧
   (∀ (x : Core) (e : Slot) (t : Ty) (r l : Nat), Ty.ofCode (e.w0.extractLsb' 0 4) = some t → tyFmt t = none → tyWidth t = 8 →
     r < 64 → l < 128 →
     laneAt 8 (((mcvtRows x e).1).getD r []) l =
       wrapTo 8 (clampTo t (intOf true 32 (laneAt 32 (x.row e.pa r) l)))))

/-- R188, R190, R197, R239: VPINIT at the head of the projection ring, its wait met, its panel EMPTY or READY, its block
without fault and the LS banks of its slot and block free, starts: the unit holds the entry and its block of 64 bytes and the
panel is BUSY. R188, R195, R198, R201, R204: a running entry goes on group by group, or row by row, while its company is
neither saved nor drained (R192), and once nothing is left it ends: its panels READY, its signal in line, the unit idle for
one cycle. What is the model's own choice in it: log entries 3, 27. -/
def Obligations.ProjectionUnit : Prop :=
  (∀ (s : State) (t c : Nat) (e : Slot), t < 16 → c < 16 →
     let x := s.core t c
     let off := e.w5.toNat
     let par := bytesAt x.ls off 64
     x.proj.busy = false → x.proj.wait = 0 → (s.restored t c fun v => v.proj.isSome) = none →
     s.headOf t c .proj = some e →
     (¬WaitMet x e → exec (.projectionStart t c) s = .next s) ∧
     (WaitMet x e → e.opcode = 0x10 → x.panelIn e.pd [.empty, .ready] = true → off % 64 = 0 → off + 64 ≤ 0x200000 →
       s.badLs t c off 64 = [] → SlotFree x .proj → x.lsUsed &&& lsBanks off 64 = 0 →
       (projCheck e par (initDesc par) (initDesc par) = none → Steps (.projectionStart t c) s fun u =>
         let y := u.core t c
         HeadTaken x y .proj e ∧ y.proj.busy = true ∧ y.proj.e = e ∧ y.proj.par = par ∧
         y.proj.wait = 16 + (initDesc par).nrow ∧ ∀ p, y.pst p = if p = e.pd then .busy else x.pst p) ∧
       (∀ code, projCheck e par (initDesc par) (initDesc par) = some code → Steps (.projectionStart t c) s fun u =>
         HeadTaken x (u.core t c) .proj e ∧ (u.core t c).proj.busy = false ∧ (u.core t c).pstate = x.pstate ∧
         Signalled x (u.core t c) .proj e ∧
         (s.route t cPSHAPE 2 false ≠ .drop → ∃ r, u.records = s.records ++ [r] ∧ r.cause = cPSHAPE ∧ r.kind = 2 ∧
           r.aux = BitVec.ofNat 32 code)))) ∧
  (∀ (s : State) (t c : Nat), t < 16 → c < 16 →
     let x := s.core t c
     x.projRuns = true →
     (s.projStops t x.proj.e = true → x.projDone = false → exec (.projectionGroup t c) s = .next s) ∧
     (x.projDone = false → s.projStops t x.proj.e = false →
       (x.proj.e.opcode = 0x11 → x.proj.reread = false → exec (.projectionGroup t c) s = .next (s.vprojStep t c)) ∧
       (x.proj.e.opcode = 0x12 → exec (.projectionGroup t c) s = .next (s.vpbackStep t c)) ∧
       (x.proj.e.opcode = 0x14 → exec (.projectionGroup t c) s = .next (s.vpemitStep t c)) ∧
       exec (.projectionComplete t c) s = .next s) ∧
     (x.projDone = true → (∀ r ∈ s.reqs, r.who = .engine t c .proj 0 → r.op.writes = false) →
       exec (.projectionGroup t c) s = .next s ∧
       (x.proj.e.opcode = 0x11 ∨ x.proj.e.opcode = 0x14 → Steps (.projectionComplete t c) s fun u =>
         (u.core t c).proj = { Proj.reset with wait := 1 } ∧ Signalled x (u.core t c) .proj x.proj.e ∧
         (u.core t c).panels = x.panels ∧
         ∀ p, (u.core t c).pst p = if p ∈ x.proj.before.map (·.1) then .ready else x.pst p)))

/-- R295, R297, R299: the courier takes the head of its ring when the entry's wait is met and its panels allow it, giving them
their state while it runs; an entry with a count of zero completes at once. R239, R295, R304, R306: one part of CPYZ, or of a
CPYMM whose ranges do not overlap, within the LS: 64 destination bytes up to an aligned border receive zeros or the source's
bytes, every other byte keeps its own; a part whose banks the streams or the projection unit use waits. Once every part is
moved and written the entry ends. What is the model's own choice in it: log entries 3, 28, 29. -/
def Obligations.CourierEngine : Prop :=
  (∀ (s : State) (t c : Nat) (e : Slot), t < 16 → c < 16 →
     let x := s.core t c
     x.cour.busy = false → x.cour.wait = 0 → x.cour.acts = [] → (s.restored t c fun v => v.cour.isSome) = none →
     s.headOf t c .courier = some e →
     ((¬WaitMet x e ∨ ∃ p ∈ e.run, x.panelIn p e.runStates.1 = false) → exec (.courierTake t c) s = .next s) ∧
     (WaitMet x e → (∀ p ∈ e.run, x.panelIn p e.runStates.1 = true) → SlotBusy x .courier →
       Steps (.courierTake t c) s fun u => OnlyBanks x (u.core t c)) ∧
     (WaitMet x e → (∀ p ∈ e.run, x.panelIn p e.runStates.1 = true) → SlotFree x .courier →
       (e.courEmpty = true → Steps (.courierTake t c) s fun u =>
         HeadTaken x (u.core t c) .courier e ∧ Signalled x (u.core t c) .courier e ∧ (u.core t c).cour = x.cour ∧
         (u.core t c).pstate = x.pstate) ∧
       (e.courEmpty = false → Steps (.courierTake t c) s fun u =>
         let y := u.core t c
         HeadTaken x y .courier e ∧ y.cour.busy = true ∧ y.cour.e = e ∧ y.cour.progress = 0 ∧ y.cour.suspended = false ∧
         y.cour.taken = s.tick ∧ ∀ p, y.pst p = if p ∈ e.run then e.runStates.2 else x.pst p))) ∧
  (∀ (s : State) (t c a b : Nat), t < 16 → c < 16 →
     let x := s.core t c
     let r := x.cour
     let n := r.e.w5.toNat % 2 ^ 40
     let i := r.progress
     let lo := if i = 0 then a else (a / 64 + i) * 64
     let hi := min (a + n) ((a / 64 + i + 1) * 64)
     let need := lsBanks lo (hi - lo) ||| if r.e.opcode = 0x22 then lsBanks (b + (lo - a)) (hi - lo) else 0
     r.busy = true → r.suspended = false → r.cow = [] → r.wait = 0 → r.act = false →
     r.e.opcode = 0x25 ∨ r.e.opcode = 0x22 → r.e.w3.toNat = 2 ^ 62 + a → a + n ≤ 0x1FC000 →
     (r.e.opcode = 0x22 → r.e.w4.toNat = 2 ^ 62 + b ∧ b + n ≤ 0x200000 ∧ (a + n ≤ b ∨ b + n ≤ a)) →
     (∀ y m, s.badLs t c y m = []) → s.coStops t r.e.companyId = false → (x.lsEng.get (engIdx .courier)).given = false →
     (0 < n → i < (a + n - 1) / 64 + 1 - a / 64 → (x.lsUsed ||| s.projWants t c) &&& need = 0 →
       Steps (.courierPart t c) s fun u =>
         let y := u.core t c
         y.cour.progress = i + 1 ∧ y.lsUsed = x.lsUsed ||| need ∧
         ∀ j, mget y.ls j =
           if lo ≤ j ∧ j < hi then (if r.e.opcode = 0x25 then 0 else mget x.ls (b + (j - a))) else mget x.ls j) ∧
     (0 < n → i < (a + n - 1) / 64 + 1 - a / 64 → (x.lsUsed ||| s.projWants t c) &&& need ≠ 0 →
       Steps (.courierPart t c) s fun u => OnlyBanks x (u.core t c) ∧ (u.core t c).lsUsed = x.lsUsed ∧
         (u.core t c).lsEng.get (engIdx .courier) = ⟨need, (x.lsEng.get (engIdx .courier)).starve + 1, false⟩) ∧
     (0 < n → i = (a + n - 1) / 64 + 1 - a / 64 → (∀ q ∈ s.reqs, q.who = .engine t c .courier 0 → q.op.writes = false) →
       Steps (.courierComplete t c) s fun u => (u.core t c).cour.busy = false ∧ (u.core t c).ls = x.ls ∧
         Signalled x (u.core t c) .courier r.e))

/-- R405: the courier copies a shared frame line by line, asking up to 16 lines ahead; with the last one it points the block
entry at the copy, takes the writer out of the frame's count and clears its Busy bit, and no cached translation of the entry is
left. R407-R409: a migration to the pool copies its next line when its read has come, then switches, its frame's Mig field 2,
and on its arrival frees its slot and lets its courier go on; a line that the host fabric refuses suspends the courier with
PAGE of tier 1 (R416). What is the model's own choice in it: log entry 30. -/
def Obligations.PageCopies : Prop :=
  (∀ (s : State) (t c : Nat) (w : Cow) (ws : List Cow), t < 16 → c < 16 →
     (s.core t c).cour.cow = w :: ws → (∀ n, (s.tile n).migs = []) → s.bad = [] →
     let who := Who.engine t c .courier 2
     let v := leNat (bytesAt s.hbm (frameEntAddr w.f) 8)
     (s.lineCome who (w.f * 65536 + w.line * 64) = none →
       (w.asked < 1024 → w.asked < w.line + 16 → Steps (.cowCopyComplete t c) s fun u =>
         (u.core t c).cour = { (s.core t c).cour with cow := { w with asked := w.asked + 1 } :: ws } ∧
         ∃ r, u.reqs = s.reqs ++ [r] ∧ r.who = who ∧ r.op = .read 64 ∧ r.loc = .hbm (w.f * 65536 + w.asked * 64)) ∧
       (1024 ≤ w.asked ∨ w.line + 16 ≤ w.asked → exec (.cowCopyComplete t c) s = .next s)) ∧
     ∀ q bs nv, s.lineCome who (w.f * 65536 + w.line * 64) = some q → q.stage = .reply bs nv false → bs.length = 64 →
       w.asked = 1024 →
       (w.line < 1023 → Steps (.cowCopyComplete t c) s fun u =>
         (u.core t c).cour = { (s.core t c).cour with cow := { w with line := w.line + 1 } :: ws } ∧
         (PlainLine s (w.f2 * 65536 + w.line * 64) → u.homeRead (w.f2 * 65536 + w.line * 64) 64 = bs)) ∧
       (w.line = 1023 → Steps (.cowCopyComplete t c) s fun u =>
         (u.core t c).cour = { (s.core t c).cour with cow := ws } ∧
         leNat (bytesAt u.hbm (frameEntAddr w.f) 8) = setField (setField v 0 16 (v % 65536 - 1)) 17 1 0 ∧
         (∀ n < 16, (∀ e ∈ (u.tile n).tlb, e.kind = 1 → e.key ≠ w.ent) ∧
           ∀ d, ∀ e ∈ (u.core n d).tlb, e.kind = 1 → e.key ≠ w.ent) ∧
         (w.ent % 8 = 0 → PlainLine s (w.ent / 64 * 64) → paTile (w.f2 * 65536) ≠ paTile w.ent →
           u.homeWord w.ent / 2 ^ 16 % 2 ^ 36 = (w.f2 + s.cw.identity.toNat % 4096 * 2 ^ 24) % 2 ^ 36))) ∧
  (∀ (s : State) (t n : Nat) (m : Mig), t < 16 → n < 80 → s.migAt t n = some m → m.fromPool = false → m.toPool = true →
     s.migGoes m = true →
     let a := m.f * 65536 + m.line * 64
     (m.phase = 1 → m.line < 1024 → (m.f2 * 1024 + m.line) ∈ s.refused → ∀ t' c', t' < 16 → c' < 16 → m.courier = some (t', c') →
       Steps (.migrationLineCopy t n) s fun u => u.migAt t n = some m ∧ u.pool = s.pool ∧ u.hbm = s.hbm ∧
         (u.core t' c').cour.suspended = true ∧ (s.route t' cPAGE 1 false ≠ .drop → ∃ r, u.records = s.records ++ [r] ∧
           r.cause = cPAGE ∧ r.kind = 1 ∧ r.source = 3 ∧ r.aux.toNat % 4 = 1 ∧ r.waiter = .cour t' c')) ∧
     (m.phase = 1 → m.line < 1024 → s.refused = [] → s.lineCome m.who a = none →
       (m.asked < 1024 → m.asked < m.line + 16 → Steps (.migrationLineCopy t n) s fun u =>
         u.migAt t n = some { m with asked := m.asked + 1 } ∧
         ∃ r, u.reqs = s.reqs ++ [r] ∧ r.who = m.who ∧ r.op = .read 64 ∧ r.loc = .hbm (m.f * 65536 + m.asked * 64)) ∧
       (1024 ≤ m.asked ∨ m.line + 16 ≤ m.asked → exec (.migrationLineCopy t n) s = .next s)) ∧
     (m.phase = 1 → m.line < 1024 → s.refused = [] → ∀ q bs nv, s.lineCome m.who a = some q → q.stage = .reply bs nv false →
       Steps (.migrationLineCopy t n) s fun u => u.migAt t n = some { m with line := m.line + 1 } ∧ u.hbm = s.hbm ∧
         bytesAt u.pool (m.f2 * 65536 + 64 * m.line) 64 = s.stackBytes a 64 ∧
         ∀ b, b < m.f2 * 65536 + 64 * m.line ∨ m.f2 * 65536 + 64 * m.line + 64 ≤ b → mget u.pool b = mget s.pool b) ∧
     (m.phase = 1 → m.line < 1024 → exec (.migrationSwitch t n) s = .next s) ∧
     (m.phase = 1 → m.line = 1024 → s.stepInFrame m.f = true → exec (.migrationSwitch t n) s = .next s) ∧
     (m.phase = 1 → m.line = 1024 → s.stepInFrame m.f = false → Steps (.migrationSwitch t n) s fun u =>
       u.migAt t n = some { m with phase := 2 } ∧ feMig (u.frameEnt m.f) = 2) ∧
     (m.phase = 2 → (∀ r ∈ s.reqs, r.inFrame m.f = false) → ∀ t' c', m.courier = some (t', c') →
       Steps (.migrationArrival t n) s fun u => u.migAt t n = none ∧ (u.core t' c').cour.mig = none ∧
         (u.core t' c').cour.progress = 1))

/-! ### Port engine and memory units -/

/-- R330, R333: the port engine takes a SEND whose queue has room, whose wait is met and whose slot's LS banks are free from
the head of a core's ring and appends it to its handle's queue; else the head stays. R334: a SEND with hold clear on a handle
that is not LIVE suspends its queue with NOCIRC, one on a LIVE handle goes on, and one with hold set waits for the handle.
R333: the transmitting SEND of a LIVE handle sends its next 256 bytes, or what is left, when its port has a block time and the
far end room. R338: a SEND whose bytes are all acknowledged leaves its queue and is complete. What is the model's own choice in
it: log entries 3, 31, 59. -/
def Obligations.PortSending : Prop :=
  (∀ (s : State) (t c : Nat) (e : Slot), t < 16 → c < 16 → (s.tile t).portOrd = [] → (s.tile t).ends = [] →
     s.headOf t c .port = some e → e.opcode = 0x30 → e.w4.toNat % 2 ^ 40 ≠ 0 →
     let x := s.core t c
     let h := e.w0.toNat / 2 ^ 13 % 2 ^ 6
     let q := tget HQ.reset (s.tile t).hq h
     (¬WaitMet x e ∨ 32 ≤ q.send.length → exec (.portRingTake t c) s = .next s) ∧
     (SlotBusy x .port → WaitMet x e → q.send.length < 32 → Steps (.portRingTake t c) s fun u =>
       ringOf (u.core t c) .port = ringOf x .port ∧ (u.tile t).hq = (s.tile t).hq) ∧
     (SlotFree x .port → WaitMet x e → q.send.length < 32 → Steps (.portRingTake t c) s fun u =>
       HeadTaken x (u.core t c) .port e ∧
       ∃ p, (tget HQ.reset (u.tile t).hq h).send.length = q.send.length + 1 ∧
         (tget HQ.reset (u.tile t).hq h).send.getLast? = some p ∧ p.kind = 0 ∧ p.core = c ∧ p.addr = e.w3 ∧
         p.cnt = e.w4.toNat % 2 ^ 40 ∧ p.hold = e.w0.getLsbD 2 ∧ p.acked = 0 ∧ p.sentAll = false)) ∧
  (∀ (s : State) (t h : Nat) (e : PEnt) (es : List PEnt), t < 16 → h < 64 →
     let q := tget HQ.reset (s.tile t).hq h
     let x := tget Handle.reset (s.tile t).handles h
     let live := x.st = 2 ∧ e.cue.isSome ∧ e.cue = s.sm.playing
     let n := min 256 (e.cnt - q.prog)
     let becomes := fun (u : State) (f : PEnt → PEnt) =>
       u.blocks = s.blocks ∧
         (tget HQ.reset (u.tile t).hq h).send = q.send.map fun y => if y.id = e.id then f y else y
     (∀ b ∈ s.blocks, b.again = false) → q.send = e :: es → e.sentAll = false → s.coStops t e.company = false →
     s.engHeld t 0 .port = false →
     (∀ y ∈ q.send, y.waits = false ∧ y.kind = 0 ∧ 2 ^ 62 ≤ y.addr.toNat ∧ y.addr.toNat < 2 ^ 63) →
     (e.hold = false → e.asked = false → ¬live → Steps (.sendBlock t h) s fun u =>
       becomes u (fun y => { y with waits := true }) ∧
       (s.route t cNOCIRC 1 false ≠ .drop → ∃ r, u.records = s.records ++ [r] ∧ r.cause = cNOCIRC ∧ r.kind = 1 ∧
         r.source = 4 ∧ r.addr = BitVec.ofNat 64 h ∧ r.waiter = .send t h e.id)) ∧
     (e.hold = false → e.asked = false → live → Steps (.sendBlock t h) s fun u =>
       becomes u fun y => { y with asked := true }) ∧
     (e.hold = true → e.cnt ≠ 0 → ¬live → exec (.sendBlock t h) s = .next s) ∧
     (∀ a t' h' slow, e.hold = true → live → e.relay = false → e.sync = false → q.prog < e.cnt → e.headTick.isSome →
       e.addr.toNat = 2 ^ 62 + a → a + q.prog + n ≤ 0x200000 → s.badLs t e.core (a + q.prog) n = [] →
       s.farEnd t h = .tile t' h' [] slow → s.heldAt t' h' = false → n ≤ s.recvRoom t' h' →
       s.timesLeft [(t, x.port)] slow = true → s.beforeBreak x slow = true → Steps (.sendBlock t h) s fun u =>
         (∃ d, s.quantum < d ∧ u.blocks = s.blocks ++ [{ Block.blank with
           id := s.nextId, tile := t', handle := h', due := d, src := some (t, h, e.id),
           data := bytesAt (s.core t e.core).ls (a + q.prog) n }]) ∧
         (s.port t x.port).sent s.tick + 1 = (u.port t x.port).sent s.tick ∧
         (q.prog + n < e.cnt → (tget HQ.reset (u.tile t).hq h).prog = q.prog + n) ∧
         ∃ y ∈ (tget HQ.reset (u.tile t).hq h).send, y.id = e.id ∧ y.sentAll = decide (e.cnt ≤ q.prog + n))) ∧
  (∀ (s : State) (t h : Nat) (e : PEnt) (es : List PEnt), t < 16 → h < 64 →
     (tget HQ.reset (s.tile t).hq h).send = e :: es → s.acks = [] → e.kind = 0 → e.sentAll = true → e.cnt ≤ e.acked →
     e.waits = false → e.fin = none → Steps (.sendAcknowledged t h) s fun u =>
       (∀ y ∈ (tget HQ.reset (u.tile t).hq h).send, y.id ≠ e.id) ∧
       (u.tile t).portOrd = (s.tile t).portOrd.map fun o => if o.id = e.id then { o with done := true } else o)

/-- R335: a SEND block that has arrived fills the first RECV of its handle in the LS of its core. R282, R338: once its bytes
have been performed it is acknowledged, and the RECVs that it filled up are complete. An acknowledgement adds the bytes it
names to its entry. R230, R231, R282, R340: a packet for a line of the TSM asks for the write of its data; once that has been
performed it adds its increment to its arrival counter and is acknowledged. R343, R344: the first fired entry enters its
handle's queue when that has room and the engine is not suspended; an armed slot whose timeout has passed is freed and its
entry ends with status 1, and so does the transmitting entry. What is the model's own choice in it: log entries 3, 31. -/
def Obligations.PortDelivery : Prop :=
  (∀ (s : State) (b : Block) (bs : List Block) (e : PEnt) (es : List PEnt) (a : Nat) (k : Ack),
     let q := tget HQ.reset (s.tile b.tile).hq b.handle
     let n := min b.data.length (e.cnt - q.fill)
     let x := s.core b.tile e.core
     let here := s.blocks = b :: bs ∧ (∀ y ∈ bs, y.id ≠ b.id) ∧ b.tile < 16 ∧ b.again = false ∧ b.due ≤ s.quantum ∧
       b.kind = 0 ∧ b.dropped = false ∧ b.red = none
     (here → b.put = 0 → b.data ≠ [] → q.recv = e :: es → q.rsusp = false → e.addr.toNat = 2 ^ 62 + a →
       a + q.fill + n ≤ 0x1FC000 → s.badLs b.tile e.core (a + q.fill) n = [] →
       Steps (.blockArrival b.id) s fun u =>
         let p := tget HQ.reset (u.tile b.tile).hq b.handle
         (∀ j, mget (u.core b.tile e.core).ls j =
           if a + q.fill ≤ j ∧ j < a + q.fill + n then b.data.getD (j - (a + q.fill)) 0 else mget x.ls j) ∧
         (e.cnt ≤ q.fill + n → p.recv = es ∧
           u.blocks = { b with put := n, fills := b.fills ++ [(e.core, e.id)] } :: bs) ∧
         (q.fill + n < e.cnt → p.recv = e :: es ∧ p.fill = q.fill + n ∧ u.blocks = { b with put := n } :: bs)) ∧
     (here → b.data.length ≤ b.put → s.reqs = [] → Steps (.blockArrival b.id) s fun u =>
       u.blocks = bs ∧
       (u.tile b.tile).portOrd = ((s.tile b.tile).portOrd.map fun o =>
         if o.id ∈ b.fills.map (·.2) then { o with done := true } else o) ∧
       ∀ st sh se, b.src = some (st, sh, se) →
         ∃ d, u.acks = s.acks ++ [⟨b.tile, st, sh, se, b.data.length, d⟩] ∧ s.quantum < d) ∧
     (k.tile < 16 → k.handle < 64 → k.at_ = k.tile → s.acks = [k] → k.due ≤ s.quantum → (∀ y ∈ s.blocks, y.tile ≠ 16) →
       Steps (.sendAcknowledged k.tile k.handle) s fun u => u.acks = [] ∧ u.blocks = s.blocks ∧
         (tget HQ.reset (u.tile k.tile).hq k.handle).send = (tget HQ.reset (s.tile k.tile).hq k.handle).send.map fun y =>
           if y.id = k.ent then { y with acked := y.acked + k.bytes } else y)) ∧
  (∀ (s : State) (b : Block) (bs : List Block) (a : Nat), s.blocks = b :: bs → (∀ y ∈ bs, y.id ≠ b.id) → b.tile < 16 →
     b.again = false → b.due ≤ s.quantum → b.kind = 1 → b.dropped = false → b.toRelay = false → b.red = none →
     b.data ≠ [] → b.dst.toNat = 2 ^ 63 + a → a + b.off + b.data.length ≤ 0x4000000 →
     (a + b.off) % 64 + b.data.length ≤ 64 → (s.tile b.tile).armed = [] →
     let v := tget Arrival.reset (s.tile b.tile).arrivals b.ctr
     (b.put = 0 → Steps (.packetArrival b.id) s fun u =>
       (∃ r, u.reqs = s.reqs ++ [r] ∧ r.op = .write b.data ∧ r.loc = .tsm b.tile (a + b.off) ∧
         r.who = .engine b.tile 16 .port b.id ∧ s.quantum < r.due) ∧
       u.blocks = { b with put := b.data.length } :: bs ∧ (u.tile b.tile).arrivals = (s.tile b.tile).arrivals ∧
       u.acks = s.acks) ∧
     (b.put = b.data.length → s.reqs = [] → Steps (.packetArrival b.id) s fun u =>
       (∀ n, tget Arrival.reset (u.tile b.tile).arrivals n =
         if n = b.ctr then ⟨min (v.value + b.inc) (2 ^ 32 - 1), v.sat || decide (2 ^ 32 - 1 < v.value + b.inc)⟩
         else tget Arrival.reset (s.tile b.tile).arrivals n) ∧
       u.blocks = bs ∧
       ∀ st sh se, b.src = some (st, sh, se) → ∃ d, u.acks = s.acks ++ [⟨b.tile, st, sh, se, b.data.length, d⟩])) ∧
  (∀ (s : State) (t n h k : Nat) (f : Fired) (fs : List Fired) (a : Armed) (e : PEnt) (es : List PEnt), t < 16 →
     let q := fun (s : State) => (tget HQ.reset (s.tile t).hq f.handle).send
     ((s.tile t).execq = f :: fs →
       (32 ≤ (q s).length ∨ s.engHeld t 0 .port = true → exec (.firedEntryEnqueue t) s = .next s) ∧
       ((q s).length < 32 → s.engHeld t 0 .port = false → Steps (.firedEntryEnqueue t) s fun u =>
         (u.tile t).execq = fs ∧ (q u).map (·.id) = (q s).map (·.id) ++ [f.e.id])) ∧
     ((s.tile t).armed.find? (fun e => e.1 == n) = some (n, a) →
       (a.timeout = 0 ∨ s.tick < a.tick + a.timeout → exec (.workEntryTimeout t n true) s = .next s) ∧
       (a.timeout ≠ 0 → a.tick + a.timeout ≤ s.tick → Steps (.workEntryTimeout t n true) s fun u =>
         (∀ e ∈ (u.tile t).armed, e.1 ≠ n) ∧ (u.tile t).arrivals = (s.tile t).arrivals ∧
         ∃ p, (u.tile t).ends = (s.tile t).ends ++ [p] ∧ p.core = a.core ∧ p.fin = some 1)) ∧
     ((tget HQ.reset (s.tile t).hq h).send = e :: es → e.kind = 1 ∨ e.kind = 2 → e.headTick = some k → e.fin = none →
       e.timeout ≠ 0 → k + e.timeout ≤ s.tick → e.w 6 = 0 → Steps (.workEntryTimeout t h false) s fun u =>
         (∀ y ∈ (tget HQ.reset (u.tile t).hq h).send, y.id ≠ e.id) ∧
         (u.tile t).portOrd = (s.tile t).portOrd.map fun o => if o.id = e.id then { o with done := true } else o))

/-- R241, R242, R261: a TSM bank that has performed nothing in the cycle performs the one request that is ready at it: a read
answers the bytes, a write replaces them and no other, an atomic answers the old value and writes the new one; the other
memories are as before; one that has performed an operation performs no second. R244-R246, R359, R360: a router passes a posted
write of its own tile to its home, where it is at once what a read gives; a calendar slot stores a queued write, and serves a
read, whose data follows 112 ns later, when none overlaps it; a base-die unit performs an atomic that a slot has passed to it on
the stack's bytes. R248: the filters are cleared every 6,400 ticks. What is the model's own choice in it: log entries 3, 16. -/
def Obligations.TsmAndHomeUnits : Prop :=
  (∀ (s : State) (t b a : Nat) (r : Req), t < 16 → b < 512 → s.reqs = [r] → s.tsmReady t b r = true → r.loc = .tsm t a →
     a < 0x4000000 → a + r.op.size ≤ 0x4000000 → 4096 * 64 ≤ a → s.bad = [] →
     let old := bytesAt (s.tile t).tsm a r.op.size
     let writes := fun (u : State) (bs : List Byte) => ∀ j, mget (u.tile t).tsm j =
       if a ≤ j ∧ j < a + bs.length then bs.getD (j - a) 0 else mget (s.tile t).tsm j
     let others := fun (u : State) =>
       u.hbm = s.hbm ∧ (∀ n, n ≠ t → (u.tile n).tsm = (s.tile n).tsm) ∧ ∀ n c, u.core n c = s.core n c
     ((s.tile t).bankUsed.contains b = true → exec (.tsmBankStep t b) s = .next s) ∧
     ((s.tile t).bankUsed.contains b = false →
       (∀ n, r.op = .read n → Steps (.tsmBankStep t b) s fun u =>
         (u.tile t).tsm = (s.tile t).tsm ∧ others u ∧ Answered s u r old false false) ∧
       (∀ bs, r.op = .write bs → Steps (.tsmBankStep t b) s fun u =>
         writes u bs ∧ others u ∧ Answered s u r [] false false) ∧
       (∀ op sz x y, r.op = .atom op sz x y →
         let w := 8 * sizBytes sz
         let res := atomStep op sz (leNat old) (x.toNat % 2 ^ w) (y.toNat % 2 ^ w)
         Steps (.tsmBankStep t b) s fun u => others u ∧
           writes u (match res.1 with | some v => leBytes (sizBytes sz) v | none => old) ∧
           Answered s u r old (res.2 &&& fNV != 0) false ∧
           tget 0 (u.tile t).bankFlags b = tget 0 (s.tile t).bankFlags b ||| res.2))) ∧
  (∀ (s : State) (r : Req) (a : Nat) (w : WEnt),
     let t := paTile a
     (s.reqs = [r] → r.loc = .hbm a → a % 64 + r.op.size ≤ 64 → PlainLine s (a / 64 * 64) →
       (∀ bs, r.op = .write bs → r.stage = .wait → r.due ≤ s.quantum → r.comb = false → r.from = t → 0 < bs.length →
         Steps (.routerRequest r.id) s fun u => u.homeRead a bs.length = bs ∧ Answered s u r [] false false ∧
           ∀ n c, u.core n c = s.core n c) ∧
       (∀ n, r.op = .read n → r.stage = .home → r.due ≤ s.quantum → r.alloc = false → 0 < n → (s.tile t).wq = [] →
         (s.tile t).calNext = none → (∀ e ∈ (s.tile t).msc, e.1 ≠ a % 2 ^ 36 / 64) →
         Steps (.calendarSlot t) s fun u => u.hbm = s.hbm ∧ Answered s u r (bytesAt s.hbm a n) false false ∧
           ∀ q, u.findReq r.id = some q → s.quantum + 140 ≤ q.due) ∧
       (∀ op sz x y, r.op = .atom op sz x y → r.stage = .unit → r.cell = none →
         let n := sizBytes sz
         let old := bytesAt s.hbm a n
         let res := atomStep op sz (leNat old) (x.toNat % 2 ^ (8 * n)) (y.toNat % 2 ^ (8 * n))
         let new := match res.1 with | some v => leBytes n v | none => old
         Steps (.atomicUnitStep t (a / 512 % 32)) s fun u =>
           Answered s u r old (res.2 &&& fNV != 0) false ∧
           ∀ j, mget u.hbm j = if a ≤ j ∧ j < a + n then new.getD (j - a) 0 else mget s.hbm j)) ∧
     ((s.tile (paTile w.addr)).wq = [w] → w.due ≤ s.quantum → s.reqs = [] → (s.tile (paTile w.addr)).calNext = none →
       Steps (.calendarSlot (paTile w.addr)) s fun u => (u.tile (paTile w.addr)).wq = [] ∧
         ∀ j, mget u.hbm j =
           if w.addr ≤ j ∧ j < w.addr + w.data.length then w.data.getD (j - w.addr) 0 else mget s.hbm j) ∧
     (exec .mscFilterClear s = .next (if s.tick % 6400 = 0 then s.allTiles fun x => { x with bloom := [] } else s)))

/-- R385-R394: a combinable atomic joins an open entry of its address, operation and size, which keeps the sum so far as the
slip's prefix and the port by which it came, or opens one with the sum of 0 and its operand; once it can leave, a single one
passes on uncombined, several as one request of their sum; each slip's reply is the reply's value combined with its prefix. An
entry without a reply for 2^17 ticks is freed without a record, and its requesters time out: the deferred fault. What is the
model's own choice in it: log entries 3, 32. -/
def Obligations.Combining : Prop :=
  ∀ (s : State) (t n : Nat) (r : Req) (e : CEnt) (op : AOp) (sz : Siz) (x y : Word) (k : Slip) (ks : List Slip), t < 16 →
    n < 1024 →
    let tab := fun (s : State) => (s.tile t).comb
    (s.findReq r.id = some r → r.stage = .router t → r.op = .atom op sz x y → r.due ≤ s.quantum → s.bad = [] →
      ((tab s).find? (fun z => z.2.takes r (s.fabric r.loc)) = some (n, e) → Steps (.combineArrival r.id) s fun u =>
        tget e (tab u) n = { e with slips := e.slips ++ [⟨r.id, r.input, e.acc⟩], acc := combAdd e.afadd e.sz e.acc x }) ∧
      ((tab s) = [] → Steps (.combineArrival r.id) s fun u => ∃ z, tab u = [(0, z)] ∧ z.sent = false ∧
        z.acc = combAdd (op == .fadd) sz 0 x ∧ z.addr = s.fabric r.loc ∧ z.slips = [⟨r.id, r.input, 0⟩])) ∧
    ((tab s).find? (fun z => z.1 == n) = some (n, e) → e.slips = k :: ks →
      (s.findReq k.req = some r → e.sent = false → r.due ≤ s.quantum → s.bad = [] →
        (s.canLeave r t = false → exec (.combinedSend t n) s = .next s) ∧
        (s.canLeave r t = true → ks = [] → Steps (.combinedSend t n) s fun u =>
          (∀ z ∈ tab u, z.1 ≠ n) ∧ u.nextId = s.nextId) ∧
        (s.canLeave r t = true → ks ≠ [] → Steps (.combinedSend t n) s fun u => u.nextId = s.nextId + 1 ∧
          (tget e (tab u) n).sent = true ∧ (tget e (tab u) n).merged = s.nextId)) ∧
      (e.sent = true → s.tick < e.sentTick + 2 ^ 17 → exec (.combiningEntryTimeout t n) s = .next s) ∧
      (e.sent = true → e.sentTick + 2 ^ 17 ≤ s.tick → s.mergedReply t n = none →
        Steps (.combiningEntryTimeout t n) s fun u => (∀ z ∈ tab u, z.1 ≠ n) ∧ u.records = s.records ∧
          ∀ l ∈ e.slips, ∀ q i d, s.findReq l.req = some q → q.who = .stream i → q.dst = .atom d → d ≠ 0 → q.comb = true →
            q.drop = false → q.tick + 2 ^ 17 ≤ s.tick → Steps (.atomicReplyTimeout l.req) u fun v =>
              (v.cl i).reg d = 0 ∧ (v.cl i).d d = true ∧ (v.cl i).p d = false) ∧
      (∀ v nv bad, e.sent = true → e.merged = r.id → s.mergedReply t n = some (r, v, nv, bad) → e.nextSlip = 0 → ks ≠ [] →
        s.bad = [] → (∀ q, s.findReq k.req = some q → q.drop = false) → k.req ≠ r.id →
        Steps (.combinedReply t n) s fun u => (tget e (tab u) n).nextSlip = 1 ∧
          ∀ q, u.findReq k.req = some q → q.stage = .reply (leBytes (sizBytes e.sz) v.toNat) nv bad))

/-- R402, R403, R413: the frame-table unit answers a frame's entry, adds to its count unless it would leave 16 bits, or sets
its copy-on-write bit; a busy frame waits for the last two. It pushes an unused frame behind the others of its tile's free list,
and pops the frame at the head; a push of another frame or to a full list is refused, and an empty list gives 0. A shootdown
drops every cached translation that names the frame. R413, R417: a Frame step write performs one frame-table step at the frame's
home and leaves its result; one that names no frame of the module performs none, one on a busy frame is tried again in the next
tick, and a shootdown waits for the accesses to the frame that were translated before it. What is the model's own choice in it:
log entries 44, 74. -/
def Obligations.FrameTable : Prop :=
  (∀ (s : State) (r : Req) (op f : Nat) (b : Word) (loc : Nat), s.reqs = [r] → r.loc = .hbm loc → r.op = .frame op f b →
     r.stage = .home → r.due ≤ s.quantum → f < 2 ^ 24 →
     let v := leNat (bytesAt s.hbm (frameEntAddr f) 8)
     let entry := fun (u : State) => leNat (bytesAt u.hbm (frameEntAddr f) 8)
     let busy := v / 2 ^ 17 % 2 = 1 ∨ v / 2 ^ 18 % 4 ≠ 0
     let row := Instr.frameTableStep (f / 2 ^ 20 % 16)
     let count := (v % 65536 : Nat) + (b.extractLsb' 0 16).toInt
     (op = 0 → Steps row s fun u => u.hbm = s.hbm ∧ Answered s u r (leBytes 8 v) false false) ∧
     (op = 1 → busy → exec row s = .next s) ∧
     (op = 1 → ¬busy → 0 ≤ count → count ≤ 65535 → Steps row s fun u =>
       entry u = v / 65536 * 65536 + count.toNat ∧ Answered s u r (leBytes 8 v) false false) ∧
     (op = 1 → ¬busy → count < 0 ∨ 65535 < count → Steps row s fun u =>
       u.hbm = s.hbm ∧ Answered s u r (leBytes 8 (v + 2 ^ 63)) false false) ∧
     (op = 2 → busy → exec row s = .next s) ∧
     (op = 2 → ¬busy → Steps row s fun u =>
       entry u = setField v 16 1 (if b.getLsbD 0 then 1 else 0) ∧ Answered s u r (leBytes 8 v) false false) ∧
     let t := f / 2 ^ 20 % 16
     let x := s.tile t
     (op = 3 → v % 65536 = 0 → v / 2 ^ 20 % 2 = 0 → ¬busy → x.freeCount ≠ 2 ^ 20 → Steps row s fun u =>
       entry u = setField v 20 1 1 ∧ (u.tile t).freeCount = x.freeCount + 1 ∧ (u.tile t).freeHead = x.freeHead ∧
         leNat (bytesAt u.hbm (t * 2 ^ 36 + 0xFFF800000 + 4 * ((x.freeHead + x.freeCount) % 2 ^ 20)) 4) = f % 2 ^ 20 ∧
         Answered s u r (leBytes 8 (x.freeCount + 1)) false false) ∧
     (op = 3 → v % 65536 ≠ 0 ∨ v / 2 ^ 20 % 2 = 1 ∨ busy ∨ x.freeCount = 2 ^ 20 → Steps row s fun u =>
       u.hbm = s.hbm ∧ (u.tile t).freeCount = x.freeCount ∧ Answered s u r (leBytes 8 (x.freeCount + 2 ^ 63)) false false) ∧
     (op = 5 → Steps row s fun u => u.hbm = s.hbm ∧ Answered s u r (leBytes 8 0) false false ∧
       ∀ n < 16, (∀ e ∈ (u.tile n).tlb, e.names (f + s.moduleId * 2 ^ 24) = false) ∧
         ∀ c, ∀ e ∈ (u.core n c).tlb, e.names (f + s.moduleId * 2 ^ 24) = false) ∧
     (op = 4 →
       let y := s.tile (f % 16)
       let g := f % 16 * 2 ^ 20 + leNat (bytesAt s.hbm (f % 16 * 2 ^ 36 + 0xFFF800000 + 4 * y.freeHead) 4) % 2 ^ 20
       (y.freeCount = 0 → Steps (.frameTableStep (f % 16)) s fun u =>
         u.hbm = s.hbm ∧ Answered s u r (leBytes 8 0) false false) ∧
       (y.freeCount ≠ 0 → Steps (.frameTableStep (f % 16)) s fun u =>
         (u.tile (f % 16)).freeHead = (y.freeHead + 1) % 2 ^ 20 ∧ (u.tile (f % 16)).freeCount = y.freeCount - 1 ∧
           leNat (bytesAt u.hbm (frameEntAddr g) 8) % 2 ^ 17 = 1 ∧ leNat (bytesAt u.hbm (frameEntAddr g) 8) / 2 ^ 20 % 2 = 0 ∧
           Answered s u r (leBytes 8 ((g + s.moduleId * 2 ^ 24) * 65536)) false false))) ∧
  (∀ (s : State) (op f n : Nat) (a b : Word) (u : State) (i : Instr),
     let v := a &&& 0xFFFFFFFFFFFFF
     let noted : State := { s with cw := { s.cw with frame := v ||| BitVec.ofNat 64 (op * 2 ^ 52), frameB := b &&& 0xFFFF } }
     (op, i) ∈ [(0, Instr.hostFrameRead a b), (1, .hostFrameAdjust a b), (2, .hostFrameFlags a b), (3, .hostFramePush a b),
       (4, .hostFramePop a b), (5, .hostFrameShoot a b)] →
     (s.cw.stage ≠ 8 → exec i s = .next s) ∧
     (s.cw.stage = 8 → op ≠ 4 → v.toNat % 65536 ≠ 0 ∨ v.toNat / 2 ^ 40 ≠ s.moduleId ∨ 0xFFF000000 ≤ v.toNat % 2 ^ 36 →
       exec i s = .next noted) ∧
     (s.cw.stage = 8 → noted.frameArg op v = some f →
       (noted.frameStep op f (b &&& 0xFFFF) = some (n, u) → (op = 5 → ∀ q ∈ s.reqs, q.inFrame f = false) →
         exec i s = .next { u with cw := { u.cw with frameR := BitVec.ofNat 64 n } }) ∧
       (noted.frameStep op f (b &&& 0xFFFF) = none → Steps i s fun u =>
         u.hbm = s.hbm ∧ u.inputs = (s.tick + 1, .frame op v (b &&& 0xFFFF) 0) :: s.inputs) ∧
       (op = 5 → (∃ q ∈ s.reqs, q.id < s.nextId ∧ q.inFrame f = true) → Steps i s fun u =>
         u.cw.frameR = s.cw.frameR ∧ u.inputs = (s.tick + 1, .frame op v (b &&& 0xFFFF) s.nextId) :: s.inputs) ∧
       (op = 0 → Steps i s fun u => u.hbm = s.hbm ∧
         u.cw.frameR = BitVec.ofNat 64 (leNat (bytesAt s.hbm (frameEntAddr f) 8)))))

/-- R90, R97, R216, R257, R262, R392: the data of a long load, or an atomic's old value, reaches its register, which is no
longer pending and not deferred; a speculative load of uncorrectable data, and a combinable atomic without a reply for 2^17
ticks, leave the deferred fault. R94-R96: a result whose cycles are over lands: it writes its register with the D bit,
predicate, panel or tag bytes, and raises its flags; s0 and predicate 0 take nothing, and everything else is as before. What
is the model's own choice in it: log entry 54. -/
def Obligations.RepliesAndResults : Prop :=
  (∀ (s : State) (r : Req) (i : StreamId) (bs : List Byte) (nv bad : Bool) (l : LoadRec) (d : Reg),
     s.findReq r.id = some r → r.who = .stream i → r.drop = false →
     let deferred := fun (u : State) (d : Reg) =>
       d ≠ 0 → (u.cl i).reg d = 0 ∧ (u.cl i).d d = true ∧ (u.cl i).p d = false
     let arrives := fun (u : State) (d : Reg) (v : Word) =>
       (d ≠ 0 → (u.cl i).reg d = v ∧ (u.cl i).d d = false ∧ (u.cl i).p d = false) ∧ (u.cl i).reg 0 = 0 ∧
         (∀ x, x ≠ d → (u.cl i).reg x = (s.cl i).reg x) ∧ (∀ q ∈ u.reqs, q.id ≠ r.id)
     (r.stage = .reply bs nv bad → r.due ≤ s.quantum →
       (r.dst = .load l ∨ r.dst = .spec l → bad = false →
         Steps (.longLoadReturn r.id) s fun u => arrives u l.d (loadedAs l.sz bs)) ∧
       (r.dst = .spec l → bad = true → Steps (.longLoadReturn r.id) s fun u => deferred u l.d) ∧
       (r.dst = .atom d → bad = false → Steps (.atomicReply r.id) s fun u =>
         arrives u d (BitVec.ofNat 64 (leNat bs)) ∧ (u.cl i).fstat = (s.cl i).fstat ||| if nv then fNV else 0) ∧
       (r.dst = .atom d → bad = true → Steps (.atomicReply r.id) s fun u => deferred u d)) ∧
     (r.dst = .atom d → r.comb = true → r.tick + 2 ^ 17 ≤ s.tick → Steps (.atomicReplyTimeout r.id) s fun u => deferred u d) ∧
     (r.dst = .atom d → s.tick < r.tick + 2 ^ 17 → exec (.atomicReplyTimeout r.id) s = .next s)) ∧
  (∀ (s : State) (i : StreamId) (dst : FDst) (fl : BitVec 5) (n : Nat) (rest : List Flight),
     (s.cl i).flights = ⟨0, dst, fl, n⟩ :: rest → (∀ f ∈ rest, f.left ≠ 0) → (∀ l, dst ≠ .lost l) → s.bad = [] →
     Steps (.resultWriteback i) s fun u =>
       let c := s.cl i
       let d := u.cl i
       let x := s.core i.tile i.core
       let y := u.core i.tile i.core
       { u with tiles := s.tiles } = s ∧ (∀ n, { u.tile n with cores := (s.tile n).cores } = s.tile n) ∧
       (∀ j : StreamId, (j.tile = i.tile ∧ j.core = i.core ∧ (j.bank = 0 ↔ i.bank = 0) ∧ j.cl = i.cl) ∨ u.cl j = s.cl j) ∧
       d.flights = rest ∧ d.fstat = c.fstat ||| fl ∧ d.pc = c.pc ∧ d.pbits = c.pbits ∧
       (∀ r, d.reg r = match dst with | .reg q v _ => if r = q ∧ q ≠ 0 then v else c.reg r | _ => c.reg r) ∧
       (∀ r, d.d r = match dst with
         | .reg q _ e => if r = q ∧ q ≠ 0 then e else c.d r
         | .clearD q => if r = q then false else c.d r
         | _ => c.d r) ∧
       (∀ q, d.q q = match dst with | .pred p v => if q = p ∧ p ≠ 0 then v else c.q q | _ => c.q q) ∧
       (∀ a, mget y.panels a = match dst with
         | .row p r off bs => if panAddr p r + off ≤ a ∧ a < panAddr p r + off + bs.length
           then bs.getD (a - (panAddr p r + off)) 0 else mget x.panels a
         | _ => mget x.panels a) ∧
       (∀ a, mget y.tags a = match dst with
         | .tag p r off bs => if tagAddr p r + off ≤ a ∧ a < tagAddr p r + off + bs.length
           then bs.getD (a - (tagAddr p r + off)) 0 else mget x.tags a
         | _ => mget x.tags a) ∧
       y.ls = x.ls ∧ y.sems = x.sems ∧ y.pstate = x.pstate)

/-! ### Scheduling -/

/-- R27, R28, R211: a droop bubble is noted for the clusters of the foreground bank that it names and counted once; the banks
of a core exchange exactly when the foreground one gives way and the other holds a stream that can run, the exchange lasts 16
cycles, and nothing else changes. What is the model's own choice in it: log entry 34. -/
def Obligations.BubblesAndExchanges : Prop :=
  ∀ (s : State) (t c : Nat) (m : BitVec 4), t < 16 → c < 16 →
    let x := s.core t c
    let f := x.fg % 2
    let g := fun (k : Fin 4) (q : Cluster) => if m.getLsbD k.val then { q with bubbles := q.bubbles + 1 } else q
    (m = 0 → exec (.droopBubble t c m) s = .next s) ∧
    (m ≠ 0 → Steps (.droopBubble t c m) s fun u => CoreBecomes s u t c
      { x.modBank f fun b => { b with cl := ⟨g 0 b.cl.c0, g 1 b.cl.c1, g 2 b.cl.c2, g 3 b.cl.c3⟩ } with
        bubbles := x.bubbles + 1 }) ∧
    (x.exch = 0 ∧ GivesWay (x.bank f) ∧ Able (x.bank (1 - f)) → Steps (.bankExchange t c) s fun u => CoreBecomes s u t c
      { x with fg := 1 - f, xcnt := (x.xcnt + 1) % 2 ^ 32, exch := 16 }) ∧
    (¬(x.exch = 0 ∧ GivesWay (x.bank f) ∧ Able (x.bank (1 - f))) → exec (.bankExchange t c) s = .next s) ∧
    (x.exch = 1 → Steps (.bankExchangeEnd t c) s fun u => CoreBecomes s u t c { x with exch := 0 }) ∧
    (x.exch ≠ 1 → exec (.bankExchangeEnd t c) s = .next s)

/-- R30, R312, R314: the first ready entry of a core, by priority, tick and order, takes its free bank, with the registers,
entry point, privilege and seed of a new task; it starts once its state is loaded. An entry that stands ready gains one
priority every 2^16 ticks, to at most 3. R30, R315, R316, R323: a registration waits under its key, or takes a pending post
and is released at once as a ready entry of its core, at its company's priority; a post releases the oldest waiter of its key,
or is counted up to 65,535. Other keys are as before. What is the model's own choice in it: log entries 3, 35. -/
def Obligations.TaskScheduling : Prop :=
  (∀ (s : State) (t c b : Nat) (e : TaskEnt) (l : Launch), t < 16 → c < 16 →
     let x := s.core t c
     let ready := (s.tile t).ready
     ((∀ f ∈ ready, f.core ≠ c) ∨ (x.b0.occ = true ∧ x.b1.occ = true) → exec (.taskPlacement t c) s = .next s) ∧
     (e ∈ ready → e.core = c → e.kind = 0 → s.launches = [l] → l.id = e.launch → s.companies.all (fun o => o.preempt == 0) →
       (∀ f ∈ ready, f.core = c → f ≠ e → placedBefore e f) → TakesTask x b →
       Steps (.taskPlacement t c) s fun u =>
         let n := (u.core t c).bank b
         (u.tile t).ready = ready.erase e ∧ (u.core t c).bank (1 - b) = x.bank (1 - b) ∧ (u.core t c).fg = x.fg ∧
         n.occ = true ∧ n.started = false ∧ n.joined = true ∧ n.taskid = BitVec.ofNat 32 e.taskid ∧ n.done = 0 ∧
         ∀ k, let q := n.cl.get k
           q.pc = BitVec.ofNat 64 (recField l.recd 0 8) ∧ q.st = .running ∧ q.priv = recSup l.recd ∧
           q.srseed = BitVec.ofNat 64 (l.id * 2 ^ 32 + e.dIdx * 2 ^ 16 + e.cIdx * 16 + k.val) ∧
           ∀ r, q.reg r = if r = 1 then BitVec.ofNat 64 (recField l.recd 16 8) else if r = 2 then BitVec.ofNat 64 e.dIdx
             else if r = 3 then BitVec.ofNat 64 e.cIdx else if r = 4 then BitVec.ofNat 64 l.id else 0) ∧
     (b < 2 → (x.bank b).occ = true → (x.bank b).started = false → (x.bank b).cl.c0.resumeAt ≤ s.quantum →
       Steps (.taskStart t c b) s fun u => CoreBecomes s u t c (x.modBank b fun k =>
         { k with started := true, cl := k.cl.map fun q => { q with resumeAt := 0 } })) ∧
     (b < 2 → (x.bank b).occ = false ∨ s.quantum < (x.bank b).cl.c0.resumeAt → exec (.taskStart t c b) s = .next s) ∧
     (Steps .taskAging s fun u => TilesBecome s u fun _ y => { y with ready := y.ready.map fun f =>
       if f.tick < s.tick ∧ (s.tick - f.tick) % 2 ^ 16 = 0 then { f with prio := min 3 (f.prio + 1) } else f })) ∧
  (∀ (s : State) (r : RegMsg) (p : PostMsg) (k : Word) (n : Nat) (ws : List Nat),
     let released := fun (u : State) (m : Nat) =>
       let c := tget Cont.reset s.conts m
       ∃ e, (u.tile c.tile).ready = (s.tile c.tile).ready ++ [e] ∧ e.kind = 1 ∧ e.cont = m ∧ e.core = c.core ∧
         e.prio = (c.compReg.extractLsb' 16 2).toNat ∧ e.tick = s.tick
     let others := fun (u : State) (k : Word) => ∀ j, j ≠ k → u.keyEnt j = s.keyEnt j
     (s.regsPending = [] → exec .continuationRegistration s = .next s) ∧
     (s.regsPending = [r] → r.tick ≤ s.tick → r.after = [] → (tget Cont.reset s.conts r.num).key = some k →
       ((s.keyEnt k).pending = 0 → Steps .continuationRegistration s fun u => u.regsPending = [] ∧ others u k ∧
         u.keyEnt k = { s.keyEnt k with waiters := (s.keyEnt k).waiters ++ [r.num] } ∧ u.tiles = s.tiles) ∧
       ((s.keyEnt k).pending ≠ 0 → Steps .continuationRegistration s fun u => u.regsPending = [] ∧ others u k ∧
         u.keyEnt k = { s.keyEnt k with pending := (s.keyEnt k).pending - 1 } ∧ released u r.num)) ∧
     (s.posts = [] → exec .postApply s = .next s) ∧
     (s.regsPending = [] → s.posts = [p] → p.tick ≤ s.tick → p.after = [] →
       ((s.keyEnt p.key).waiters = n :: ws → Steps .postApply s fun u => u.posts = [] ∧ others u p.key ∧
         u.keyEnt p.key = { s.keyEnt p.key with waiters := ws } ∧ released u n) ∧
       ((s.keyEnt p.key).waiters = [] → (s.keyEnt p.key).pending < 65535 → s.keys.length < 4096 →
         Steps .postApply s fun u => u.posts = [] ∧ others u p.key ∧
           u.keyEnt p.key = { s.keyEnt p.key with pending := (s.keyEnt p.key).pending + 1 } ∧ u.tiles = s.tiles) ∧
       ((s.keyEnt p.key).waiters = [] → (s.keyEnt p.key).pending = 65535 → exec .postApply s = .next s)))

/-- R213, R216, R217: a parked stream whose record was answered in an earlier tick resumes when its bank is in the foreground
and no other cluster's answer comes first: it runs, its buffered results go on, before those that it has issued since, and a
TSM load of its replay list is made again. What is the model's own choice in it: log entries 3, 36, 37. -/
def Obligations.StreamsResume : Prop :=
  ∀ (s : State) (i : StreamId),
    let b := s.bank i
    let ks := s.clsOf i
    (¬Ready s i ∨ (s.core i.tile i.core).exch ≠ 0 ∨ b.occ = false → exec (.streamResume i) s = .next s) ∧
    (Resumes s i → (∀ k ∈ ks, (s.cl (onCl i k)).hold.isPiece = false) →
      ((∀ l ∈ b.replay, l.cl ∉ ks) → Steps (.streamResume i) s fun u =>
        let c := s.cl i
        let d := u.cl i
        d.st = .running ∧ d.answered = false ∧ d.waitAns = false ∧ d.resumeAt = s.cycles i.tile ∧ d.pc = c.pc ∧
          d.regs = c.regs ∧
        d.flights = (b.pwb.filter fun e => e.cl == i.cl).map (·.fl) ++ c.flights ∧
        (u.bank i).pwb = b.pwb.filter (fun e => decide (e.cl ∉ ks)) ∧ u.reqs = s.reqs ∧ u.hbm = s.hbm ∧
        ∀ k, k ∈ ks → (u.cl (onCl i k)).st = .running) ∧
      (∀ l, b.replay = [l] → l.cl = i.cl → l.sp = .tsm → l.d ≠ 0 → (∀ r ∈ s.reqs, r.stage ≠ .lost) →
        Steps (.streamResume i) s fun u =>
        (u.cl i).st = .running ∧ (u.cl i).p l.d = true ∧ (u.bank i).replay = [] ∧
        ∃ r, u.reqs = s.reqs ++ [r] ∧ r.who = .stream i ∧ r.op = .read (sizBytes l.sz) ∧ r.loc = .tsm i.tile l.ea.toNat))

/-- R307-R311, Table launch 4: the distributor looks at the 16 queues in ascending order unless Quiesce is set. A refused head
leaves its queue with a completion record of its code and creates nothing; an accepted kernel creates a company and its tasks
on every tile of its mask, its loop table being read then; one without room stays, and one whose table breaks a limit by then is
refused; a pre-emption or restore record is handed on. Table launch 4: a record of
kind 3, of a kind other than 0 without supervisor level, or with more than four dependences has code 8, one without tiles code
3, and a kernel whose entry is not aligned to 64 bytes code 4. What is the model's own choice in it: log entry 33. -/
def Obligations.LaunchDistribution : Prop :=
  ((∀ s : State, exec .distributorTake s = .next (if s.cw.quiesce then s else (List.range 16).foldl State.distribute s)) ∧
   ∀ (s : State) (q : Nat) (h : HeadRec), q < 16 →
     let x := tget LQ.reset s.lq q
     let u := s.distribute q
     let y := tget LQ.reset u.lq q
     let id := q * 2 ^ 28 + x.head
     let a := x.cbase + 16 * (x.head % 2 ^ x.size)
     (x.size = 0 ∨ x.head = x.tail → u = s) ∧
     (x.size ≠ 0 → x.head < 2 ^ 28 → x.head ≠ x.tail → x.judged = some h →
       (h.code ≠ 0 → h.code < 256 → y = { x with head := (x.head + 1) % 2 ^ 28, judged := none } ∧ u.companies = s.companies ∧
         (∃ l ∈ u.launches, l.id = id ∧ l.refused = true) ∧
         (x.cbase % 16 = 0 → PlainLine s (a / 64 * 64) →
           u.homeRead a 16 = completionBytes id h.code (recKind h.recd) 0 0)) ∧
       (∀ ls code v, h.code = 0 → recEarly h.recd = true → recKind h.recd = 0 →
         (s.modLq q fun z => { z with judged := some h }).readTable h.recd = (ls, code, v) →
         (code = 0 → v.roomFor h.recd ls = true →
           y = { x with head := (x.head + 1) % 2 ^ 28, judged := none } ∧
           ∀ t ∈ recTiles h.recd,
             (∃ o ∈ u.companies, o.launch = id ∧ o.tile = t ∧ o.lineages.length = taskCount ls ∧ o.saved = false) ∧
             (u.tile t).ready.length = (s.tile t).ready.length + taskCount ls) ∧
         (code = 0 → v.roomFor h.recd ls = false → y = x ∧ u.companies = s.companies) ∧
         (code ≠ 0 → y = { x with head := (x.head + 1) % 2 ^ 28, judged := none } ∧ u.companies = s.companies)) ∧
       (h.code = 0 → recEarly h.recd = true → recKind h.recd ≠ 0 → ∃ p, u.preRecs = s.preRecs ++ [p] ∧ p.id = id ∧
         p.kind = recKind h.recd ∧ p.actions = [] ∧ u.companies = s.companies))) ∧
  (∀ (s : State) (q n : Nat) (r : List Byte),
     (recKind r = 3 ∨ (recKind r ≠ 0 ∧ recSup r = false) ∨ 4 < recField r 27 1 → (s.judge q n r).1.code = 8) ∧
     (badRecord r = false → recMask r = 0 → (s.judge q n r).1.code = 3) ∧
     (badRecord r = false → recMask r ≠ 0 → recKind r = 0 → recField r 0 8 % 64 ≠ 0 → (s.judge q n r).1.code = 4))

/-- R326-R329: a pre-emption acts on the company of its launch on a tile, or reports 3 where there is none to stop; a company
with nothing under way drains. A drain ends with its company, and past its deadline, or when a
continuation is registered, becomes a discard or a save. A discard
leaves no bank and no ready entry of the launch; a save keeps the bank's image and frees the bank; a restore makes each saved
image a ready entry, and reports 3 where the area's header names another launch. What is the model's own choice in it: log
entries 3, 38. -/
def Obligations.PreemptionActs : Prop :=
  ∀ (s : State) (p : PreRec) (q : Preempt) (t co : Nat) (c : Company) (i : StreamId),
    let n := recDep p.recd 0
    let r := s.launchRec q.launch
    let alone := s.preRecs = [p] ∧ p.actions = [] ∧ s.preempts = [] ∧ recTiles p.recd = [t]
    let hd := s.homeRead (t * 2 ^ 36 + recField p.recd 0 8) 64
    let sound := s.badHome (t * 2 ^ 36 + recField p.recd 0 8) 64 = []
    (s.preRecs = [] → exec .preemptionRequest s = .next s ∧ exec .preemptionRestore s = .next s) ∧
    (alone → p.kind = 1 → s.companyOf n t = none → Steps .preemptionRequest s fun u =>
      u.preRecs = [] ∧ u.preempts = [] ∧ u.companies = s.companies) ∧
    (alone → p.kind = 1 → s.companyOf n t = some c → c.over = false → c.saved = false → c.preempt = 0 →
      Steps .preemptionRequest s fun u => ∃ a, u.preempts.map (fun k => (k.id, k.launch, k.tile, k.action)) = [(p.id, n,
        t, a)] ∧
        (∀ o ∈ u.companies, o.launch = n → o.tile = t → o.preempt = a + 1) ∧ a ≤ 2 ∧
        (a = 1 → recRestart (s.launchRec n) = true) ∧
        ((∀ e ∈ (s.tile t).ready, e.launch ≠ n) → s.contsOf n t = [] → (∀ e ∈ (s.tile t).cores, e.2.banksOf n = []) → a = 0)) ∧
    (s.preempts = [q] → q.action = 0 → (∀ o, s.companyOf q.launch q.tile = some o → o.over = true) →
      Steps .preemptionDeadline s fun u => u.preempts = []) ∧
    (s.preempts = [q] → q.action = 0 → s.companyOf q.launch q.tile = some c → c.over = false →
      (s.tick ≤ q.deadline → exec .preemptionDeadline s = .next s) ∧
      (q.deadline < s.tick → Steps .preemptionDeadline s fun u =>
        u.preempts = [{ q with action := if recRestart r then 1 else 2, late := true }])) ∧
    (s.preempts = [] → exec (.preemptionSaveWrite t co) s = .next s) ∧
    (s.preempts = [q] → q.action = 0 → q.tile = t → q.launch = co →
      (s.contsOf co t = [] → exec (.preemptionSaveWrite t co) s = .next s) ∧
      (s.contsOf co t ≠ [] → Steps (.preemptionSaveWrite t co) s fun u =>
        u.preempts = [{ q with action := if recRestart r then 1 else 2, late := decide (q.deadline < s.tick) }])) ∧
    (s.preempts = [q] → q.action = 1 → q.tile = t → q.launch = co → Steps (.preemptionSaveWrite t co) s fun u =>
      u.preempts = [] ∧ (∀ e ∈ (u.tile t).ready, e.launch ≠ co) ∧
      ∀ k b, b < 2 → ((s.core t k).bank b).holds co = true → ((u.core t k).bank b).occ = false) ∧
    (s.preempts = [q] → q.action = 2 → q.tile = t → q.launch = co → (s.tile t).cores.Pairwise (fun a b => a.1 < b.1) →
      s.coBanks co t = [i] → (s.bank i).moving = [] → s.coStopped co t = true → s.lostLoads i = [] →
      Steps (.preemptionSaveWrite t co) s fun u =>
        u.preempts = [] ∧ u.saved = s.saved ++ [⟨co, t, i.core, i.bank, s.cycles t, s.bank i⟩] ∧ (u.bank i).occ = false ∧
        ∀ o ∈ u.companies, o.launch = co → o.tile = t → o.saved = true) ∧
    (alone → p.kind = 2 → sound → recField hd 0 4 ≠ n → Steps .preemptionRestore s fun u =>
      u.preRecs = [] ∧ u.companies = s.companies ∧ ∀ k, (u.tile k).ready = (s.tile k).ready) ∧
    (alone → p.kind = 2 → sound → recField hd 0 4 = n → recField hd 4 1 / 16 % 4 = 2 → s.coSaved n t = true →
      Steps .preemptionRestore s fun u => u.preRecs = [] ∧
        (∀ o ∈ u.companies, o.launch = n → o.tile = t → o.saved = false) ∧
        ∀ v ∈ s.saved, v.launch = n → v.tile = t → ∃ e ∈ (u.tile t).ready,
          e.kind = 2 ∧ e.taskid = v.bank.taskid.toNat ∧ e.core = v.core ∧ e.launch = n)

/-! ### Circuits, power, host and bring-up -/

/-- R370, R371, R376, R417: a Cue load reads and checks its image and takes it in place of a sheet of its id unless a check
fails; a start, change or stop has its effect, or is refused with Cue status 8 in the cases of R417. R371-R374: a sheet starts
at its tick; a scene makes its circuit at its start, its handle MAKING until the live tick, LIVE until the dark point and
MAKING after it; a jump and the end of a rotation break every circuit; a rotation's end stops the sheet, and changes nothing
else of the play state, takes the Next one or goes on. Ticks are compared modulo 2^64. What is the model's own choice in it:
log entries 39, 40. -/
def Obligations.CueSheets : Prop :=
  (∀ (s : State) (v : Word), s.cw.stage = 8 →
     let id := v.toNat / 2 ^ 40 % 2 ^ 16
     let n := s.cw.cueLen
     let others := s.sheets.filter fun x => x.id != id
     let used := (others.map fun x => x.ents.length).sum
     let inUse := s.sm.playing = some id ∨ s.sm.next = some id ∨ ∃ k, s.sm.pend = some (id, k)
     let word := fun (i : Nat) => BitVec.ofNat 64 (leNat ((s.homeRead (v.toNat % 2 ^ 40) (16 * n)).drop (8 * i) |>.take 8))
     let es := (List.range n).map fun i => (word (2 * i), word (2 * i + 1))
     let code := sheetCheck es n (4096 - used)
     let status := fun (k : Nat) => ({ s with cw := { s.cw with cueStatus := k } } : State)
     let cid := v.toNat / 4 % 2 ^ 16
     let at' := v.toNat / 2 ^ 18
     let loaded := ∃ x ∈ s.sheets, x.id = cid
     (s.badHome (v.toNat % 2 ^ 40) (16 * n) = [] →
       (code ≠ 0 → exec (.cueLoad v) s = .next (status code)) ∧
       (code = 0 → inUse → exec (.cueLoad v) s = .next (status 9)) ∧
       (code = 0 → ¬inUse → 8 ≤ others.length → exec (.cueLoad v) s = .next (status 10)) ∧
       (code = 0 → ¬inUse → others.length < 8 →
         exec (.cueLoad v) s = .next { status 0 with sheets := others ++ [⟨id, es⟩] })) ∧
     (n = 0 ∨ 4096 < used + n → code = 1) ∧
     (s.tick + 100 ≤ at' ∧ loaded ∧ s.sm.playing = none ∧ s.sm.pend = none →
       exec (.cueStart v) s = .next { status 0 with sm := { s.sm with pend := some (cid, at') } }) ∧
     (¬(s.tick + 100 ≤ at' ∧ loaded ∧ s.sm.playing = none ∧ s.sm.pend = none) → exec (.cueStart v) s = .next (status 8)) ∧
     (loaded ∧ s.sm.playing ≠ none ∧ s.sm.pend = none →
       exec (.cueChange v) s = .next { status 0 with sm := { s.sm with next := some cid } }) ∧
     (¬(loaded ∧ s.sm.playing ≠ none ∧ s.sm.pend = none) → exec (.cueChange v) s = .next (status 8)) ∧
     (s.sm.pend ≠ none → exec (.cueStop v) s = .next { status 0 with sm := { s.sm with pend := none } }) ∧
     (s.sm.pend = none → s.sm.playing ≠ none →
       exec (.cueStop v) s = .next { status 0 with sm := { s.sm with stopping := true } }) ∧
     (s.sm.pend = none → s.sm.playing = none → exec (.cueStop v) s = .next (status 0))) ∧
  (∀ (s : State) (sh : Sheet) (y : Scene) (e : Word × Word) (t p h k id : Nat) (a b : BitVec 16) (c : Circuit),
     let rot := s.since s.sm.rotStart
     let gone := s.since s.sm.sceneAt
     let light := s.lasers.switching = none ∧ s.lasers.lockTick = none
     let quiet := s.sm.pend = none ∧ s.sm.forcing = []
     let lit := s.circuits = [c] ∧ c.failed = false ∧ endTile c.a = some (t, p) ∧ endTile c.b = none
     (quiet → s.inPlay = none → exec .sceneStart s = .next s) ∧
     (s.sm.forcing = [] → s.sm.pend = some (id, s.tick) → Steps .sceneStart s fun u =>
       u.sm.playing = some id ∧ u.sm.pend = none ∧ u.sm.rotStart = s.tick) ∧
     (quiet → s.inPlay = some sh → scenesOf sh.ents = [y] → rot ≠ y.start → exec .sceneStart s = .next s) ∧
     (quiet → s.inPlay = some sh → scenesOf sh.ents = [y] → rot = y.start → y.variant = false → y.blackout < y.len → light →
       s.sm.sceneIdx = none → s.sm.forced = [] → s.circuits = [] → y.ents = [e] → wf e.1 0 4 = 1 → makeOf e = (h, a, b, k) →
       endTile a = some (t, p) → endTile b = none → s.portMode t p ≠ 3 → Steps .sceneStart s fun u =>
         u.sm.scene = y.n ∧ u.sm.sceneAt = s.tick ∧ u.sm.sceneLen = y.len ∧ u.sm.blackout = y.blackout ∧
         u.circuits = [⟨h, a, b, true, true, false, k⟩] ∧ u.handle t h = ⟨1, p, true, b, (s.tick + y.blackout) % 2 ^ 64, 0⟩) ∧
     (s.playedScene = none ∨ gone < s.sm.blackout ∨ s.sm.sceneLen ≤ gone → exec .liveTick s = .next s) ∧
     (s.playedScene = some y → gone = s.sm.blackout → gone < s.sm.sceneLen →
       (∀ z ∈ y.ents, wf z.1 0 4 ≠ 4 ∧ wf z.1 0 4 ≠ 5) → s.noLocks = [] → light → lit → (s.handle t c.h).st = 1 →
       Steps .liveTick s fun u => u.handle t c.h =
         { s.handle t c.h with st := 2, nextLive := 0, dark := (s.sm.sceneAt + s.sm.sceneLen) % 2 ^ 64 }) ∧
     (s.playedScene = none ∨ gone ≠ s.sm.sceneLen → exec .darkPoint s = .next s) ∧
     (s.playedScene = some y → gone = s.sm.sceneLen → y.acts 6 = [] → lit → (s.handle t c.h).st = 2 →
       Steps .darkPoint s fun u =>
       (u.handle t c.h).st = 1 ∧ u.circuits = s.circuits ∧ u.sm.scene = 0xFFFF ∧ u.sm.sceneIdx = none) ∧
     (s.playedScene = some y → gone = s.sm.sceneLen → y.acts 6 ≠ [] → Steps .darkPoint s fun u =>
       u.circuits = [] ∧ u.sm.scene = 0xFFFF ∧ u.sm.sceneIdx = none) ∧
     (s.inPlay = none → exec .rotationEnd s = .next s) ∧
     (s.inPlay = some sh → rot ≠ rotLen sh.ents → exec .rotationEnd s = .next s) ∧
     (s.inPlay = some sh → rot = rotLen sh.ents → Steps .rotationEnd s fun u =>
       u.circuits = [] ∧ u.sm.sceneIdx = none ∧
       u.sm.playing = (if s.sm.stopping then none else match s.sm.next with | some n => some n | none => s.sm.playing) ∧
       u.sm.stopping = false ∧ (s.sm.stopping = true → u.sm.next = s.sm.next ∧ u.sm.rotStart = s.sm.rotStart) ∧
       (s.sm.stopping = false → u.sm.next = none ∧ u.sm.rotStart = s.tick)))

/-- R15, R378, R379, R381: a lane that fails leaves its port in Erasure, Degraded or Failed mode with a record, in Failed mode
too; a ring heater at its rail fails its port; a failed laser chiplet is replaced by the spare within 1,000 ticks, or without
a spare its tiles' ports fail; a lost port is noted by the stage manager. What is the model's own choice in it: log entries 3,
41. -/
def Obligations.PortsAndLasers : Prop :=
  ∀ (s : State) (t p lane n m k v : Nat),
    let x := tget Port.reset (s.tile t).ports p
    let count := x.lanes.length + 1
    let raised := fun (u : State) (t : Nat) (cause kind : Nat) (addr : Word) => s.route t cause kind false ≠ .drop →
      ∃ r, u.records = s.records ++ [r] ∧ r.cause = cause ∧ r.kind = kind ∧ r.tile = t ∧ r.addr = addr
    (16 ≤ t ∨ 8 ≤ p ∨ 18 ≤ lane →
      exec (.laneFailure t p lane) s = .fault .noSuchUnit ∧ exec (.ringtune t p lane) s = .fault .noSuchUnit) ∧
    (t < 16 → p < 8 → lane < 18 →
      (lane ∈ x.lanes → exec (.laneFailure t p lane) s = .next s) ∧
      (x.mode = 3 → lane ∉ x.lanes → Steps (.laneFailure t p lane) s fun u =>
        tget Port.reset (u.tile t).ports p = { x with lanes := x.lanes ++ [lane], erasures := x.erasures + 1 } ∧
        u.circuits = s.circuits ∧ raised u t cLANEERASE 3 (BitVec.ofNat 64 (8 * t + p))) ∧
      (x.mode ≠ 3 → lane ∉ x.lanes → count ≤ 8 → Steps (.laneFailure t p lane) s fun u =>
        (∀ j, tget Port.reset (u.tile t).ports j = if j = p then
            { x with lanes := x.lanes ++ [lane], mode := if 1 < count then 2 else 1, erasures := x.erasures + 1 }
          else tget Port.reset (s.tile t).ports j) ∧
        u.circuits = s.circuits ∧ raised u t cLANEERASE 3 (BitVec.ofNat 64 (8 * t + p))) ∧
      (x.mode ≠ 3 → lane ∉ x.lanes → 8 < count → Steps (.laneFailure t p lane) s fun u =>
        (tget Port.reset (u.tile t).ports p).mode = 3 ∧ ∀ c, s.circuits = [c] → c.failed = false →
          endTile c.a = some (t, p) → endTile c.b = none → (u.handle t c.h).st = 3) ∧
      (x.mode ≠ 3 → s.circuits = [] → Steps (.ringtune t p lane) s fun u =>
        (tget Port.reset (u.tile t).ports p).mode = 3 ∧ raised u t cRINGTUNE 2 (BitVec.ofNat 64 (8 * t + p))) ∧
      (x.mode = 3 → Steps (.ringtune t p lane) s fun u => (u.tile t).ports = (s.tile t).ports ∧
        u.circuits = s.circuits ∧ raised u t cRINGTUNE 2 (BitVec.ofNat 64 (8 * t + p)))) ∧
    (5 ≤ n → exec (.laser n) s = .fault .noSuchUnit) ∧
    (n < 5 → n ∈ s.lasers.failed → exec (.laser n) s = .next s) ∧
    (n < 4 → n ∉ s.lasers.failed → s.lasers.spareFor = none → 4 ∉ s.lasers.failed → Steps (.laser n) s fun u =>
      u.lasers.failed = s.lasers.failed ++ [n] ∧ u.lasers.spareFor = some n ∧
      (∃ j, u.lasers.switching = some (n, j) ∧ j ≤ s.tick + 1000) ∧ raised u (4 * n) cLASER 2 (BitVec.ofNat 64 n)) ∧
    (n < 4 → n ∉ s.lasers.failed → s.lasers.spareFor ≠ none → Steps (.laser n) s fun u =>
      u.lasers.failed = s.lasers.failed ++ [n] ∧ ∀ j i, j / 4 = n → i < 8 → u.portMode j i = 3) ∧
    (s.lasers.switching = none → exec .laserSwitchover s = .next s) ∧
    (s.lasers.switching = some (m, k) → exec .laserSwitchover s =
      .next (if k ≤ s.tick then { s with lasers := { s.lasers with switching := none, lockTick := some (m, s.tick) } } else s)) ∧
    (s.losses = [] → exec .lossRecordReceipt s = .next s) ∧
    (s.losses = [(k, some n, v)] → k ≤ s.tick → (∀ l ∈ s.sm.lost, l.1 ≠ n) → Steps .lossRecordReceipt s fun u =>
      u.losses = [] ∧ u.sm = { s.sm with lost := s.sm.lost ++ [(n, k)] } ∧ (v ≠ 0 → v ∈ u.vectors)) ∧
    (s.losses = [(k, some n, v)] → s.tick < k → exec .lossRecordReceipt s = .next s)

/-- R363, R364, R423: every 1,000 ticks each tile's point is granted anew: at least its floor, at most its ceiling or its
floor, its floor where it asks for nothing, and within the budget when the floors are; the limits set are those in range. -/
def Obligations.Power : Prop :=
  ∀ (s : State) (w v t : Nat),
    let pt := fun (u : State) (n : Nat) => ((u.tile n).pointNext.getD 6)
    let watts := fun (f : Nat → Nat) => ((List.range 16).map fun n => pointWatt (f n)).sum
    (s.tick % 1000 ≠ 0 → exec .powerRegrant s = .next s) ∧
    (s.tick % 1000 = 0 → (∀ n < 16, (s.tile n).hot = false) → Steps .powerRegrant s fun u =>
      TilesBecome s u (fun n x => { x with pointNext := some (pt u n), hint0 := false, hint3 := false, busyCycles := 0,
                                           intervalCycles := 0 }) ∧
      (∀ n < 16, (s.tile n).floor ≤ pt u n ∧ pt u n ≤ max (s.tile n).floor (s.tile n).ceiling) ∧
      (∀ n < 16, (s.tile n).hint0 = true ∨ ((s.tile n).hint3 = false ∧
          ((s.tile n).intervalCycles = 0 ∨ 2 * (s.tile n).busyCycles < (s.tile n).intervalCycles)) →
        pt u n = (s.tile n).floor) ∧
      (watts (fun n => (s.tile n).floor) ≤ s.budget → watts (pt u) ≤ s.budget)) ∧
    (s.tick % 1000 = 0 → t < 16 → (s.tile t).hot = true → Steps .powerRegrant s fun u => pt u t = 0) ∧
    (32 < w → exec (.pldmPowerSet w v) s = .fault .noSuchUnit) ∧
    (s.cw.stage = 8 → exec (.pldmPowerSet 32 v) s = .next { s with budget := v }) ∧
    (s.cw.stage = 8 → t < 16 → Steps (.pldmPowerSet t v) s fun u =>
      (u.tile t).ceiling = if (s.tile t).floor ≤ v ∧ v ≤ 5 then v else (s.tile t).ceiling) ∧
    (s.cw.stage = 8 → t < 16 → Steps (.pldmPowerSet (16 + t) v) s fun u =>
      (u.tile t).floor = if v ≤ 5 ∧ v ≤ (s.tile t).ceiling then v else (s.tile t).floor) ∧
    (t < 16 → exec (.thermalHold t) s = .next (s.modTile t fun x => { x with hot := true, pointNext := some 0 })) ∧
    (t < 16 → exec (.thermalRelease t) s = .next (s.modTile t fun x => { x with hot := false })) ∧
    (16 ≤ t → exec (.thermalHold t) s = .fault .noSuchUnit ∧ exec (.thermalRelease t) s = .fault .noSuchUnit ∧
      exec (.thermalTrip t) s = .fault .noSuchUnit)

/-- R307, R358, R415, R417, Table host 1: a queue's configuration word and tail doorbell, a calendar word, a field of the
control window and an access through the device-memory window take effect once the tiles are released, Identity and Master
before it too; a tail outside the queue's slots sets Overrun alone; the reserved region discards writes and reads zero. A read
of device memory asks for its bytes and ends when they have come; an access that follows it waits till then. What is the
model's own choice in it: log entries 3, 45. -/
def Obligations.HostWindows : Prop :=
  ∀ (s : State) (q w t n a : Nat) (v : Word) (bs : List Byte) (r : Req) (nv : Bool),
    let x := tget LQ.reset s.lq q
    let up := s.cw.stage = 8
    let idle := s.cw.reading = none
    let queue := fun (u : State) (y : LQ) =>
      { u with lq := s.lq } = s ∧ ∀ j, tget LQ.reset u.lq j = if j = q then y else tget LQ.reset s.lq j
    let fresh := { x with head := 0, tail := 0, judged := none }
    let tail := v.toNat % 2 ^ 28
    let ahead := fun (k : Nat) => (k + 2 ^ 28 - x.head) % 2 ^ 28
    let old := (s.tile t).calNext.getD (s.tile t).cal
    (16 ≤ q ∨ 4 ≤ w → exec (.hostQueueConfigWrite q w v) s = .fault .noSuchUnit ∧
      exec (.calendarConfigWrite q w v) s = .fault .noSuchUnit) ∧
    (16 ≤ q → exec (.hostTailWrite q v) s = .fault .noSuchUnit) ∧
    (2 ^ 40 < a + (if bs = [] then n else bs.length) →
      exec (.hostMemoryAccess (!bs.isEmpty) a n bs) s = .fault .noSuchUnit) ∧
    (¬up → q < 16 → w < 4 → exec (.hostQueueConfigWrite q w v) s = .next s ∧ exec (.hostTailWrite q v) s = .next s ∧
      exec (.calendarConfigWrite q w v) s = .next s) ∧
    (up → q < 16 →
      (Steps (.hostQueueConfigWrite q 0 v) s fun u => queue u { fresh with base := v.toNat / 64 % 2 ^ 34 * 64 }) ∧
      (Steps (.hostQueueConfigWrite q 1 v) s fun u => queue u
        (if v.toNat % 16 < 13 then { fresh with size := v.toNat % 16, fed := v.getLsbD 4 } else x)) ∧
      (Steps (.hostQueueConfigWrite q 2 v) s fun u => queue u { fresh with cbase := v.toNat / 16 % 2 ^ 36 * 16 }) ∧
      (Steps (.hostQueueConfigWrite q 3 v) s fun u => queue u { fresh with vector := v.toNat % 256 }) ∧
      (x.size ≠ 0 ∧ x.fed = false ∧ ahead x.tail ≤ ahead tail ∧ ahead tail ≤ 2 ^ x.size →
        Steps (.hostTailWrite q v) s fun u => queue u { x with tail := tail }) ∧
      (¬(x.size ≠ 0 ∧ x.fed = false ∧ ahead x.tail ≤ ahead tail ∧ ahead tail ≤ 2 ^ x.size) →
        Steps (.hostTailWrite q v) s fun u => queue u { x with overrun := true })) ∧
    (up → t < 16 → w < 4 → old.length = 32 → Steps (.calendarConfigWrite t w v) s fun u =>
      (u.tile t).cal = (s.tile t).cal ∧ ∃ new, (u.tile t).calNext = some new ∧ new.length = 32 ∧
        ∀ j, new.getD j 0 = if 8 * w ≤ j ∧ j < 8 * w + 8 then v.extractLsb' (8 * (j - 8 * w)) 5 else old.getD j 0) ∧
    (exec (.hostRegisterWrite 0x0000 v) s = .next { s with cw := { s.cw with identity := v &&& 0xFFFFFF, named := true } }) ∧
    (exec (.hostRegisterWrite 0x0010 v) s = .next { s with cw := { s.cw with master := v &&& 1 } }) ∧
    (up → exec (.hostRegisterWrite 0x0018 v) s = .next { s with cw := { s.cw with quiesce := v.getLsbD 0 } } ∧
      exec (.hostRegisterWrite 0x1018 v) s = .next { s with cw := { s.cw with cueLen := v.toNat % 2 ^ 13 } } ∧
      exec (.hostRegisterWrite 0x4008 v) s = .next { s with cw := { s.cw with frameB := v &&& 0xFFFF } } ∧
      (6 ≤ v.toNat / 2 ^ 52 % 8 →
        exec (.hostRegisterWrite 0x4000 v) s = .next { s with cw := { s.cw with frame := v &&& 0x7FFFFFFFFFFFFF } }) ∧
      exec (.hostRegisterWrite 0x3000 v) s = .next { s with cw := { s.cw with fring := v &&& 0xFFFFFFFFFFFFFFCF } }) ∧
    (n ∉ [0x0000, 0x0010, 0x0018, 0x1018, 0x3000, 0x4000, 0x4008] → exec (.hostRegisterWrite n v) s = .next s) ∧
    (up → idle → PlainLine s (a / 64 * 64) → a % 64 + bs.length ≤ 64 → bs ≠ [] → a % 2 ^ 36 < 0xFFF000000 →
      Steps (.hostMemoryAccess true a n bs) s fun u => u.homeRead a bs.length = bs ∧ ∀ k c, u.core k c = s.core k c) ∧
    (up → idle → a < 2 ^ 40 → a % 64 + bs.length ≤ 64 → bs ≠ [] → 0xFFF000000 ≤ a % 2 ^ 36 →
      exec (.hostMemoryAccess true a n bs) s = .next s) ∧
    (up → idle → a < 2 ^ 40 → a % 64 + n ≤ 64 → 0 < n → a % 2 ^ 36 < 0xFFF000000 →
      Steps (.hostMemoryAccess false a n []) s fun u => u.cw.reading = some (a, n) ∧ (∀ k c, u.core k c = s.core k c) ∧
        ∃ q, u.reqs = s.reqs ++ [q] ∧ q.who = .host ∧ q.op = .read n ∧ q.loc = .hbm a ∧ q.dst = .host) ∧
    (up → idle → a < 2 ^ 40 → a % 64 + n ≤ 64 → 0 < n → 0xFFF000000 ≤ a % 2 ^ 36 →
      exec (.hostMemoryAccess false a n []) s = .next { s with cw := { s.cw with reading := some (a, n) } }) ∧
    (up → s.cw.reading ≠ none → a + (if bs = [] then n else bs.length) ≤ 2 ^ 40 →
      exec (.hostMemoryAccess (!bs.isEmpty) a n bs) s =
        .next { s with inputs := (s.tick + 1, .access (!bs.isEmpty) a n bs) :: s.inputs }) ∧
    (s.cw.reading = some (a, n) → a % 64 + n ≤ 64 → 0 < n →
      (a % 2 ^ 36 < 0xFFF000000 → s.reqs = [r] → r.who = .host → r.cell = none → r.stage = .reply bs nv false →
        s.hostCollect = if r.due ≤ s.quantum then
          { s with reqs := [], fresh := s.fresh + 1, cw := { s.cw with readData := bs, reading := none } } else s) ∧
      (0xFFF000000 ≤ a % 2 ^ 36 → s.reqs = [] → s.hostCollect =
        { s with fresh := s.fresh + 1, cw := { s.cw with readData := List.replicate n 0, reading := none } }))

/-- R348-R352, R378, R418: a record for the host is written to the ring's next slot, Fault tail advances and the vector is
raised, once the tick in which it was raised is over; a full ring holds records of kinds S and U, and a disabled one discards
those of kinds F and V; a record for an open queue goes to its slot and Tail advances; one for the stage manager sets out to
it. R217, R352, R418: the host's answer to a record that it has not answered frees the records answered consecutively from the
first, sets State 2 in its slot, and resumes the parked stream that waits for it, four cycles later at the earliest; an answer
to any other number has no effect. What is the model's own choice in it: log entries 3, 42, 43. -/
def Obligations.FaultRecords : Prop :=
  (∀ (s : State) (r : FRec) (v t q : Nat), s.records = [r] →
     let n := s.cw.ftail
     let size := s.cw.fring.toNat % 16
     let a := s.cw.fring.toNat / 64 * 64 + 32 * (n % 2 ^ size)
     let held := (n + 2 ^ 32 - s.cw.fhead) % 2 ^ 32
     let row := Instr.faultRecordDeliver
     let word := r.cause + r.tile * 2 ^ 8 + r.core * 2 ^ 12 + r.cl * 2 ^ 16 + r.bank * 2 ^ 18 + r.kind * 2 ^ 19 +
       r.source * 2 ^ 21 + 2 ^ 24 + r.aux.toNat * 2 ^ 32
     let bytes := leBytes 8 word ++ leBytes 8 r.pc.toNat ++ leBytes 8 r.addr.toNat ++ leBytes 8 r.tick
     r.cause < 256 → r.tile < 16 → r.core < 16 → r.cl < 4 → r.bank < 2 → r.kind < 4 → r.source < 8 →
     (r.dest = .host v →
       (r.tick = s.tick → r.kind < 2 → exec row s = .next s) ∧
       (size ≠ 0 → held < 2 ^ size → r.tick ≠ s.tick → Steps row s fun u => u.records = [] ∧
         (∀ j, mget u.hostMem j = if a ≤ j ∧ j < a + 32 then bytes.getD (j - a) 0 else mget s.hostMem j) ∧
         u.cw = { s.cw with ftail := (n + 1) % 2 ^ 32 } ∧ (v ≠ 0 → v ∈ u.vectors) ∧
         u.posted = s.posted ++ [⟨.host 0, n, r.cause, r.waiter⟩] ∧ u.tiles = s.tiles) ∧
       (size = 0 ∨ 2 ^ size ≤ held → r.kind < 2 → exec row s = .next s) ∧
       (size = 0 → 2 ≤ r.kind → Steps row s fun u => u.records = [] ∧ u.hostMem = s.hostMem ∧ u.posted = s.posted ∧
         (u.tile r.tile).cnt.droppedRecs = (s.tile r.tile).cnt.droppedRecs + 1)) ∧
     (r.dest = .stage v → r.tick ≠ s.tick → Steps row s fun u => u.records = [] ∧ ∃ k p, u.losses = s.losses ++ [(k, p, v)] ∧
       s.tick ≤ k ∧ k ≤ max s.tick (r.tick + 2)) ∧
     (r.dest = .queue t q → q < 4 → s.bad = [] →
       let g := s.fqReg t q
       let hdr := fun (s : State) (o : Nat) => leNat (s.homeRead (g.base + o) 4)
       let slot := g.base + 64 + 32 * (hdr s 0 % 2 ^ g.size)
       g.size ≠ 0 → g.base % 64 = 0 → PlainLine s g.base → PlainLine s (slot / 64 * 64) → paTile slot = paTile g.base →
       (s.homeRead (g.base + 16) 1 = [0] → (hdr s 0 + 2 ^ 32 - hdr s 4) % 2 ^ 32 < 2 ^ g.size → r.tick ≠ s.tick →
         Steps row s fun u =>
         u.records = [] ∧ u.homeRead slot 32 = bytes ∧ hdr u 0 = (hdr s 0 + 1) % 2 ^ 32 ∧
         (⟨.queue t q, slot, r.cause, r.waiter⟩ : Posted) ∈ u.posted) ∧
       (2 ^ g.size ≤ (hdr s 0 + 2 ^ 32 - hdr s 4) % 2 ^ 32 → r.kind < 2 → exec row s = .next s))) ∧
  (∀ (s : State) (v : Word) (i : StreamId) (cause : Nat), s.cw.stage = 8 →
     let n := v.toNat % 2 ^ 32
     let head := s.cw.fhead
     let tail := s.cw.ftail
     let a := s.cw.fring.toNat / 64 * 64 + 32 * (n % 2 ^ (s.cw.fring.toNat % 16)) + 3
     let marked := fun (u : State) => ∀ j, if j = a then (mget u.hostMem j).toNat = (mget s.hostMem j).toNat / 4 * 4 + 2
       else mget u.hostMem j = mget s.hostMem j
     (n ∈ s.cw.answered ∨ (tail + 2 ^ 32 - head) % 2 ^ 32 ≤ (n + 2 ^ 32 - head) % 2 ^ 32 →
       exec (.faultAnswer v) s = .next s) ∧
     (s.cw.answered = [] → head < 2 ^ 32 → tail < 2 ^ 32 → head ≠ tail → n = head →
       s.posted = [⟨.host 0, n, cause, .stream i⟩] → (s.cl i).st = .parked →
       Steps (.faultAnswer v) s fun u => u.cw.fhead = (head + 1) % 2 ^ 32 ∧ u.cw.answered = [] ∧ u.posted = [] ∧
         (u.cl i).answered = true ∧ (u.cl i).st = .parked ∧ (u.cl i).ansTick = s.tick ∧
         s.cycles i.tile + 4 ≤ (u.cl i).resumeAt ∧ marked u) ∧
     (s.cw.answered = [] → (n + 2 ^ 32 - head) % 2 ^ 32 < (tail + 2 ^ 32 - head) % 2 ^ 32 → n ≠ head → s.posted = [] →
       Steps (.faultAnswer v) s fun u => u.cw = { s.cw with answered := [n] } ∧ u.posted = [] ∧ u.tiles = s.tiles ∧ marked u))

/-- R420-R424: bring-up runs its stages in order, one failed stage holding for good and stage 7 waiting for Identity; stage 6
zeroes LS, TSM and HBM and empties the free lists; attestation answers the measurements, the nonce and the module id with a
signature, and status 0x0E once those are spent; cold reset restarts the module at stage 0 with its fuses. What is the model's
own choice in it: log entries 3, 12, 45, 46, 47. -/
def Obligations.BringUp : Prop :=
  ∀ (s : State) (nonce : BitVec 256) (t : Nat),
    let k := s.cw.stage
    (8 ≤ k ∨ s.cw.failCode ≠ 0 ∨ (k = 6 ∧ s.cw.named = false) → exec .bringupStage s = .next s) ∧
    (k < 8 → s.cw.failCode = 0 → (k = 6 → s.cw.named = true) → Steps .bringupStage s fun u =>
      u.cw.stage = k + 1 ∧ u.cw.named = s.cw.named ∧ u.rot.keyFuse = s.rot.keyFuse ∧
      (u.cw.failCode = 0 → s.rot.versionFuse.toNat ≤ u.rot.versionFuse.toNat) ∧
      (u.cw.failCode ≠ 0 → u.tiles = s.tiles ∧ u.hbm = s.hbm ∧ u.rot.versionFuse = s.rot.versionFuse) ∧
      u.cw.failCode ∈ ([[1, 2], [3], [4], [5], [6], [7], [8], []].getD k []) ++ [0] ∧
      (k = 5 → u.cw.failCode = 0 → u.hbm = [] ∧ ∀ n < 16, (u.tile n).tsm = [] ∧ (u.tile n).freeCount = 0 ∧
        ∀ c, (u.core n c).ls = [])) ∧
    (s.cw.stage = 8 → s.rot.sigsLeft = 0 → exec (.attestationRequest nonce) s =
      .next { s with rot := { s.rot with response := [], status := 0x0E } }) ∧
    (s.cw.stage = 8 → s.rot.sigsLeft ≠ 0 → Steps (.attestationRequest nonce) s fun u => u.rot.status = 0 ∧
      u.rot.sigsLeft = s.rot.sigsLeft - 1 ∧ { u with rot := s.rot } = s ∧
      (u.rot.response.take (32 * s.rot.measures.length + 34) =
        s.rot.measures.flatMap (fun m => leBytes 32 m.toNat) ++ leBytes 32 nonce.toNat ++ leBytes 2 s.moduleId)) ∧
    (∀ i ∈ (Instr.coldReset :: if t < 16 then [Instr.thermalTrip t] else []), Steps i s fun u =>
      { u with hostMem := [], pool := [], refused := [], inputs := [], fresh := 0, rot := Rot.reset } = State.reset ∧
      u.hostMem = s.hostMem ∧ u.pool = s.pool ∧ u.refused = s.refused ∧ u.rot.keyFuse = s.rot.keyFuse ∧ u.rot.versionFuse = s.rot.versionFuse ∧
      u.rot.sigsLeft = s.rot.sigsLeft)

/-! ### Memory and translation -/

/-- R395-R399: an address of 2^55 or more, a misaligned root and an invalid entry fault as the rules say; an uncorrectable
table entry ends the walk and is named; a walk of three valid levels whose leaf allows the access gives the frame's address;
and translating changes nothing but cached translations.
What is the model's own choice in it: log entries 14, 17. -/
def Obligations.Translation : Prop :=
  ∀ (s : State) (x : XReq),
    let root := (s.tile x.tile).ptroot
    let next := fun (e : Nat) => e / 2 ^ 16 % 2 ^ 24 * 65536
    let e0 := s.homeWord (root + 8 * (x.va / 2 ^ 42 % 8192))
    let e1 := s.homeWord (next e0 + 8 * (x.va / 2 ^ 29 % 8192))
    let e2 := s.homeWord (next e1 + 8 * (x.va / 2 ^ 16 % 8192))
    let table := fun (e : Nat) => e % 4 = 1 ∧ e / 4 % 2 ^ 14 = 0 ∧ e / 2 ^ 40 % 2 ^ 12 = 0
    let fa := e2 / 2 ^ 16 % 2 ^ 36 * 65536 + x.va % 65536
    let missed := (∀ e ∈ (s.tile x.tile).tlb ++ (s.core x.tile x.core).tlb, e.kind ≠ 0) ∧ x.va < 2 ^ 55
    let cold := missed ∧ s.bad = []
    let mapped := cold ∧ root % 65536 = 0 ∧ table e0 ∧ table e1 ∧ e2 % 4 = 3 ∧ e2 / 256 % 256 = 0 ∧ e2 / 64 % 4 = 0
    let allowed := (x.user = true → e2 / 8 % 2 = 1) ∧ (x.wr = true → e2 / 4 % 2 = 1) ∧ (x.fetch = true → e2 / 16 % 2 = 1)
    (2 ^ 55 ≤ x.va → s.xl x = .error (.fault cPROT (x.aux 0 0 0))) ∧
    (∀ b l, missed → root % 65536 = 0 → s.badHome (root + 8 * (x.va / 2 ^ 42 % 8192)) 8 = b :: l →
      s.xl x = .error (.lost b)) ∧
    (cold → root % 65536 ≠ 0 → s.xl x = .error (.fault cPROT (x.aux 0 0 1))) ∧
    (cold → root % 65536 = 0 → e0 % 2 = 0 → s.xl x = .error (.fault cPAGE (x.aux 0 0 0))) ∧
    (cold → root % 65536 = 0 → table e0 → e1 % 2 = 0 → s.xl x = .error (.fault cPAGE (x.aux 0 1 0))) ∧
    (cold → root % 65536 = 0 → table e0 → table e1 → e2 % 2 = 0 → s.xl x = .error (.fault cPAGE (x.aux 0 2 0))) ∧
    (cold → root % 65536 = 0 → table e0 → table e1 → e2 % 4 = 3 → e2 / 256 % 256 = 0 → e2 / 64 % 4 = 1 ∨ e2 / 64 % 4 = 2 →
      s.xl x = .error (.fault cPAGE (x.aux (e2 / 64 % 4) 2 1))) ∧
    (mapped → allowed → fa % 2 ^ 36 < 0xFFF000000 → fa / 2 ^ 40 = s.moduleId → s.moduleExists s.moduleId = true →
      (x.wr = false → ∃ u, s.xl x = .ok (⟨.hbm (fa % 2 ^ 40), e2 / 32 % 2 == 1, none⟩, u)) ∧
      (x.wr = true → feShared (s.frameEnt (fa % 2 ^ 40 / 65536)) = true → s.xl x = .error (.fault cPROT (x.aux 0 2 6))) ∧
      (x.wr = true → feShared (s.frameEnt (fa % 2 ^ 40 / 65536)) = false →
        ∃ u, s.xl x = .ok (⟨.hbm (fa % 2 ^ 40), e2 / 32 % 2 == 1, none⟩, u))) ∧
    (mapped → x.user = true → e2 / 8 % 2 = 0 → s.xl x = .error (.fault cPROT (x.aux 0 2 2))) ∧
    (mapped → (x.user = true → e2 / 8 % 2 = 1) → x.wr = true → e2 / 4 % 2 = 0 → s.xl x = .error (.fault cPROT (x.aux 0 2 3))) ∧
    (∀ p u, s.xl x = .ok (p, u) → { u with tiles := s.tiles } = s ∧
      (∀ n, { u.tile n with tlb := (s.tile n).tlb, cores := (s.tile n).cores } = s.tile n) ∧
      ∀ n c, { u.core n c with tlb := (s.core n c).tlb } = s.core n c)

/-- R244, R246, R270: bytes written at their home are what a read gives at once, every other byte of their line reads as
before, and no core is changed. R251, R252: a unit that reads for itself gets the bytes at their home, with a record of kind F
for each uncorrectable granule of them. The memories of the machine keep their canonical form: at reset, and under a write of bytes,
of HBM at its home, of TSM, of LS, of a panel row and of a frame-table entry. What is the model's own choice in it: log
entries 13, 16, 17. -/
def Obligations.MemoryLaws : Prop :=
  (∀ (s : State) (a k : Nat) (bs : List Byte), PlainLine s (a / 64 * 64) → a % 64 + bs.length ≤ 64 → bs ≠ [] →
     (s.tile (paTile a)).msc.Pairwise (fun x y => x.1 < y.1) →
     let u := s.homeWrite a bs k
     u.homeRead a bs.length = bs ∧ u.hostMem = s.hostMem ∧ u.pool = s.pool ∧ (∀ n c, u.core n c = s.core n c) ∧
       ∀ b, b / 64 = a / 64 → b < a ∨ a + bs.length ≤ b → u.homeRead b 1 = s.homeRead b 1) ∧
  (∀ (s : State) (a n : Nat), let t := paTile (s.homeAddr a)
     (s.badHome a n = [] → s.unitRead a n = (s.homeRead a n, s)) ∧
     (s.route t cUECC 2 false ≠ .drop → ∀ b ∈ s.badHome a n, ∃ r ∈ (s.unitRead a n).2.records,
       r.cause = cUECC ∧ r.kind = 2 ∧ r.tile = t ∧ r.addr = BitVec.ofNat 64 b.span.1)) ∧
  (Canonical State.reset ∧ (∀ (m : Mem) (a : Nat) (bs : List Byte), Memory.wf m → Memory.wf (mputs m a bs)) ∧
   ∀ s : State, Canonical s →
     (∀ a bs k, Canonical (s.homeWrite a bs k)) ∧ (∀ t a bs, Canonical (s.tsmWrite t a bs)) ∧
     (∀ t c a bs, Canonical (s.lsWrite t c a bs)) ∧ (∀ t c p r off bs, Canonical (s.putPanel t c p r off bs)) ∧
     ∀ f v, Canonical (s.putFrame f v))

/-! ### Encodings, steps and reset -/

/-- R53-R54, R65-R74: the decoder reads each well-formed operation back from its word: every operand at every value that the
encoding admits. -/
def Obligations.DecodeEncode : Prop := ∀ (i : Instr) (w : Word), i.wf = true → encode i = some w → decodeWord w = .ok i

/-- R75: a word that decodes is the encoding of the well-formed operation it decodes to: no bit of it is ignored. -/
def Obligations.EncodeDecode : Prop := ∀ (i : Instr) (w : Word), decodeWord w = .ok i → i.wf = true ∧ encode i = some w

/-- Table enc 1 and the class tables: words written out field by field stand for the operations of their rows. -/
def Obligations.DecodedWords : Prop :=
  decodeTableWord 64 0x2000290030000018 = some (.ld ⟨false, false, 0⟩ 5 ⟨.i64, .virt, 4, 24, .plain, .core⟩) ∧
  decodeTableWord 64 0xC22004205101D090 = some (.cpymm ⟨true, false, 0⟩ ⟨4, 2, 5, 1, false, false, .core⟩ 7 8 9) ∧
  decodeTableWord 64 0x9000FFFFFFFF0000 = some (.br ⟨true, false, 0⟩ .uni 0xFFFFFFFF) ∧
  decodeTableWord 64 0x8000000000000000 = some (.add ⟨true, false, 0⟩ 0 0 0) ∧
  decodeTableWord 64 0x8010184400000000 = some (.sub ⟨true, false, 0⟩ 3 1 2) ∧
  decodeTableWord 64 0x002D39BFFFFFFF80 = some (.addi ⟨false, true, 5⟩ 7 6 0xFFFFFFFE) ∧
  decodeTableWord 64 0x82104A800003C100 = some (.bfi ⟨true, false, 0⟩ 9 10 4 60) ∧
  decodeTableWord 64 0x8410120000001904 = some (.cmpi ⟨true, false, 0⟩ .ltn 2 8 100) ∧
  decodeTableWord 64 0x8630088780000000 = some (.sfma ⟨true, false, 0⟩ .sr 1 2 3) ∧
  decodeTableWord 64 0x8730214000003200 = some (.semadd ⟨true, false, 0⟩ 4 200 5) ∧
  decodeTableWord 64 0x9023000000006200 = some (.bri ⟨true, false, 3⟩ .any 17) ∧
  decodeTableWord 64 0x90800000006A0000 = some (.join ⟨true, false, 0⟩ 6 0b1010) ∧
  decodeTableWord 64 0x90A003E8FFFF0100 = some (.loopi ⟨true, false, 0⟩ 2 1000 0xFFFF) ∧
  decodeTableWord 64 0xA030298F26A3FFFF = some (.stx ⟨true, false, 0⟩ 5 ⟨.n32, .tsm, 6, 0x3FFFF, .rel, .fab⟩ 7 4) ∧
  decodeTableWord 64 0xA100088638C40008 = some (.aadd ⟨true, false, 0⟩ 1 ⟨.i64, .virt, 2, 8, .ar, .sys⟩ 3 true) ∧
  decodeTableWord 64 0xA200488143900040 = some (.bred ⟨true, false, 0⟩ ⟨9, .reg 3⟩ .max .f32 2 64) ∧
  decodeTableWord 64 0xA300000005000000 = some (.fence ⟨true, false, 0⟩ .mod .sc) ∧
  decodeTableWord 64 0xB0300821842C61C0 = some (.vfma ⟨true, false, 0⟩ .bf16 .sr ⟨1, .imm 2⟩ ⟨3, .imm 4⟩ (.row ⟨5, .reg 6⟩)) ∧
  decodeTableWord 64 0xB100082184A80811 = some (.viadd ⟨true, false, 0⟩ .i16 true ⟨1, .imm 2⟩ ⟨3, .imm 4⟩ (.scalar 21)) ∧
  decodeTableWord 64 0xB320580184600000 = some (.vargmax ⟨true, false, 0⟩ .f32 11 12 ⟨3, .imm 4⟩) ∧
  decodeTableWord 64 0xC000FF3111004446 = some (.mma ⟨true, false, 0⟩ ⟨255, 3, 17, 1, false, false, .core⟩ 1 2 4 .i8) ∧
  decodeTableWord 64 0xC110000000014C70 = some (.vproj ⟨true, false, 0⟩ ⟨0, 0, 0, 0, false, false, .core⟩ 5 6 7) ∧
  decodeTableWord 64 0xC300000000E42954 = some (.send ⟨true, false, 0⟩ ⟨0, 0, 0, 0, true, true, .sys⟩ 33 9 10 true) ∧
  decodeTableWord 64 0xD000050000000000 = some (.trap ⟨true, false, 0⟩ 5) ∧
  decodeTableWord 64 0xD020300900000000 = some (.mfcr ⟨true, false, 0⟩ 6 0x24) ∧
  decodeTableWord 64 0xD0300190C0000000 = some (.mtcrFqbase ⟨true, false, 0⟩ 6 1) ∧
  decodeTableWord 64 0xD040019000000000 = some (.tlbinvLarge ⟨true, false, 0⟩ 6) ∧
  decodeTableWord 64 0xD090020FFFFFFFC0 = some (.waitx ⟨true, false, 0⟩ 8 3 0xFFFFFFF0) ∧
  decodeTableWord 64 0xD120088700000000 = some (.frameopPop ⟨true, false, 0⟩ 1 2 3)

/-- R53, R56, R61, R89, R95: in a stream's turn the machine fetches the word at its PC from the core's instruction cache and
performs the operation it decodes to: a bundle of one operation that completes and does not transfer control is `exec` of it
with the PC past it, after which the stream's results in flight advance by a cycle. What is the model's own choice in it: log
entries 1, 4, 63. -/
def Obligations.StepRunsDecoded : Prop :=
  ∀ (s s2 u : State) (i : StreamId) (rest : List StreamId) (p : Place) (n : Nat) (bs : List Byte) (op : Instr),
    let s1 : State := { s with turn := rest, cur := i, iss := Issue.reset }
    let ks := s.clsOf i
    let pc := (s.cl i).pc &&& ~~~(7 : Word)
    let b := pc &&& ~~~(63 : Word)
    let next := BitVec.ofNat 64 ((pc + 8).toNat % 2 ^ 55)
    let w := BitVec.ofNat 64 (leNat ((bs.drop (pc - b).toNat).take 8))
    let s3 : State := { s2 with iss := { Issue.reset with
      bundle := pc, addr := pc, next, start := some (s2.bank i).cl, below := some s2.nextId } }
    s.agenda = [] → s.turn = i :: rest → s1.mayIssue i = true →
    (∀ k ∈ ks, (s.cl (onCl i k)).bubbles = 0 ∧ (s.cl (onCl i k)).hold = .none ∧ (s.cl (onCl i k)).after = none) →
    (s.cl i).hold = .none →
    s1.xl ⟨i.tile, b.toNat, false, true, s1.userLevel i, 0, 0, i.core⟩ = .ok (p, s2) →
    (s2.core i.tile i.core).icache.find? (fun e => e.1 == s2.fabric p.loc / 64) = some (n, bs) → s2.bad = [] → bs.length = 64 →
    w.getLsbD 63 = true → decodeWord w = .ok op → op.supervisor = false ∨ s2.userLevel i = false →
    opRank op = 0 → isSemOp op = false →
    exec op (s3.modCls i ks fun c => { c with pc := next }) = .next u → u.iss.res = .ok → u.iss.moved = false →
    next.toNat % 64 ≠ 0 →
    let u1 := u.modCls u.cur ks fun c =>
      { c with flights := c.flights.map fun f => { f with left := f.left - 1 }, flagsNow := 0 }
    step s = .next { u1.modCls u.cur ks (fun c => { c with waitAns := false }) with iss := Issue.reset }

/-- R424, Reset columns: after cold reset every task, queue, ring, counter and flag is empty or zero, predicate 0 is true, the
streams are idle and joined, the panels EMPTY, the tiles at operating point 5 of 5, and bring-up has not begun. R420: the
machine starts in that state. What is the model's own choice in it: log entry 12. -/
def Obligations.ResetState : Prop :=
  (let s := State.reset
   (∀ i, let c := s.cl i
     c.pc = 0 ∧ c.st = .idle ∧ (∀ r, c.reg r = 0 ∧ c.d r = false ∧ c.p r = false) ∧ (∀ q, c.q q = decide (q = 0)) ∧
     c.rstop = 0 ∧ c.priv = false ∧ c.fctl = 0 ∧ c.fstat = 0 ∧ c.srseed = 0 ∧ c.xfer = 0 ∧
     (s.bank i).joined = true ∧ (s.bank i).occ = false) ∧
   (∀ t c, let x := s.core t c
     (∀ g, ringOf x g = ⟨0, 0, 0⟩) ∧ (∀ p, x.pst p = .empty) ∧ (∀ k, tget 0 x.sems k = 0) ∧ x.fg = 0 ∧ x.xcnt = 0 ∧
     x.mwin.running = 4 ∧ x.proj.busy = false ∧ x.cour.busy = false ∧ (∀ a, mget x.ls a = 0)) ∧
   (∀ t, let x := s.tile t
     x.point = 5 ∧ x.ceiling = 5 ∧ x.floor = 0 ∧ x.ready = [] ∧ x.ptroot = 0 ∧ x.tvec = 0 ∧
     (∀ n < 32, x.cal.getD n 0 = BitVec.ofNat 5 (n / 2)) ∧ (∀ h, (tget Handle.reset x.handles h).st = 0) ∧
     ∀ n, tget Arrival.reset x.arrivals n = ⟨0, false⟩) ∧
   (∀ q, let x := tget LQ.reset s.lq q
     x.size = 0 ∧ x.head = 0 ∧ x.tail = 0 ∧ x.overrun = false) ∧
   s.tick = 0 ∧ s.sm.playing = none ∧ s.sm.scene = 0xFFFF ∧ s.cw.stage = 0 ∧ s.cw.failCode = 0 ∧ s.cw.quiesce = false ∧
   s.cw.ftail = 0 ∧ s.cw.fhead = 0 ∧ (∀ a, mget s.hbm a = 0)) ∧
  (PreRelease State.reset)

/-- R420: before the tiles are released nothing but bring-up, the host's accesses and events from outside runs. What is the
model's own choice in it: log entries 1, 2, 45. -/
def Obligations.NothingRunsBeforeRelease : Prop :=
  ∀ s t : State, PreRelease s → step s = .next t → PreRelease t ∨ t.cw.stage = 8
end

