-- ==== Sys2Proof/Laws/Tables.lean ====
section
/-!
SUPPORT. Laws of sparse tables, of the four clusters' quadruple and of folds: what a read gives after an update.
-/

namespace Sys2Proof.Laws

open Sys2Proof.Machine

/-- What holds of a state and is kept by each step of a fold holds after the fold. -/
theorem foldl_keeps {σ α : Type} {p : σ → Prop} {f : σ → α → σ} (hf : ∀ s a, p s → p (f s a)) (l : List α) {s : σ}
    (h : p s) : p (l.foldl f s) := by
  induction l generalizing s with
  | nil => exact h
  | cons a l ih => exact ih (hf s a h)

/-- An observation that each step of a fold keeps is kept by the fold. -/
theorem foldl_obs {σ α β : Type} (g : σ → β) {f : σ → α → σ} (hf : ∀ s a, g (f s a) = g s) (l : List α) (s : σ) :
    g (l.foldl f s) = g s := by
  induction l generalizing s with
  | nil => rfl
  | cons a l ih => exact (ih (f s a)).trans (hf s a)

/-- An observation that each step of a fold over the list's members keeps is kept by the fold. -/
theorem foldl_obs_mem {σ α β : Type} (g : σ → β) {f : σ → α → σ} (l : List α) (hf : ∀ s, ∀ a ∈ l, g (f s a) = g s)
    (s : σ) : g (l.foldl f s) = g s := by
  induction l generalizing s with
  | nil => rfl
  | cons a l ih =>
    exact (ih (fun s b hb => hf s b (List.mem_cons_of_mem a hb)) (f s a)).trans (hf s a List.mem_cons_self)

/-! ### Tables -/

theorem find_lt_none {α : Type} (t : Tbl α) (k : Nat) :
    (t.filter fun e => decide (e.1 < k)).find? (fun e => e.1 == k) = none := by
  simp only [List.find?_eq_none, List.mem_filter, decide_eq_true_eq]
  rintro x ⟨-, h⟩
  simp
  omega

theorem find_filter_of {α : Type} (t : Tbl α) (k : Nat) (p : Nat × α → Bool) (h : ∀ e : Nat × α, e.1 = k → p e = true) :
    (t.filter p).find? (fun e => e.1 == k) = t.find? fun e => e.1 == k := by
  induction t with
  | nil => rfl
  | cons e t ih =>
    by_cases hk : e.1 = k
    · rw [List.filter_cons_of_pos (h e hk), List.find?_cons_of_pos (by simpa using hk),
        List.find?_cons_of_pos (by simpa using hk)]
    · rw [List.find?_cons_of_neg (by simpa using hk)]
      by_cases hp : p e = true
      · rw [List.filter_cons_of_pos hp, List.find?_cons_of_neg (by simpa using hk), ih]
      · rw [List.filter_cons_of_neg hp, ih]

theorem find_filter_none {α : Type} (t : Tbl α) (k : Nat) (p : Nat × α → Bool) (h : ∀ e : Nat × α, e.1 = k → p e = false) :
    (t.filter p).find? (fun e => e.1 == k) = none := by
  simp only [List.find?_eq_none, List.mem_filter]
  rintro x ⟨-, hx⟩
  simp only [beq_iff_eq]
  intro hk
  simp [h x hk] at hx

@[simp] theorem tget_nil {α : Type} (d : α) (k : Nat) : tget d ([] : Tbl α) k = d := rfl

/-- The entry that was set reads back. -/
@[simp] theorem tget_tset_same {α : Type} (d : α) (t : Tbl α) (k : Nat) (v : α) : tget d (tset t k v) k = v := by
  unfold tget tset
  rw [List.find?_append, find_lt_none, List.find?_cons_of_pos (by simp)]
  rfl

/-- Other entries read as before. -/
theorem tget_tset_ne {α : Type} (d : α) (t : Tbl α) {k j : Nat} (v : α) (h : j ≠ k) :
    tget d (tset t k v) j = tget d t j := by
  unfold tget tset
  rw [List.find?_append, List.find?_cons_of_neg (by simpa using fun e => h e.symm)]
  rcases Nat.lt_or_gt_of_ne h with hl | hg
  · rw [find_filter_of t j _ (by rintro e rfl; simpa using hl)]
    rw [find_filter_none t j (fun e => decide (k < e.1)) (by rintro e rfl; simp; omega)]
    cases t.find? (fun e => e.1 == j) <;> rfl
  · rw [find_filter_none t j (fun e => decide (e.1 < k)) (by rintro e rfl; simp; omega)]
    rw [find_filter_of t j _ (by rintro e rfl; simpa using hg)]
    rfl

theorem tget_tset {α : Type} (d : α) (t : Tbl α) (k j : Nat) (v : α) :
    tget d (tset t k v) j = if j = k then v else tget d t j := by
  split
  · rename_i h; subst h; exact tget_tset_same d t j v
  · rename_i h; exact tget_tset_ne d t v h

theorem tget_tmod {α : Type} (d : α) (t : Tbl α) (k j : Nat) (f : α → α) :
    tget d (tmod d t k f) j = if j = k then f (tget d t k) else tget d t j := tget_tset d t k j _

/-- A removed entry reads as the default, another one as before. -/
theorem tget_tdel {α : Type} (d : α) (t : Tbl α) (k j : Nat) :
    tget d (tdel t k) j = if j = k then d else tget d t j := by
  unfold tget tdel
  by_cases h : j = k
  · subst h
    rw [find_filter_none t j (fun e => e.1 != j) (by rintro e rfl; simp), if_pos rfl]
  · rw [find_filter_of t j (fun e => e.1 != k) (by rintro e rfl; simpa using h), if_neg h]

/-! ### The four clusters -/

@[simp] theorem quad_get_set_same {α : Type} (q : Quad α) (i : Fin 4) (x : α) : (q.set i x).get i = x := by
  match i with
  | 0 | 1 | 2 | 3 => rfl

theorem quad_get_set_ne {α : Type} (q : Quad α) {i j : Fin 4} (x : α) (h : j ≠ i) : (q.set i x).get j = q.get j := by
  match i, j with
  | 0, 1 | 0, 2 | 0, 3 | 1, 0 | 1, 2 | 1, 3 | 2, 0 | 2, 1 | 2, 3 | 3, 0 | 3, 1 | 3, 2 => rfl
  | 0, 0 | 1, 1 | 2, 2 | 3, 3 => exact absurd rfl h

theorem quad_get_set {α : Type} (q : Quad α) (i j : Fin 4) (x : α) :
    (q.set i x).get j = if j = i then x else q.get j := by
  split
  · subst_vars; simp
  · rename_i h; exact quad_get_set_ne q x h

@[simp] theorem quad_get_map {α β : Type} (q : Quad α) (f : α → β) (i : Fin 4) : (q.map f).get i = f (q.get i) := by
  match i with
  | 0 | 1 | 2 | 3 => rfl

@[simp] theorem quad_get_all {α : Type} (x : α) (i : Fin 4) : (Quad.all x).get i = x := by
  match i with
  | 0 | 1 | 2 | 3 => rfl

/-- Two quadruples with the same members are equal. -/
theorem quad_ext {α : Type} {p q : Quad α} (h : ∀ i, p.get i = q.get i) : p = q := by
  cases p; cases q
  have h0 := h 0; have h1 := h 1; have h2 := h 2; have h3 := h 3
  simp only [Quad.get] at h0 h1 h2 h3
  subst_vars; rfl

end Sys2Proof.Laws
end

