-- ==== Sys2Proof/Laws/Memory.lean ====
section
/-!
SUPPORT. Laws of byte memories: reading after writing, and that every write keeps the canonical form.
-/

namespace Sys2Proof.Laws

open Sys2Proof.Machine

/-! ### Reading -/

@[simp] theorem mget_nil (a : Nat) : mget [] a = 0 := rfl

/-- A read of a list of cells without the address gives 0. -/
theorem mget_none {m : Mem} {a : Nat} (h : ∀ c ∈ m, c.1 ≠ a) : mget m a = 0 := by
  unfold mget
  rw [List.find?_eq_none.mpr (by simpa using fun x y hx => h (x, y) hx)]

/-- A read goes through a filter that keeps the address. -/
theorem mget_filter {m : Mem} {a : Nat} (p : Nat × Byte → Bool) (h : ∀ c : Nat × Byte, c.1 = a → p c = true) :
    mget (m.filter p) a = mget m a := by
  unfold mget
  rw [find_filter_of m a p h]

/-- A read finds nothing behind a filter that drops the address. -/
theorem mget_filter_none {m : Mem} {a : Nat} (p : Nat × Byte → Bool) (h : ∀ c : Nat × Byte, c.1 = a → p c = false) :
    mget (m.filter p) a = 0 := by
  unfold mget
  rw [find_filter_none m a p h]

theorem mget_append {m n : Mem} {a : Nat} (h : ∀ c ∈ m, c.1 ≠ a) : mget (m ++ n) a = mget n a := by
  unfold mget
  rw [List.find?_append, List.find?_eq_none.mpr (by simpa using fun x y hx => h (x, y) hx)]
  rfl

theorem mget_append_left {m n : Mem} {a : Nat} (h : ∀ c ∈ n, c.1 ≠ a) : mget (m ++ n) a = mget m a := by
  unfold mget
  rw [List.find?_append]
  cases hm : m.find? fun c => c.1 == a with
  | some c => rfl
  | none =>
    rw [List.find?_eq_none.mpr (by simpa using fun x y hx => h (x, y) hx)]
    rfl

/-! ### Cells of a run of bytes -/

theorem cellsOf_mem {c : Nat × Byte} : ∀ (bs : List Byte) (a : Nat), c ∈ cellsOf a bs →
    a ≤ c.1 ∧ c.1 < a + bs.length ∧ c.2 ≠ 0 := by
  intro bs
  induction bs with
  | nil => intro a h; simp [cellsOf] at h
  | cons b bs ih =>
    intro a h
    rw [List.length_cons]
    by_cases hb : b = 0
    · simp only [cellsOf, hb, beq_self_eq_true, ite_true] at h
      obtain ⟨h1, h2, h3⟩ := ih (a + 1) h
      exact ⟨by omega, by omega, h3⟩
    · simp only [cellsOf, beq_iff_eq, hb, ite_false, List.mem_cons] at h
      rcases h with rfl | h
      · exact ⟨Nat.le_refl _, by simp only; omega, hb⟩
      · obtain ⟨h1, h2, h3⟩ := ih (a + 1) h
        exact ⟨by omega, by omega, h3⟩

theorem mget_cellsOf : ∀ (bs : List Byte) (a i : Nat), mget (cellsOf a bs) (a + i) = bs.getD i 0 := by
  intro bs
  induction bs with
  | nil => intro a i; simp [cellsOf]
  | cons b bs ih =>
    intro a i
    have later : ∀ c ∈ cellsOf (a + 1) bs, c.1 ≠ a := fun c hc h => by have := cellsOf_mem bs (a + 1) hc; omega
    by_cases hb : b = 0
    · simp only [cellsOf, hb, beq_self_eq_true, ite_true]
      cases i with
      | zero => simpa using mget_none later
      | succ i => have := ih (a + 1) i; rw [show a + 1 + i = a + (i + 1) by omega] at this; simpa using this
    · simp only [cellsOf, beq_iff_eq, hb, ite_false]
      cases i with
      | zero => simp [mget]
      | succ i =>
        have := ih (a + 1) i
        rw [show a + 1 + i = a + (i + 1) by omega] at this
        rw [← List.singleton_append, mget_append (by simp)]
        simpa using this

/-! ### Reading after a write -/

/-- A written byte reads back. -/
theorem mget_mputs_in (m : Mem) (a : Nat) (bs : List Byte) {i : Nat} (h : i < bs.length) :
    mget (mputs m a bs) (a + i) = bs.getD i 0 := by
  unfold mputs
  rw [List.append_assoc, mget_append, mget_append_left, mget_cellsOf]
  · intro c hc; simp only [List.mem_filter, decide_eq_true_eq] at hc; omega
  · intro c hc; simp only [List.mem_filter, decide_eq_true_eq] at hc; omega

/-- A byte outside the range written reads as before. -/
theorem mget_mputs_out (m : Mem) (a : Nat) (bs : List Byte) {b : Nat} (h : b < a ∨ a + bs.length ≤ b) :
    mget (mputs m a bs) b = mget m b := by
  have mid : ∀ c ∈ cellsOf a bs, c.1 ≠ b := fun c hc e => by have := cellsOf_mem bs a hc; omega
  unfold mputs
  rcases h with h | h
  · rw [List.append_assoc, mget_append_left, mget_filter _ (by rintro c rfl; simpa using h)]
    intro c hc
    rcases List.mem_append.mp hc with hc | hc
    · exact mid c hc
    · simp only [List.mem_filter, decide_eq_true_eq] at hc; omega
  · rw [mget_append, mget_filter _ (by rintro c rfl; simpa using h)]
    intro c hc
    rcases List.mem_append.mp hc with hc | hc
    · simp only [List.mem_filter, decide_eq_true_eq] at hc; omega
    · exact mid c hc

/-- Both cases at once. -/
theorem mget_mputs (m : Mem) (a : Nat) (bs : List Byte) (b : Nat) :
    mget (mputs m a bs) b = if a ≤ b ∧ b < a + bs.length then bs.getD (b - a) 0 else mget m b := by
  split
  · rename_i h
    have := mget_mputs_in m a bs (i := b - a) (by omega)
    rwa [show a + (b - a) = b by omega] at this
  · exact mget_mputs_out m a bs (by omega)

/-! ### Runs of bytes -/

@[simp] theorem mgets_length (m : Mem) (a n : Nat) : (mgets m a n).length = n := by simp [mgets]

theorem mgets_getD (m : Mem) (a n : Nat) {i : Nat} (h : i < n) : (mgets m a n).getD i 0 = mget m (a + i) := by
  simp only [mgets, List.getD_eq_getElem?_getD, List.getElem?_map, List.getElem?_range h, Option.map_some, Option.getD_some]
  exact mget_filter _ (by rintro c hc; simp [hc]; omega)

/-- A run reads byte by byte. -/
theorem mgets_eq (m : Mem) (a n : Nat) : mgets m a n = (List.range n).map fun i => mget m (a + i) := by
  simp only [mgets]
  apply List.map_congr_left
  intro i hi
  have := List.mem_range.mp hi
  exact mget_filter _ (by rintro c hc; simp [hc]; omega)

theorem mgets_congr {m n : Mem} {a k : Nat} (h : ∀ b, a ≤ b → b < a + k → mget m b = mget n b) :
    mgets m a k = mgets n a k := by
  rw [mgets_eq, mgets_eq]
  apply List.map_congr_left
  intro i hi
  have := List.mem_range.mp hi
  exact h _ (by omega) (by omega)

/-- What was written reads back. -/
theorem mgets_mputs_same (m : Mem) (a : Nat) (bs : List Byte) : mgets (mputs m a bs) a bs.length = bs := by
  rw [mgets_eq]
  apply List.ext_getElem (by simp)
  intro i h1 h2
  have := mget_mputs_in m a bs h2
  simp [this, List.getD_eq_getElem?_getD, List.getElem?_eq_getElem h2]

/-- A run outside the range written reads as before. -/
theorem mgets_mputs_out (m : Mem) (a : Nat) (bs : List Byte) {b n : Nat} (h : b + n ≤ a ∨ a + bs.length ≤ b) :
    mgets (mputs m a bs) b n = mgets m b n :=
  mgets_congr fun c h1 h2 => mget_mputs_out m a bs (by omega)

/-! ### The canonical form -/

@[simp] theorem wf_nil : Memory.wf ([] : Mem) := ⟨List.Pairwise.nil, by simp⟩

theorem cellsOf_pairwise : ∀ (bs : List Byte) (a : Nat), (cellsOf a bs).Pairwise fun x y => x.1 < y.1 := by
  intro bs
  induction bs with
  | nil => intro a; exact List.Pairwise.nil
  | cons b bs ih =>
    intro a
    by_cases hb : b = 0
    · simp only [cellsOf, hb, beq_self_eq_true, ite_true]; exact ih (a + 1)
    · simp only [cellsOf, beq_iff_eq, hb, ite_false]
      refine List.Pairwise.cons ?_ (ih (a + 1))
      intro c hc
      have := cellsOf_mem bs (a + 1) hc
      simp only
      omega

/-- A write keeps the canonical form. -/
theorem wf_mputs {m : Mem} (h : Memory.wf m) (a : Nat) (bs : List Byte) : Memory.wf (mputs m a bs) := by
  obtain ⟨hs, hz⟩ := h
  refine ⟨?_, ?_⟩
  · unfold mputs
    refine List.pairwise_append.mpr ⟨List.pairwise_append.mpr ⟨hs.filter _, cellsOf_pairwise bs a, ?_⟩, hs.filter _, ?_⟩
    · intro x hx y hy
      simp only [List.mem_filter, decide_eq_true_eq] at hx
      have := cellsOf_mem bs a hy
      omega
    · intro x hx y hy
      simp only [List.mem_filter, decide_eq_true_eq] at hy
      rcases List.mem_append.mp hx with hx | hx
      · simp only [List.mem_filter, decide_eq_true_eq] at hx; omega
      · have := cellsOf_mem bs a hx; omega
  · intro c hc
    unfold mputs at hc
    rcases List.mem_append.mp hc with hc | hc
    · rcases List.mem_append.mp hc with hc | hc
      · exact hz c ((List.mem_filter.mp hc).1)
      · exact (cellsOf_mem bs a hc).2.2
    · exact hz c ((List.mem_filter.mp hc).1)

/-- A part of a canonical memory is canonical. -/
theorem wf_filter {m : Mem} (h : Memory.wf m) (p : Nat × Byte → Bool) : Memory.wf (m.filter p) :=
  ⟨h.1.filter p, fun c hc => h.2 c ((List.mem_filter.mp hc).1)⟩

/-! ### Little-endian numbers -/

@[simp] theorem leBytes_length (n v : Nat) : (leBytes n v).length = n := by
  induction n generalizing v with
  | zero => rfl
  | succ n ih => simp [leBytes, ih]

/-- Bytes of a value give it back, as far as they reach. -/
theorem leNat_leBytes (n v : Nat) : leNat (leBytes n v) = v % 256 ^ n := by
  induction n generalizing v with
  | zero => simp [leBytes, leNat, Nat.mod_one]
  | succ n ih =>
    have e : 256 ^ (n + 1) = 256 * 256 ^ n := by rw [Nat.pow_succ, Nat.mul_comm]
    rw [leBytes, leNat, ih, BitVec.toNat_ofNat, e, Nat.mod_mul]

theorem leNat_lt (bs : List Byte) : leNat bs < 256 ^ bs.length := by
  induction bs with
  | nil => simp [leNat]
  | cons b bs ih =>
    simp only [leNat, List.length_cons, Nat.pow_succ]
    have := b.isLt
    omega

end Sys2Proof.Laws
end

