-- ==== Sys2Proof/Laws/State.lean ====
section
/-!
SUPPORT. Laws of the updates of State: one lemma a field and update, and what a tile, core, bank or cluster reads after an
update of another or of the same one. No later proof unfolds an update.
-/

namespace Sys2Proof.Laws

open Sys2Proof.Machine

/-! ### Fields of State that the updates of a tile, core, bank or cluster leave -/

@[simp] theorem modTile_hbm (s : State) (t : Nat) (f : Tile → Tile) : (s.modTile t f).hbm = s.hbm := rfl
@[simp] theorem modTile_tick (s : State) (t : Nat) (f : Tile → Tile) : (s.modTile t f).tick = s.tick := rfl
@[simp] theorem modTile_quantum (s : State) (t : Nat) (f : Tile → Tile) : (s.modTile t f).quantum = s.quantum := rfl
@[simp] theorem modTile_sub (s : State) (t : Nat) (f : Tile → Tile) : (s.modTile t f).sub = s.sub := rfl
@[simp] theorem modTile_phase (s : State) (t : Nat) (f : Tile → Tile) : (s.modTile t f).phase = s.phase := rfl
@[simp] theorem modTile_agenda (s : State) (t : Nat) (f : Tile → Tile) : (s.modTile t f).agenda = s.agenda := rfl
@[simp] theorem modTile_turn (s : State) (t : Nat) (f : Tile → Tile) : (s.modTile t f).turn = s.turn := rfl
@[simp] theorem modTile_inputs (s : State) (t : Nat) (f : Tile → Tile) : (s.modTile t f).inputs = s.inputs := rfl
@[simp] theorem modTile_fresh (s : State) (t : Nat) (f : Tile → Tile) : (s.modTile t f).fresh = s.fresh := rfl
@[simp] theorem modTile_cur (s : State) (t : Nat) (f : Tile → Tile) : (s.modTile t f).cur = s.cur := rfl
@[simp] theorem modTile_iss (s : State) (t : Nat) (f : Tile → Tile) : (s.modTile t f).iss = s.iss := rfl
@[simp] theorem modTile_reqs (s : State) (t : Nat) (f : Tile → Tile) : (s.modTile t f).reqs = s.reqs := rfl
@[simp] theorem modTile_nextId (s : State) (t : Nat) (f : Tile → Tile) : (s.modTile t f).nextId = s.nextId := rfl
@[simp] theorem modTile_blocks (s : State) (t : Nat) (f : Tile → Tile) : (s.modTile t f).blocks = s.blocks := rfl
@[simp] theorem modTile_acks (s : State) (t : Nat) (f : Tile → Tile) : (s.modTile t f).acks = s.acks := rfl
@[simp] theorem modTile_lq (s : State) (t : Nat) (f : Tile → Tile) : (s.modTile t f).lq = s.lq := rfl
@[simp] theorem modTile_launches (s : State) (t : Nat) (f : Tile → Tile) : (s.modTile t f).launches = s.launches := rfl
@[simp] theorem modTile_companies (s : State) (t : Nat) (f : Tile → Tile) : (s.modTile t f).companies = s.companies := rfl
@[simp] theorem modTile_conts (s : State) (t : Nat) (f : Tile → Tile) : (s.modTile t f).conts = s.conts := rfl
@[simp] theorem modTile_keys (s : State) (t : Nat) (f : Tile → Tile) : (s.modTile t f).keys = s.keys := rfl
@[simp] theorem modTile_regsPending (s : State) (t : Nat) (f : Tile → Tile) : (s.modTile t f).regsPending = s.regsPending := rfl
@[simp] theorem modTile_posts (s : State) (t : Nat) (f : Tile → Tile) : (s.modTile t f).posts = s.posts := rfl
@[simp] theorem modTile_trigs (s : State) (t : Nat) (f : Tile → Tile) : (s.modTile t f).trigs = s.trigs := rfl
@[simp] theorem modTile_preRecs (s : State) (t : Nat) (f : Tile → Tile) : (s.modTile t f).preRecs = s.preRecs := rfl
@[simp] theorem modTile_preempts (s : State) (t : Nat) (f : Tile → Tile) : (s.modTile t f).preempts = s.preempts := rfl
@[simp] theorem modTile_saved (s : State) (t : Nat) (f : Tile → Tile) : (s.modTile t f).saved = s.saved := rfl
@[simp] theorem modTile_savedCores (s : State) (t : Nat) (f : Tile → Tile) : (s.modTile t f).savedCores = s.savedCores := rfl
@[simp] theorem modTile_sheets (s : State) (t : Nat) (f : Tile → Tile) : (s.modTile t f).sheets = s.sheets := rfl
@[simp] theorem modTile_sm (s : State) (t : Nat) (f : Tile → Tile) : (s.modTile t f).sm = s.sm := rfl
@[simp] theorem modTile_circuits (s : State) (t : Nat) (f : Tile → Tile) : (s.modTile t f).circuits = s.circuits := rfl
@[simp] theorem modTile_lasers (s : State) (t : Nat) (f : Tile → Tile) : (s.modTile t f).lasers = s.lasers := rfl
@[simp] theorem modTile_budget (s : State) (t : Nat) (f : Tile → Tile) : (s.modTile t f).budget = s.budget := rfl
@[simp] theorem modTile_cw (s : State) (t : Nat) (f : Tile → Tile) : (s.modTile t f).cw = s.cw := rfl
@[simp] theorem modTile_vectors (s : State) (t : Nat) (f : Tile → Tile) : (s.modTile t f).vectors = s.vectors := rfl
@[simp] theorem modTile_hostMem (s : State) (t : Nat) (f : Tile → Tile) : (s.modTile t f).hostMem = s.hostMem := rfl
@[simp] theorem modTile_pool (s : State) (t : Nat) (f : Tile → Tile) : (s.modTile t f).pool = s.pool := rfl
@[simp] theorem modTile_records (s : State) (t : Nat) (f : Tile → Tile) : (s.modTile t f).records = s.records := rfl
@[simp] theorem modTile_posted (s : State) (t : Nat) (f : Tile → Tile) : (s.modTile t f).posted = s.posted := rfl
@[simp] theorem modTile_losses (s : State) (t : Nat) (f : Tile → Tile) : (s.modTile t f).losses = s.losses := rfl
@[simp] theorem modTile_rot (s : State) (t : Nat) (f : Tile → Tile) : (s.modTile t f).rot = s.rot := rfl
@[simp] theorem modTile_bad (s : State) (t : Nat) (f : Tile → Tile) : (s.modTile t f).bad = s.bad := rfl
@[simp] theorem modTile_late (s : State) (t : Nat) (f : Tile → Tile) : (s.modTile t f).late = s.late := rfl
@[simp] theorem modTile_savedTiles (s : State) (t : Nat) (f : Tile → Tile) : (s.modTile t f).savedTiles = s.savedTiles := rfl
@[simp] theorem modTile_noLocks (s : State) (t : Nat) (f : Tile → Tile) : (s.modTile t f).noLocks = s.noLocks := rfl

@[simp] theorem modCore_hbm (s : State) (t c : Nat) (f : Core → Core) : (s.modCore t c f).hbm = s.hbm := rfl
@[simp] theorem modCore_tick (s : State) (t c : Nat) (f : Core → Core) : (s.modCore t c f).tick = s.tick := rfl
@[simp] theorem modCore_quantum (s : State) (t c : Nat) (f : Core → Core) : (s.modCore t c f).quantum = s.quantum := rfl
@[simp] theorem modCore_sub (s : State) (t c : Nat) (f : Core → Core) : (s.modCore t c f).sub = s.sub := rfl
@[simp] theorem modCore_phase (s : State) (t c : Nat) (f : Core → Core) : (s.modCore t c f).phase = s.phase := rfl
@[simp] theorem modCore_agenda (s : State) (t c : Nat) (f : Core → Core) : (s.modCore t c f).agenda = s.agenda := rfl
@[simp] theorem modCore_turn (s : State) (t c : Nat) (f : Core → Core) : (s.modCore t c f).turn = s.turn := rfl
@[simp] theorem modCore_inputs (s : State) (t c : Nat) (f : Core → Core) : (s.modCore t c f).inputs = s.inputs := rfl
@[simp] theorem modCore_fresh (s : State) (t c : Nat) (f : Core → Core) : (s.modCore t c f).fresh = s.fresh := rfl
@[simp] theorem modCore_cur (s : State) (t c : Nat) (f : Core → Core) : (s.modCore t c f).cur = s.cur := rfl
@[simp] theorem modCore_iss (s : State) (t c : Nat) (f : Core → Core) : (s.modCore t c f).iss = s.iss := rfl
@[simp] theorem modCore_reqs (s : State) (t c : Nat) (f : Core → Core) : (s.modCore t c f).reqs = s.reqs := rfl
@[simp] theorem modCore_nextId (s : State) (t c : Nat) (f : Core → Core) : (s.modCore t c f).nextId = s.nextId := rfl
@[simp] theorem modCore_blocks (s : State) (t c : Nat) (f : Core → Core) : (s.modCore t c f).blocks = s.blocks := rfl
@[simp] theorem modCore_acks (s : State) (t c : Nat) (f : Core → Core) : (s.modCore t c f).acks = s.acks := rfl
@[simp] theorem modCore_lq (s : State) (t c : Nat) (f : Core → Core) : (s.modCore t c f).lq = s.lq := rfl
@[simp] theorem modCore_launches (s : State) (t c : Nat) (f : Core → Core) : (s.modCore t c f).launches = s.launches := rfl
@[simp] theorem modCore_companies (s : State) (t c : Nat) (f : Core → Core) : (s.modCore t c f).companies = s.companies := rfl
@[simp] theorem modCore_conts (s : State) (t c : Nat) (f : Core → Core) : (s.modCore t c f).conts = s.conts := rfl
@[simp] theorem modCore_keys (s : State) (t c : Nat) (f : Core → Core) : (s.modCore t c f).keys = s.keys := rfl
@[simp] theorem modCore_regsPending (s : State) (t c : Nat) (f : Core → Core) : (s.modCore t c f).regsPending = s.regsPending := rfl
@[simp] theorem modCore_posts (s : State) (t c : Nat) (f : Core → Core) : (s.modCore t c f).posts = s.posts := rfl
@[simp] theorem modCore_trigs (s : State) (t c : Nat) (f : Core → Core) : (s.modCore t c f).trigs = s.trigs := rfl
@[simp] theorem modCore_preRecs (s : State) (t c : Nat) (f : Core → Core) : (s.modCore t c f).preRecs = s.preRecs := rfl
@[simp] theorem modCore_preempts (s : State) (t c : Nat) (f : Core → Core) : (s.modCore t c f).preempts = s.preempts := rfl
@[simp] theorem modCore_saved (s : State) (t c : Nat) (f : Core → Core) : (s.modCore t c f).saved = s.saved := rfl
@[simp] theorem modCore_savedCores (s : State) (t c : Nat) (f : Core → Core) : (s.modCore t c f).savedCores = s.savedCores := rfl
@[simp] theorem modCore_sheets (s : State) (t c : Nat) (f : Core → Core) : (s.modCore t c f).sheets = s.sheets := rfl
@[simp] theorem modCore_sm (s : State) (t c : Nat) (f : Core → Core) : (s.modCore t c f).sm = s.sm := rfl
@[simp] theorem modCore_circuits (s : State) (t c : Nat) (f : Core → Core) : (s.modCore t c f).circuits = s.circuits := rfl
@[simp] theorem modCore_lasers (s : State) (t c : Nat) (f : Core → Core) : (s.modCore t c f).lasers = s.lasers := rfl
@[simp] theorem modCore_budget (s : State) (t c : Nat) (f : Core → Core) : (s.modCore t c f).budget = s.budget := rfl
@[simp] theorem modCore_cw (s : State) (t c : Nat) (f : Core → Core) : (s.modCore t c f).cw = s.cw := rfl
@[simp] theorem modCore_vectors (s : State) (t c : Nat) (f : Core → Core) : (s.modCore t c f).vectors = s.vectors := rfl
@[simp] theorem modCore_hostMem (s : State) (t c : Nat) (f : Core → Core) : (s.modCore t c f).hostMem = s.hostMem := rfl
@[simp] theorem modCore_pool (s : State) (t c : Nat) (f : Core → Core) : (s.modCore t c f).pool = s.pool := rfl
@[simp] theorem modCore_records (s : State) (t c : Nat) (f : Core → Core) : (s.modCore t c f).records = s.records := rfl
@[simp] theorem modCore_posted (s : State) (t c : Nat) (f : Core → Core) : (s.modCore t c f).posted = s.posted := rfl
@[simp] theorem modCore_losses (s : State) (t c : Nat) (f : Core → Core) : (s.modCore t c f).losses = s.losses := rfl
@[simp] theorem modCore_rot (s : State) (t c : Nat) (f : Core → Core) : (s.modCore t c f).rot = s.rot := rfl
@[simp] theorem modCore_bad (s : State) (t c : Nat) (f : Core → Core) : (s.modCore t c f).bad = s.bad := rfl
@[simp] theorem modCore_late (s : State) (t c : Nat) (f : Core → Core) : (s.modCore t c f).late = s.late := rfl
@[simp] theorem modCore_savedTiles (s : State) (t c : Nat) (f : Core → Core) : (s.modCore t c f).savedTiles = s.savedTiles := rfl
@[simp] theorem modCore_noLocks (s : State) (t c : Nat) (f : Core → Core) : (s.modCore t c f).noLocks = s.noLocks := rfl

@[simp] theorem modBank_hbm (s : State) (i : StreamId) (f : Bank → Bank) : (s.modBank i f).hbm = s.hbm := rfl
@[simp] theorem modBank_tick (s : State) (i : StreamId) (f : Bank → Bank) : (s.modBank i f).tick = s.tick := rfl
@[simp] theorem modBank_quantum (s : State) (i : StreamId) (f : Bank → Bank) : (s.modBank i f).quantum = s.quantum := rfl
@[simp] theorem modBank_sub (s : State) (i : StreamId) (f : Bank → Bank) : (s.modBank i f).sub = s.sub := rfl
@[simp] theorem modBank_phase (s : State) (i : StreamId) (f : Bank → Bank) : (s.modBank i f).phase = s.phase := rfl
@[simp] theorem modBank_agenda (s : State) (i : StreamId) (f : Bank → Bank) : (s.modBank i f).agenda = s.agenda := rfl
@[simp] theorem modBank_turn (s : State) (i : StreamId) (f : Bank → Bank) : (s.modBank i f).turn = s.turn := rfl
@[simp] theorem modBank_inputs (s : State) (i : StreamId) (f : Bank → Bank) : (s.modBank i f).inputs = s.inputs := rfl
@[simp] theorem modBank_fresh (s : State) (i : StreamId) (f : Bank → Bank) : (s.modBank i f).fresh = s.fresh := rfl
@[simp] theorem modBank_cur (s : State) (i : StreamId) (f : Bank → Bank) : (s.modBank i f).cur = s.cur := rfl
@[simp] theorem modBank_iss (s : State) (i : StreamId) (f : Bank → Bank) : (s.modBank i f).iss = s.iss := rfl
@[simp] theorem modBank_reqs (s : State) (i : StreamId) (f : Bank → Bank) : (s.modBank i f).reqs = s.reqs := rfl
@[simp] theorem modBank_nextId (s : State) (i : StreamId) (f : Bank → Bank) : (s.modBank i f).nextId = s.nextId := rfl
@[simp] theorem modBank_blocks (s : State) (i : StreamId) (f : Bank → Bank) : (s.modBank i f).blocks = s.blocks := rfl
@[simp] theorem modBank_acks (s : State) (i : StreamId) (f : Bank → Bank) : (s.modBank i f).acks = s.acks := rfl
@[simp] theorem modBank_lq (s : State) (i : StreamId) (f : Bank → Bank) : (s.modBank i f).lq = s.lq := rfl
@[simp] theorem modBank_launches (s : State) (i : StreamId) (f : Bank → Bank) : (s.modBank i f).launches = s.launches := rfl
@[simp] theorem modBank_companies (s : State) (i : StreamId) (f : Bank → Bank) : (s.modBank i f).companies = s.companies := rfl
@[simp] theorem modBank_conts (s : State) (i : StreamId) (f : Bank → Bank) : (s.modBank i f).conts = s.conts := rfl
@[simp] theorem modBank_keys (s : State) (i : StreamId) (f : Bank → Bank) : (s.modBank i f).keys = s.keys := rfl
@[simp] theorem modBank_regsPending (s : State) (i : StreamId) (f : Bank → Bank) : (s.modBank i f).regsPending = s.regsPending := rfl
@[simp] theorem modBank_posts (s : State) (i : StreamId) (f : Bank → Bank) : (s.modBank i f).posts = s.posts := rfl
@[simp] theorem modBank_trigs (s : State) (i : StreamId) (f : Bank → Bank) : (s.modBank i f).trigs = s.trigs := rfl
@[simp] theorem modBank_preRecs (s : State) (i : StreamId) (f : Bank → Bank) : (s.modBank i f).preRecs = s.preRecs := rfl
@[simp] theorem modBank_preempts (s : State) (i : StreamId) (f : Bank → Bank) : (s.modBank i f).preempts = s.preempts := rfl
@[simp] theorem modBank_saved (s : State) (i : StreamId) (f : Bank → Bank) : (s.modBank i f).saved = s.saved := rfl
@[simp] theorem modBank_savedCores (s : State) (i : StreamId) (f : Bank → Bank) : (s.modBank i f).savedCores = s.savedCores := rfl
@[simp] theorem modBank_sheets (s : State) (i : StreamId) (f : Bank → Bank) : (s.modBank i f).sheets = s.sheets := rfl
@[simp] theorem modBank_sm (s : State) (i : StreamId) (f : Bank → Bank) : (s.modBank i f).sm = s.sm := rfl
@[simp] theorem modBank_circuits (s : State) (i : StreamId) (f : Bank → Bank) : (s.modBank i f).circuits = s.circuits := rfl
@[simp] theorem modBank_lasers (s : State) (i : StreamId) (f : Bank → Bank) : (s.modBank i f).lasers = s.lasers := rfl
@[simp] theorem modBank_budget (s : State) (i : StreamId) (f : Bank → Bank) : (s.modBank i f).budget = s.budget := rfl
@[simp] theorem modBank_cw (s : State) (i : StreamId) (f : Bank → Bank) : (s.modBank i f).cw = s.cw := rfl
@[simp] theorem modBank_vectors (s : State) (i : StreamId) (f : Bank → Bank) : (s.modBank i f).vectors = s.vectors := rfl
@[simp] theorem modBank_hostMem (s : State) (i : StreamId) (f : Bank → Bank) : (s.modBank i f).hostMem = s.hostMem := rfl
@[simp] theorem modBank_pool (s : State) (i : StreamId) (f : Bank → Bank) : (s.modBank i f).pool = s.pool := rfl
@[simp] theorem modBank_records (s : State) (i : StreamId) (f : Bank → Bank) : (s.modBank i f).records = s.records := rfl
@[simp] theorem modBank_posted (s : State) (i : StreamId) (f : Bank → Bank) : (s.modBank i f).posted = s.posted := rfl
@[simp] theorem modBank_losses (s : State) (i : StreamId) (f : Bank → Bank) : (s.modBank i f).losses = s.losses := rfl
@[simp] theorem modBank_rot (s : State) (i : StreamId) (f : Bank → Bank) : (s.modBank i f).rot = s.rot := rfl
@[simp] theorem modBank_bad (s : State) (i : StreamId) (f : Bank → Bank) : (s.modBank i f).bad = s.bad := rfl
@[simp] theorem modBank_late (s : State) (i : StreamId) (f : Bank → Bank) : (s.modBank i f).late = s.late := rfl
@[simp] theorem modBank_savedTiles (s : State) (i : StreamId) (f : Bank → Bank) : (s.modBank i f).savedTiles = s.savedTiles := rfl
@[simp] theorem modBank_noLocks (s : State) (i : StreamId) (f : Bank → Bank) : (s.modBank i f).noLocks = s.noLocks := rfl

@[simp] theorem modCl_hbm (s : State) (i : StreamId) (f : Cluster → Cluster) : (s.modCl i f).hbm = s.hbm := rfl
@[simp] theorem modCl_tick (s : State) (i : StreamId) (f : Cluster → Cluster) : (s.modCl i f).tick = s.tick := rfl
@[simp] theorem modCl_quantum (s : State) (i : StreamId) (f : Cluster → Cluster) : (s.modCl i f).quantum = s.quantum := rfl
@[simp] theorem modCl_sub (s : State) (i : StreamId) (f : Cluster → Cluster) : (s.modCl i f).sub = s.sub := rfl
@[simp] theorem modCl_phase (s : State) (i : StreamId) (f : Cluster → Cluster) : (s.modCl i f).phase = s.phase := rfl
@[simp] theorem modCl_agenda (s : State) (i : StreamId) (f : Cluster → Cluster) : (s.modCl i f).agenda = s.agenda := rfl
@[simp] theorem modCl_turn (s : State) (i : StreamId) (f : Cluster → Cluster) : (s.modCl i f).turn = s.turn := rfl
@[simp] theorem modCl_inputs (s : State) (i : StreamId) (f : Cluster → Cluster) : (s.modCl i f).inputs = s.inputs := rfl
@[simp] theorem modCl_fresh (s : State) (i : StreamId) (f : Cluster → Cluster) : (s.modCl i f).fresh = s.fresh := rfl
@[simp] theorem modCl_cur (s : State) (i : StreamId) (f : Cluster → Cluster) : (s.modCl i f).cur = s.cur := rfl
@[simp] theorem modCl_iss (s : State) (i : StreamId) (f : Cluster → Cluster) : (s.modCl i f).iss = s.iss := rfl
@[simp] theorem modCl_reqs (s : State) (i : StreamId) (f : Cluster → Cluster) : (s.modCl i f).reqs = s.reqs := rfl
@[simp] theorem modCl_nextId (s : State) (i : StreamId) (f : Cluster → Cluster) : (s.modCl i f).nextId = s.nextId := rfl
@[simp] theorem modCl_blocks (s : State) (i : StreamId) (f : Cluster → Cluster) : (s.modCl i f).blocks = s.blocks := rfl
@[simp] theorem modCl_acks (s : State) (i : StreamId) (f : Cluster → Cluster) : (s.modCl i f).acks = s.acks := rfl
@[simp] theorem modCl_lq (s : State) (i : StreamId) (f : Cluster → Cluster) : (s.modCl i f).lq = s.lq := rfl
@[simp] theorem modCl_launches (s : State) (i : StreamId) (f : Cluster → Cluster) : (s.modCl i f).launches = s.launches := rfl
@[simp] theorem modCl_companies (s : State) (i : StreamId) (f : Cluster → Cluster) : (s.modCl i f).companies = s.companies := rfl
@[simp] theorem modCl_conts (s : State) (i : StreamId) (f : Cluster → Cluster) : (s.modCl i f).conts = s.conts := rfl
@[simp] theorem modCl_keys (s : State) (i : StreamId) (f : Cluster → Cluster) : (s.modCl i f).keys = s.keys := rfl
@[simp] theorem modCl_regsPending (s : State) (i : StreamId) (f : Cluster → Cluster) : (s.modCl i f).regsPending = s.regsPending := rfl
@[simp] theorem modCl_posts (s : State) (i : StreamId) (f : Cluster → Cluster) : (s.modCl i f).posts = s.posts := rfl
@[simp] theorem modCl_trigs (s : State) (i : StreamId) (f : Cluster → Cluster) : (s.modCl i f).trigs = s.trigs := rfl
@[simp] theorem modCl_preRecs (s : State) (i : StreamId) (f : Cluster → Cluster) : (s.modCl i f).preRecs = s.preRecs := rfl
@[simp] theorem modCl_preempts (s : State) (i : StreamId) (f : Cluster → Cluster) : (s.modCl i f).preempts = s.preempts := rfl
@[simp] theorem modCl_saved (s : State) (i : StreamId) (f : Cluster → Cluster) : (s.modCl i f).saved = s.saved := rfl
@[simp] theorem modCl_savedCores (s : State) (i : StreamId) (f : Cluster → Cluster) : (s.modCl i f).savedCores = s.savedCores := rfl
@[simp] theorem modCl_sheets (s : State) (i : StreamId) (f : Cluster → Cluster) : (s.modCl i f).sheets = s.sheets := rfl
@[simp] theorem modCl_sm (s : State) (i : StreamId) (f : Cluster → Cluster) : (s.modCl i f).sm = s.sm := rfl
@[simp] theorem modCl_circuits (s : State) (i : StreamId) (f : Cluster → Cluster) : (s.modCl i f).circuits = s.circuits := rfl
@[simp] theorem modCl_lasers (s : State) (i : StreamId) (f : Cluster → Cluster) : (s.modCl i f).lasers = s.lasers := rfl
@[simp] theorem modCl_budget (s : State) (i : StreamId) (f : Cluster → Cluster) : (s.modCl i f).budget = s.budget := rfl
@[simp] theorem modCl_cw (s : State) (i : StreamId) (f : Cluster → Cluster) : (s.modCl i f).cw = s.cw := rfl
@[simp] theorem modCl_vectors (s : State) (i : StreamId) (f : Cluster → Cluster) : (s.modCl i f).vectors = s.vectors := rfl
@[simp] theorem modCl_hostMem (s : State) (i : StreamId) (f : Cluster → Cluster) : (s.modCl i f).hostMem = s.hostMem := rfl
@[simp] theorem modCl_pool (s : State) (i : StreamId) (f : Cluster → Cluster) : (s.modCl i f).pool = s.pool := rfl
@[simp] theorem modCl_records (s : State) (i : StreamId) (f : Cluster → Cluster) : (s.modCl i f).records = s.records := rfl
@[simp] theorem modCl_posted (s : State) (i : StreamId) (f : Cluster → Cluster) : (s.modCl i f).posted = s.posted := rfl
@[simp] theorem modCl_losses (s : State) (i : StreamId) (f : Cluster → Cluster) : (s.modCl i f).losses = s.losses := rfl
@[simp] theorem modCl_rot (s : State) (i : StreamId) (f : Cluster → Cluster) : (s.modCl i f).rot = s.rot := rfl
@[simp] theorem modCl_bad (s : State) (i : StreamId) (f : Cluster → Cluster) : (s.modCl i f).bad = s.bad := rfl
@[simp] theorem modCl_late (s : State) (i : StreamId) (f : Cluster → Cluster) : (s.modCl i f).late = s.late := rfl
@[simp] theorem modCl_savedTiles (s : State) (i : StreamId) (f : Cluster → Cluster) : (s.modCl i f).savedTiles = s.savedTiles := rfl
@[simp] theorem modCl_noLocks (s : State) (i : StreamId) (f : Cluster → Cluster) : (s.modCl i f).noLocks = s.noLocks := rfl

@[simp] theorem modCurCl_hbm (s : State) (k : Fin 4) (f : Cluster → Cluster) : (s.modCurCl k f).hbm = s.hbm := rfl
@[simp] theorem modCurCl_tick (s : State) (k : Fin 4) (f : Cluster → Cluster) : (s.modCurCl k f).tick = s.tick := rfl
@[simp] theorem modCurCl_quantum (s : State) (k : Fin 4) (f : Cluster → Cluster) : (s.modCurCl k f).quantum = s.quantum := rfl
@[simp] theorem modCurCl_sub (s : State) (k : Fin 4) (f : Cluster → Cluster) : (s.modCurCl k f).sub = s.sub := rfl
@[simp] theorem modCurCl_phase (s : State) (k : Fin 4) (f : Cluster → Cluster) : (s.modCurCl k f).phase = s.phase := rfl
@[simp] theorem modCurCl_agenda (s : State) (k : Fin 4) (f : Cluster → Cluster) : (s.modCurCl k f).agenda = s.agenda := rfl
@[simp] theorem modCurCl_turn (s : State) (k : Fin 4) (f : Cluster → Cluster) : (s.modCurCl k f).turn = s.turn := rfl
@[simp] theorem modCurCl_inputs (s : State) (k : Fin 4) (f : Cluster → Cluster) : (s.modCurCl k f).inputs = s.inputs := rfl
@[simp] theorem modCurCl_fresh (s : State) (k : Fin 4) (f : Cluster → Cluster) : (s.modCurCl k f).fresh = s.fresh := rfl
@[simp] theorem modCurCl_cur (s : State) (k : Fin 4) (f : Cluster → Cluster) : (s.modCurCl k f).cur = s.cur := rfl
@[simp] theorem modCurCl_iss (s : State) (k : Fin 4) (f : Cluster → Cluster) : (s.modCurCl k f).iss = s.iss := rfl
@[simp] theorem modCurCl_reqs (s : State) (k : Fin 4) (f : Cluster → Cluster) : (s.modCurCl k f).reqs = s.reqs := rfl
@[simp] theorem modCurCl_nextId (s : State) (k : Fin 4) (f : Cluster → Cluster) : (s.modCurCl k f).nextId = s.nextId := rfl
@[simp] theorem modCurCl_blocks (s : State) (k : Fin 4) (f : Cluster → Cluster) : (s.modCurCl k f).blocks = s.blocks := rfl
@[simp] theorem modCurCl_acks (s : State) (k : Fin 4) (f : Cluster → Cluster) : (s.modCurCl k f).acks = s.acks := rfl
@[simp] theorem modCurCl_lq (s : State) (k : Fin 4) (f : Cluster → Cluster) : (s.modCurCl k f).lq = s.lq := rfl
@[simp] theorem modCurCl_launches (s : State) (k : Fin 4) (f : Cluster → Cluster) : (s.modCurCl k f).launches = s.launches := rfl
@[simp] theorem modCurCl_companies (s : State) (k : Fin 4) (f : Cluster → Cluster) : (s.modCurCl k f).companies = s.companies := rfl
@[simp] theorem modCurCl_conts (s : State) (k : Fin 4) (f : Cluster → Cluster) : (s.modCurCl k f).conts = s.conts := rfl
@[simp] theorem modCurCl_keys (s : State) (k : Fin 4) (f : Cluster → Cluster) : (s.modCurCl k f).keys = s.keys := rfl
@[simp] theorem modCurCl_regsPending (s : State) (k : Fin 4) (f : Cluster → Cluster) : (s.modCurCl k f).regsPending = s.regsPending := rfl
@[simp] theorem modCurCl_posts (s : State) (k : Fin 4) (f : Cluster → Cluster) : (s.modCurCl k f).posts = s.posts := rfl
@[simp] theorem modCurCl_trigs (s : State) (k : Fin 4) (f : Cluster → Cluster) : (s.modCurCl k f).trigs = s.trigs := rfl
@[simp] theorem modCurCl_preRecs (s : State) (k : Fin 4) (f : Cluster → Cluster) : (s.modCurCl k f).preRecs = s.preRecs := rfl
@[simp] theorem modCurCl_preempts (s : State) (k : Fin 4) (f : Cluster → Cluster) : (s.modCurCl k f).preempts = s.preempts := rfl
@[simp] theorem modCurCl_saved (s : State) (k : Fin 4) (f : Cluster → Cluster) : (s.modCurCl k f).saved = s.saved := rfl
@[simp] theorem modCurCl_savedCores (s : State) (k : Fin 4) (f : Cluster → Cluster) : (s.modCurCl k f).savedCores = s.savedCores := rfl
@[simp] theorem modCurCl_sheets (s : State) (k : Fin 4) (f : Cluster → Cluster) : (s.modCurCl k f).sheets = s.sheets := rfl
@[simp] theorem modCurCl_sm (s : State) (k : Fin 4) (f : Cluster → Cluster) : (s.modCurCl k f).sm = s.sm := rfl
@[simp] theorem modCurCl_circuits (s : State) (k : Fin 4) (f : Cluster → Cluster) : (s.modCurCl k f).circuits = s.circuits := rfl
@[simp] theorem modCurCl_lasers (s : State) (k : Fin 4) (f : Cluster → Cluster) : (s.modCurCl k f).lasers = s.lasers := rfl
@[simp] theorem modCurCl_budget (s : State) (k : Fin 4) (f : Cluster → Cluster) : (s.modCurCl k f).budget = s.budget := rfl
@[simp] theorem modCurCl_cw (s : State) (k : Fin 4) (f : Cluster → Cluster) : (s.modCurCl k f).cw = s.cw := rfl
@[simp] theorem modCurCl_vectors (s : State) (k : Fin 4) (f : Cluster → Cluster) : (s.modCurCl k f).vectors = s.vectors := rfl
@[simp] theorem modCurCl_hostMem (s : State) (k : Fin 4) (f : Cluster → Cluster) : (s.modCurCl k f).hostMem = s.hostMem := rfl
@[simp] theorem modCurCl_pool (s : State) (k : Fin 4) (f : Cluster → Cluster) : (s.modCurCl k f).pool = s.pool := rfl
@[simp] theorem modCurCl_records (s : State) (k : Fin 4) (f : Cluster → Cluster) : (s.modCurCl k f).records = s.records := rfl
@[simp] theorem modCurCl_posted (s : State) (k : Fin 4) (f : Cluster → Cluster) : (s.modCurCl k f).posted = s.posted := rfl
@[simp] theorem modCurCl_losses (s : State) (k : Fin 4) (f : Cluster → Cluster) : (s.modCurCl k f).losses = s.losses := rfl
@[simp] theorem modCurCl_rot (s : State) (k : Fin 4) (f : Cluster → Cluster) : (s.modCurCl k f).rot = s.rot := rfl
@[simp] theorem modCurCl_bad (s : State) (k : Fin 4) (f : Cluster → Cluster) : (s.modCurCl k f).bad = s.bad := rfl
@[simp] theorem modCurCl_late (s : State) (k : Fin 4) (f : Cluster → Cluster) : (s.modCurCl k f).late = s.late := rfl
@[simp] theorem modCurCl_savedTiles (s : State) (k : Fin 4) (f : Cluster → Cluster) : (s.modCurCl k f).savedTiles = s.savedTiles := rfl
@[simp] theorem modCurCl_noLocks (s : State) (k : Fin 4) (f : Cluster → Cluster) : (s.modCurCl k f).noLocks = s.noLocks := rfl

/-! ### An operation that stalls or drains changes its outcome alone -/

@[simp] theorem stall_tiles (s : State) : s.stall.tiles = s.tiles := rfl
@[simp] theorem stall_hbm (s : State) : s.stall.hbm = s.hbm := rfl
@[simp] theorem stall_tick (s : State) : s.stall.tick = s.tick := rfl
@[simp] theorem stall_quantum (s : State) : s.stall.quantum = s.quantum := rfl
@[simp] theorem stall_sub (s : State) : s.stall.sub = s.sub := rfl
@[simp] theorem stall_phase (s : State) : s.stall.phase = s.phase := rfl
@[simp] theorem stall_agenda (s : State) : s.stall.agenda = s.agenda := rfl
@[simp] theorem stall_turn (s : State) : s.stall.turn = s.turn := rfl
@[simp] theorem stall_inputs (s : State) : s.stall.inputs = s.inputs := rfl
@[simp] theorem stall_fresh (s : State) : s.stall.fresh = s.fresh := rfl
@[simp] theorem stall_cur (s : State) : s.stall.cur = s.cur := rfl
@[simp] theorem stall_reqs (s : State) : s.stall.reqs = s.reqs := rfl
@[simp] theorem stall_nextId (s : State) : s.stall.nextId = s.nextId := rfl
@[simp] theorem stall_blocks (s : State) : s.stall.blocks = s.blocks := rfl
@[simp] theorem stall_acks (s : State) : s.stall.acks = s.acks := rfl
@[simp] theorem stall_lq (s : State) : s.stall.lq = s.lq := rfl
@[simp] theorem stall_launches (s : State) : s.stall.launches = s.launches := rfl
@[simp] theorem stall_companies (s : State) : s.stall.companies = s.companies := rfl
@[simp] theorem stall_conts (s : State) : s.stall.conts = s.conts := rfl
@[simp] theorem stall_keys (s : State) : s.stall.keys = s.keys := rfl
@[simp] theorem stall_regsPending (s : State) : s.stall.regsPending = s.regsPending := rfl
@[simp] theorem stall_posts (s : State) : s.stall.posts = s.posts := rfl
@[simp] theorem stall_trigs (s : State) : s.stall.trigs = s.trigs := rfl
@[simp] theorem stall_preRecs (s : State) : s.stall.preRecs = s.preRecs := rfl
@[simp] theorem stall_preempts (s : State) : s.stall.preempts = s.preempts := rfl
@[simp] theorem stall_saved (s : State) : s.stall.saved = s.saved := rfl
@[simp] theorem stall_savedCores (s : State) : s.stall.savedCores = s.savedCores := rfl
@[simp] theorem stall_sheets (s : State) : s.stall.sheets = s.sheets := rfl
@[simp] theorem stall_sm (s : State) : s.stall.sm = s.sm := rfl
@[simp] theorem stall_circuits (s : State) : s.stall.circuits = s.circuits := rfl
@[simp] theorem stall_lasers (s : State) : s.stall.lasers = s.lasers := rfl
@[simp] theorem stall_budget (s : State) : s.stall.budget = s.budget := rfl
@[simp] theorem stall_cw (s : State) : s.stall.cw = s.cw := rfl
@[simp] theorem stall_vectors (s : State) : s.stall.vectors = s.vectors := rfl
@[simp] theorem stall_hostMem (s : State) : s.stall.hostMem = s.hostMem := rfl
@[simp] theorem stall_pool (s : State) : s.stall.pool = s.pool := rfl
@[simp] theorem stall_records (s : State) : s.stall.records = s.records := rfl
@[simp] theorem stall_posted (s : State) : s.stall.posted = s.posted := rfl
@[simp] theorem stall_losses (s : State) : s.stall.losses = s.losses := rfl
@[simp] theorem stall_rot (s : State) : s.stall.rot = s.rot := rfl
@[simp] theorem stall_bad (s : State) : s.stall.bad = s.bad := rfl
@[simp] theorem stall_late (s : State) : s.stall.late = s.late := rfl
@[simp] theorem stall_savedTiles (s : State) : s.stall.savedTiles = s.savedTiles := rfl
@[simp] theorem stall_noLocks (s : State) : s.stall.noLocks = s.noLocks := rfl

@[simp] theorem drains_tiles (s : State) : s.drains.tiles = s.tiles := rfl
@[simp] theorem drains_hbm (s : State) : s.drains.hbm = s.hbm := rfl
@[simp] theorem drains_tick (s : State) : s.drains.tick = s.tick := rfl
@[simp] theorem drains_quantum (s : State) : s.drains.quantum = s.quantum := rfl
@[simp] theorem drains_sub (s : State) : s.drains.sub = s.sub := rfl
@[simp] theorem drains_phase (s : State) : s.drains.phase = s.phase := rfl
@[simp] theorem drains_agenda (s : State) : s.drains.agenda = s.agenda := rfl
@[simp] theorem drains_turn (s : State) : s.drains.turn = s.turn := rfl
@[simp] theorem drains_inputs (s : State) : s.drains.inputs = s.inputs := rfl
@[simp] theorem drains_fresh (s : State) : s.drains.fresh = s.fresh := rfl
@[simp] theorem drains_cur (s : State) : s.drains.cur = s.cur := rfl
@[simp] theorem drains_reqs (s : State) : s.drains.reqs = s.reqs := rfl
@[simp] theorem drains_nextId (s : State) : s.drains.nextId = s.nextId := rfl
@[simp] theorem drains_blocks (s : State) : s.drains.blocks = s.blocks := rfl
@[simp] theorem drains_acks (s : State) : s.drains.acks = s.acks := rfl
@[simp] theorem drains_lq (s : State) : s.drains.lq = s.lq := rfl
@[simp] theorem drains_launches (s : State) : s.drains.launches = s.launches := rfl
@[simp] theorem drains_companies (s : State) : s.drains.companies = s.companies := rfl
@[simp] theorem drains_conts (s : State) : s.drains.conts = s.conts := rfl
@[simp] theorem drains_keys (s : State) : s.drains.keys = s.keys := rfl
@[simp] theorem drains_regsPending (s : State) : s.drains.regsPending = s.regsPending := rfl
@[simp] theorem drains_posts (s : State) : s.drains.posts = s.posts := rfl
@[simp] theorem drains_trigs (s : State) : s.drains.trigs = s.trigs := rfl
@[simp] theorem drains_preRecs (s : State) : s.drains.preRecs = s.preRecs := rfl
@[simp] theorem drains_preempts (s : State) : s.drains.preempts = s.preempts := rfl
@[simp] theorem drains_saved (s : State) : s.drains.saved = s.saved := rfl
@[simp] theorem drains_savedCores (s : State) : s.drains.savedCores = s.savedCores := rfl
@[simp] theorem drains_sheets (s : State) : s.drains.sheets = s.sheets := rfl
@[simp] theorem drains_sm (s : State) : s.drains.sm = s.sm := rfl
@[simp] theorem drains_circuits (s : State) : s.drains.circuits = s.circuits := rfl
@[simp] theorem drains_lasers (s : State) : s.drains.lasers = s.lasers := rfl
@[simp] theorem drains_budget (s : State) : s.drains.budget = s.budget := rfl
@[simp] theorem drains_cw (s : State) : s.drains.cw = s.cw := rfl
@[simp] theorem drains_vectors (s : State) : s.drains.vectors = s.vectors := rfl
@[simp] theorem drains_hostMem (s : State) : s.drains.hostMem = s.hostMem := rfl
@[simp] theorem drains_pool (s : State) : s.drains.pool = s.pool := rfl
@[simp] theorem drains_records (s : State) : s.drains.records = s.records := rfl
@[simp] theorem drains_posted (s : State) : s.drains.posted = s.posted := rfl
@[simp] theorem drains_losses (s : State) : s.drains.losses = s.losses := rfl
@[simp] theorem drains_rot (s : State) : s.drains.rot = s.rot := rfl
@[simp] theorem drains_bad (s : State) : s.drains.bad = s.bad := rfl
@[simp] theorem drains_late (s : State) : s.drains.late = s.late := rfl
@[simp] theorem drains_savedTiles (s : State) : s.drains.savedTiles = s.savedTiles := rfl
@[simp] theorem drains_noLocks (s : State) : s.drains.noLocks = s.noLocks := rfl

/-! ### Every cluster of a list -/

theorem modCls_obs {β : Type} (g : State → β) (i : StreamId) (f : Cluster → Cluster) (hg : ∀ s j, g (s.modCl j f) = g s)
    (ks : List (Fin 4)) (s : State) : g (s.modCls i ks f) = g s := foldl_obs g (fun s k => hg s (onCl i k)) ks s

@[simp] theorem modCls_hbm (s : State) (i : StreamId) (ks : List (Fin 4)) (f : Cluster → Cluster) :
    (s.modCls i ks f).hbm = s.hbm := modCls_obs (·.hbm) i f (fun _ _ => rfl) ks s
@[simp] theorem modCls_tick (s : State) (i : StreamId) (ks : List (Fin 4)) (f : Cluster → Cluster) :
    (s.modCls i ks f).tick = s.tick := modCls_obs (·.tick) i f (fun _ _ => rfl) ks s
@[simp] theorem modCls_quantum (s : State) (i : StreamId) (ks : List (Fin 4)) (f : Cluster → Cluster) :
    (s.modCls i ks f).quantum = s.quantum := modCls_obs (·.quantum) i f (fun _ _ => rfl) ks s
@[simp] theorem modCls_sub (s : State) (i : StreamId) (ks : List (Fin 4)) (f : Cluster → Cluster) :
    (s.modCls i ks f).sub = s.sub := modCls_obs (·.sub) i f (fun _ _ => rfl) ks s
@[simp] theorem modCls_phase (s : State) (i : StreamId) (ks : List (Fin 4)) (f : Cluster → Cluster) :
    (s.modCls i ks f).phase = s.phase := modCls_obs (·.phase) i f (fun _ _ => rfl) ks s
@[simp] theorem modCls_agenda (s : State) (i : StreamId) (ks : List (Fin 4)) (f : Cluster → Cluster) :
    (s.modCls i ks f).agenda = s.agenda := modCls_obs (·.agenda) i f (fun _ _ => rfl) ks s
@[simp] theorem modCls_turn (s : State) (i : StreamId) (ks : List (Fin 4)) (f : Cluster → Cluster) :
    (s.modCls i ks f).turn = s.turn := modCls_obs (·.turn) i f (fun _ _ => rfl) ks s
@[simp] theorem modCls_inputs (s : State) (i : StreamId) (ks : List (Fin 4)) (f : Cluster → Cluster) :
    (s.modCls i ks f).inputs = s.inputs := modCls_obs (·.inputs) i f (fun _ _ => rfl) ks s
@[simp] theorem modCls_fresh (s : State) (i : StreamId) (ks : List (Fin 4)) (f : Cluster → Cluster) :
    (s.modCls i ks f).fresh = s.fresh := modCls_obs (·.fresh) i f (fun _ _ => rfl) ks s
@[simp] theorem modCls_cur (s : State) (i : StreamId) (ks : List (Fin 4)) (f : Cluster → Cluster) :
    (s.modCls i ks f).cur = s.cur := modCls_obs (·.cur) i f (fun _ _ => rfl) ks s
@[simp] theorem modCls_iss (s : State) (i : StreamId) (ks : List (Fin 4)) (f : Cluster → Cluster) :
    (s.modCls i ks f).iss = s.iss := modCls_obs (·.iss) i f (fun _ _ => rfl) ks s
@[simp] theorem modCls_reqs (s : State) (i : StreamId) (ks : List (Fin 4)) (f : Cluster → Cluster) :
    (s.modCls i ks f).reqs = s.reqs := modCls_obs (·.reqs) i f (fun _ _ => rfl) ks s
@[simp] theorem modCls_nextId (s : State) (i : StreamId) (ks : List (Fin 4)) (f : Cluster → Cluster) :
    (s.modCls i ks f).nextId = s.nextId := modCls_obs (·.nextId) i f (fun _ _ => rfl) ks s
@[simp] theorem modCls_blocks (s : State) (i : StreamId) (ks : List (Fin 4)) (f : Cluster → Cluster) :
    (s.modCls i ks f).blocks = s.blocks := modCls_obs (·.blocks) i f (fun _ _ => rfl) ks s
@[simp] theorem modCls_acks (s : State) (i : StreamId) (ks : List (Fin 4)) (f : Cluster → Cluster) :
    (s.modCls i ks f).acks = s.acks := modCls_obs (·.acks) i f (fun _ _ => rfl) ks s
@[simp] theorem modCls_lq (s : State) (i : StreamId) (ks : List (Fin 4)) (f : Cluster → Cluster) :
    (s.modCls i ks f).lq = s.lq := modCls_obs (·.lq) i f (fun _ _ => rfl) ks s
@[simp] theorem modCls_launches (s : State) (i : StreamId) (ks : List (Fin 4)) (f : Cluster → Cluster) :
    (s.modCls i ks f).launches = s.launches := modCls_obs (·.launches) i f (fun _ _ => rfl) ks s
@[simp] theorem modCls_companies (s : State) (i : StreamId) (ks : List (Fin 4)) (f : Cluster → Cluster) :
    (s.modCls i ks f).companies = s.companies := modCls_obs (·.companies) i f (fun _ _ => rfl) ks s
@[simp] theorem modCls_conts (s : State) (i : StreamId) (ks : List (Fin 4)) (f : Cluster → Cluster) :
    (s.modCls i ks f).conts = s.conts := modCls_obs (·.conts) i f (fun _ _ => rfl) ks s
@[simp] theorem modCls_keys (s : State) (i : StreamId) (ks : List (Fin 4)) (f : Cluster → Cluster) :
    (s.modCls i ks f).keys = s.keys := modCls_obs (·.keys) i f (fun _ _ => rfl) ks s
@[simp] theorem modCls_regsPending (s : State) (i : StreamId) (ks : List (Fin 4)) (f : Cluster → Cluster) :
    (s.modCls i ks f).regsPending = s.regsPending := modCls_obs (·.regsPending) i f (fun _ _ => rfl) ks s
@[simp] theorem modCls_posts (s : State) (i : StreamId) (ks : List (Fin 4)) (f : Cluster → Cluster) :
    (s.modCls i ks f).posts = s.posts := modCls_obs (·.posts) i f (fun _ _ => rfl) ks s
@[simp] theorem modCls_trigs (s : State) (i : StreamId) (ks : List (Fin 4)) (f : Cluster → Cluster) :
    (s.modCls i ks f).trigs = s.trigs := modCls_obs (·.trigs) i f (fun _ _ => rfl) ks s
@[simp] theorem modCls_preRecs (s : State) (i : StreamId) (ks : List (Fin 4)) (f : Cluster → Cluster) :
    (s.modCls i ks f).preRecs = s.preRecs := modCls_obs (·.preRecs) i f (fun _ _ => rfl) ks s
@[simp] theorem modCls_preempts (s : State) (i : StreamId) (ks : List (Fin 4)) (f : Cluster → Cluster) :
    (s.modCls i ks f).preempts = s.preempts := modCls_obs (·.preempts) i f (fun _ _ => rfl) ks s
@[simp] theorem modCls_saved (s : State) (i : StreamId) (ks : List (Fin 4)) (f : Cluster → Cluster) :
    (s.modCls i ks f).saved = s.saved := modCls_obs (·.saved) i f (fun _ _ => rfl) ks s
@[simp] theorem modCls_savedCores (s : State) (i : StreamId) (ks : List (Fin 4)) (f : Cluster → Cluster) :
    (s.modCls i ks f).savedCores = s.savedCores := modCls_obs (·.savedCores) i f (fun _ _ => rfl) ks s
@[simp] theorem modCls_sheets (s : State) (i : StreamId) (ks : List (Fin 4)) (f : Cluster → Cluster) :
    (s.modCls i ks f).sheets = s.sheets := modCls_obs (·.sheets) i f (fun _ _ => rfl) ks s
@[simp] theorem modCls_sm (s : State) (i : StreamId) (ks : List (Fin 4)) (f : Cluster → Cluster) :
    (s.modCls i ks f).sm = s.sm := modCls_obs (·.sm) i f (fun _ _ => rfl) ks s
@[simp] theorem modCls_circuits (s : State) (i : StreamId) (ks : List (Fin 4)) (f : Cluster → Cluster) :
    (s.modCls i ks f).circuits = s.circuits := modCls_obs (·.circuits) i f (fun _ _ => rfl) ks s
@[simp] theorem modCls_lasers (s : State) (i : StreamId) (ks : List (Fin 4)) (f : Cluster → Cluster) :
    (s.modCls i ks f).lasers = s.lasers := modCls_obs (·.lasers) i f (fun _ _ => rfl) ks s
@[simp] theorem modCls_budget (s : State) (i : StreamId) (ks : List (Fin 4)) (f : Cluster → Cluster) :
    (s.modCls i ks f).budget = s.budget := modCls_obs (·.budget) i f (fun _ _ => rfl) ks s
@[simp] theorem modCls_cw (s : State) (i : StreamId) (ks : List (Fin 4)) (f : Cluster → Cluster) :
    (s.modCls i ks f).cw = s.cw := modCls_obs (·.cw) i f (fun _ _ => rfl) ks s
@[simp] theorem modCls_vectors (s : State) (i : StreamId) (ks : List (Fin 4)) (f : Cluster → Cluster) :
    (s.modCls i ks f).vectors = s.vectors := modCls_obs (·.vectors) i f (fun _ _ => rfl) ks s
@[simp] theorem modCls_hostMem (s : State) (i : StreamId) (ks : List (Fin 4)) (f : Cluster → Cluster) :
    (s.modCls i ks f).hostMem = s.hostMem := modCls_obs (·.hostMem) i f (fun _ _ => rfl) ks s
@[simp] theorem modCls_pool (s : State) (i : StreamId) (ks : List (Fin 4)) (f : Cluster → Cluster) :
    (s.modCls i ks f).pool = s.pool := modCls_obs (·.pool) i f (fun _ _ => rfl) ks s
@[simp] theorem modCls_records (s : State) (i : StreamId) (ks : List (Fin 4)) (f : Cluster → Cluster) :
    (s.modCls i ks f).records = s.records := modCls_obs (·.records) i f (fun _ _ => rfl) ks s
@[simp] theorem modCls_posted (s : State) (i : StreamId) (ks : List (Fin 4)) (f : Cluster → Cluster) :
    (s.modCls i ks f).posted = s.posted := modCls_obs (·.posted) i f (fun _ _ => rfl) ks s
@[simp] theorem modCls_losses (s : State) (i : StreamId) (ks : List (Fin 4)) (f : Cluster → Cluster) :
    (s.modCls i ks f).losses = s.losses := modCls_obs (·.losses) i f (fun _ _ => rfl) ks s
@[simp] theorem modCls_rot (s : State) (i : StreamId) (ks : List (Fin 4)) (f : Cluster → Cluster) :
    (s.modCls i ks f).rot = s.rot := modCls_obs (·.rot) i f (fun _ _ => rfl) ks s
@[simp] theorem modCls_bad (s : State) (i : StreamId) (ks : List (Fin 4)) (f : Cluster → Cluster) :
    (s.modCls i ks f).bad = s.bad := modCls_obs (·.bad) i f (fun _ _ => rfl) ks s
@[simp] theorem modCls_late (s : State) (i : StreamId) (ks : List (Fin 4)) (f : Cluster → Cluster) :
    (s.modCls i ks f).late = s.late := modCls_obs (·.late) i f (fun _ _ => rfl) ks s
@[simp] theorem modCls_savedTiles (s : State) (i : StreamId) (ks : List (Fin 4)) (f : Cluster → Cluster) :
    (s.modCls i ks f).savedTiles = s.savedTiles := modCls_obs (·.savedTiles) i f (fun _ _ => rfl) ks s
@[simp] theorem modCls_noLocks (s : State) (i : StreamId) (ks : List (Fin 4)) (f : Cluster → Cluster) :
    (s.modCls i ks f).noLocks = s.noLocks := modCls_obs (·.noLocks) i f (fun _ _ => rfl) ks s

/-! ### Tiles -/

theorem tile_modTile (s : State) (t n : Nat) (f : Tile → Tile) :
    (s.modTile t f).tile n = if n = t then f (s.tile t) else s.tile n := tget_tmod ..

@[simp] theorem tile_modTile_same (s : State) (t : Nat) (f : Tile → Tile) : (s.modTile t f).tile t = f (s.tile t) := by
  simp [tile_modTile]

theorem tile_modTile_ne (s : State) {t n : Nat} (f : Tile → Tile) (h : n ≠ t) : (s.modTile t f).tile n = s.tile n := by
  simp [tile_modTile, h]

@[simp] theorem stall_tile (s : State) (n : Nat) : s.stall.tile n = s.tile n := rfl
@[simp] theorem drains_tile (s : State) (n : Nat) : s.drains.tile n = s.tile n := rfl

theorem tile_modCore (s : State) (t c n : Nat) (f : Core → Core) :
    (s.modCore t c f).tile n =
      if n = t then { s.tile t with cores := tmod Core.reset (s.tile t).cores c f } else s.tile n := tile_modTile ..

@[simp] theorem modCore_tile_tsm (s : State) (t c : Nat) (f : Core → Core) (n : Nat) :
    ((s.modCore t c f).tile n).tsm = (s.tile n).tsm := by
  rw [tile_modCore]; split <;> simp [*]
@[simp] theorem modCore_tile_bankFlags (s : State) (t c : Nat) (f : Core → Core) (n : Nat) :
    ((s.modCore t c f).tile n).bankFlags = (s.tile n).bankFlags := by
  rw [tile_modCore]; split <;> simp [*]
@[simp] theorem modCore_tile_unitFlags (s : State) (t c : Nat) (f : Core → Core) (n : Nat) :
    ((s.modCore t c f).tile n).unitFlags = (s.tile n).unitFlags := by
  rw [tile_modCore]; split <;> simp [*]
@[simp] theorem modCore_tile_ttbase (s : State) (t c : Nat) (f : Core → Core) (n : Nat) :
    ((s.modCore t c f).tile n).ttbase = (s.tile n).ttbase := by
  rw [tile_modCore]; split <;> simp [*]
@[simp] theorem modCore_tile_ptroot (s : State) (t c : Nat) (f : Core → Core) (n : Nat) :
    ((s.modCore t c f).tile n).ptroot = (s.tile n).ptroot := by
  rw [tile_modCore]; split <;> simp [*]
@[simp] theorem modCore_tile_fqbase (s : State) (t c : Nat) (f : Core → Core) (n : Nat) :
    ((s.modCore t c f).tile n).fqbase = (s.tile n).fqbase := by
  rw [tile_modCore]; split <;> simp [*]
@[simp] theorem modCore_tile_rdbase (s : State) (t c : Nat) (f : Core → Core) (n : Nat) :
    ((s.modCore t c f).tile n).rdbase = (s.tile n).rdbase := by
  rw [tile_modCore]; split <;> simp [*]
@[simp] theorem modCore_tile_tvec (s : State) (t c : Nat) (f : Core → Core) (n : Nat) :
    ((s.modCore t c f).tile n).tvec = (s.tile n).tvec := by
  rw [tile_modCore]; split <;> simp [*]
@[simp] theorem modCore_tile_redir (s : State) (t c : Nat) (f : Core → Core) (n : Nat) :
    ((s.modCore t c f).tile n).redir = (s.tile n).redir := by
  rw [tile_modCore]; split <;> simp [*]
@[simp] theorem modCore_tile_ready (s : State) (t c : Nat) (f : Core → Core) (n : Nat) :
    ((s.modCore t c f).tile n).ready = (s.tile n).ready := by
  rw [tile_modCore]; split <;> simp [*]
@[simp] theorem modCore_tile_taskCtr (s : State) (t c : Nat) (f : Core → Core) (n : Nat) :
    ((s.modCore t c f).tile n).taskCtr = (s.tile n).taskCtr := by
  rw [tile_modCore]; split <;> simp [*]
@[simp] theorem modCore_tile_handles (s : State) (t c : Nat) (f : Core → Core) (n : Nat) :
    ((s.modCore t c f).tile n).handles = (s.tile n).handles := by
  rw [tile_modCore]; split <;> simp [*]
@[simp] theorem modCore_tile_relays (s : State) (t c : Nat) (f : Core → Core) (n : Nat) :
    ((s.modCore t c f).tile n).relays = (s.tile n).relays := by
  rw [tile_modCore]; split <;> simp [*]
@[simp] theorem modCore_tile_hq (s : State) (t c : Nat) (f : Core → Core) (n : Nat) :
    ((s.modCore t c f).tile n).hq = (s.tile n).hq := by
  rw [tile_modCore]; split <;> simp [*]
@[simp] theorem modCore_tile_arrivals (s : State) (t c : Nat) (f : Core → Core) (n : Nat) :
    ((s.modCore t c f).tile n).arrivals = (s.tile n).arrivals := by
  rw [tile_modCore]; split <;> simp [*]
@[simp] theorem modCore_tile_armed (s : State) (t c : Nat) (f : Core → Core) (n : Nat) :
    ((s.modCore t c f).tile n).armed = (s.tile n).armed := by
  rw [tile_modCore]; split <;> simp [*]
@[simp] theorem modCore_tile_execq (s : State) (t c : Nat) (f : Core → Core) (n : Nat) :
    ((s.modCore t c f).tile n).execq = (s.tile n).execq := by
  rw [tile_modCore]; split <;> simp [*]
@[simp] theorem modCore_tile_buckets (s : State) (t c : Nat) (f : Core → Core) (n : Nat) :
    ((s.modCore t c f).tile n).buckets = (s.tile n).buckets := by
  rw [tile_modCore]; split <;> simp [*]
@[simp] theorem modCore_tile_ports (s : State) (t c : Nat) (f : Core → Core) (n : Nat) :
    ((s.modCore t c f).tile n).ports = (s.tile n).ports := by
  rw [tile_modCore]; split <;> simp [*]
@[simp] theorem modCore_tile_comb (s : State) (t c : Nat) (f : Core → Core) (n : Nat) :
    ((s.modCore t c f).tile n).comb = (s.tile n).comb := by
  rw [tile_modCore]; split <;> simp [*]
@[simp] theorem modCore_tile_cal (s : State) (t c : Nat) (f : Core → Core) (n : Nat) :
    ((s.modCore t c f).tile n).cal = (s.tile n).cal := by
  rw [tile_modCore]; split <;> simp [*]
@[simp] theorem modCore_tile_calNext (s : State) (t c : Nat) (f : Core → Core) (n : Nat) :
    ((s.modCore t c f).tile n).calNext = (s.tile n).calNext := by
  rw [tile_modCore]; split <;> simp [*]
@[simp] theorem modCore_tile_msc (s : State) (t c : Nat) (f : Core → Core) (n : Nat) :
    ((s.modCore t c f).tile n).msc = (s.tile n).msc := by
  rw [tile_modCore]; split <;> simp [*]
@[simp] theorem modCore_tile_bloom (s : State) (t c : Nat) (f : Core → Core) (n : Nat) :
    ((s.modCore t c f).tile n).bloom = (s.tile n).bloom := by
  rw [tile_modCore]; split <;> simp [*]
@[simp] theorem modCore_tile_wq (s : State) (t c : Nat) (f : Core → Core) (n : Nat) :
    ((s.modCore t c f).tile n).wq = (s.tile n).wq := by
  rw [tile_modCore]; split <;> simp [*]
@[simp] theorem modCore_tile_tlb (s : State) (t c : Nat) (f : Core → Core) (n : Nat) :
    ((s.modCore t c f).tile n).tlb = (s.tile n).tlb := by
  rw [tile_modCore]; split <;> simp [*]
@[simp] theorem modCore_tile_freeHead (s : State) (t c : Nat) (f : Core → Core) (n : Nat) :
    ((s.modCore t c f).tile n).freeHead = (s.tile n).freeHead := by
  rw [tile_modCore]; split <;> simp [*]
@[simp] theorem modCore_tile_freeCount (s : State) (t c : Nat) (f : Core → Core) (n : Nat) :
    ((s.modCore t c f).tile n).freeCount = (s.tile n).freeCount := by
  rw [tile_modCore]; split <;> simp [*]
@[simp] theorem modCore_tile_migs (s : State) (t c : Nat) (f : Core → Core) (n : Nat) :
    ((s.modCore t c f).tile n).migs = (s.tile n).migs := by
  rw [tile_modCore]; split <;> simp [*]
@[simp] theorem modCore_tile_cnt (s : State) (t c : Nat) (f : Core → Core) (n : Nat) :
    ((s.modCore t c f).tile n).cnt = (s.tile n).cnt := by
  rw [tile_modCore]; split <;> simp [*]
@[simp] theorem modCore_tile_point (s : State) (t c : Nat) (f : Core → Core) (n : Nat) :
    ((s.modCore t c f).tile n).point = (s.tile n).point := by
  rw [tile_modCore]; split <;> simp [*]
@[simp] theorem modCore_tile_pointNext (s : State) (t c : Nat) (f : Core → Core) (n : Nat) :
    ((s.modCore t c f).tile n).pointNext = (s.tile n).pointNext := by
  rw [tile_modCore]; split <;> simp [*]
@[simp] theorem modCore_tile_ceiling (s : State) (t c : Nat) (f : Core → Core) (n : Nat) :
    ((s.modCore t c f).tile n).ceiling = (s.tile n).ceiling := by
  rw [tile_modCore]; split <;> simp [*]
@[simp] theorem modCore_tile_floor (s : State) (t c : Nat) (f : Core → Core) (n : Nat) :
    ((s.modCore t c f).tile n).floor = (s.tile n).floor := by
  rw [tile_modCore]; split <;> simp [*]
@[simp] theorem modCore_tile_hot (s : State) (t c : Nat) (f : Core → Core) (n : Nat) :
    ((s.modCore t c f).tile n).hot = (s.tile n).hot := by
  rw [tile_modCore]; split <;> simp [*]
@[simp] theorem modCore_tile_hint0 (s : State) (t c : Nat) (f : Core → Core) (n : Nat) :
    ((s.modCore t c f).tile n).hint0 = (s.tile n).hint0 := by
  rw [tile_modCore]; split <;> simp [*]
@[simp] theorem modCore_tile_hint3 (s : State) (t c : Nat) (f : Core → Core) (n : Nat) :
    ((s.modCore t c f).tile n).hint3 = (s.tile n).hint3 := by
  rw [tile_modCore]; split <;> simp [*]
@[simp] theorem modCore_tile_busyCycles (s : State) (t c : Nat) (f : Core → Core) (n : Nat) :
    ((s.modCore t c f).tile n).busyCycles = (s.tile n).busyCycles := by
  rw [tile_modCore]; split <;> simp [*]
@[simp] theorem modCore_tile_intervalCycles (s : State) (t c : Nat) (f : Core → Core) (n : Nat) :
    ((s.modCore t c f).tile n).intervalCycles = (s.tile n).intervalCycles := by
  rw [tile_modCore]; split <;> simp [*]
@[simp] theorem modCore_tile_bankUsed (s : State) (t c : Nat) (f : Core → Core) (n : Nat) :
    ((s.modCore t c f).tile n).bankUsed = (s.tile n).bankUsed := by
  rw [tile_modCore]; split <;> simp [*]
@[simp] theorem modCore_tile_ends (s : State) (t c : Nat) (f : Core → Core) (n : Nat) :
    ((s.modCore t c f).tile n).ends = (s.tile n).ends := by
  rw [tile_modCore]; split <;> simp [*]
@[simp] theorem modCore_tile_portOrd (s : State) (t c : Nat) (f : Core → Core) (n : Nat) :
    ((s.modCore t c f).tile n).portOrd = (s.tile n).portOrd := by
  rw [tile_modCore]; split <;> simp [*]
@[simp] theorem modCore_tile_cnt0 (s : State) (t c : Nat) (f : Core → Core) (n : Nat) :
    ((s.modCore t c f).tile n).cnt0 = (s.tile n).cnt0 := by
  rw [tile_modCore]; split <;> simp [*]
@[simp] theorem modCore_tile_clk (s : State) (t c : Nat) (f : Core → Core) (n : Nat) :
    ((s.modCore t c f).tile n).clk = (s.tile n).clk := by
  rw [tile_modCore]; split <;> simp [*]

@[simp] theorem modBank_tile_tsm (s : State) (i : StreamId) (f : Bank → Bank) (n : Nat) :
    ((s.modBank i f).tile n).tsm = (s.tile n).tsm := modCore_tile_tsm ..
@[simp] theorem modBank_tile_bankFlags (s : State) (i : StreamId) (f : Bank → Bank) (n : Nat) :
    ((s.modBank i f).tile n).bankFlags = (s.tile n).bankFlags := modCore_tile_bankFlags ..
@[simp] theorem modBank_tile_unitFlags (s : State) (i : StreamId) (f : Bank → Bank) (n : Nat) :
    ((s.modBank i f).tile n).unitFlags = (s.tile n).unitFlags := modCore_tile_unitFlags ..
@[simp] theorem modBank_tile_ttbase (s : State) (i : StreamId) (f : Bank → Bank) (n : Nat) :
    ((s.modBank i f).tile n).ttbase = (s.tile n).ttbase := modCore_tile_ttbase ..
@[simp] theorem modBank_tile_ptroot (s : State) (i : StreamId) (f : Bank → Bank) (n : Nat) :
    ((s.modBank i f).tile n).ptroot = (s.tile n).ptroot := modCore_tile_ptroot ..
@[simp] theorem modBank_tile_fqbase (s : State) (i : StreamId) (f : Bank → Bank) (n : Nat) :
    ((s.modBank i f).tile n).fqbase = (s.tile n).fqbase := modCore_tile_fqbase ..
@[simp] theorem modBank_tile_rdbase (s : State) (i : StreamId) (f : Bank → Bank) (n : Nat) :
    ((s.modBank i f).tile n).rdbase = (s.tile n).rdbase := modCore_tile_rdbase ..
@[simp] theorem modBank_tile_tvec (s : State) (i : StreamId) (f : Bank → Bank) (n : Nat) :
    ((s.modBank i f).tile n).tvec = (s.tile n).tvec := modCore_tile_tvec ..
@[simp] theorem modBank_tile_redir (s : State) (i : StreamId) (f : Bank → Bank) (n : Nat) :
    ((s.modBank i f).tile n).redir = (s.tile n).redir := modCore_tile_redir ..
@[simp] theorem modBank_tile_ready (s : State) (i : StreamId) (f : Bank → Bank) (n : Nat) :
    ((s.modBank i f).tile n).ready = (s.tile n).ready := modCore_tile_ready ..
@[simp] theorem modBank_tile_taskCtr (s : State) (i : StreamId) (f : Bank → Bank) (n : Nat) :
    ((s.modBank i f).tile n).taskCtr = (s.tile n).taskCtr := modCore_tile_taskCtr ..
@[simp] theorem modBank_tile_handles (s : State) (i : StreamId) (f : Bank → Bank) (n : Nat) :
    ((s.modBank i f).tile n).handles = (s.tile n).handles := modCore_tile_handles ..
@[simp] theorem modBank_tile_relays (s : State) (i : StreamId) (f : Bank → Bank) (n : Nat) :
    ((s.modBank i f).tile n).relays = (s.tile n).relays := modCore_tile_relays ..
@[simp] theorem modBank_tile_hq (s : State) (i : StreamId) (f : Bank → Bank) (n : Nat) :
    ((s.modBank i f).tile n).hq = (s.tile n).hq := modCore_tile_hq ..
@[simp] theorem modBank_tile_arrivals (s : State) (i : StreamId) (f : Bank → Bank) (n : Nat) :
    ((s.modBank i f).tile n).arrivals = (s.tile n).arrivals := modCore_tile_arrivals ..
@[simp] theorem modBank_tile_armed (s : State) (i : StreamId) (f : Bank → Bank) (n : Nat) :
    ((s.modBank i f).tile n).armed = (s.tile n).armed := modCore_tile_armed ..
@[simp] theorem modBank_tile_execq (s : State) (i : StreamId) (f : Bank → Bank) (n : Nat) :
    ((s.modBank i f).tile n).execq = (s.tile n).execq := modCore_tile_execq ..
@[simp] theorem modBank_tile_buckets (s : State) (i : StreamId) (f : Bank → Bank) (n : Nat) :
    ((s.modBank i f).tile n).buckets = (s.tile n).buckets := modCore_tile_buckets ..
@[simp] theorem modBank_tile_ports (s : State) (i : StreamId) (f : Bank → Bank) (n : Nat) :
    ((s.modBank i f).tile n).ports = (s.tile n).ports := modCore_tile_ports ..
@[simp] theorem modBank_tile_comb (s : State) (i : StreamId) (f : Bank → Bank) (n : Nat) :
    ((s.modBank i f).tile n).comb = (s.tile n).comb := modCore_tile_comb ..
@[simp] theorem modBank_tile_cal (s : State) (i : StreamId) (f : Bank → Bank) (n : Nat) :
    ((s.modBank i f).tile n).cal = (s.tile n).cal := modCore_tile_cal ..
@[simp] theorem modBank_tile_calNext (s : State) (i : StreamId) (f : Bank → Bank) (n : Nat) :
    ((s.modBank i f).tile n).calNext = (s.tile n).calNext := modCore_tile_calNext ..
@[simp] theorem modBank_tile_msc (s : State) (i : StreamId) (f : Bank → Bank) (n : Nat) :
    ((s.modBank i f).tile n).msc = (s.tile n).msc := modCore_tile_msc ..
@[simp] theorem modBank_tile_bloom (s : State) (i : StreamId) (f : Bank → Bank) (n : Nat) :
    ((s.modBank i f).tile n).bloom = (s.tile n).bloom := modCore_tile_bloom ..
@[simp] theorem modBank_tile_wq (s : State) (i : StreamId) (f : Bank → Bank) (n : Nat) :
    ((s.modBank i f).tile n).wq = (s.tile n).wq := modCore_tile_wq ..
@[simp] theorem modBank_tile_tlb (s : State) (i : StreamId) (f : Bank → Bank) (n : Nat) :
    ((s.modBank i f).tile n).tlb = (s.tile n).tlb := modCore_tile_tlb ..
@[simp] theorem modBank_tile_freeHead (s : State) (i : StreamId) (f : Bank → Bank) (n : Nat) :
    ((s.modBank i f).tile n).freeHead = (s.tile n).freeHead := modCore_tile_freeHead ..
@[simp] theorem modBank_tile_freeCount (s : State) (i : StreamId) (f : Bank → Bank) (n : Nat) :
    ((s.modBank i f).tile n).freeCount = (s.tile n).freeCount := modCore_tile_freeCount ..
@[simp] theorem modBank_tile_migs (s : State) (i : StreamId) (f : Bank → Bank) (n : Nat) :
    ((s.modBank i f).tile n).migs = (s.tile n).migs := modCore_tile_migs ..
@[simp] theorem modBank_tile_cnt (s : State) (i : StreamId) (f : Bank → Bank) (n : Nat) :
    ((s.modBank i f).tile n).cnt = (s.tile n).cnt := modCore_tile_cnt ..
@[simp] theorem modBank_tile_point (s : State) (i : StreamId) (f : Bank → Bank) (n : Nat) :
    ((s.modBank i f).tile n).point = (s.tile n).point := modCore_tile_point ..
@[simp] theorem modBank_tile_pointNext (s : State) (i : StreamId) (f : Bank → Bank) (n : Nat) :
    ((s.modBank i f).tile n).pointNext = (s.tile n).pointNext := modCore_tile_pointNext ..
@[simp] theorem modBank_tile_ceiling (s : State) (i : StreamId) (f : Bank → Bank) (n : Nat) :
    ((s.modBank i f).tile n).ceiling = (s.tile n).ceiling := modCore_tile_ceiling ..
@[simp] theorem modBank_tile_floor (s : State) (i : StreamId) (f : Bank → Bank) (n : Nat) :
    ((s.modBank i f).tile n).floor = (s.tile n).floor := modCore_tile_floor ..
@[simp] theorem modBank_tile_hot (s : State) (i : StreamId) (f : Bank → Bank) (n : Nat) :
    ((s.modBank i f).tile n).hot = (s.tile n).hot := modCore_tile_hot ..
@[simp] theorem modBank_tile_hint0 (s : State) (i : StreamId) (f : Bank → Bank) (n : Nat) :
    ((s.modBank i f).tile n).hint0 = (s.tile n).hint0 := modCore_tile_hint0 ..
@[simp] theorem modBank_tile_hint3 (s : State) (i : StreamId) (f : Bank → Bank) (n : Nat) :
    ((s.modBank i f).tile n).hint3 = (s.tile n).hint3 := modCore_tile_hint3 ..
@[simp] theorem modBank_tile_busyCycles (s : State) (i : StreamId) (f : Bank → Bank) (n : Nat) :
    ((s.modBank i f).tile n).busyCycles = (s.tile n).busyCycles := modCore_tile_busyCycles ..
@[simp] theorem modBank_tile_intervalCycles (s : State) (i : StreamId) (f : Bank → Bank) (n : Nat) :
    ((s.modBank i f).tile n).intervalCycles = (s.tile n).intervalCycles := modCore_tile_intervalCycles ..
@[simp] theorem modBank_tile_bankUsed (s : State) (i : StreamId) (f : Bank → Bank) (n : Nat) :
    ((s.modBank i f).tile n).bankUsed = (s.tile n).bankUsed := modCore_tile_bankUsed ..
@[simp] theorem modBank_tile_ends (s : State) (i : StreamId) (f : Bank → Bank) (n : Nat) :
    ((s.modBank i f).tile n).ends = (s.tile n).ends := modCore_tile_ends ..
@[simp] theorem modBank_tile_portOrd (s : State) (i : StreamId) (f : Bank → Bank) (n : Nat) :
    ((s.modBank i f).tile n).portOrd = (s.tile n).portOrd := modCore_tile_portOrd ..
@[simp] theorem modBank_tile_cnt0 (s : State) (i : StreamId) (f : Bank → Bank) (n : Nat) :
    ((s.modBank i f).tile n).cnt0 = (s.tile n).cnt0 := modCore_tile_cnt0 ..
@[simp] theorem modBank_tile_clk (s : State) (i : StreamId) (f : Bank → Bank) (n : Nat) :
    ((s.modBank i f).tile n).clk = (s.tile n).clk := modCore_tile_clk ..

@[simp] theorem modCl_tile_tsm (s : State) (i : StreamId) (f : Cluster → Cluster) (n : Nat) :
    ((s.modCl i f).tile n).tsm = (s.tile n).tsm := modCore_tile_tsm ..
@[simp] theorem modCl_tile_bankFlags (s : State) (i : StreamId) (f : Cluster → Cluster) (n : Nat) :
    ((s.modCl i f).tile n).bankFlags = (s.tile n).bankFlags := modCore_tile_bankFlags ..
@[simp] theorem modCl_tile_unitFlags (s : State) (i : StreamId) (f : Cluster → Cluster) (n : Nat) :
    ((s.modCl i f).tile n).unitFlags = (s.tile n).unitFlags := modCore_tile_unitFlags ..
@[simp] theorem modCl_tile_ttbase (s : State) (i : StreamId) (f : Cluster → Cluster) (n : Nat) :
    ((s.modCl i f).tile n).ttbase = (s.tile n).ttbase := modCore_tile_ttbase ..
@[simp] theorem modCl_tile_ptroot (s : State) (i : StreamId) (f : Cluster → Cluster) (n : Nat) :
    ((s.modCl i f).tile n).ptroot = (s.tile n).ptroot := modCore_tile_ptroot ..
@[simp] theorem modCl_tile_fqbase (s : State) (i : StreamId) (f : Cluster → Cluster) (n : Nat) :
    ((s.modCl i f).tile n).fqbase = (s.tile n).fqbase := modCore_tile_fqbase ..
@[simp] theorem modCl_tile_rdbase (s : State) (i : StreamId) (f : Cluster → Cluster) (n : Nat) :
    ((s.modCl i f).tile n).rdbase = (s.tile n).rdbase := modCore_tile_rdbase ..
@[simp] theorem modCl_tile_tvec (s : State) (i : StreamId) (f : Cluster → Cluster) (n : Nat) :
    ((s.modCl i f).tile n).tvec = (s.tile n).tvec := modCore_tile_tvec ..
@[simp] theorem modCl_tile_redir (s : State) (i : StreamId) (f : Cluster → Cluster) (n : Nat) :
    ((s.modCl i f).tile n).redir = (s.tile n).redir := modCore_tile_redir ..
@[simp] theorem modCl_tile_ready (s : State) (i : StreamId) (f : Cluster → Cluster) (n : Nat) :
    ((s.modCl i f).tile n).ready = (s.tile n).ready := modCore_tile_ready ..
@[simp] theorem modCl_tile_taskCtr (s : State) (i : StreamId) (f : Cluster → Cluster) (n : Nat) :
    ((s.modCl i f).tile n).taskCtr = (s.tile n).taskCtr := modCore_tile_taskCtr ..
@[simp] theorem modCl_tile_handles (s : State) (i : StreamId) (f : Cluster → Cluster) (n : Nat) :
    ((s.modCl i f).tile n).handles = (s.tile n).handles := modCore_tile_handles ..
@[simp] theorem modCl_tile_relays (s : State) (i : StreamId) (f : Cluster → Cluster) (n : Nat) :
    ((s.modCl i f).tile n).relays = (s.tile n).relays := modCore_tile_relays ..
@[simp] theorem modCl_tile_hq (s : State) (i : StreamId) (f : Cluster → Cluster) (n : Nat) :
    ((s.modCl i f).tile n).hq = (s.tile n).hq := modCore_tile_hq ..
@[simp] theorem modCl_tile_arrivals (s : State) (i : StreamId) (f : Cluster → Cluster) (n : Nat) :
    ((s.modCl i f).tile n).arrivals = (s.tile n).arrivals := modCore_tile_arrivals ..
@[simp] theorem modCl_tile_armed (s : State) (i : StreamId) (f : Cluster → Cluster) (n : Nat) :
    ((s.modCl i f).tile n).armed = (s.tile n).armed := modCore_tile_armed ..
@[simp] theorem modCl_tile_execq (s : State) (i : StreamId) (f : Cluster → Cluster) (n : Nat) :
    ((s.modCl i f).tile n).execq = (s.tile n).execq := modCore_tile_execq ..
@[simp] theorem modCl_tile_buckets (s : State) (i : StreamId) (f : Cluster → Cluster) (n : Nat) :
    ((s.modCl i f).tile n).buckets = (s.tile n).buckets := modCore_tile_buckets ..
@[simp] theorem modCl_tile_ports (s : State) (i : StreamId) (f : Cluster → Cluster) (n : Nat) :
    ((s.modCl i f).tile n).ports = (s.tile n).ports := modCore_tile_ports ..
@[simp] theorem modCl_tile_comb (s : State) (i : StreamId) (f : Cluster → Cluster) (n : Nat) :
    ((s.modCl i f).tile n).comb = (s.tile n).comb := modCore_tile_comb ..
@[simp] theorem modCl_tile_cal (s : State) (i : StreamId) (f : Cluster → Cluster) (n : Nat) :
    ((s.modCl i f).tile n).cal = (s.tile n).cal := modCore_tile_cal ..
@[simp] theorem modCl_tile_calNext (s : State) (i : StreamId) (f : Cluster → Cluster) (n : Nat) :
    ((s.modCl i f).tile n).calNext = (s.tile n).calNext := modCore_tile_calNext ..
@[simp] theorem modCl_tile_msc (s : State) (i : StreamId) (f : Cluster → Cluster) (n : Nat) :
    ((s.modCl i f).tile n).msc = (s.tile n).msc := modCore_tile_msc ..
@[simp] theorem modCl_tile_bloom (s : State) (i : StreamId) (f : Cluster → Cluster) (n : Nat) :
    ((s.modCl i f).tile n).bloom = (s.tile n).bloom := modCore_tile_bloom ..
@[simp] theorem modCl_tile_wq (s : State) (i : StreamId) (f : Cluster → Cluster) (n : Nat) :
    ((s.modCl i f).tile n).wq = (s.tile n).wq := modCore_tile_wq ..
@[simp] theorem modCl_tile_tlb (s : State) (i : StreamId) (f : Cluster → Cluster) (n : Nat) :
    ((s.modCl i f).tile n).tlb = (s.tile n).tlb := modCore_tile_tlb ..
@[simp] theorem modCl_tile_freeHead (s : State) (i : StreamId) (f : Cluster → Cluster) (n : Nat) :
    ((s.modCl i f).tile n).freeHead = (s.tile n).freeHead := modCore_tile_freeHead ..
@[simp] theorem modCl_tile_freeCount (s : State) (i : StreamId) (f : Cluster → Cluster) (n : Nat) :
    ((s.modCl i f).tile n).freeCount = (s.tile n).freeCount := modCore_tile_freeCount ..
@[simp] theorem modCl_tile_migs (s : State) (i : StreamId) (f : Cluster → Cluster) (n : Nat) :
    ((s.modCl i f).tile n).migs = (s.tile n).migs := modCore_tile_migs ..
@[simp] theorem modCl_tile_cnt (s : State) (i : StreamId) (f : Cluster → Cluster) (n : Nat) :
    ((s.modCl i f).tile n).cnt = (s.tile n).cnt := modCore_tile_cnt ..
@[simp] theorem modCl_tile_point (s : State) (i : StreamId) (f : Cluster → Cluster) (n : Nat) :
    ((s.modCl i f).tile n).point = (s.tile n).point := modCore_tile_point ..
@[simp] theorem modCl_tile_pointNext (s : State) (i : StreamId) (f : Cluster → Cluster) (n : Nat) :
    ((s.modCl i f).tile n).pointNext = (s.tile n).pointNext := modCore_tile_pointNext ..
@[simp] theorem modCl_tile_ceiling (s : State) (i : StreamId) (f : Cluster → Cluster) (n : Nat) :
    ((s.modCl i f).tile n).ceiling = (s.tile n).ceiling := modCore_tile_ceiling ..
@[simp] theorem modCl_tile_floor (s : State) (i : StreamId) (f : Cluster → Cluster) (n : Nat) :
    ((s.modCl i f).tile n).floor = (s.tile n).floor := modCore_tile_floor ..
@[simp] theorem modCl_tile_hot (s : State) (i : StreamId) (f : Cluster → Cluster) (n : Nat) :
    ((s.modCl i f).tile n).hot = (s.tile n).hot := modCore_tile_hot ..
@[simp] theorem modCl_tile_hint0 (s : State) (i : StreamId) (f : Cluster → Cluster) (n : Nat) :
    ((s.modCl i f).tile n).hint0 = (s.tile n).hint0 := modCore_tile_hint0 ..
@[simp] theorem modCl_tile_hint3 (s : State) (i : StreamId) (f : Cluster → Cluster) (n : Nat) :
    ((s.modCl i f).tile n).hint3 = (s.tile n).hint3 := modCore_tile_hint3 ..
@[simp] theorem modCl_tile_busyCycles (s : State) (i : StreamId) (f : Cluster → Cluster) (n : Nat) :
    ((s.modCl i f).tile n).busyCycles = (s.tile n).busyCycles := modCore_tile_busyCycles ..
@[simp] theorem modCl_tile_intervalCycles (s : State) (i : StreamId) (f : Cluster → Cluster) (n : Nat) :
    ((s.modCl i f).tile n).intervalCycles = (s.tile n).intervalCycles := modCore_tile_intervalCycles ..
@[simp] theorem modCl_tile_bankUsed (s : State) (i : StreamId) (f : Cluster → Cluster) (n : Nat) :
    ((s.modCl i f).tile n).bankUsed = (s.tile n).bankUsed := modCore_tile_bankUsed ..
@[simp] theorem modCl_tile_ends (s : State) (i : StreamId) (f : Cluster → Cluster) (n : Nat) :
    ((s.modCl i f).tile n).ends = (s.tile n).ends := modCore_tile_ends ..
@[simp] theorem modCl_tile_portOrd (s : State) (i : StreamId) (f : Cluster → Cluster) (n : Nat) :
    ((s.modCl i f).tile n).portOrd = (s.tile n).portOrd := modCore_tile_portOrd ..
@[simp] theorem modCl_tile_cnt0 (s : State) (i : StreamId) (f : Cluster → Cluster) (n : Nat) :
    ((s.modCl i f).tile n).cnt0 = (s.tile n).cnt0 := modCore_tile_cnt0 ..
@[simp] theorem modCl_tile_clk (s : State) (i : StreamId) (f : Cluster → Cluster) (n : Nat) :
    ((s.modCl i f).tile n).clk = (s.tile n).clk := modCore_tile_clk ..

/-! ### Cores -/

theorem core_modTile (s : State) (t n c : Nat) (f : Tile → Tile) :
    (s.modTile t f).core n c = if n = t then (f (s.tile t)).core c else s.core n c := by
  unfold State.core; rw [tile_modTile]; split <;> rfl

theorem core_modCore (s : State) (t c n k : Nat) (f : Core → Core) :
    (s.modCore t c f).core n k = if n = t ∧ k = c then f (s.core t c) else s.core n k := by
  unfold State.modCore
  rw [core_modTile]
  by_cases hn : n = t
  · subst hn
    rw [if_pos rfl]
    show tget Core.reset (tmod Core.reset (s.tile n).cores c f) k = _
    rw [tget_tmod]
    by_cases hk : k = c
    · rw [if_pos hk, if_pos ⟨rfl, hk⟩]; rfl
    · rw [if_neg hk, if_neg fun h => hk h.2]; rfl
  · rw [if_neg hn, if_neg fun h => hn h.1]

@[simp] theorem core_modCore_same (s : State) (t c : Nat) (f : Core → Core) :
    (s.modCore t c f).core t c = f (s.core t c) := by simp [core_modCore]

@[simp] theorem stall_core (s : State) (n c : Nat) : s.stall.core n c = s.core n c := rfl
@[simp] theorem drains_core (s : State) (n c : Nat) : s.drains.core n c = s.core n c := rfl

@[simp] theorem core_modBank_fg (x : Core) (b : Nat) (f : Bank → Bank) : (x.modBank b f).fg = x.fg := by
  unfold Core.modBank; split <;> rfl
@[simp] theorem core_modBank_xcnt (x : Core) (b : Nat) (f : Bank → Bank) : (x.modBank b f).xcnt = x.xcnt := by
  unfold Core.modBank; split <;> rfl
@[simp] theorem core_modBank_exch (x : Core) (b : Nat) (f : Bank → Bank) : (x.modBank b f).exch = x.exch := by
  unfold Core.modBank; split <;> rfl
@[simp] theorem core_modBank_ls (x : Core) (b : Nat) (f : Bank → Bank) : (x.modBank b f).ls = x.ls := by
  unfold Core.modBank; split <;> rfl
@[simp] theorem core_modBank_panels (x : Core) (b : Nat) (f : Bank → Bank) : (x.modBank b f).panels = x.panels := by
  unfold Core.modBank; split <;> rfl
@[simp] theorem core_modBank_tags (x : Core) (b : Nat) (f : Bank → Bank) : (x.modBank b f).tags = x.tags := by
  unfold Core.modBank; split <;> rfl
@[simp] theorem core_modBank_pstate (x : Core) (b : Nat) (f : Bank → Bank) : (x.modBank b f).pstate = x.pstate := by
  unfold Core.modBank; split <;> rfl
@[simp] theorem core_modBank_sems (x : Core) (b : Nat) (f : Bank → Bank) : (x.modBank b f).sems = x.sems := by
  unfold Core.modBank; split <;> rfl
@[simp] theorem core_modBank_sems0 (x : Core) (b : Nat) (f : Bank → Bank) : (x.modBank b f).sems0 = x.sems0 := by
  unfold Core.modBank; split <;> rfl
@[simp] theorem core_modBank_rings (x : Core) (b : Nat) (f : Bank → Bank) : (x.modBank b f).rings = x.rings := by
  unfold Core.modBank; split <;> rfl
@[simp] theorem core_modBank_mwin (x : Core) (b : Nat) (f : Bank → Bank) : (x.modBank b f).mwin = x.mwin := by
  unfold Core.modBank; split <;> rfl
@[simp] theorem core_modBank_proj (x : Core) (b : Nat) (f : Bank → Bank) : (x.modBank b f).proj = x.proj := by
  unfold Core.modBank; split <;> rfl
@[simp] theorem core_modBank_cour (x : Core) (b : Nat) (f : Bank → Bank) : (x.modBank b f).cour = x.cour := by
  unfold Core.modBank; split <;> rfl
@[simp] theorem core_modBank_sigs (x : Core) (b : Nat) (f : Bank → Bank) : (x.modBank b f).sigs = x.sigs := by
  unfold Core.modBank; split <;> rfl
@[simp] theorem core_modBank_lsUsed (x : Core) (b : Nat) (f : Bank → Bank) : (x.modBank b f).lsUsed = x.lsUsed := by
  unfold Core.modBank; split <;> rfl
@[simp] theorem core_modBank_lsStallNow (x : Core) (b : Nat) (f : Bank → Bank) : (x.modBank b f).lsStallNow = x.lsStallNow := by
  unfold Core.modBank; split <;> rfl
@[simp] theorem core_modBank_endFx (x : Core) (b : Nat) (f : Bank → Bank) : (x.modBank b f).endFx = x.endFx := by
  unfold Core.modBank; split <;> rfl
@[simp] theorem core_modBank_lsStalls (x : Core) (b : Nat) (f : Bank → Bank) : (x.modBank b f).lsStalls = x.lsStalls := by
  unfold Core.modBank; split <;> rfl
@[simp] theorem core_modBank_bubbles (x : Core) (b : Nat) (f : Bank → Bank) : (x.modBank b f).bubbles = x.bubbles := by
  unfold Core.modBank; split <;> rfl
@[simp] theorem core_modBank_marker (x : Core) (b : Nat) (f : Bank → Bank) : (x.modBank b f).marker = x.marker := by
  unfold Core.modBank; split <;> rfl
@[simp] theorem core_modBank_markers (x : Core) (b : Nat) (f : Bank → Bank) : (x.modBank b f).markers = x.markers := by
  unfold Core.modBank; split <;> rfl
@[simp] theorem core_modBank_pst0 (x : Core) (b : Nat) (f : Bank → Bank) : (x.modBank b f).pst0 = x.pst0 := by
  unfold Core.modBank; split <;> rfl
@[simp] theorem core_modBank_done0 (x : Core) (b : Nat) (f : Bank → Bank) : (x.modBank b f).done0 = x.done0 := by
  unfold Core.modBank; split <;> rfl
@[simp] theorem core_modBank_lsEng (x : Core) (b : Nat) (f : Bank → Bank) : (x.modBank b f).lsEng = x.lsEng := by
  unfold Core.modBank; split <;> rfl
@[simp] theorem core_modBank_tlb (x : Core) (b : Nat) (f : Bank → Bank) : (x.modBank b f).tlb = x.tlb := by
  unfold Core.modBank; split <;> rfl
@[simp] theorem core_modBank_icache (x : Core) (b : Nat) (f : Bank → Bank) : (x.modBank b f).icache = x.icache := by
  unfold Core.modBank; split <;> rfl
@[simp] theorem core_modBank_ecc (x : Core) (b : Nat) (f : Bank → Bank) : (x.modBank b f).ecc = x.ecc := by
  unfold Core.modBank; split <;> rfl

@[simp] theorem modBank_core_fg (s : State) (i : StreamId) (f : Bank → Bank) (n k : Nat) :
    ((s.modBank i f).core n k).fg = (s.core n k).fg := by
  unfold State.modBank; rw [core_modCore]; split <;> simp [*]
@[simp] theorem modBank_core_xcnt (s : State) (i : StreamId) (f : Bank → Bank) (n k : Nat) :
    ((s.modBank i f).core n k).xcnt = (s.core n k).xcnt := by
  unfold State.modBank; rw [core_modCore]; split <;> simp [*]
@[simp] theorem modBank_core_exch (s : State) (i : StreamId) (f : Bank → Bank) (n k : Nat) :
    ((s.modBank i f).core n k).exch = (s.core n k).exch := by
  unfold State.modBank; rw [core_modCore]; split <;> simp [*]
@[simp] theorem modBank_core_ls (s : State) (i : StreamId) (f : Bank → Bank) (n k : Nat) :
    ((s.modBank i f).core n k).ls = (s.core n k).ls := by
  unfold State.modBank; rw [core_modCore]; split <;> simp [*]
@[simp] theorem modBank_core_panels (s : State) (i : StreamId) (f : Bank → Bank) (n k : Nat) :
    ((s.modBank i f).core n k).panels = (s.core n k).panels := by
  unfold State.modBank; rw [core_modCore]; split <;> simp [*]
@[simp] theorem modBank_core_tags (s : State) (i : StreamId) (f : Bank → Bank) (n k : Nat) :
    ((s.modBank i f).core n k).tags = (s.core n k).tags := by
  unfold State.modBank; rw [core_modCore]; split <;> simp [*]
@[simp] theorem modBank_core_pstate (s : State) (i : StreamId) (f : Bank → Bank) (n k : Nat) :
    ((s.modBank i f).core n k).pstate = (s.core n k).pstate := by
  unfold State.modBank; rw [core_modCore]; split <;> simp [*]
@[simp] theorem modBank_core_sems (s : State) (i : StreamId) (f : Bank → Bank) (n k : Nat) :
    ((s.modBank i f).core n k).sems = (s.core n k).sems := by
  unfold State.modBank; rw [core_modCore]; split <;> simp [*]
@[simp] theorem modBank_core_sems0 (s : State) (i : StreamId) (f : Bank → Bank) (n k : Nat) :
    ((s.modBank i f).core n k).sems0 = (s.core n k).sems0 := by
  unfold State.modBank; rw [core_modCore]; split <;> simp [*]
@[simp] theorem modBank_core_rings (s : State) (i : StreamId) (f : Bank → Bank) (n k : Nat) :
    ((s.modBank i f).core n k).rings = (s.core n k).rings := by
  unfold State.modBank; rw [core_modCore]; split <;> simp [*]
@[simp] theorem modBank_core_mwin (s : State) (i : StreamId) (f : Bank → Bank) (n k : Nat) :
    ((s.modBank i f).core n k).mwin = (s.core n k).mwin := by
  unfold State.modBank; rw [core_modCore]; split <;> simp [*]
@[simp] theorem modBank_core_proj (s : State) (i : StreamId) (f : Bank → Bank) (n k : Nat) :
    ((s.modBank i f).core n k).proj = (s.core n k).proj := by
  unfold State.modBank; rw [core_modCore]; split <;> simp [*]
@[simp] theorem modBank_core_cour (s : State) (i : StreamId) (f : Bank → Bank) (n k : Nat) :
    ((s.modBank i f).core n k).cour = (s.core n k).cour := by
  unfold State.modBank; rw [core_modCore]; split <;> simp [*]
@[simp] theorem modBank_core_sigs (s : State) (i : StreamId) (f : Bank → Bank) (n k : Nat) :
    ((s.modBank i f).core n k).sigs = (s.core n k).sigs := by
  unfold State.modBank; rw [core_modCore]; split <;> simp [*]
@[simp] theorem modBank_core_lsUsed (s : State) (i : StreamId) (f : Bank → Bank) (n k : Nat) :
    ((s.modBank i f).core n k).lsUsed = (s.core n k).lsUsed := by
  unfold State.modBank; rw [core_modCore]; split <;> simp [*]
@[simp] theorem modBank_core_lsStallNow (s : State) (i : StreamId) (f : Bank → Bank) (n k : Nat) :
    ((s.modBank i f).core n k).lsStallNow = (s.core n k).lsStallNow := by
  unfold State.modBank; rw [core_modCore]; split <;> simp [*]
@[simp] theorem modBank_core_endFx (s : State) (i : StreamId) (f : Bank → Bank) (n k : Nat) :
    ((s.modBank i f).core n k).endFx = (s.core n k).endFx := by
  unfold State.modBank; rw [core_modCore]; split <;> simp [*]
@[simp] theorem modBank_core_lsStalls (s : State) (i : StreamId) (f : Bank → Bank) (n k : Nat) :
    ((s.modBank i f).core n k).lsStalls = (s.core n k).lsStalls := by
  unfold State.modBank; rw [core_modCore]; split <;> simp [*]
@[simp] theorem modBank_core_bubbles (s : State) (i : StreamId) (f : Bank → Bank) (n k : Nat) :
    ((s.modBank i f).core n k).bubbles = (s.core n k).bubbles := by
  unfold State.modBank; rw [core_modCore]; split <;> simp [*]
@[simp] theorem modBank_core_marker (s : State) (i : StreamId) (f : Bank → Bank) (n k : Nat) :
    ((s.modBank i f).core n k).marker = (s.core n k).marker := by
  unfold State.modBank; rw [core_modCore]; split <;> simp [*]
@[simp] theorem modBank_core_markers (s : State) (i : StreamId) (f : Bank → Bank) (n k : Nat) :
    ((s.modBank i f).core n k).markers = (s.core n k).markers := by
  unfold State.modBank; rw [core_modCore]; split <;> simp [*]
@[simp] theorem modBank_core_pst0 (s : State) (i : StreamId) (f : Bank → Bank) (n k : Nat) :
    ((s.modBank i f).core n k).pst0 = (s.core n k).pst0 := by
  unfold State.modBank; rw [core_modCore]; split <;> simp [*]
@[simp] theorem modBank_core_done0 (s : State) (i : StreamId) (f : Bank → Bank) (n k : Nat) :
    ((s.modBank i f).core n k).done0 = (s.core n k).done0 := by
  unfold State.modBank; rw [core_modCore]; split <;> simp [*]
@[simp] theorem modBank_core_lsEng (s : State) (i : StreamId) (f : Bank → Bank) (n k : Nat) :
    ((s.modBank i f).core n k).lsEng = (s.core n k).lsEng := by
  unfold State.modBank; rw [core_modCore]; split <;> simp [*]
@[simp] theorem modBank_core_tlb (s : State) (i : StreamId) (f : Bank → Bank) (n k : Nat) :
    ((s.modBank i f).core n k).tlb = (s.core n k).tlb := by
  unfold State.modBank; rw [core_modCore]; split <;> simp [*]
@[simp] theorem modBank_core_icache (s : State) (i : StreamId) (f : Bank → Bank) (n k : Nat) :
    ((s.modBank i f).core n k).icache = (s.core n k).icache := by
  unfold State.modBank; rw [core_modCore]; split <;> simp [*]
@[simp] theorem modBank_core_ecc (s : State) (i : StreamId) (f : Bank → Bank) (n k : Nat) :
    ((s.modBank i f).core n k).ecc = (s.core n k).ecc := by
  unfold State.modBank; rw [core_modCore]; split <;> simp [*]

@[simp] theorem modCl_core_fg (s : State) (i : StreamId) (f : Cluster → Cluster) (n k : Nat) :
    ((s.modCl i f).core n k).fg = (s.core n k).fg := modBank_core_fg ..
@[simp] theorem modCl_core_xcnt (s : State) (i : StreamId) (f : Cluster → Cluster) (n k : Nat) :
    ((s.modCl i f).core n k).xcnt = (s.core n k).xcnt := modBank_core_xcnt ..
@[simp] theorem modCl_core_exch (s : State) (i : StreamId) (f : Cluster → Cluster) (n k : Nat) :
    ((s.modCl i f).core n k).exch = (s.core n k).exch := modBank_core_exch ..
@[simp] theorem modCl_core_ls (s : State) (i : StreamId) (f : Cluster → Cluster) (n k : Nat) :
    ((s.modCl i f).core n k).ls = (s.core n k).ls := modBank_core_ls ..
@[simp] theorem modCl_core_panels (s : State) (i : StreamId) (f : Cluster → Cluster) (n k : Nat) :
    ((s.modCl i f).core n k).panels = (s.core n k).panels := modBank_core_panels ..
@[simp] theorem modCl_core_tags (s : State) (i : StreamId) (f : Cluster → Cluster) (n k : Nat) :
    ((s.modCl i f).core n k).tags = (s.core n k).tags := modBank_core_tags ..
@[simp] theorem modCl_core_pstate (s : State) (i : StreamId) (f : Cluster → Cluster) (n k : Nat) :
    ((s.modCl i f).core n k).pstate = (s.core n k).pstate := modBank_core_pstate ..
@[simp] theorem modCl_core_sems (s : State) (i : StreamId) (f : Cluster → Cluster) (n k : Nat) :
    ((s.modCl i f).core n k).sems = (s.core n k).sems := modBank_core_sems ..
@[simp] theorem modCl_core_sems0 (s : State) (i : StreamId) (f : Cluster → Cluster) (n k : Nat) :
    ((s.modCl i f).core n k).sems0 = (s.core n k).sems0 := modBank_core_sems0 ..
@[simp] theorem modCl_core_rings (s : State) (i : StreamId) (f : Cluster → Cluster) (n k : Nat) :
    ((s.modCl i f).core n k).rings = (s.core n k).rings := modBank_core_rings ..
@[simp] theorem modCl_core_mwin (s : State) (i : StreamId) (f : Cluster → Cluster) (n k : Nat) :
    ((s.modCl i f).core n k).mwin = (s.core n k).mwin := modBank_core_mwin ..
@[simp] theorem modCl_core_proj (s : State) (i : StreamId) (f : Cluster → Cluster) (n k : Nat) :
    ((s.modCl i f).core n k).proj = (s.core n k).proj := modBank_core_proj ..
@[simp] theorem modCl_core_cour (s : State) (i : StreamId) (f : Cluster → Cluster) (n k : Nat) :
    ((s.modCl i f).core n k).cour = (s.core n k).cour := modBank_core_cour ..
@[simp] theorem modCl_core_sigs (s : State) (i : StreamId) (f : Cluster → Cluster) (n k : Nat) :
    ((s.modCl i f).core n k).sigs = (s.core n k).sigs := modBank_core_sigs ..
@[simp] theorem modCl_core_lsUsed (s : State) (i : StreamId) (f : Cluster → Cluster) (n k : Nat) :
    ((s.modCl i f).core n k).lsUsed = (s.core n k).lsUsed := modBank_core_lsUsed ..
@[simp] theorem modCl_core_lsStallNow (s : State) (i : StreamId) (f : Cluster → Cluster) (n k : Nat) :
    ((s.modCl i f).core n k).lsStallNow = (s.core n k).lsStallNow := modBank_core_lsStallNow ..
@[simp] theorem modCl_core_endFx (s : State) (i : StreamId) (f : Cluster → Cluster) (n k : Nat) :
    ((s.modCl i f).core n k).endFx = (s.core n k).endFx := modBank_core_endFx ..
@[simp] theorem modCl_core_lsStalls (s : State) (i : StreamId) (f : Cluster → Cluster) (n k : Nat) :
    ((s.modCl i f).core n k).lsStalls = (s.core n k).lsStalls := modBank_core_lsStalls ..
@[simp] theorem modCl_core_bubbles (s : State) (i : StreamId) (f : Cluster → Cluster) (n k : Nat) :
    ((s.modCl i f).core n k).bubbles = (s.core n k).bubbles := modBank_core_bubbles ..
@[simp] theorem modCl_core_marker (s : State) (i : StreamId) (f : Cluster → Cluster) (n k : Nat) :
    ((s.modCl i f).core n k).marker = (s.core n k).marker := modBank_core_marker ..
@[simp] theorem modCl_core_markers (s : State) (i : StreamId) (f : Cluster → Cluster) (n k : Nat) :
    ((s.modCl i f).core n k).markers = (s.core n k).markers := modBank_core_markers ..
@[simp] theorem modCl_core_pst0 (s : State) (i : StreamId) (f : Cluster → Cluster) (n k : Nat) :
    ((s.modCl i f).core n k).pst0 = (s.core n k).pst0 := modBank_core_pst0 ..
@[simp] theorem modCl_core_done0 (s : State) (i : StreamId) (f : Cluster → Cluster) (n k : Nat) :
    ((s.modCl i f).core n k).done0 = (s.core n k).done0 := modBank_core_done0 ..
@[simp] theorem modCl_core_lsEng (s : State) (i : StreamId) (f : Cluster → Cluster) (n k : Nat) :
    ((s.modCl i f).core n k).lsEng = (s.core n k).lsEng := modBank_core_lsEng ..
@[simp] theorem modCl_core_tlb (s : State) (i : StreamId) (f : Cluster → Cluster) (n k : Nat) :
    ((s.modCl i f).core n k).tlb = (s.core n k).tlb := modBank_core_tlb ..
@[simp] theorem modCl_core_icache (s : State) (i : StreamId) (f : Cluster → Cluster) (n k : Nat) :
    ((s.modCl i f).core n k).icache = (s.core n k).icache := modBank_core_icache ..
@[simp] theorem modCl_core_ecc (s : State) (i : StreamId) (f : Cluster → Cluster) (n k : Nat) :
    ((s.modCl i f).core n k).ecc = (s.core n k).ecc := modBank_core_ecc ..

/-! ### Banks -/

/-- Two streams are of one bank. -/
def SameBank (i j : StreamId) : Prop := j.tile = i.tile ∧ j.core = i.core ∧ (j.bank = 0 ↔ i.bank = 0)

theorem core_bank_modBank (x : Core) (a b : Nat) (f : Bank → Bank) :
    (x.modBank a f).bank b = if b = 0 ↔ a = 0 then f (x.bank a) else x.bank b := by
  unfold Core.modBank Core.bank
  by_cases ha : a = 0 <;> by_cases hb : b = 0 <;> simp [ha, hb]

theorem bank_modBank (s : State) (i j : StreamId) (f : Bank → Bank) [Decidable (SameBank i j)] :
    (s.modBank i f).bank j = if SameBank i j then f (s.bank i) else s.bank j := by
  unfold State.modBank State.bank
  rw [core_modCore]
  by_cases h : j.tile = i.tile ∧ j.core = i.core
  · obtain ⟨h1, h2⟩ := h
    rw [if_pos ⟨h1, h2⟩, core_bank_modBank]
    by_cases hb : j.bank = 0 ↔ i.bank = 0
    · rw [if_pos hb, if_pos ⟨h1, h2, hb⟩]
    · rw [if_neg hb, if_neg fun h => hb h.2.2, h1, h2]
  · rw [if_neg h, if_neg fun g => h ⟨g.1, g.2.1⟩]

@[simp] theorem bank_modBank_same (s : State) (i : StreamId) (f : Bank → Bank) :
    (s.modBank i f).bank i = f (s.bank i) := by
  classical
  rw [bank_modBank, if_pos ⟨rfl, rfl, Iff.rfl⟩]

@[simp] theorem bank_onCl (s : State) (i : StreamId) (k : Fin 4) : s.bank (onCl i k) = s.bank i := rfl

@[simp] theorem onCl_onCl (i : StreamId) (j k : Fin 4) : onCl (onCl i j) k = onCl i k := rfl

@[simp] theorem onCl_cl (i : StreamId) (k : Fin 4) : (onCl i k).cl = k := rfl

@[simp] theorem bank_modCl_occ (b : Bank) (k : Fin 4) (f : Cluster → Cluster) : (b.modCl k f).occ = b.occ := rfl
@[simp] theorem bank_modCl_joined (b : Bank) (k : Fin 4) (f : Cluster → Cluster) : (b.modCl k f).joined = b.joined := rfl
@[simp] theorem bank_modCl_joins (b : Bank) (k : Fin 4) (f : Cluster → Cluster) : (b.modCl k f).joins = b.joins := rfl
@[simp] theorem bank_modCl_barBase (b : Bank) (k : Fin 4) (f : Cluster → Cluster) : (b.modCl k f).barBase = b.barBase := rfl
@[simp] theorem bank_modCl_barDepth (b : Bank) (k : Fin 4) (f : Cluster → Cluster) : (b.modCl k f).barDepth = b.barDepth := rfl
@[simp] theorem bank_modCl_taskid (b : Bank) (k : Fin 4) (f : Cluster → Cluster) : (b.modCl k f).taskid = b.taskid := rfl
@[simp] theorem bank_modCl_company (b : Bank) (k : Fin 4) (f : Cluster → Cluster) : (b.modCl k f).company = b.company := rfl
@[simp] theorem bank_modCl_pwb (b : Bank) (k : Fin 4) (f : Cluster → Cluster) : (b.modCl k f).pwb = b.pwb := rfl
@[simp] theorem bank_modCl_replay (b : Bank) (k : Fin 4) (f : Cluster → Cluster) : (b.modCl k f).replay = b.replay := rfl
@[simp] theorem bank_modCl_done (b : Bank) (k : Fin 4) (f : Cluster → Cluster) : (b.modCl k f).done = b.done := rfl
@[simp] theorem bank_modCl_total (b : Bank) (k : Fin 4) (f : Cluster → Cluster) : (b.modCl k f).total = b.total := rfl
@[simp] theorem bank_modCl_cycles (b : Bank) (k : Fin 4) (f : Cluster → Cluster) : (b.modCl k f).cycles = b.cycles := rfl
@[simp] theorem bank_modCl_task (b : Bank) (k : Fin 4) (f : Cluster → Cluster) : (b.modCl k f).task = b.task := rfl
@[simp] theorem bank_modCl_started (b : Bank) (k : Fin 4) (f : Cluster → Cluster) : (b.modCl k f).started = b.started := rfl
@[simp] theorem bank_modCl_since (b : Bank) (k : Fin 4) (f : Cluster → Cluster) : (b.modCl k f).since = b.since := rfl

theorem modCl_bank_obs {β : Type} (s : State) (i j : StreamId) (f : Cluster → Cluster) (g : Bank → β)
    (hg : ∀ b k f, g (Bank.modCl b k f) = g b) : g ((s.modCl i f).bank j) = g (s.bank j) := by
  classical
  unfold State.modCl
  rw [bank_modBank]
  split
  · rename_i h
    rw [hg]
    have : s.bank j = s.bank i := by
      unfold State.bank Core.bank
      rw [h.1, h.2.1]
      by_cases hb : i.bank = 0 <;> simp [hb, h.2.2]
    rw [this]
  · rfl

@[simp] theorem modCl_bank_occ (s : State) (i j : StreamId) (f : Cluster → Cluster) :
    ((s.modCl i f).bank j).occ = (s.bank j).occ := modCl_bank_obs s i j f (·.occ) fun _ _ _ => rfl
@[simp] theorem modCl_bank_joined (s : State) (i j : StreamId) (f : Cluster → Cluster) :
    ((s.modCl i f).bank j).joined = (s.bank j).joined := modCl_bank_obs s i j f (·.joined) fun _ _ _ => rfl
@[simp] theorem modCl_bank_joins (s : State) (i j : StreamId) (f : Cluster → Cluster) :
    ((s.modCl i f).bank j).joins = (s.bank j).joins := modCl_bank_obs s i j f (·.joins) fun _ _ _ => rfl
@[simp] theorem modCl_bank_barBase (s : State) (i j : StreamId) (f : Cluster → Cluster) :
    ((s.modCl i f).bank j).barBase = (s.bank j).barBase := modCl_bank_obs s i j f (·.barBase) fun _ _ _ => rfl
@[simp] theorem modCl_bank_barDepth (s : State) (i j : StreamId) (f : Cluster → Cluster) :
    ((s.modCl i f).bank j).barDepth = (s.bank j).barDepth := modCl_bank_obs s i j f (·.barDepth) fun _ _ _ => rfl
@[simp] theorem modCl_bank_taskid (s : State) (i j : StreamId) (f : Cluster → Cluster) :
    ((s.modCl i f).bank j).taskid = (s.bank j).taskid := modCl_bank_obs s i j f (·.taskid) fun _ _ _ => rfl
@[simp] theorem modCl_bank_company (s : State) (i j : StreamId) (f : Cluster → Cluster) :
    ((s.modCl i f).bank j).company = (s.bank j).company := modCl_bank_obs s i j f (·.company) fun _ _ _ => rfl
@[simp] theorem modCl_bank_pwb (s : State) (i j : StreamId) (f : Cluster → Cluster) :
    ((s.modCl i f).bank j).pwb = (s.bank j).pwb := modCl_bank_obs s i j f (·.pwb) fun _ _ _ => rfl
@[simp] theorem modCl_bank_replay (s : State) (i j : StreamId) (f : Cluster → Cluster) :
    ((s.modCl i f).bank j).replay = (s.bank j).replay := modCl_bank_obs s i j f (·.replay) fun _ _ _ => rfl
@[simp] theorem modCl_bank_done (s : State) (i j : StreamId) (f : Cluster → Cluster) :
    ((s.modCl i f).bank j).done = (s.bank j).done := modCl_bank_obs s i j f (·.done) fun _ _ _ => rfl
@[simp] theorem modCl_bank_total (s : State) (i j : StreamId) (f : Cluster → Cluster) :
    ((s.modCl i f).bank j).total = (s.bank j).total := modCl_bank_obs s i j f (·.total) fun _ _ _ => rfl
@[simp] theorem modCl_bank_cycles (s : State) (i j : StreamId) (f : Cluster → Cluster) :
    ((s.modCl i f).bank j).cycles = (s.bank j).cycles := modCl_bank_obs s i j f (·.cycles) fun _ _ _ => rfl
@[simp] theorem modCl_bank_task (s : State) (i j : StreamId) (f : Cluster → Cluster) :
    ((s.modCl i f).bank j).task = (s.bank j).task := modCl_bank_obs s i j f (·.task) fun _ _ _ => rfl
@[simp] theorem modCl_bank_started (s : State) (i j : StreamId) (f : Cluster → Cluster) :
    ((s.modCl i f).bank j).started = (s.bank j).started := modCl_bank_obs s i j f (·.started) fun _ _ _ => rfl
@[simp] theorem modCl_bank_since (s : State) (i j : StreamId) (f : Cluster → Cluster) :
    ((s.modCl i f).bank j).since = (s.bank j).since := modCl_bank_obs s i j f (·.since) fun _ _ _ => rfl

/-! ### Clusters -/

@[simp] theorem bank_cl_modCl (b : Bank) (k j : Fin 4) (f : Cluster → Cluster) :
    (b.modCl k f).cl.get j = if j = k then f (b.cl.get k) else b.cl.get j := quad_get_set ..

theorem cl_modCl_same (s : State) (i : StreamId) (f : Cluster → Cluster) : (s.modCl i f).cl i = f (s.cl i) := by
  unfold State.cl State.modCl
  rw [bank_modBank_same, bank_cl_modCl, if_pos rfl]

/-- A cluster of the same bank after an update of another or of itself. -/
theorem cl_modCl_onCl (s : State) (i : StreamId) (k : Fin 4) (f : Cluster → Cluster) :
    (s.modCl i f).cl (onCl i k) = if k = i.cl then f (s.cl i) else s.cl (onCl i k) := by
  unfold State.cl State.modCl
  rw [bank_onCl, bank_modBank_same, bank_cl_modCl]
  rfl

@[simp] theorem curCl_modCurCl (s : State) (k j : Fin 4) (f : Cluster → Cluster) :
    (s.modCurCl k f).curCl j = if j = k then f (s.curCl k) else s.curCl j := by
  exact cl_modCl_onCl s (onCl s.cur k) j f

/-- What every cluster of a list reads after an update of all of them. -/
theorem cl_modCls (i : StreamId) (f : Cluster → Cluster) (k : Fin 4) :
    ∀ (ks : List (Fin 4)), ks.Nodup → ∀ s : State,
      (s.modCls i ks f).cl (onCl i k) = if k ∈ ks then f (s.cl (onCl i k)) else s.cl (onCl i k) := by
  intro ks
  induction ks with
  | nil => intro _ s; simp [State.modCls]
  | cons j ks ih =>
    intro hn s
    obtain ⟨hj, hn⟩ := List.nodup_cons.mp hn
    show ((s.modCl (onCl i j) f).modCls i ks f).cl (onCl i k) = _
    rw [ih hn]
    have e := cl_modCl_onCl s (onCl i j) k f
    simp only [onCl_onCl, onCl_cl] at e
    rw [e]
    by_cases hk : k = j
    · subst hk; simp [hj]
    · simp [hk]

end Sys2Proof.Laws
end

