-- ==== Sys2Proof/Laws/Ops.lean ====
section
/-!
SUPPORT. What the shared operations can do, said once: updates of the present stream's clusters, results put in flight,
and the operations that all S-class meanings are instances of.
-/

namespace Sys2Proof.Laws

open Sys2Proof.Machine
open Sys2Proof.Safety

/-! ### Changing a cluster of the present stream's bank -/

theorem OnlyClusters_refl (s : State) : OnlyClusters s s where
  module := rfl
  tiles _ := rfl
  cores _ _ := .inr rfl
  core := rfl
  banks := ⟨fun _ => .inr rfl, rfl⟩

/-- An update of a cluster depends on its value there alone. -/
theorem modCl_congr (s : State) (i : StreamId) {f g : Cluster → Cluster} (h : f (s.cl i) = g (s.cl i)) :
    s.modCl i f = s.modCl i g := by
  have e : (s.core i.tile i.core).modBank i.bank (fun b => b.modCl i.cl f) =
      (s.core i.tile i.core).modBank i.bank fun b => b.modCl i.cl g := by
    have hb : ((s.core i.tile i.core).bank i.bank).modCl i.cl f = ((s.core i.tile i.core).bank i.bank).modCl i.cl g := by
      unfold Bank.modCl
      rw [show f (((s.core i.tile i.core).bank i.bank).cl.get i.cl) = _ from h]
      rfl
    unfold Core.modBank Core.bank at *
    split <;> simp_all
  show ({ s with tiles := tset s.tiles i.tile _ } : State) = { s with tiles := tset s.tiles i.tile _ }
  simp only [tmod]
  rw [show (tget Core.reset (tget Tile.reset s.tiles i.tile).cores i.core).modBank i.bank (fun b => b.modCl i.cl f) = _ from e]
  rfl

/-- The present stream is the same after a step that changes its core alone. -/
theorem cur_of_module {s t : State} (h : SameModule s t) : t.cur = s.cur := by
  have := congrArg State.cur h
  exact this

theorem OnlyClusters_modCurCl {s t : State} (h : OnlyClusters s t) (k : Fin 4) (f : Cluster → Cluster) :
    OnlyClusters s (t.modCurCl k f) := by
  obtain ⟨⟨hm, ht, hc⟩, hx, hb, hk⟩ := h
  have e := cur_of_module hm
  have core : ∀ n c, (t.modCurCl k f).core n c =
      if n = s.cur.tile ∧ c = s.cur.core then t.curCore.modBank s.cur.bank (fun b => b.modCl k f) else t.core n c := by
    intro n c
    have := core_modCore t t.cur.tile t.cur.core n c fun x => x.modBank t.cur.bank fun b => b.modCl k f
    rw [e] at this
    rw [show t.curCore = t.core s.cur.tile s.cur.core by unfold State.curCore; rw [e]]
    rw [← this, ← e]
    rfl
  have curCore : (t.modCurCl k f).curCore = t.curCore.modBank s.cur.bank fun b => b.modCl k f := by
    have := core s.cur.tile s.cur.core
    rw [if_pos ⟨rfl, rfl⟩] at this
    rw [← this]
    unfold State.curCore
    rw [modCurCl_cur, e]
  have bank : ∀ b, (t.modCurCl k f).curCore.bank b =
      if b = 0 ↔ s.cur.bank = 0 then (t.curCore.bank s.cur.bank).modCl k f else t.curCore.bank b := by
    intro b
    rw [curCore, core_bank_modBank]
  refine ⟨⟨hm, fun n => ?_, fun n c => ?_⟩, ?_, fun b => ?_, ?_⟩
  · have := tile_modCore t t.cur.tile t.cur.core n fun x => x.modBank t.cur.bank fun b => b.modCl k f
    show ({ (t.modCurCl k f).tile n with cores := (s.tile n).cores } : Tile) = s.tile n
    rw [show (t.modCurCl k f).tile n = _ from this]
    rw [← ht n]
    split
    · subst_vars; rfl
    · rfl
  · rcases hc n c with h | h
    · exact .inl h
    · by_cases g : n = s.cur.tile ∧ c = s.cur.core
      · exact .inl g
      · right; rw [core, if_neg g, h]
  · show ({ (t.modCurCl k f).curCore with b0 := s.curCore.b0, b1 := s.curCore.b1 } : Core) = s.curCore
    rw [curCore, ← hx]
    unfold Core.modBank
    split <;> rfl
  · rcases hb b with h | h
    · exact .inl h
    · by_cases g : b = 0 ↔ s.cur.bank = 0
      · exact .inl g
      · right; rw [bank, if_neg g, h]
  · have : (t.modCurCl k f).curBank = (t.curBank).modCl k f := by
      have := bank s.cur.bank
      rw [if_pos Iff.rfl] at this
      show (t.modCurCl k f).bank (t.modCurCl k f).cur = (t.bank t.cur).modCl k f
      rw [modCurCl_cur, e]
      unfold State.bank
      unfold State.curCore at this
      rw [modCurCl_cur, e] at this
      exact this
    show ({ (t.modCurCl k f).curBank with cl := s.curBank.cl } : Bank) = s.curBank
    rw [this, ← hk]
    rfl

/-- Clusters changed one after the other: what each reads, and that nothing else changes. -/
theorem each_modCurCl (f : State → Fin 4 → State) (g : Fin 4 → Cluster → Cluster)
    (hf : ∀ s k, f s k = s.modCurCl k (g k)) (ks : List (Fin 4)) (hn : ks.Nodup) (s : State) :
    OnlyClusters s (s.each ks f) ∧ (s.each ks f).iss = s.iss ∧
      ∀ k, (s.each ks f).curCl k = if k ∈ ks then g k (s.curCl k) else s.curCl k := by
  refine ⟨foldl_keeps (p := OnlyClusters s) (fun t k h => ?_) ks (OnlyClusters_refl s), ?_, fun k => ?_⟩
  · rw [hf]; exact OnlyClusters_modCurCl h k _
  · exact foldl_obs (f := f) (·.iss) (fun t k => by rw [hf]; rfl) ks s
  · induction ks generalizing s with
    | nil => simp [State.each]
    | cons j ks ih =>
      obtain ⟨hj, hn⟩ := List.nodup_cons.mp hn
      show ((f s j).each ks f).curCl k = _
      rw [ih hn, hf, curCl_modCurCl]
      by_cases hk : k = j
      · subst hk; simp [hj]
      · simp [hk]

/-- The true clusters are listed once each. -/
theorem active_nodup (s : State) : s.active.Nodup := by
  unfold State.active State.clsOf
  have h : cls4.Nodup := by decide
  split
  · exact h.filter _
  · split
    · exact h
    · simp

theorem on_nodup (s : State) (h : Hdr) : (s.on h).Nodup := (active_nodup s).filter _

/-! ### Operations -/

theorem pendOn_false {s : State} {h : Hdr} {rs : List Reg} (hp : NonePending s h rs) : s.pendOn (s.on h) rs = false := by
  simp only [State.pendOn, Cluster.pendAny, List.any_eq_false]
  intro k hk
  simp only [Bool.not_eq_true, List.any_eq_false]
  intro r hr
  simp [hp k hk r hr]

/-- An operation whose meaning changes the true clusters one after the other has exactly that effect. -/
theorem does_each {i : Instr} {s : State} {h : Hdr} (f : State → Fin 4 → State) (g : Fin 4 → Cluster → Cluster)
    (he : exec i s = (s.each (s.on h) f).done) (hf : ∀ s k, f s k = s.modCurCl k (g k)) : Does i s h g := by
  obtain ⟨ho, hi, hc⟩ := each_modCurCl f g hf (s.on h) (on_nodup s h) s
  refine ⟨_, he, ?_, ⟨⟨?_, ho.tiles, ho.cores⟩, ho.core, ho.banks⟩, hc⟩
  · show ({ (s.each (s.on h) f).iss with res := .ok } : Issue) = _
    rw [hi]
  · exact ho.module

/-- The shared form of the S-class operations (R89, R91, R97). -/
theorem does_scalarOp {i : Instr} {s : State} {h : Hdr} {srcs dsts : List Reg} {lat : Nat} {f : Cluster → FDst}
    (he : exec i s = scalarOp h srcs dsts lat f s) (hp : NonePending s h (srcs ++ dsts)) :
    Does i s h fun _ c => Safety.fly lat (f c) 0 c := by
  refine does_each (fun s k => s.fly (onCl s.cur k) lat (f (s.curCl k)) fNone) _ ?_ fun t k => ?_
  · rw [he]; unfold scalarOp; simp only [pendOn_false hp, Bool.false_eq_true, if_false]
  · exact modCl_congr t (onCl t.cur k) rfl

end Sys2Proof.Laws
end

