-- ==== Sys2Proof/Laws/PerInstr.lean ====
section
/-!
SUPPORT. What holds of every instruction as syntax, one lemma per constructor: the encoder keeps an operation's header in its
word (Table enc 1).
-/

namespace Sys2Proof.Laws.HeaderKept

open Sys2Proof

/-- The header of the word that encodes an instruction is the instruction's. -/
def Statement (i : Instr) : Prop := ∀ w, encode i = some w → i.hdr? = some (hdrF w)

/-- A bit above the lower part of two joined fields is one of the upper part. -/
theorem getLsbD_above {m n : Nat} (x : BitVec m) (y : BitVec n) (i : Nat) : (x ++ y).getLsbD (n + i) = x.getLsbD i := by
  rw [BitVec.getLsbD_append, if_neg (by omega), Nat.add_sub_cancel_left]

/-- A bit of the lower part of two joined fields. -/
theorem getLsbD_below {m n : Nat} (x : BitVec m) (y : BitVec n) {i : Nat} (h : i < n) :
    (x ++ y).getLsbD i = y.getLsbD i := by
  rw [BitVec.getLsbD_append, if_pos h]

/-- The header fields of an assembled word are those it was assembled from. -/
theorem hdrF_word (h : Hdr) (c : BitVec 3) (o : BitVec 8) (p : BitVec 48) : hdrF (word h c o p) = h := by
  have top (i : Nat) := getLsbD_above (BitVec.ofBool h.e ++ c ++ o ++ BitVec.ofBool h.neg ++ h.pred) p i
  have upper (i : Nat) := (top (3 + i)).trans (getLsbD_above (BitVec.ofBool h.e ++ c ++ o ++ BitVec.ofBool h.neg) h.pred i)
  have he : (word h c o p).getLsbD 63 = h.e :=
    (upper 12).trans ((getLsbD_above _ (BitVec.ofBool h.neg) 11).trans
      ((getLsbD_above _ o 3).trans ((getLsbD_above _ c 0).trans (by simp))))
  have hn : (word h c o p).getLsbD 51 = h.neg := (upper 0).trans ((getLsbD_below _ _ (by decide)).trans (by simp))
  have hq : fld (word h c o p) 48 3 = h.pred := by
    apply BitVec.eq_of_getLsbD_eq
    intro i hi
    have : (word h c o p).getLsbD (48 + i) = h.pred.getLsbD i := (top i).trans (getLsbD_below _ _ hi)
    simp [fld, hi, this]
  rw [hdrF, he, hn, hq]

/-- An instruction that encodes to an assembled word. -/
theorem ofWord {i : Instr} {h : Hdr} {c : BitVec 3} {o : BitVec 8} {p : BitVec 48} (he : encode i = some (word h c o p))
    (hh : i.hdr? = some h) : Statement i := by
  intro w hw
  rw [he] at hw
  rw [← Option.some.inj hw, hdrF_word, hh]

/-- A row that no word encodes. -/
theorem ofNone {i : Instr} (he : encode i = none) : Statement i := by
  intro w hw
  rw [he] at hw
  cases hw

theorem add (h : Hdr) (d a b : Reg) : Statement (.add h d a b) := ofWord rfl rfl
theorem sub (h : Hdr) (d a b : Reg) : Statement (.sub h d a b) := ofWord rfl rfl
theorem addi (h : Hdr) (d a : Reg) (imm : BitVec 32) : Statement (.addi h d a imm) := ofWord rfl rfl
theorem addsh (h : Hdr) (d a b : Reg) (sh : BitVec 3) : Statement (.addsh h d a b sh) := ofWord rfl rfl
theorem mul (h : Hdr) (d a b : Reg) : Statement (.mul h d a b) := ofWord rfl rfl
theorem mulh (h : Hdr) (d a b : Reg) : Statement (.mulh h d a b) := ofWord rfl rfl
theorem mulhn (h : Hdr) (d a b : Reg) : Statement (.mulhn h d a b) := ofWord rfl rfl
theorem div (h : Hdr) (d a b : Reg) : Statement (.div h d a b) := ofWord rfl rfl
theorem divn (h : Hdr) (d a b : Reg) : Statement (.divn h d a b) := ofWord rfl rfl
theorem rem (h : Hdr) (d a b : Reg) : Statement (.rem h d a b) := ofWord rfl rfl
theorem remn (h : Hdr) (d a b : Reg) : Statement (.remn h d a b) := ofWord rfl rfl
theorem and (h : Hdr) (d a b : Reg) : Statement (.and h d a b) := ofWord rfl rfl
theorem or (h : Hdr) (d a b : Reg) : Statement (.or h d a b) := ofWord rfl rfl
theorem xor (h : Hdr) (d a b : Reg) : Statement (.xor h d a b) := ofWord rfl rfl
theorem andn (h : Hdr) (d a b : Reg) : Statement (.andn h d a b) := ofWord rfl rfl
theorem andi (h : Hdr) (d a : Reg) (imm : BitVec 32) : Statement (.andi h d a imm) := ofWord rfl rfl
theorem ori (h : Hdr) (d a : Reg) (imm : BitVec 32) : Statement (.ori h d a imm) := ofWord rfl rfl
theorem xori (h : Hdr) (d a : Reg) (imm : BitVec 32) : Statement (.xori h d a imm) := ofWord rfl rfl
theorem shl (h : Hdr) (d a b : Reg) : Statement (.shl h d a b) := ofWord rfl rfl
theorem shr (h : Hdr) (d a b : Reg) : Statement (.shr h d a b) := ofWord rfl rfl
theorem sra (h : Hdr) (d a b : Reg) : Statement (.sra h d a b) := ofWord rfl rfl
theorem rotr (h : Hdr) (d a b : Reg) : Statement (.rotr h d a b) := ofWord rfl rfl
theorem shli (h : Hdr) (d a : Reg) (n : BitVec 6) : Statement (.shli h d a n) := ofWord rfl rfl
theorem shri (h : Hdr) (d a : Reg) (n : BitVec 6) : Statement (.shri h d a n) := ofWord rfl rfl
theorem srai (h : Hdr) (d a : Reg) (n : BitVec 6) : Statement (.srai h d a n) := ofWord rfl rfl
theorem min (h : Hdr) (d a b : Reg) : Statement (.min h d a b) := ofWord rfl rfl
theorem max (h : Hdr) (d a b : Reg) : Statement (.max h d a b) := ofWord rfl rfl
theorem minn (h : Hdr) (d a b : Reg) : Statement (.minn h d a b) := ofWord rfl rfl
theorem maxn (h : Hdr) (d a b : Reg) : Statement (.maxn h d a b) := ofWord rfl rfl
theorem clz (h : Hdr) (d a : Reg) : Statement (.clz h d a) := ofWord rfl rfl
theorem popc (h : Hdr) (d a : Reg) : Statement (.popc h d a) := ofWord rfl rfl
theorem bfx (h : Hdr) (d a : Reg) (pos : BitVec 6) (w : BitVec 7) : Statement (.bfx h d a pos w) := ofWord rfl rfl
theorem bfxs (h : Hdr) (d a : Reg) (pos : BitVec 6) (w : BitVec 7) : Statement (.bfxs h d a pos w) := ofWord rfl rfl
theorem bfi (h : Hdr) (d a : Reg) (pos : BitVec 6) (w : BitVec 7) : Statement (.bfi h d a pos w) := ofWord rfl rfl
theorem sel (h : Hdr) (d : Reg) (q : Prd) (a b : Reg) : Statement (.sel h d q a b) := ofWord rfl rfl
theorem movi (h : Hdr) (d : Reg) (imm : BitVec 32) : Statement (.movi h d imm) := ofWord rfl rfl
theorem movhi (h : Hdr) (d : Reg) (imm : BitVec 32) : Statement (.movhi h d imm) := ofWord rfl rfl
theorem mov (h : Hdr) (d a : Reg) : Statement (.mov h d a) := ofWord rfl rfl
theorem cmp (h : Hdr) (c : ICond) (q : Prd) (a b : Reg) : Statement (.cmp h c q a b) := ofWord rfl rfl
theorem cmpi (h : Hdr) (c : ICond) (q : Prd) (a : Reg) (imm : BitVec 32) : Statement (.cmpi h c q a imm) := ofWord rfl rfl
theorem tstd (h : Hdr) (q : Prd) (a : Reg) : Statement (.tstd h q a) := ofWord rfl rfl
theorem qand (h : Hdr) (d a b : Prd) : Statement (.qand h d a b) := ofWord rfl rfl
theorem qor (h : Hdr) (d a b : Prd) : Statement (.qor h d a b) := ofWord rfl rfl
theorem qxor (h : Hdr) (d a b : Prd) : Statement (.qxor h d a b) := ofWord rfl rfl
theorem qandn (h : Hdr) (d a b : Prd) : Statement (.qandn h d a b) := ofWord rfl rfl
theorem qmov (h : Hdr) (d a : Prd) : Statement (.qmov h d a) := ofWord rfl rfl
theorem qtos (h : Hdr) (d : Reg) : Statement (.qtos h d) := ofWord rfl rfl
theorem sfadd (h : Hdr) (rm : Rnd) (d a b : Reg) : Statement (.sfadd h rm d a b) := ofWord rfl rfl
theorem sfsub (h : Hdr) (rm : Rnd) (d a b : Reg) : Statement (.sfsub h rm d a b) := ofWord rfl rfl
theorem sfmul (h : Hdr) (rm : Rnd) (d a b : Reg) : Statement (.sfmul h rm d a b) := ofWord rfl rfl
theorem sfma (h : Hdr) (rm : Rnd) (d a b : Reg) : Statement (.sfma h rm d a b) := ofWord rfl rfl
theorem sfcmp (h : Hdr) (c : FCond) (q : Prd) (a b : Reg) : Statement (.sfcmp h c q a b) := ofWord rfl rfl
theorem sfcvt (h : Hdr) (c : CvtCode) (rm : Rnd) (d a : Reg) : Statement (.sfcvt h c rm d a) := ofWord rfl rfl
theorem sfmin (h : Hdr) (d a b : Reg) : Statement (.sfmin h d a b) := ofWord rfl rfl
theorem sfmax (h : Hdr) (d a b : Reg) : Statement (.sfmax h d a b) := ofWord rfl rfl
theorem setps (h : Hdr) (p : Pan) (ready : Bool) : Statement (.setps h p ready) := ofWord rfl rfl
theorem getps (h : Hdr) (d : Reg) (p : Pan) : Statement (.getps h d p) := ofWord rfl rfl
theorem pstat (h : Hdr) (q : Prd) (p : Pan) (st : PSt) : Statement (.pstat h q p st) := ofWord rfl rfl
theorem semadd (h : Hdr) (d : Reg) (k : Sem) (a : Reg) : Statement (.semadd h d k a) := ofWord rfl rfl
theorem semget (h : Hdr) (d : Reg) (k : Sem) : Statement (.semget h d k) := ofWord rfl rfl
theorem semset (h : Hdr) (k : Sem) (a : Reg) : Statement (.semset h k a) := ofWord rfl rfl
theorem clrd (h : Hdr) (d : Reg) : Statement (.clrd h d) := ofWord rfl rfl
theorem rdtick (h : Hdr) (d : Reg) : Statement (.rdtick h d) := ofWord rfl rfl
theorem rdclk (h : Hdr) (d : Reg) : Statement (.rdclk h d) := ofWord rfl rfl
theorem cid (h : Hdr) (d : Reg) (sel : CidSel) : Statement (.cid h d sel) := ofWord rfl rfl
theorem br (h : Hdr) (m : JMode) (disp : BitVec 32) : Statement (.br h m disp) := ofWord rfl rfl
theorem bri (h : Hdr) (m : JMode) (a : Reg) : Statement (.bri h m a) := ofWord rfl rfl
theorem call (h : Hdr) (m : JMode) (disp : BitVec 32) : Statement (.call h m disp) := ofWord rfl rfl
theorem calli (h : Hdr) (m : JMode) (a : Reg) : Statement (.calli h m a) := ofWord rfl rfl
theorem ret (h : Hdr) (m : JMode) : Statement (.ret h m) := ofWord rfl rfl
theorem chk (h : Hdr) (m : JMode) (a : Reg) (disp : BitVec 32) : Statement (.chk h m a disp) := ofWord rfl rfl
theorem fork (h : Hdr) (disp : BitVec 32) : Statement (.fork h disp) := ofWord rfl rfl
theorem join (h : Hdr) (set : BitVec 3) (mask : BitVec 4) : Statement (.join h set mask) := ofWord rfl rfl
theorem loop (h : Hdr) (lvl : BitVec 2) (a : Reg) (disp : BitVec 32) : Statement (.loop h lvl a disp) := ofWord rfl rfl
theorem loopi (h : Hdr) (lvl : BitVec 2) (count disp : BitVec 16) : Statement (.loopi h lvl count disp) := ofWord rfl rfl
theorem exit (h : Hdr) : Statement (.exit h) := ofWord rfl rfl
theorem returnStackFill (id : Nat) : Statement (.returnStackFill id) := ofNone rfl
theorem ld (h : Hdr) (d : Reg) (m : Acc) : Statement (.ld h d m) := ofWord rfl rfl
theorem ldx (h : Hdr) (d : Reg) (m : Acc) (idx : Reg) (sh : BitVec 3) : Statement (.ldx h d m idx sh) := ofWord rfl rfl
theorem st (h : Hdr) (d : Reg) (m : Acc) : Statement (.st h d m) := ofWord rfl rfl
theorem stx (h : Hdr) (d : Reg) (m : Acc) (idx : Reg) (sh : BitVec 3) : Statement (.stx h d m idx sh) := ofWord rfl rfl
theorem lds (h : Hdr) (d : Reg) (sz : Siz) (sp : Spc) (base : Reg) (off : BitVec 18)
    : Statement (.lds h d sz sp base off) := ofWord rfl rfl
theorem ldm (h : Hdr) (d : Reg) (cnt1 : BitVec 5) (sp : Spc) (base : Reg) (off : BitVec 18)
    : Statement (.ldm h d cnt1 sp base off) := ofWord rfl rfl
theorem stm (h : Hdr) (d : Reg) (cnt1 : BitVec 5) (sp : Spc) (base : Reg) (off : BitVec 18)
    : Statement (.stm h d cnt1 sp base off) := ofWord rfl rfl
theorem ldmStmSecondPiece (id : StreamId) : Statement (.ldmStmSecondPiece id) := ofNone rfl
theorem ldrow (h : Hdr) (r : RowRef) (sp : Spc) (base idx : Reg) (sh : BitVec 3) (off : BitVec 18)
    : Statement (.ldrow h r sp base idx sh off) := ofWord rfl rfl
theorem strow (h : Hdr) (r : RowRef) (sp : Spc) (base idx : Reg) (sh : BitVec 3) (off : BitVec 18)
    : Statement (.strow h r sp base idx sh off) := ofWord rfl rfl
theorem pf (h : Hdr) (base idx : Reg) (sh : BitVec 3) (off : BitVec 18) : Statement (.pf h base idx sh off) := ofWord rfl rfl
theorem aadd (h : Hdr) (d : Reg) (m : Acc) (a : Reg) (comb : Bool) : Statement (.aadd h d m a comb) := ofWord rfl rfl
theorem afadd (h : Hdr) (d : Reg) (m : Acc) (a : Reg) (comb : Bool) : Statement (.afadd h d m a comb) := ofWord rfl rfl
theorem amin (h : Hdr) (d : Reg) (m : Acc) (a : Reg) : Statement (.amin h d m a) := ofWord rfl rfl
theorem amax (h : Hdr) (d : Reg) (m : Acc) (a : Reg) : Statement (.amax h d m a) := ofWord rfl rfl
theorem aminn (h : Hdr) (d : Reg) (m : Acc) (a : Reg) : Statement (.aminn h d m a) := ofWord rfl rfl
theorem amaxn (h : Hdr) (d : Reg) (m : Acc) (a : Reg) : Statement (.amaxn h d m a) := ofWord rfl rfl
theorem aand (h : Hdr) (d : Reg) (m : Acc) (a : Reg) : Statement (.aand h d m a) := ofWord rfl rfl
theorem aor (h : Hdr) (d : Reg) (m : Acc) (a : Reg) : Statement (.aor h d m a) := ofWord rfl rfl
theorem axor (h : Hdr) (d : Reg) (m : Acc) (a : Reg) : Statement (.axor h d m a) := ofWord rfl rfl
theorem axchg (h : Hdr) (d : Reg) (m : Acc) (a : Reg) : Statement (.axchg h d m a) := ofWord rfl rfl
theorem acas (h : Hdr) (d : Reg) (m : Acc) (a : Reg) : Statement (.acas h d m a) := ofWord rfl rfl
theorem bred (h : Hdr) (r : RowRef) (op : RedOp) (t : RedTy) (base : Reg) (off : BitVec 18)
    : Statement (.bred h r op t base off) := ofWord rfl rfl
theorem fence (h : Hdr) (scp : Scp) (ord : MOrd) : Statement (.fence h scp ord) := ofWord rfl rfl
theorem barinit (h : Hdr) (o : BitVec 12) (a : Reg) : Statement (.barinit h o a) := ofWord rfl rfl
theorem bara (h : Hdr) (o : BitVec 12) : Statement (.bara h o) := ofWord rfl rfl
theorem barw (h : Hdr) (o : BitVec 12) : Statement (.barw h o) := ofWord rfl rfl
theorem barp (h : Hdr) (o : BitVec 12) (a : Reg) (cnt : BitVec 4) : Statement (.barp h o a cnt) := ofWord rfl rfl
theorem barrot (h : Hdr) : Statement (.barrot h) := ofWord rfl rfl
theorem vadd (h : Hdr) (t : Ty) (rm : Rnd) (d a : RowRef) (b : VB) : Statement (.vadd h t rm d a b) := ofWord rfl rfl
theorem vsub (h : Hdr) (t : Ty) (rm : Rnd) (d a : RowRef) (b : VB) : Statement (.vsub h t rm d a b) := ofWord rfl rfl
theorem vmul (h : Hdr) (t : Ty) (rm : Rnd) (d a : RowRef) (b : VB) : Statement (.vmul h t rm d a b) := ofWord rfl rfl
theorem vfma (h : Hdr) (t : Ty) (rm : Rnd) (d a : RowRef) (b : VB) : Statement (.vfma h t rm d a b) := ofWord rfl rfl
theorem vmax (h : Hdr) (t : Ty) (d a : RowRef) (b : VB) : Statement (.vmax h t d a b) := ofWord rfl rfl
theorem vmin (h : Hdr) (t : Ty) (d a : RowRef) (b : VB) : Statement (.vmin h t d a b) := ofWord rfl rfl
theorem vabs (h : Hdr) (t : Ty) (d a : RowRef) : Statement (.vabs h t d a) := ofWord rfl rfl
theorem vneg (h : Hdr) (t : Ty) (d a : RowRef) : Statement (.vneg h t d a) := ofWord rfl rfl
theorem vscale (h : Hdr) (t : Ty) (rm : Rnd) (d a : RowRef) (b : VB) : Statement (.vscale h t rm d a b) := ofWord rfl rfl
theorem vexp2 (h : Hdr) (t : Ty) (rm : Rnd) (d a : RowRef) : Statement (.vexp2 h t rm d a) := ofWord rfl rfl
theorem vlog2 (h : Hdr) (t : Ty) (rm : Rnd) (d a : RowRef) : Statement (.vlog2 h t rm d a) := ofWord rfl rfl
theorem vrcp (h : Hdr) (t : Ty) (rm : Rnd) (d a : RowRef) : Statement (.vrcp h t rm d a) := ofWord rfl rfl
theorem vrsq (h : Hdr) (t : Ty) (rm : Rnd) (d a : RowRef) : Statement (.vrsq h t rm d a) := ofWord rfl rfl
theorem vcvt (h : Hdr) (dt t : Ty) (rm : Rnd) (d a : RowRef) : Statement (.vcvt h dt t rm d a) := ofWord rfl rfl
theorem vcmp (h : Hdr) (t : Ty) (c : FCond) (d a : RowRef) (b : VB) : Statement (.vcmp h t c d a b) := ofWord rfl rfl
theorem vsel (h : Hdr) (t : Ty) (d a : RowRef) (b : VB) : Statement (.vsel h t d a b) := ofWord rfl rfl
theorem viadd (h : Hdr) (t : Ty) (sat : Bool) (d a : RowRef) (b : VB) : Statement (.viadd h t sat d a b) := ofWord rfl rfl
theorem visub (h : Hdr) (t : Ty) (sat : Bool) (d a : RowRef) (b : VB) : Statement (.visub h t sat d a b) := ofWord rfl rfl
theorem vimul (h : Hdr) (t : Ty) (d a : RowRef) (b : VB) : Statement (.vimul h t d a b) := ofWord rfl rfl
theorem vimac (h : Hdr) (t : Ty) (d a : RowRef) (b : VB) : Statement (.vimac h t d a b) := ofWord rfl rfl
theorem vrshr (h : Hdr) (t : Ty) (rm : Rnd) (d a : RowRef) (b : VB) : Statement (.vrshr h t rm d a b) := ofWord rfl rfl
theorem vsatn (h : Hdr) (dt t : Ty) (d a : RowRef) : Statement (.vsatn h dt t d a) := ofWord rfl rfl
theorem vand (h : Hdr) (t : Ty) (d a : RowRef) (b : VB) : Statement (.vand h t d a b) := ofWord rfl rfl
theorem vor (h : Hdr) (t : Ty) (d a : RowRef) (b : VB) : Statement (.vor h t d a b) := ofWord rfl rfl
theorem vxor (h : Hdr) (t : Ty) (d a : RowRef) (b : VB) : Statement (.vxor h t d a b) := ofWord rfl rfl
theorem vshl (h : Hdr) (t : Ty) (d a : RowRef) (b : VB) : Statement (.vshl h t d a b) := ofWord rfl rfl
theorem vshr (h : Hdr) (t : Ty) (arith : Bool) (d a : RowRef) (b : VB) : Statement (.vshr h t arith d a b) := ofWord rfl rfl
theorem vimax (h : Hdr) (t : Ty) (d a : RowRef) (b : VB) : Statement (.vimax h t d a b) := ofWord rfl rfl
theorem vimin (h : Hdr) (t : Ty) (d a : RowRef) (b : VB) : Statement (.vimin h t d a b) := ofWord rfl rfl
theorem vmov (h : Hdr) (t : Ty) (d a : RowRef) : Statement (.vmov h t d a) := ofWord rfl rfl
theorem vbcast (h : Hdr) (t : Ty) (d : RowRef) (a : Reg) : Statement (.vbcast h t d a) := ofWord rfl rfl
theorem vext (h : Hdr) (t : Ty) (d : Reg) (a : RowRef) (idx : Reg) : Statement (.vext h t d a idx) := ofWord rfl rfl
theorem vins (h : Hdr) (t : Ty) (d : RowRef) (a idx : Reg) : Statement (.vins h t d a idx) := ofWord rfl rfl
theorem vslide (h : Hdr) (t : Ty) (up : Bool) (d a : RowRef) (cnt : Reg) : Statement (.vslide h t up d a cnt) := by
  cases up <;> exact ofWord rfl rfl
theorem vperm (h : Hdr) (t : Ty) (d a b : RowRef) : Statement (.vperm h t d a b) := ofWord rfl rfl
theorem viota (h : Hdr) (t : Ty) (d : RowRef) : Statement (.viota h t d) := ofWord rfl rfl
theorem vrsum (h : Hdr) (t : Ty) (rm : Rnd) (d : Reg) (a : RowRef) : Statement (.vrsum h t rm d a) := ofWord rfl rfl
theorem vrisum (h : Hdr) (t : Ty) (d : Reg) (a : RowRef) : Statement (.vrisum h t d a) := ofWord rfl rfl
theorem vrmax (h : Hdr) (t : Ty) (d : Reg) (a : RowRef) : Statement (.vrmax h t d a) := ofWord rfl rfl
theorem vrmin (h : Hdr) (t : Ty) (d : Reg) (a : RowRef) : Statement (.vrmin h t d a) := ofWord rfl rfl
theorem vargmax (h : Hdr) (t : Ty) (d i : Reg) (a : RowRef) : Statement (.vargmax h t d i a) := ofWord rfl rfl
theorem mma (h : Hdr) (y : Sync) (d a b : Pan) (t : Ty) : Statement (.mma h y d a b t) := ofWord rfl rfl
theorem mzero (h : Hdr) (y : Sync) (d : Pan) : Statement (.mzero h y d) := ofWord rfl rfl
theorem mcvt (h : Hdr) (y : Sync) (d a : Pan) (rm : Rnd) (t : Ty) : Statement (.mcvt h y d a rm t) := ofWord rfl rfl
theorem mtrn (h : Hdr) (y : Sync) (d a : Pan) (t : Ty) : Statement (.mtrn h y d a t) := ofWord rfl rfl
theorem vpinit (h : Hdr) (y : Sync) (p : Pan) (a : Reg) : Statement (.vpinit h y p a) := ofWord rfl rfl
theorem vproj (h : Hdr) (y : Sync) (p p2 : Pan) (a : Reg) : Statement (.vproj h y p p2 a) := ofWord rfl rfl
theorem vpback (h : Hdr) (y : Sync) (p p2 : Pan) (a : Reg) : Statement (.vpback h y p p2 a) := ofWord rfl rfl
theorem vpmerge (h : Hdr) (y : Sync) (p p2 : Pan) : Statement (.vpmerge h y p p2) := ofWord rfl rfl
theorem vpemit (h : Hdr) (y : Sync) (p : Pan) (a : Reg) : Statement (.vpemit h y p a) := ofWord rfl rfl
theorem cpylp (h : Hdr) (y : Sync) (d : Pan) (src cnt : Reg) : Statement (.cpylp h y d src cnt) := ofWord rfl rfl
theorem cpysp (h : Hdr) (y : Sync) (dst : Reg) (p : Pan) (cnt : Reg) : Statement (.cpysp h y dst p cnt) := ofWord rfl rfl
theorem cpymm (h : Hdr) (y : Sync) (dst src cnt : Reg) : Statement (.cpymm h y dst src cnt) := ofWord rfl rfl
theorem cpygp (h : Hdr) (y : Sync) (d : Pan) (list cnt : Reg) : Statement (.cpygp h y d list cnt) := ofWord rfl rfl
theorem cpyred (h : Hdr) (y : Sync) (dst src cnt : Reg) (op : RedOp) (t : RedTy)
    : Statement (.cpyred h y dst src cnt op t) := ofWord rfl rfl
theorem cpyz (h : Hdr) (y : Sync) (dst cnt : Reg) : Statement (.cpyz h y dst cnt) := ofWord rfl rfl
theorem migr (h : Hdr) (y : Sync) (page target deadline : Reg) : Statement (.migr h y page target deadline) := ofWord rfl rfl
theorem send (h : Hdr) (y : Sync) (hd : Hnd) (src cnt : Reg) (hold : Bool)
    : Statement (.send h y hd src cnt hold) := ofWord rfl rfl
theorem recv (h : Hdr) (y : Sync) (hd : Hnd) (dst cnt : Reg) : Statement (.recv h y hd dst cnt) := ofWord rfl rfl
theorem pwr (h : Hdr) (y : Sync) (hd : Hnd) (desc : Reg) : Statement (.pwr h y hd desc) := ofWord rfl rfl
theorem pwred (h : Hdr) (y : Sync) (hd : Hnd) (desc : Reg) (relay : Bool)
    : Statement (.pwred h y hd desc relay) := ofWord rfl rfl
theorem arm (h : Hdr) (y : Sync) (desc : Reg) : Statement (.arm h y desc) := ofWord rfl rfl
theorem trap (h : Hdr) (n : BitVec 6) : Statement (.trap h n) := ofWord rfl rfl
theorem rett (h : Hdr) : Statement (.rett h) := ofWord rfl rfl
theorem mfcr (h : Hdr) (d : Reg) (idx : BitVec 8) : Statement (.mfcr h d idx) := ofWord rfl rfl
theorem mtcr (h : Hdr) (a : Reg) (idx : BitVec 8) : Statement (.mtcr h a idx) := ofWord rfl rfl
theorem mtcrRstop (h : Hdr) (a : Reg) : Statement (.mtcrRstop h a) := ofWord rfl rfl
theorem mtcrBarbase (h : Hdr) (a : Reg) : Statement (.mtcrBarbase h a) := ofWord rfl rfl
theorem mtcrRdbase (h : Hdr) (a : Reg) : Statement (.mtcrRdbase h a) := ofWord rfl rfl
theorem mtcrFqbase (h : Hdr) (a : Reg) (n : BitVec 2) : Statement (.mtcrFqbase h a n) := ofWord rfl rfl
theorem tlbinvPage (h : Hdr) (a : Reg) : Statement (.tlbinvPage h a) := ofWord rfl rfl
theorem tlbinvLarge (h : Hdr) (a : Reg) : Statement (.tlbinvLarge h a) := ofWord rfl rfl
theorem tlbinvCtx (h : Hdr) : Statement (.tlbinvCtx h) := ofWord rfl rfl
theorem tlbinvAll (h : Hdr) : Statement (.tlbinvAll h) := ofWord rfl rfl
theorem mscopWriteback (h : Hdr) (a b : Reg) : Statement (.mscopWriteback h a b) := ofWord rfl rfl
theorem mscopInvalidate (h : Hdr) (a b : Reg) : Statement (.mscopInvalidate h a b) := ofWord rfl rfl
theorem mscopRetain (h : Hdr) (a b : Reg) : Statement (.mscopRetain h a b) := ofWord rfl rfl
theorem mscopEvictFirst (h : Hdr) (a b : Reg) : Statement (.mscopEvictFirst h a b) := ofWord rfl rfl
theorem launch (h : Hdr) (d a : Reg) (q : BitVec 4) : Statement (.launch h d a q) := ofWord rfl rfl
theorem trigger (h : Hdr) : Statement (.trigger h) := ofWord rfl rfl
theorem waitdep (h : Hdr) : Statement (.waitdep h) := ofWord rfl rfl
theorem waitx (h : Hdr) (a : Reg) (cnt : BitVec 4) (disp : BitVec 32) : Statement (.waitx h a cnt disp) := ofWord rfl rfl
theorem postx (h : Hdr) (a : Reg) : Statement (.postx h a) := ofWord rfl rfl
theorem yield (h : Hdr) : Statement (.yield h) := ofWord rfl rfl
theorem cueq (h : Hdr) (d : Reg) (hd : Hnd) : Statement (.cueq h d hd) := ofWord rfl rfl
theorem cuewait (h : Hdr) (hd : Hnd) : Statement (.cuewait h hd) := ofWord rfl rfl
theorem cuesel (h : Hdr) (a : Reg) : Statement (.cuesel h a) := ofWord rfl rfl
theorem faultack (h : Hdr) (a : Reg) : Statement (.faultack h a) := ofWord rfl rfl
theorem perfrd (h : Hdr) (d a : Reg) : Statement (.perfrd h d a) := ofWord rfl rfl
theorem hint (h : Hdr) (kind : BitVec 5) (a : Reg) : Statement (.hint h kind a) := ofWord rfl rfl
theorem frameopRead (h : Hdr) (d a b : Reg) : Statement (.frameopRead h d a b) := ofWord rfl rfl
theorem frameopAdjust (h : Hdr) (d a b : Reg) : Statement (.frameopAdjust h d a b) := ofWord rfl rfl
theorem frameopFlags (h : Hdr) (d a b : Reg) : Statement (.frameopFlags h d a b) := ofWord rfl rfl
theorem frameopPush (h : Hdr) (d a b : Reg) : Statement (.frameopPush h d a b) := ofWord rfl rfl
theorem frameopPop (h : Hdr) (d a b : Reg) : Statement (.frameopPop h d a b) := ofWord rfl rfl
theorem frameopShoot (h : Hdr) (d a b : Reg) : Statement (.frameopShoot h d a b) := ofWord rfl rfl
theorem resultWriteback (id : StreamId) : Statement (.resultWriteback id) := ofNone rfl
theorem illop (addr : Word) (priv : Bool) : Statement (.illop addr priv) := ofNone rfl
theorem instructionFetchFault (prot : Bool) (blk : Word) (aux : BitVec 32)
    : Statement (.instructionFetchFault prot blk aux) := ofNone rfl
theorem longLoadReturn (id : Nat) : Statement (.longLoadReturn id) := ofNone rfl
theorem atomicReply (id : Nat) : Statement (.atomicReply id) := ofNone rfl
theorem atomicReplyTimeout (id : Nat) : Statement (.atomicReplyTimeout id) := ofNone rfl
theorem streamResume (id : StreamId) : Statement (.streamResume id) := ofNone rfl
theorem matrixWindowEntry (t c : Nat) : Statement (.matrixWindowEntry t c) := ofNone rfl
theorem matrixEntryStart (t c : Nat) : Statement (.matrixEntryStart t c) := ofNone rfl
theorem matrixEntryComplete (t c : Nat) : Statement (.matrixEntryComplete t c) := ofNone rfl
theorem projectionStart (t c : Nat) : Statement (.projectionStart t c) := ofNone rfl
theorem projectionGroup (t c : Nat) : Statement (.projectionGroup t c) := ofNone rfl
theorem projectionComplete (t c : Nat) : Statement (.projectionComplete t c) := ofNone rfl
theorem courierTake (t c : Nat) : Statement (.courierTake t c) := ofNone rfl
theorem courierPart (t c : Nat) : Statement (.courierPart t c) := ofNone rfl
theorem courierComplete (t c : Nat) : Statement (.courierComplete t c) := ofNone rfl
theorem cowCopyComplete (t c : Nat) : Statement (.cowCopyComplete t c) := ofNone rfl
theorem migrationLineCopy (t slot : Nat) : Statement (.migrationLineCopy t slot) := ofNone rfl
theorem migrationSwitch (t slot : Nat) : Statement (.migrationSwitch t slot) := ofNone rfl
theorem migrationArrival (t slot : Nat) : Statement (.migrationArrival t slot) := ofNone rfl
theorem engineSignal (t c : Nat) (g : Eng) : Statement (.engineSignal t c g) := ofNone rfl
theorem portRingTake (t c : Nat) : Statement (.portRingTake t c) := ofNone rfl
theorem sendBlock (t h : Nat) : Statement (.sendBlock t h) := ofNone rfl
theorem blockArrival (id : Nat) : Statement (.blockArrival id) := ofNone rfl
theorem sendAcknowledged (t h : Nat) : Statement (.sendAcknowledged t h) := ofNone rfl
theorem packetArrival (id : Nat) : Statement (.packetArrival id) := ofNone rfl
theorem firedEntryEnqueue (t : Nat) : Statement (.firedEntryEnqueue t) := ofNone rfl
theorem workEntryTimeout (t n : Nat) (armed : Bool) : Statement (.workEntryTimeout t n armed) := ofNone rfl
theorem frameTableStep (t : Nat) : Statement (.frameTableStep t) := ofNone rfl
theorem tsmBankStep (t b : Nat) : Statement (.tsmBankStep t b) := ofNone rfl
theorem atomicUnitStep (t u : Nat) : Statement (.atomicUnitStep t u) := ofNone rfl
theorem calendarSlot (t : Nat) : Statement (.calendarSlot t) := ofNone rfl
theorem routerRequest (id : Nat) : Statement (.routerRequest id) := ofNone rfl
theorem combineArrival (id : Nat) : Statement (.combineArrival id) := ofNone rfl
theorem combinedSend (t e : Nat) : Statement (.combinedSend t e) := ofNone rfl
theorem combinedReply (t e : Nat) : Statement (.combinedReply t e) := ofNone rfl
theorem combiningEntryTimeout (t e : Nat) : Statement (.combiningEntryTimeout t e) := ofNone rfl
theorem taskPlacement (t c : Nat) : Statement (.taskPlacement t c) := ofNone rfl
theorem taskStart (t c b : Nat) : Statement (.taskStart t c b) := ofNone rfl
theorem bankExchange (t c : Nat) : Statement (.bankExchange t c) := ofNone rfl
theorem bankExchangeEnd (t c : Nat) : Statement (.bankExchangeEnd t c) := ofNone rfl
theorem preemptionSaveWrite (t co : Nat) : Statement (.preemptionSaveWrite t co) := ofNone rfl
theorem preemptionRequest : Statement .preemptionRequest := ofNone rfl
theorem preemptionDeadline : Statement .preemptionDeadline := ofNone rfl
theorem preemptionRestore : Statement .preemptionRestore := ofNone rfl
theorem mscFilterClear : Statement .mscFilterClear := ofNone rfl
theorem distributorTake : Statement .distributorTake := ofNone rfl
theorem taskAging : Statement .taskAging := ofNone rfl
theorem continuationRegistration : Statement .continuationRegistration := ofNone rfl
theorem postApply : Statement .postApply := ofNone rfl
theorem faultRecordDeliver : Statement .faultRecordDeliver := ofNone rfl
theorem sceneStart : Statement .sceneStart := ofNone rfl
theorem liveTick : Statement .liveTick := ofNone rfl
theorem darkPoint : Statement .darkPoint := ofNone rfl
theorem rotationEnd : Statement .rotationEnd := ofNone rfl
theorem droopBubble (t c : Nat) (mask : BitVec 4) : Statement (.droopBubble t c mask) := ofNone rfl
theorem laneFailure (t p lane : Nat) : Statement (.laneFailure t p lane) := ofNone rfl
theorem ringtune (t p lane : Nat) : Statement (.ringtune t p lane) := ofNone rfl
theorem laser (n : Nat) : Statement (.laser n) := ofNone rfl
theorem laserSwitchover : Statement .laserSwitchover := ofNone rfl
theorem lossRecordReceipt : Statement .lossRecordReceipt := ofNone rfl
theorem powerRegrant : Statement .powerRegrant := ofNone rfl
theorem hostQueueConfigWrite (q word : Nat) (v : Word) : Statement (.hostQueueConfigWrite q word v) := ofNone rfl
theorem hostTailWrite (q : Nat) (v : Word) : Statement (.hostTailWrite q v) := ofNone rfl
theorem cueLoad (v : Word) : Statement (.cueLoad v) := ofNone rfl
theorem cueStart (v : Word) : Statement (.cueStart v) := ofNone rfl
theorem cueChange (v : Word) : Statement (.cueChange v) := ofNone rfl
theorem cueStop (v : Word) : Statement (.cueStop v) := ofNone rfl
theorem calendarConfigWrite (t word : Nat) (v : Word) : Statement (.calendarConfigWrite t word v) := ofNone rfl
theorem faultAnswer (v : Word) : Statement (.faultAnswer v) := ofNone rfl
theorem hostFrameRead (a b : Word) : Statement (.hostFrameRead a b) := ofNone rfl
theorem hostFrameAdjust (a b : Word) : Statement (.hostFrameAdjust a b) := ofNone rfl
theorem hostFrameFlags (a b : Word) : Statement (.hostFrameFlags a b) := ofNone rfl
theorem hostFramePush (a b : Word) : Statement (.hostFramePush a b) := ofNone rfl
theorem hostFramePop (a b : Word) : Statement (.hostFramePop a b) := ofNone rfl
theorem hostFrameShoot (a b : Word) : Statement (.hostFrameShoot a b) := ofNone rfl
theorem hostRegisterWrite (off : Nat) (v : Word) : Statement (.hostRegisterWrite off v) := ofNone rfl
theorem hostMemoryAccess (wr : Bool) (addr n : Nat) (data : List Byte)
    : Statement (.hostMemoryAccess wr addr n data) := ofNone rfl
theorem pldmPowerSet (which v : Nat) : Statement (.pldmPowerSet which v) := ofNone rfl
theorem attestationRequest (nonce : BitVec 256) : Statement (.attestationRequest nonce) := ofNone rfl
theorem thermalHold (t : Nat) : Statement (.thermalHold t) := ofNone rfl
theorem thermalTrip (t : Nat) : Statement (.thermalTrip t) := ofNone rfl
theorem thermalRelease (t : Nat) : Statement (.thermalRelease t) := ofNone rfl
theorem coldReset : Statement .coldReset := ofNone rfl
theorem bringupStage : Statement .bringupStage := ofNone rfl

end Sys2Proof.Laws.HeaderKept
end

