-- ==== Sys2Proof/Tests/Slice0.lean ====
section
/-!
SUPPORT. Tests. Words written out from the encoding tables decode to the instructions they stand for; ill-formed terms are
refused; single steps give the values that the manual states; and for each statement of Obligations a witness: concrete states
and operands that meet its hypotheses, clause by clause.
-/

namespace Sys2Proof.Tests

open Sys2Proof Sys2Proof.Machine Sys2Proof.Safety

/-! ### States and headers used below -/

/-- Guard always true; the operation ends its bundle. -/
def g0 : Hdr := ⟨true, false, 0⟩

/-- Guard of predicate 1, false at reset. -/
def g1 : Hdr := ⟨true, false, 1⟩

/-- A joined supervisor task on core 0 of tile 0, its bundle at 0x40000; addresses below 0x10000 are mapped. -/
def s0 : State :=
  { State.reset.withFetchWord 64 0 with
    turn := [], iss := { Issue.reset with bundle := 0x40000, addr := 0x40000, next := 0x40008 } }

def coreWith (f : Core → Core) : State := s0.modCore 0 0 f

def tileWith (f : Tile → Tile) : State := s0.modTile 0 f

def bankWith (f : Bank → Bank) : State := coreWith fun x => x.modBank 0 f

/-- The joined task, its four clusters changed. -/
def clsWith (f : Cluster → Cluster) : State := bankWith fun b => { b with cl := b.cl.map f }

/-- The forked task, its four clusters changed; cluster 0's stream is the present one. -/
def oneWith (f : Cluster → Cluster) : State := bankWith fun b => { b with joined := false, cl := b.cl.map f }

/-- A bank with one cluster changed. -/
def only (k : Fin 4) (f : Cluster → Cluster) (b : Bank) : Bank := b.modCl k f

/-- Panels with this state and nothing else. -/
def panels (st : PSt) (x : Core) : Core := { x with pstate := (List.range 32).map fun n => (n, st) }

/-- A request at the stage, due at once. -/
def reqAt (id : Nat) (who : Who) (op : MemOp) (loc : Loc) (dst : RDst) (stage : Stage) : Req :=
  { id, who, op, loc, dst, ord := .plain, scp := .core, comb := false, memside := false, stage, due := 0, tick := 0, cyc := 0,
    drop := false, cell := none, after := 0, alloc := false, input := 8, via := [] }

/-- Table enc 4, format S3: d [47:43], a [42:38], b [37:33], x [32:30]. -/
theorem test_decode_S3 :
    ([
      (0x80001C7C00000000, .add g0 3 17 30),
      (0x80101C7C00000000, .sub g0 3 17 30),
      (0x80401C7C00000000, .mul g0 3 17 30),
      (0x80501C7C00000000, .mulh g0 3 17 30),
      (0x80601C7C00000000, .mulhn g0 3 17 30),
      (0x80701C7C00000000, .div g0 3 17 30),
      (0x80801C7C00000000, .divn g0 3 17 30),
      (0x80901C7C00000000, .rem g0 3 17 30),
      (0x80A01C7C00000000, .remn g0 3 17 30),
      (0x80B01C7C00000000, .and g0 3 17 30),
      (0x80C01C7C00000000, .or g0 3 17 30),
      (0x80D01C7C00000000, .xor g0 3 17 30),
      (0x80E01C7C00000000, .andn g0 3 17 30),
      (0x81201C7C00000000, .shl g0 3 17 30),
      (0x81301C7C00000000, .shr g0 3 17 30),
      (0x81401C7C00000000, .sra g0 3 17 30),
      (0x81801C7C00000000, .rotr g0 3 17 30),
      (0x81901C7C00000000, .min g0 3 17 30),
      (0x81A01C7C00000000, .max g0 3 17 30),
      (0x81B01C7C00000000, .minn g0 3 17 30),
      (0x81C01C7C00000000, .maxn g0 3 17 30),
      (0x86601C7C00000000, .sfmin g0 3 17 30),
      (0x86701C7C00000000, .sfmax g0 3 17 30),
      (0x80301C7D40000000, .addsh g0 3 17 30 5),
      (0x81D01C4000000000, .clz g0 3 17),
      (0x81E01C4000000000, .popc g0 3 17),
      (0x82501C4000000000, .mov g0 3 17),
      (0x82201C7D80000000, .sel g0 3 6 17 30),
      (0x8550180000000000, .qtos g0 3),
      (0x8760180000000000, .clrd g0 3),
      (0x8770180000000000, .rdtick g0 3),
      (0x8780180000000000, .rdclk g0 3),
      (0x8790180080000000, .cid g0 3 .tile)] : List (Nat × Instr)).all (fun e => decodeTableWord 64 e.1 == some e.2) = true := by
  decide

/-- Table enc 4 with the codes of Tables enc 3, enc 5 and formats 3: conditions, rounding, conversions, panel states.
-/
theorem test_decode_S3_coded :
    ([
      (0x84002C7D40000000, .cmp g0 .gen 5 17 30),
      (0x84202C4000000000, .tstd g0 5 17),
      (0x8500298E00000000, .qand g0 5 6 7),
      (0x8510298E00000000, .qor g0 5 6 7),
      (0x8520298E00000000, .qxor g0 5 6 7),
      (0x8530298E00000000, .qandn g0 5 6 7),
      (0x8540298000000000, .qmov g0 5 6),
      (0x86001C7C40000000, .sfadd g0 .rne 3 17 30),
      (0x86101C7C80000000, .sfsub g0 .rz 3 17 30),
      (0x86201C7CC0000000, .sfmul g0 .ru 3 17 30),
      (0x86301C7D00000000, .sfma g0 .rd 3 17 30),
      (0x86402C7D00000000, .sfcmp g0 .gt 5 17 30),
      (0x86501C5540000000, .sfcvt g0 .f32_e4m3 .rna 3 17),
      (0x8700044080000000, .setps g0 17 true),
      (0x87101C4000000000, .getps g0 3 17),
      (0x87202C4100000000, .pstat g0 5 17 .draining)] : List (Nat × Instr)).all (fun e => decodeTableWord 64 e.1 == some e.2) = true := by
  decide

/-- Table enc 4, format SI: d [47:43], a [42:38], imm32 [37:6]. -/
theorem test_decode_SI :
    ([
      (0x80201C6000000040, .addi g0 3 17 0x80000001),
      (0x80F01C6000000040, .andi g0 3 17 0x80000001),
      (0x81001C6000000040, .ori g0 3 17 0x80000001),
      (0x81101C6000000040, .xori g0 3 17 0x80000001),
      (0x81501C4000000FC0, .shli g0 3 17 63),
      (0x81601C4000000FC0, .shri g0 3 17 63),
      (0x81701C4000000FC0, .srai g0 3 17 63),
      (0x81F01C400003C100, .bfx g0 3 17 4 60),
      (0x82001C400003C100, .bfxs g0 3 17 4 60),
      (0x82101C400003C100, .bfi g0 3 17 4 60),
      (0x8230182000000040, .movi g0 3 0x80000001),
      (0x8240182000000040, .movhi g0 3 0x80000001),
      (0x84102C6000000047, .cmpi g0 .none 5 17 0x80000001),
      (0x87301C4000003200, .semadd g0 3 200 17),
      (0x8740180000003200, .semget g0 3 200),
      (0x8750044000003200, .semset g0 200 17)] : List (Nat × Instr)).all (fun e => decodeTableWord 64 e.1 == some e.2) = true := by
  decide

/-- Table enc 6: disp [47:16], mode [15:14], scalar [13:9], level [8:7]. -/
theorem test_decode_B :
    ([
      (0x9000FFFFFFFE8000, .br g0 .all 0xFFFFFFFE),
      (0x9020000000006200, .bri g0 .any 17),
      (0x9030FFFFFFFE4000, .call g0 .any 0xFFFFFFFE),
      (0x904000000000A200, .calli g0 .all 17),
      (0x9050000000008000, .ret g0 .all),
      (0x9060FFFFFFFE6200, .chk g0 .any 17 0xFFFFFFFE),
      (0x9070FFFFFFFE0000, .fork g0 0xFFFFFFFE),
      (0x90800000006A0000, .join g0 6 10),
      (0x9090FFFFFFFE2300, .loop g0 2 17 0xFFFFFFFE),
      (0x90A003E8FFFE0180, .loopi g0 3 1000 0xFFFE),
      (0x90B0000000000000, .exit g0)] : List (Nat × Instr)).all (fun e => decodeTableWord 64 e.1 == some e.2) = true := by
  decide

/-- Table enc 7: data [47:43], base [42:38], index [37:33], space [32:31], size [30:28], scope [27:25], order [24:22],
shift [21:19], combinable [18], offset [17:0]. -/
theorem test_decode_M :
    ([
      (0xA0001C415243FFF8, .ld g0 3 ⟨.i16, .tsm, 17, 0x3FFF8, .acq, .tile⟩),
      (0xA0101C401903FFF8, .st g0 3 ⟨.n16, .virt, 17, 0x3FFF8, .sc, .sys⟩),
      (0xA0201C7CE733FFF8, .ldx g0 3 ⟨.i32, .ls, 17, 0x3FFF8, .sc, .fab⟩ 30 6),
      (0xA0301C7D34B3FFF8, .stx g0 3 ⟨.i64, .tsm, 17, 0x3FFF8, .rel, .mod⟩ 30 6),
      (0xA0401C414003FFF8, .lds g0 3 .i8 .tsm 17 0x3FFF8),
      (0xA0501C573003FFF8, .ldm g0 3 11 .tsm 17 0x3FFF8),
      (0xA0601C563003FFF8, .stm g0 3 11 .virt 17 0x3FFF8),
      (0xA0A0047C0033FFF8, .pf g0 17 30 6 0x3FFF8),
      (0xA1001C7C34C7FFF8, .aadd g0 3 ⟨.i64, .virt, 17, 0x3FFF8, .ar, .mod⟩ 30 true),
      (0xA1101C7D1003FFF8, .afadd g0 3 ⟨.n16, .tsm, 17, 0x3FFF8, .plain, .core⟩ 30 false),
      (0xA1201C7D2283FFF8, .amin g0 3 ⟨.n32, .tsm, 17, 0x3FFF8, .rel, .tile⟩ 30),
      (0xA1301C7D2283FFF8, .amax g0 3 ⟨.n32, .tsm, 17, 0x3FFF8, .rel, .tile⟩ 30),
      (0xA1401C7D2283FFF8, .aminn g0 3 ⟨.n32, .tsm, 17, 0x3FFF8, .rel, .tile⟩ 30),
      (0xA1501C7D2283FFF8, .amaxn g0 3 ⟨.n32, .tsm, 17, 0x3FFF8, .rel, .tile⟩ 30),
      (0xA1601C7D2283FFF8, .aand g0 3 ⟨.n32, .tsm, 17, 0x3FFF8, .rel, .tile⟩ 30),
      (0xA1701C7D2283FFF8, .aor g0 3 ⟨.n32, .tsm, 17, 0x3FFF8, .rel, .tile⟩ 30),
      (0xA1801C7D2283FFF8, .axor g0 3 ⟨.n32, .tsm, 17, 0x3FFF8, .rel, .tile⟩ 30),
      (0xA1901C7D2283FFF8, .axchg g0 3 ⟨.n32, .tsm, 17, 0x3FFF8, .rel, .tile⟩ 30),
      (0xA1A01C7D2283FFF8, .acas g0 3 ⟨.n32, .tsm, 17, 0x3FFF8, .rel, .tile⟩ 30)] : List (Nat × Instr)).all (fun e => decodeTableWord 64 e.1 == some e.2) = true := by
  decide

/-- Table enc 7, rows, fences and barriers: row select [30:24], shift [23:21], reduction [23:22], type [21:20]. -/
theorem test_decode_M_rows :
    ([
      (0xA0801C7D3FC3FFF8, .ldrow g0 ⟨3, .imm 63⟩ .tsm 17 30 6 0x3FFF8),
      (0xA0901C7CC9C3FFF8, .strow g0 ⟨3, .reg 9⟩ .ls 17 30 6 0x3FFF8),
      (0xA2001C414963FFF8, .bred g0 ⟨3, .reg 9⟩ .min .bf16 17 0x3FFF8),
      (0xA280180000000ABC, .barinit g0 0xABC 3),
      (0xA290000000000ABC, .bara g0 0xABC),
      (0xA2A0000000000ABC, .barw g0 0xABC),
      (0xA2B0181000000ABC, .barp g0 0xABC 3 8),
      (0xA2C0000000000000, .barrot g0),
      (0xA300000006800000, .fence g0 .fab .rel)] : List (Nat × Instr)).all (fun e => decodeTableWord 64 e.1 == some e.2) = true := by
  decide

/-- Table enc 8: Pd [47:43], row d [42:36], Pa [35:31], row a [30:24], Pb [23:19], row b [18:12], type [11:8],
rounding [7:5], S [4], [3:0]; row d by scalar 9. -/
theorem test_decode_V_rows :
    ([
      (0xB0001C98BFF01240, .vadd g0 .f16 .rz ⟨3, .reg 9⟩ ⟨17, .imm 63⟩ (.row ⟨30, .imm 1⟩)),
      (0xB0101C98BFF01240, .vsub g0 .f16 .rz ⟨3, .reg 9⟩ ⟨17, .imm 63⟩ (.row ⟨30, .imm 1⟩)),
      (0xB0201C98BFF01240, .vmul g0 .f16 .rz ⟨3, .reg 9⟩ ⟨17, .imm 63⟩ (.row ⟨30, .imm 1⟩)),
      (0xB0301C98BFF01240, .vfma g0 .f16 .rz ⟨3, .reg 9⟩ ⟨17, .imm 63⟩ (.row ⟨30, .imm 1⟩)),
      (0xB0801C98BFF00250, .vscale g0 .f16 .rz ⟨3, .reg 9⟩ ⟨17, .imm 63⟩ (.scalar 30)),
      (0xB0401C98BFF00110, .vmax g0 .bf16 ⟨3, .reg 9⟩ ⟨17, .imm 63⟩ (.scalar 30)),
      (0xB0501C98BFF00110, .vmin g0 .bf16 ⟨3, .reg 9⟩ ⟨17, .imm 63⟩ (.scalar 30)),
      (0xB0601C98BF000100, .vabs g0 .bf16 ⟨3, .reg 9⟩ ⟨17, .imm 63⟩),
      (0xB0701C98BF000100, .vneg g0 .bf16 ⟨3, .reg 9⟩ ⟨17, .imm 63⟩),
      (0xB0901C98BF0000C0, .vexp2 g0 .f32 .sr ⟨3, .reg 9⟩ ⟨17, .imm 63⟩),
      (0xB0A01C98BF0000C0, .vlog2 g0 .f32 .sr ⟨3, .reg 9⟩ ⟨17, .imm 63⟩),
      (0xB0B01C98BF0000C0, .vrcp g0 .f32 .sr ⟨3, .reg 9⟩ ⟨17, .imm 63⟩),
      (0xB0C01C98BF0000C0, .vrsq g0 .f32 .sr ⟨3, .reg 9⟩ ⟨17, .imm 63⟩),
      (0xB0D01C98BF000105, .vcvt g0 .e2m1 .bf16 .dyn ⟨3, .reg 9⟩ ⟨17, .imm 63⟩),
      (0xB0E01C98BFF01306, .vcmp g0 .e4m3 .un ⟨3, .reg 9⟩ ⟨17, .imm 63⟩ (.row ⟨30, .imm 1⟩)),
      (0xB0F01C98BFF00C10, .vsel g0 .i4 ⟨3, .reg 9⟩ ⟨17, .imm 63⟩ (.scalar 30)),
      (0xB1001C98BFF01A01, .viadd g0 .n32 true ⟨3, .reg 9⟩ ⟨17, .imm 63⟩ (.row ⟨30, .imm 1⟩)),
      (0xB1101C98BFF01A01, .visub g0 .n32 true ⟨3, .reg 9⟩ ⟨17, .imm 63⟩ (.row ⟨30, .imm 1⟩)),
      (0xB1201C98BFF00710, .vimul g0 .n8 ⟨3, .reg 9⟩ ⟨17, .imm 63⟩ (.scalar 30)),
      (0xB1301C98BFF00710, .vimac g0 .n8 ⟨3, .reg 9⟩ ⟨17, .imm 63⟩ (.scalar 30)),
      (0xB1401C98BFF01BA0, .vrshr g0 .i64 .rna ⟨3, .reg 9⟩ ⟨17, .imm 63⟩ (.row ⟨30, .imm 1⟩)),
      (0xB1501C98BF00090C, .vsatn g0 .i4 .i32 ⟨3, .reg 9⟩ ⟨17, .imm 63⟩),
      (0xB1601C98BFF01400, .vand g0 .e5m2 ⟨3, .reg 9⟩ ⟨17, .imm 63⟩ (.row ⟨30, .imm 1⟩)),
      (0xB1701C98BFF01400, .vor g0 .e5m2 ⟨3, .reg 9⟩ ⟨17, .imm 63⟩ (.row ⟨30, .imm 1⟩)),
      (0xB1801C98BFF01400, .vxor g0 .e5m2 ⟨3, .reg 9⟩ ⟨17, .imm 63⟩ (.row ⟨30, .imm 1⟩)),
      (0xB1901C98BFF00B10, .vshl g0 .i64 ⟨3, .reg 9⟩ ⟨17, .imm 63⟩ (.scalar 30)),
      (0xB1A01C98BFF00B11, .vshr g0 .i64 true ⟨3, .reg 9⟩ ⟨17, .imm 63⟩ (.scalar 30)),
      (0xB1B01C98BFF01600, .vimax g0 .i8 ⟨3, .reg 9⟩ ⟨17, .imm 63⟩ (.row ⟨30, .imm 1⟩)),
      (0xB1C01C98BFF01600, .vimin g0 .i8 ⟨3, .reg 9⟩ ⟨17, .imm 63⟩ (.row ⟨30, .imm 1⟩))] : List (Nat × Instr)).all (fun e => decodeTableWord 64 e.1 == some e.2) = true := by
  decide

/-- Table enc 8, moves and reductions. -/
theorem test_decode_V_moves :
    ([
      (0xB2001C98BF000000, .vmov g0 .f32 ⟨3, .reg 9⟩ ⟨17, .imm 63⟩),
      (0xB2101C9000F00810, .vbcast g0 .i16 ⟨3, .reg 9⟩ 30),
      (0xB2201808BFF00810, .vext g0 .i16 3 ⟨17, .imm 63⟩ 30),
      (0xB2301C9880F00810, .vins g0 .i16 ⟨3, .reg 9⟩ 17 30),
      (0xB2401C98BFF00C11, .vslide g0 .i4 true ⟨3, .reg 9⟩ ⟨17, .imm 63⟩ 30),
      (0xB2501C98BFF01200, .vperm g0 .f16 ⟨3, .reg 9⟩ ⟨17, .imm 63⟩ ⟨30, .imm 1⟩),
      (0xB2601C9000000B00, .viota g0 .i64 ⟨3, .reg 9⟩),
      (0xB3001808BF000180, .vrsum g0 .bf16 .rd 3 ⟨17, .imm 63⟩),
      (0xB3101808BF000700, .vrmax g0 .n8 3 ⟨17, .imm 63⟩),
      (0xB3301808BF000700, .vrmin g0 .n8 3 ⟨17, .imm 63⟩),
      (0xB3201808BFF00700, .vargmax g0 .n8 3 30 ⟨17, .imm 63⟩),
      (0xB3401808BF000900, .vrisum g0 .i32 3 ⟨17, .imm 63⟩)] : List (Nat × Instr)).all (fun e => decodeTableWord 64 e.1 == some e.2) = true := by
  decide

/-- Table enc 9 with the synchronisation fields of Table enc 2: wait semaphore [47:40] and count [39:36], signal
semaphore [35:28] and increment [27:24], acquire [23], release [22], scope [21:19]. -/
theorem test_decode_E :
    ([
      (0xC000C8564700E3E7, .mma g0 ⟨200, 5, 100, 7, false, false, .core⟩ 3 17 30 .n8),
      (0xC020C8564700C000, .mzero g0 ⟨200, 5, 100, 7, false, false, .core⟩ 3),
      (0xC030C8564700E384, .mcvt g0 ⟨200, 5, 100, 7, false, false, .core⟩ 3 17 .sr .e5m2),
      (0xC040C8564700E209, .mtrn g0 ⟨200, 5, 100, 7, false, false, .core⟩ 3 17 .i32),
      (0xC100C85647A0C1E0, .vpinit g0 ⟨200, 5, 100, 7, true, false, .sys⟩ 3 30),
      (0xC110C85647A0E3E0, .vproj g0 ⟨200, 5, 100, 7, true, false, .sys⟩ 3 17 30),
      (0xC120C85647A0E3E0, .vpback g0 ⟨200, 5, 100, 7, true, false, .sys⟩ 3 17 30),
      (0xC130C85647A0E200, .vpmerge g0 ⟨200, 5, 100, 7, true, false, .sys⟩ 3 17),
      (0xC140C85647A0C1E0, .vpemit g0 ⟨200, 5, 100, 7, true, false, .sys⟩ 3 30),
      (0xC200C85647A0E3E0, .cpylp g0 ⟨200, 5, 100, 7, true, false, .sys⟩ 3 17 30),
      (0xC210C85647A0E3E0, .cpysp g0 ⟨200, 5, 100, 7, true, false, .sys⟩ 3 17 30),
      (0xC220C85647A0E3E0, .cpymm g0 ⟨200, 5, 100, 7, true, false, .sys⟩ 3 17 30),
      (0xC230C85647A0E3E0, .cpygp g0 ⟨200, 5, 100, 7, true, false, .sys⟩ 3 17 30),
      (0xC240C85647A0E3E9, .cpyred g0 ⟨200, 5, 100, 7, true, false, .sys⟩ 3 17 30 .max .f32),
      (0xC250C85647A0C1E0, .cpyz g0 ⟨200, 5, 100, 7, true, false, .sys⟩ 3 30),
      (0xC400C85647A0E3E0, .migr g0 ⟨200, 5, 100, 7, true, false, .sys⟩ 3 17 30),
      (0xC300C85647A42954, .send g0 ⟨200, 5, 100, 7, true, false, .sys⟩ 33 9 10 true),
      (0xC310C85647A42950, .recv g0 ⟨200, 5, 100, 7, true, false, .sys⟩ 33 9 10),
      (0xC320C85647A42900, .pwr g0 ⟨200, 5, 100, 7, true, false, .sys⟩ 33 9),
      (0xC330C85647A42904, .pwred g0 ⟨200, 5, 100, 7, true, false, .sys⟩ 33 9 true),
      (0xC340C85647A00900, .arm g0 ⟨200, 5, 100, 7, true, false, .sys⟩ 9)] : List (Nat × Instr)).all (fun e => decodeTableWord 64 e.1 == some e.2) = true := by
  decide

/-- Table enc 10. -/
theorem test_decode_Y :
    ([
      (0xD0003F0000000000, .trap g0 63),
      (0xD010000000000000, .rett g0),
      (0xD0201811C0000000, .mfcr g0 3 0x47),
      (0xD030044140000000, .mtcr g0 17 0x05),
      (0xD030044200000000, .mtcrRstop g0 17),
      (0xD030044800000000, .mtcrBarbase g0 17),
      (0xD030045180000000, .mtcrRdbase g0 17),
      (0xD030045100000000, .mtcrFqbase g0 17 2),
      (0xD040044000000000, .tlbinvPage g0 17),
      (0xD040045000000000, .tlbinvLarge g0 17),
      (0xD040002000000000, .tlbinvCtx g0),
      (0xD040003000000000, .tlbinvAll g0),
      (0xD050047C00000000, .mscopWriteback g0 17 30),
      (0xD050047C40000000, .mscopInvalidate g0 17 30),
      (0xD050047C80000000, .mscopRetain g0 17 30),
      (0xD050047CC0000000, .mscopEvictFirst g0 17 30),
      (0xD0601C6400000000, .launch g0 3 17 9),
      (0xD070000000000000, .trigger g0),
      (0xD080000000000000, .waitdep g0),
      (0xD0900463FFFFFFF8, .waitx g0 17 8 0xFFFFFFFE),
      (0xD0A0044000000000, .postx g0 17),
      (0xD0B0000000000000, .yield g0),
      (0xD0C01C2000000000, .cueq g0 3 33),
      (0xD0D0042000000000, .cuewait g0 33),
      (0xD0E0044000000000, .cuesel g0 17),
      (0xD0F0044000000000, .faultack g0 17),
      (0xD1001C4000000000, .perfrd g0 3 17),
      (0xD110047C00000000, .hint g0 30 17),
      (0xD1201C7C00000000, .frameopRead g0 3 17 30),
      (0xD1201C7C40000000, .frameopAdjust g0 3 17 30),
      (0xD1201C7C80000000, .frameopFlags g0 3 17 30),
      (0xD1201C7CC0000000, .frameopPush g0 3 17 30),
      (0xD1201C7D00000000, .frameopPop g0 3 17 30),
      (0xD1201C7D40000000, .frameopShoot g0 3 17 30)] : List (Nat × Instr)).all (fun e => decodeTableWord 64 e.1 == some e.2) = true := by
  decide

/-! ### Reserved and ill-formed encodings -/

/-- R54, R62-R75: class 6, an unassigned opcode, guard 0b1000, a nonzero zero field, codes 3 and 7 that are reserved, a width of 0,
a shift of 64, an odd Pb, an LDM past s31 and one that holds its base, an order without its scope, a wait semaphore without
a count, an unassigned control register. -/
theorem test_reserved_words :
    [0xE000000000000000, 0x8790000000000001, 0x87A0000000000000, 0x8008000000000000, 0x9010000000000000,
      0x900000000000C000, 0xA000000180000000, 0xA000000070000000, 0x81F0000000000000, 0x8150000000001000, 0xC000000000000010,
      0xA050F81E30000000, 0xA050084030000000, 0xA000000002000000, 0xC220010000000000, 0xD020000300000000].all
      (fun w => decodeTableWord 64 w == none) = true := by
  decide

/-- One ill-formed term for each limit of the scalar, flow and memory classes. -/
theorem test_ill_formed_terms :
    ([.add ⟨true, true, 0⟩ 1 2 3, .bfx g0 1 2 0 0, .bfxs g0 1 2 60 5, .bfi g0 1 2 63 2, .join g0 0 0,
      .ld g0 1 ⟨.i64, .ls, 2, 0, .rel, .core⟩, .ldx g0 1 ⟨.i64, .ls, 2, 0, .plain, .mod⟩ 3 0, .st g0 1 ⟨.i8, .ls, 2, 0, .plain, .core⟩,
      .stx g0 1 ⟨.i64, .ls, 2, 0, .acq, .core⟩ 3 0, .ldm g0 30 2 .ls 1 0, .ldm g0 3 2 .ls 4 0, .stm g0 31 1 .ls 1 0,
      .aadd g0 1 ⟨.i64, .tsm, 2, 0, .plain, .core⟩ 3 true, .aadd g0 1 ⟨.n8, .virt, 2, 0, .plain, .core⟩ 3 false,
      .afadd g0 1 ⟨.i64, .virt, 2, 0, .plain, .core⟩ 3 false, .afadd g0 1 ⟨.n32, .tsm, 2, 0, .plain, .core⟩ 3 true,
      .amin g0 1 ⟨.i64, .ls, 2, 0, .plain, .core⟩ 3, .acas g0 1 ⟨.n16, .virt, 2, 0, .plain, .core⟩ 3, .fence g0 .mod .plain,
      .barp g0 0 1 9] : List Instr).all (fun i => !i.wf) = true := by
  decide

/-- One ill-formed term for each limit of the vector, engine and system classes. -/
theorem test_ill_formed_types :
    ([.vadd g0 .e4m3 .rne ⟨0, .imm 0⟩ ⟨1, .imm 0⟩ (.scalar 1), .vcmp g0 .e2m1 .eq ⟨0, .imm 0⟩ ⟨1, .imm 0⟩ (.scalar 1),
      .vsel g0 .e2m1 ⟨0, .imm 0⟩ ⟨1, .imm 0⟩ (.scalar 1), .viadd g0 .i64 false ⟨0, .imm 0⟩ ⟨1, .imm 0⟩ (.scalar 1),
      .vrshr g0 .n32 .rne ⟨0, .imm 0⟩ ⟨1, .imm 0⟩ (.scalar 1), .vsatn g0 .i32 .i32 ⟨0, .imm 0⟩ ⟨1, .imm 0⟩,
      .vsatn g0 .i8 .i64 ⟨0, .imm 0⟩ ⟨1, .imm 0⟩, .vshl g0 .i4 ⟨0, .imm 0⟩ ⟨1, .imm 0⟩ (.scalar 1),
      .mma g0 ⟨0, 0, 0, 0, false, false, .core⟩ 0 2 5 .bf16, .mma g0 ⟨0, 0, 0, 0, false, false, .core⟩ 0 2 4 .i16,
      .mma g0 ⟨0, 0, 0, 0, true, false, .core⟩ 0 2 4 .bf16, .mzero g0 ⟨1, 0, 0, 0, false, false, .core⟩ 0,
      .mcvt g0 ⟨0, 0, 0, 0, false, false, .core⟩ 0 2 .rz .i8, .mcvt g0 ⟨0, 0, 0, 0, false, false, .core⟩ 0 2 .dyn .e2m1,
      .mtrn g0 ⟨0, 0, 0, 0, false, false, .core⟩ 0 2 .i64, .vpinit g0 ⟨0, 0, 9, 0, false, false, .core⟩ 0 1,
      .cpyz g0 ⟨0, 0, 0, 0, false, false, .mod⟩ 1 2, .mfcr g0 1 0x0B, .mtcr g0 1 0x0A, .waitx g0 1 9 0] :
      List Instr).all (fun i => !i.wf) = true := by
  decide

/-! ### Witnesses: S and V classes -/

/-- ScalarArithmetic, ScalarLogic, PredicatesAndReads and ScalarFloat: nothing is pending; the widest and the highest fields. -/
theorem wit_scalar_operations :
    NonePending s0 g0 [1, 2, 31] ∧ s0.on g0 = [0, 1, 2, 3] ∧ s0.on g1 = [] ∧ bfWf 0 64 = true ∧ bfWf 63 1 = true := by
  refine ⟨?_, by decide⟩
  unfold NonePending
  decide

/-- IssueConditions: a pending operand; a panel that is not READY; a row select of 64 in cluster 2 alone; the limits of a
run of panel rows, of an LS, a TSM and a virtual address. -/
theorem wit_IssueConditions :
    let p := clsWith fun c => c.setP 31 true
    let e := coreWith (panels .empty)
    let r := (coreWith (panels .ready)).modCurCl 2 fun c => c.setReg 5 64
    (0 ∈ p.on g0 ∧ (p.startCl 0).p 31 = true ∧ (31 : Reg) ∈ [(1 : Reg), 2, 31]) ∧
    (e.on g0 ≠ [] ∧ e.curCore.pst 7 ≠ .ready) ∧
    ((∀ x ∈ [(⟨1, .imm 0⟩ : RowRef), ⟨7, .reg 5⟩], r.curCore.pst x.p = .ready) ∧ 2 ∈ r.on g0 ∧
      (∀ j ∈ r.on g0, j < 2 → ∀ x ∈ [(⟨1, .imm 0⟩ : RowRef), ⟨7, .reg 5⟩], (r.curCl j).rowSel x.r ≤ 63) ∧
      [(⟨1, .imm 0⟩ : RowRef), ⟨7, .reg 5⟩].findSome? (fun x =>
        if 63 < (r.curCl 2).rowSel x.r then some ((r.curCl 2).rowSel x.r) else none) = some 64) ∧
    (panCopyErr 31 0 0x3F000400 false = some (cPSHAPE, 0x3F000400, 3) ∧ panCopyErr 31 0x20 0x3F000200 false = none ∧
      panCopyErr 0 (0x4000000000000000 + 0x1FBE00) 0x200 true = none ∧
      panCopyErr 0 (0x4000000000000000 + 0x1FBE20) 0x200 true = some (cPROT, 0x4000000000000000 + 0x1FBE20, 0) ∧
      panCopyErr 0 (0x8000000000000000 + 0x3FFFE00) 0x200 false = none ∧
      panCopyErr 0 0x80000000000000 0x200 false = some (cPROT, 0x80000000000000, 0) ∧
      panCopyErr 0 0x7FFFFFFFFFFFFF 0x200 false = some (cDALIGN, 0x7FFFFFFFFFFFFF, 0) ∧
      panCopyErr 0 1 0x201 false = some (cPSHAPE, 0x201, 2) ∧ panCopyErr 0 1 0x200200 false = some (cPSHAPE, 0x200200, 1)) := by
  refine ⟨by decide, by decide, ⟨by decide, by decide, by decide, by decide⟩, by decide⟩

/-- PanelStatesAndSemaphores: each panel state; sums at 0 and 65,535 and just outside. -/
theorem wit_PanelStatesAndSemaphores :
    (s0.on g0 ≠ [] ∧ s0.curCore.pst 31 = .empty ∧ (coreWith (panels .busy)).curCore.pst 31 = .busy) ∧
    (let s := fun (v : Word) => oneWith fun c => c.setReg 1 v
     NonePending (s 65535) g0 [1, 2] ∧ (s 65535).on g0 = [0] ∧ tget 0 s0.curCore.sems 255 = 0 ∧
      (((s 65535).curCl 0).reg 1).toInt = 65535 ∧ (((s 65536).curCl 0).reg 1).toInt = 65536 ∧
      (((s (-1)).curCl 0).reg 1).toInt = -1 ∧ (((s 0).curCl 0).reg 1).toInt = 0) := by
  refine ⟨by decide, ?_, by decide⟩
  unfold NonePending
  decide

/-- A core whose panels are READY and hold readable rows, in a lone stream. -/
def ready1 : State := (coreWith (panels .ready)).modBank StreamId.zero fun b => { b with joined := false }

/-- VectorFloat, VectorIntegerAndMoves, VectorConversions and VectorReductions: rows 0 and 63 of READY panels, one selected by a
scalar, whose row select is at its limit. -/
theorem wit_vector_operations :
    let s := ready1.modCurCl 0 fun c => c.setReg 5 63
    RowsOk s g0 [⟨31, .reg 5⟩, ⟨0, .imm 63⟩, ⟨1, .imm 0⟩] [⟨0, .imm 63⟩, ⟨1, .imm 0⟩] [7] ∧
      RowsOk s g0 [⟨31, .reg 5⟩, ⟨0, .imm 63⟩] [⟨31, .reg 5⟩, ⟨0, .imm 63⟩] [6] ∧ RowsOk s g0 [⟨31, .reg 5⟩] [] [] ∧
      NonePending s g0 [30, 31] ∧ TagsOk s g0 ⟨0, .imm 63⟩ ∧ tyFmt .f16 = some fmtF16 ∧ Ty.fp .f16 = true ∧
      Ty.wide .i64 = true := by
  refine ⟨⟨?_, by decide, by decide, by decide⟩, ⟨?_, by decide, by decide, by decide⟩, ⟨?_, by decide, by decide, by decide⟩,
    ?_, by unfold TagsOk; decide, by decide⟩ <;>
  · unfold NonePending
    decide

/-! ### Witnesses: B class -/

/-- Two of four clusters have predicate 1 set. -/
def half (b : Bank) : Bank := only 2 (fun c => { c with preds := 3 }) (only 0 (fun c => { c with preds := 3 }) b)

/-- BranchesAndCalls: the three outcomes of a joined decision and a forked stream's; register targets that agree and are
aligned, that do not and that differ; return stacks with room, full with a mapped slot, full with an unmapped one. -/
theorem wit_BranchesAndCalls :
    (taken s0 .uni (s0.on g0).length = some true ∧ taken s0 .all (s0.on g1).length = some false ∧
      taken (bankWith half) .uni ((bankWith half).on g1).length = none ∧
      taken (bankWith half) .any ((bankWith half).on g1).length = some true ∧
      taken (oneWith id) .uni ((oneWith id).on g0).length = some true) ∧
    (∀ k ∈ s0.active, (s0.startCl k).p 1 = false) ∧ (∀ j ∈ s0.active, (s0.curCl j).reg 1 = (s0.curCl 0).reg 1) ∧
    (((clsWith fun c => c.setReg 1 64).curCl 0).reg 1).toNat % 64 = 0 ∧
    (((clsWith fun c => c.setReg 1 63).curCl 0).reg 1).toNat % 64 ≠ 0 ∧
    (let s := bankWith (only 3 fun c => c.setReg 1 64)
     (s.curCl 3).reg 1 ≠ (s.curCl 0).reg 1) ∧
    (∀ k ∈ s0.active, (s0.curCl k).rstop < 16) ∧
    (let f := fun (v : Word) => clsWith fun c => { c with rstop := 16, spillp := v }
     let slots := fun (s : State) => State.slotCheck true (fun c => c.spillp) (s.active.filter fun k => (s.curCl k).rstop == 16) s
     (slots (f 0x8000)).isOk = true ∧ (slots (f (-8))).isOk = false) := by
  decide

/-- ReturnsAndFills: equal and different top entries, an empty stack whose slot was lost, is to be read and has come; the
reply of a fill. -/
theorem wit_ReturnsAndFills :
    let full := clsWith fun c => { c with rstop := 1 }
    let two := full.modCurCl 3 fun c => { c with rstack := [64] }
    let lost := clsWith fun c => { c with fill := .lost }
    let got := clsWith fun c => { c with fill := .got [64], spillp := 8 }
    let i := onCl s0.cur 1
    let r := reqAt 0 (.stream i) (.read 8) (.hbm 0) .fill (.reply [1, 2, 3, 4, 5, 6, 7, 8] false false)
    (∀ k ∈ full.active, (full.curCl k).popped = some 0) ∧
    ((∀ k ∈ two.active, (two.curCl k).popped.isSome = true) ∧ (two.curCl 0).popped = some 0 ∧ (two.curCl 3).popped = some 64) ∧
    (0 ∈ lost.active ∧ (lost.curCl 0).rstop = 0 ∧ (lost.curCl 0).fill = .lost) ∧
    ((∀ k ∈ s0.active, (s0.curCl k).fill ≠ .lost) ∧ (State.slotCheck false Cluster.fillSlot
        ((clsWith fun c => { c with spillp := 0x8000 }).active.filter fun k => (s0.curCl k).rstop == 0 && (s0.curCl k).fill == .idle)
        (clsWith fun c => { c with spillp := 0x8000 })).isOk = true) ∧
    ((got.curCl 0).rstop = 0 ∧ (got.curCl 0).fill = .got [64]) ∧
    (({ s0 with reqs := [r] } : State).findReq 0 = some r ∧ r.due ≤ s0.quantum ∧ r.drop = false) := by
  decide

/-- HardwareLoops: counts that all are, none is and some are zero; a level on its last turn and on an earlier one. -/
theorem wit_HardwareLoops :
    let some := (clsWith fun c => c.setReg 1 1).modCurCl 3 fun c => c.setReg 1 0
    let c : Cluster := { Cluster.reset with lc := [0, 0, 0, 1], le := [64, 0, 0, 64] }
    (∀ k ∈ (clsWith fun c => c.setReg 1 1).active, (((clsWith fun c => c.setReg 1 1).curCl k).reg 1).toNat % 2 ^ 32 ≠ 0) ∧
    (∀ k ∈ s0.active, ((s0.curCl k).reg 1).toNat % 2 ^ 32 = 0) ∧
    ((some.curCl 0).reg 1 ≠ 0 ∧ (some.curCl 3).reg 1 = 0) ∧
    (c.lc.length = 4 ∧ c.lc.getD 3 0 ≠ 0 ∧ c.le.getD 3 0 = 64 ∧
      ∀ m < 4, m ≠ 3 → c.lc.getD m 0 = 0 ∨ c.le.getD m 0 ≠ 64) := by
  decide

/-- ForksJoinsExits: joined and forked; a member that arrives last, one that arrives first, one that has exited, a stream that
is no member, a set in use elsewhere; the last stream's EXIT and an earlier one's. -/
theorem wit_ForksJoinsExits :
    let f := oneWith fun c => { c with st := .running }
    let gone := f.modCurCl 3 fun c => { c with st := .exited }
    let last := bankWith fun b => { b with joined := false, joins := [(7, ⟨true, 15, 14, 0x40000⟩)] }
    let other := bankWith fun b => { b with joined := false, joins := [(7, ⟨true, 15, 14, 0⟩)] }
    let ends := bankWith fun b =>
      { (b.modCl 1 fun c => { c with st := .exited }).modCl 2 fun c => { c with st := .exited } with joined := false }
    let ends := ends.modCurCl 3 fun c => { c with st := .exited }
    (s0.curBank.joined = true ∧ s0.on g0 ≠ [] ∧ f.curBank.joined = false ∧ f.on g0 ≠ [] ∧ f.on g1 = []) ∧
    ((14 : BitVec 4).getLsbD f.cur.cl.val = false) ∧
    ((15 : BitVec 4).getLsbD 3 = true ∧ (gone.curCl 3).st = .exited) ∧
    ((tget JoinSet.reset other.curBank.joins 7).busy = true ∧ (tget JoinSet.reset other.curBank.joins 7).addr ≠ other.iss.addr) ∧
    (let j := tget JoinSet.reset last.curBank.joins 7
     j.busy = true ∧ j.expected = 15 ∧ j.addr = last.iss.addr ∧ (∀ k : Fin 4, k = 0 ∨ j.arrived.getLsbD k.val = true) ∧
      ∀ k : Fin 4, (last.curCl k).st ≠ .exited) ∧
    (tget JoinSet.reset f.curBank.joins 7).busy = false ∧
    ((∀ k, k ≠ ends.cur.cl → (ends.curCl k).st = .exited) ∧ ∃ k, k ≠ f.cur.cl ∧ (f.curCl k).st ≠ .exited) := by
  decide

/-! ### Witnesses: M class -/

/-- The LS accesses of a lone stream are granted. -/
theorem granted1 (f : Cluster → Cluster) (a n : Nat) (hf : ∀ k, ((oneWith f).curCl k).lsHeld = false)
    (h1 : ∀ k ∈ (oneWith f).on g0, k = 0) (h : a + n ≤ 0x200000)
    (hu : (oneWith f).curCore.lsUsed = 0) : Granted (oneWith f) g0 (fun _ => a) n where
  held := hf
  inside _ _ := h
  free _ _ _ _ := by rw [hu]; exact BitVec.getLsbD_zero
  apart k hk j hj hkj := absurd ((h1 k hk).trans (h1 j hj).symm) hkj

/-- LocalAccesses: the last word below the ring region, for a store and a load; two clusters whose words share a bank. -/
theorem wit_LocalAccesses :
    let s := oneWith fun c => c.setReg 2 0x1FBFF8
    (∀ k, (fun _ : Fin 4 => 0x1FBFF8) k = (effAddr (s.curCl k) 2 0 0 0).toNat) ∧ NonePending s g0 [1, 2, 0] ∧
      Granted s g0 (fun _ => 0x1FBFF8) 8 ∧ s.accessesDone s.cur s.active = true ∧
      s.badLs s.cur.tile s.cur.core 0x1FBFF8 8 = [] ∧ 0x1FBFF8 + 8 ≤ 0x1FC000 ∧ FencePassed s g0 ∧
    (let p := (bankWith half).modCurCl 0 fun c => c.setReg 2 0x1FFFF8
     let p := p.modCurCl 2 fun c => c.setReg 2 0x1FFFF0
     p.on g1 = [0, 2] ∧ NonePending p g1 [1, 2] ∧ (∀ k, (p.curCl k).lsHeld = false) ∧
      (effAddr (p.curCl 0) 2 0 0 0).toNat / 16 % 32 = (effAddr (p.curCl 2) 2 0 0 0).toNat / 16 % 32 ∧
      (effAddr (p.curCl 0) 2 0 0 0).toNat + 8 ≤ 0x200000 ∧ p.curCore.lsUsed = 0) := by
  refine ⟨by decide, by unfold NonePending; decide, granted1 _ _ _ (by decide) (by decide) (by decide) (by decide), by decide,
    by decide, by decide, by unfold FencePassed; decide, by decide, by unfold NonePending; decide, by decide⟩

/-- LongAndSpeculativeLoads: a mapped word, one of TSM, one that faults and one whose page table entry is uncorrectable; no
result in flight. -/
theorem wit_LongAndSpeculativeLoads :
    let s := fun (v : Word) => oneWith fun c => c.setReg 2 v
    let ea := fun (c : Cluster) => effAddr c 2 0 0 0
    NonePending (s 0x8000) g0 [1, 2, 0] ∧ (∀ k ∈ s0.on g0, (s0.startCl k).inFlight 1 = false) ∧ (s 0).on g0 = [0] ∧
    (State.checkAll .virt 8 8 false .none ea ((s 0x8000).on g0) (s 0x8000)).isOk = true ∧
    (State.checkAll .tsm 8 8 true .write ea ((s 0x3FFFFF8).on g0) (s 0x3FFFFF8)).isOk = true ∧
    ((s 4).accessCheck 0 .virt 4 8 8 false .read).isOk = false ∧
    ((s 0).accessCheck 0 .ls 0x1FFFF8 8 8 false .read).isOk = true ∧
    ((s 0).accessCheck 0 .tsm 0x4000000 8 8 false .read).isOk = true ∧
    (match ({ tileWith (fun x => { x with ptroot := 0x20000 }) with bad := [.hbm 0x20000] } : State).accessCheck 0 .virt 0x8000
        8 8 false .none with
      | .error e => decide (e = (cUECC, 0x20000, 3))
      | .ok _ => false) = true := by
  refine ⟨?_, by decide⟩
  unfold NonePending
  decide

/-- AccessChecks: an access with a byte to it; accesses of the bundle that fail. -/
theorem wit_AccessChecks :
    let s := fun (v : Word) => oneWith fun c => c.setReg 2 v
    let ea := fun (c : Cluster) => effAddr c 2 0 0 0
    NonePending (s 1) g0 [1, 2, 0] ∧ (0x1FFFF9 : Word).toNat % 8 ≠ 0 ∧ (0x200000 : Word).toNat % 8 = 0 ∧
    2 ^ 55 ≤ (0x80000000000000 : Word).toNat ∧
    (State.checkAll .virt 8 8 false .none ea ((s 1).on g0) (s 1)).isOk = false ∧
    (State.checkAll .ls 8 8 true .write ea ((s 0x1FC000).on g0) (s 0x1FC000)).isOk = false := by
  refine ⟨?_, by decide⟩
  unfold NonePending
  decide

/-- Atomics: a mapped word; operands of 32 bits at their limits. -/
theorem wit_Atomics :
    let s := oneWith fun c => c.setReg 2 0x8000
    NonePending s g0 [1, 2, 3] ∧ (∀ k ∈ s.on g0, (s.startCl k).inFlight 1 = false) ∧
    (State.checkAll .virt 4 4 true .none (fun c => effAddr c 2 0 0 0) (s.on g0) s).isOk = true ∧
    2 ^ 32 - 1 < 2 ^ (8 * sizBytes .n32) := by
  refine ⟨?_, by decide⟩
  unfold NonePending
  decide

/-- The word of `ldm s8, 4, ls:[s2+0]`. -/
def ldmWord : Word := 0xA0504086B0000000

/-- MultipleRegisters: a run that crosses a multiple of 65,536 after its first register; its second piece. -/
theorem wit_MultipleRegisters :
    let s := oneWith fun c => c.setReg 2 0xFFF8
    let p := oneWith fun c => { c with hold := .piece false 0x40000 ldmWord 0x10000 1 [0, 0, 0] }
    s.on g0 = [0] ∧ NonePending s g0 (2 :: (List.range 4).map fun j => (8 : Reg) + BitVec.ofNat 5 j) ∧
      (effAddr (s.curCl 0) 2 0 0 0).toNat % 8 = 0 ∧ min 4 ((65536 - (effAddr (s.curCl 0) 2 0 0 0).toNat % 65536) / 8) = 1 ∧
      Granted s g0 (fun _ => 0xFFF8) 8 ∧ s.badLs s.cur.tile s.cur.core 0xFFF8 8 = [] ∧
    (decodeTableWord 64 ldmWord.toNat = some (.ldm g0 8 3 .ls 2 0) ∧ (p.bank p.cur).joined = false ∧
      (p.cl p.cur).hold = .piece false 0x40000 ldmWord 0x10000 1 [0, 0, 0] ∧ (p.cl p.cur).lsHeld = false ∧
      (p.core 0 0).lsUsed = 0 ∧ p.badLs 0 0 0x10000 24 = [] ∧ p.reqs = []) := by
  refine ⟨by decide, by unfold NonePending; decide, by decide, by decide,
    granted1 _ _ _ (by decide) (by decide) (by decide) (by decide), by decide, by decide⟩

set_option maxRecDepth 4000 in
/-- RowTransfersAndPrefetch: the last row of the LS below the rings, a mapped row, one of TSM; the data awaited and come. -/
theorem wit_RowTransfersAndPrefetch :
    let s := fun (v : Word) => ready1.modCurCl 0 fun c => c.setReg 2 v
    RowsOk (s 0x1FBE00) g0 [⟨31, .imm 63⟩] [⟨31, .imm 63⟩] [2, 0] ∧ (s 0).on g0 = [0] ∧
    Granted (oneWith fun c => c.setReg 2 0x1FBE00) g0 (fun _ => 0x1FBE00) 512 ∧ 0x1FBE00 + 512 ≤ 0x1FC000 ∧
    ((s 0x8000).accessCheck 0 .virt 0x8000 512 64 false .none).isOk = true ∧
    ((s 0x3FFFE00).accessCheck 0 .tsm 0x3FFFE00 512 64 true .none).isOk = true ∧
    ((ready1.curCl 0).buf = .idle ∧
      ((ready1.modCurCl 0 fun c => { c with buf := .sent 0 8 }).curCl 0).buf = .sent 0 8 ∧
      ((ready1.modCurCl 0 fun c => { c with buf := .got [1] }).curCl 0).buf = .got [1]) := by
  refine ⟨⟨?_, by decide, by decide, by decide⟩, by decide,
    granted1 _ _ _ (by decide) (by decide) (by decide) (by decide), by decide⟩
  unfold NonePending
  decide

/-- FencesAndBarriers: accesses done and under way; a barrier no stream waits in and one with waiters; an arrival that
completes the generation and one that does not; a free continuation record. -/
theorem wit_FencesAndBarriers :
    let i := onCl s0.cur 0
    let busy := { s0 with reqs := [reqAt 0 (.stream i) (.read 8) (.hbm 0) (.load ⟨0, 1, .i64, .virt, 0, .plain, .core, false⟩) .wait,
      reqAt 1 (.stream i) (.write [1]) (.hbm 0) .none .wait] }
    let two := s0.putBar 0 5 { s0.barRec 0 5 with count := 2, stalled := 1 }
    (s0.on g1 = [] ∧ s0.on g0 = [0, 1, 2, 3] ∧ s0.loadsDone s0.cur s0.active = true ∧ s0.storesDone s0.cur s0.active = true ∧
      busy.loadsDone busy.cur busy.active = false ∧ busy.storesDone busy.cur busy.active = false) ∧
    (s0.accessesDone s0.cur s0.active = true ∧ (s0.barRec 0 5).stalled = 0 ∧ (s0.barRec 0 5).parked = 0 ∧
      (s0.barRec 0 5).count = 0 ∧ two.accessesDone two.cur two.active = true ∧ (two.barRec 0 5).stalled ≠ 0 ∧
      (two.barRec 0 5).count = 2 ∧ (two.barRec 0 5).arrived = 0) ∧
    (s0.barBankFree 0 5 = true ∧ (tileWith fun x => { x with bankUsed := [5] }).barBankFree 0 5 = false ∧
      ordAcq .ar = true ∧ ordRel .ar = true ∧ ordRel .acq = false) ∧
    (s0.curBank.joined = true ∧ (∀ j : Fin 4, ∀ n < 8, (s0.startCl j).p (1 + BitVec.ofNat 5 n) = false) ∧
      ((s0.curCl 0).reg 1).toNat % 64 = 0 ∧ s0.freeCont = some 0) := by
  decide

/-! ### Witnesses: E and Y classes -/

/-- EngineEntries: a ring with room for the four entries and one without; distinct and equal panels; values that pass and that
fail the checks; a company bound to a cue sheet and one that is not. -/
theorem wit_EngineEntries :
    let near := fun (n : Nat) => coreWith fun x => { x with rings := { x.rings with c0 := ⟨0, n % 64, n⟩ } }
    let bound := bankWith fun b => { b with task := some { Task.reset with cue := some 42 } }
    (NonePending s0 g0 [1, 2, 3] ∧ s0.on g0 = [0, 1, 2, 3]) ∧
    ((encode (.mma g0 ⟨0, 0, 0, 0, false, false, .core⟩ 0 31 2 .bf16)).isSome = true ∧ (31 : Pan) ≠ 0 ∧
      (ringOf (near 60).curCore .matrix).count + ((near 60).on g0).length = 64 ∧
      (ringOf (near 61).curCore .matrix).count + ((near 61).on g0).length = 65 ∧ (ringOf (near 60).curCore .matrix).tail < 64) ∧
    (∀ n < (s0.on g0).length, s0.badLs s0.cur.tile s0.cur.core (slotAt s0 .matrix n) 64 = []) ∧
    ((∀ k ∈ s0.on g0, copyErr none ((s0.curCl k).reg 1) ((s0.curCl k).reg 2) ((s0.curCl k).reg 3) = none) ∧
      (copyErr none (0x4000000000000000 + 0x1FBFFF) 0 2).isSome = true ∧
      (copyErr (some 4) 0 2 4).isSome = true ∧ (gatherErr 31 0 0).isSome = false ∧ (gatherErr 31 1 1).isSome = true ∧
      (migrErr 0x8000 2).isSome = true ∧ (migrErr 0 0).isSome = false) ∧
    ((∃ t u, bound.curBank.task = some t ∧ t.cue = some u) ∧ ¬∃ t u, s0.curBank.task = some t ∧ t.cue = some u) := by
  refine ⟨⟨by unfold NonePending; decide, by decide⟩, by decide, by decide, by decide, ⟨_, 42, rfl, rfl⟩, ?_⟩
  rintro ⟨t, u, h, hu⟩
  have : s0.curBank.task = some Task.reset := by decide
  rw [this] at h
  cases h
  cases hu

/-- TakingATrap: nothing under way, and a load under way; a stream with a local handler and one whose cause goes to the
host. -/
theorem wit_TakingATrap :
    let lt := oneWith fun c => { c with lt := true }
    let l : LoadRec := ⟨0, 31, .i64, .virt, 0x8000, .plain, .core, false⟩
    let r := reqAt 0 (.stream (onCl s0.cur 0)) (.read 8) (.hbm 0x8000) (.load l) .home
    let s := { oneWith id with reqs := [r] }
    NothingAwaited s0 (onCl s0.cur 3) cls4 ∧ (0 : Fin 4) ∈ (if s0.curBank.joined then cls4 else [3]) ∧
    (lt.curBank.joined = false ∧ (lt.curCl 0).lt = true ∧ (lt.curCl 0).ti = false) ∧
    s0.route 0 cILLOP 0 true ≠ .drop ∧
    (s.curBank.joined = false ∧ s.reqs = [r] ∧ r.who = .stream (onCl s.cur 0) ∧ r.drop = false ∧ r.dst = .load l ∧ l.cl = 0 ∧
      r.stage ≠ .lost ∧ s.records = [] ∧ s.posted = []) := by
  refine ⟨?_, by decide, by decide, by decide, by decide⟩
  unfold NothingAwaited
  decide

/-- RaisedTraps: a guard true of all and of none; the streams that the bundle has just forked; the word of RETT, of YIELD and one that stands for nothing. -/
theorem wit_RaisedTraps :
    let f := oneWith id
    let f := { f with iss := { f.iss with only := some cls4 } }
    s0.on g1 = [] ∧ s0.on g0 = [0, 1, 2, 3] ∧ s0.active = [0, 1, 2, 3] ∧ s0.curBank.joined = true ∧ (oneWith id).active = [0] ∧
    (f.curBank.joined = false ∧ f.on g0 = [0, 1, 2, 3]) ∧
    decodeTableWord 64 0x5010000000000000 = some (.rett ⟨false, false, 0⟩) ∧
    Instr.supervisor (.rett ⟨false, false, 0⟩) = true ∧ (decodeBundle false [0xD0B0000000000000] 1).isOk = true := by
  decide

/-- TrapReturn: no handler in a cluster of a joined stream; a handler with results in flight; one that returns; one whose
LDM stopped after its first piece. -/
theorem wit_TrapReturn :
    let ti := clsWith fun c => { c with ti := true }
    let fl := oneWith fun c => { c with ti := true, flights := [⟨1, .reg 1 0 false, 0, 0⟩] }
    let xf := oneWith fun c => { c with ti := true, xfer := 31 }
    let some := ti.modCurCl 3 fun c => { c with ti := false }
    (s0.on g0 ≠ [] ∧ s0.active = s0.clsOf s0.cur ∧ (s0.startCl 0).ti = false) ∧
    ((some.startCl 3).ti = false ∧ ∀ j ∈ some.active, j < 3 → (some.startCl j).ti = true) ∧
    ((∀ k ∈ ti.active, (ti.startCl k).ti = true ∧ (ti.curCl k).xfer = 0) ∧ ti.inFlightAtStart = false ∧
      ti.curBank.replay = []) ∧
    ((∀ k ∈ fl.active, (fl.startCl k).ti = true) ∧ fl.inFlightAtStart = true) ∧
    ((∀ k ∈ xf.active, (xf.startCl k).ti = true) ∧ xf.inFlightAtStart = false ∧ xf.active = [0] ∧ (xf.curCl 0).xfer ≠ 0) := by
  decide

/-- ControlReads and ControlWrites: nothing pending; the value read is the bundle's; stores done and under way; the end of a
cycle with one change noted. -/
theorem wit_control_registers :
    let busy := { s0 with reqs := [reqAt 1 (.stream (onCl s0.cur 0)) (.write [1]) (.hbm 0) .none .wait] }
    (NonePending s0 g0 [1, 31] ∧ ∀ k, (s0.startCl k).reg 1 = (s0.curCl k).reg 1) ∧
    (s0.storesDone s0.cur s0.active = true ∧ busy.storesDone busy.cur busy.active = false ∧ busy.on g0 ≠ []) ∧
    (((clsWith fun c => { c with lbuf := .sent 0 0 }).curCl 0).lbuf = .sent 0 0 ∧ (s0.curCl 0).lbuf = .idle ∧ 0 ≤ s0.quantum) ∧
    ([EndFx.setps 31 true, .barbase 1 0xFFFF, .barrot 0, .marker 1, .tileReg 0x40 64, .tileReg 0x41 4096, .tileReg 0x47 1024].all
      fun e => ((coreWith fun x => { x with endFx := [e] }).core 0 0).endFx == [e]) = true := by
  refine ⟨⟨by unfold NonePending; decide, by decide⟩, by decide, by decide, by decide⟩

/-- TranslationMscAndFrameOperations: stores and translations done; a range of no byte and one up to the end of a mapped page;
frames of this module and addresses that name none, a tile and no tile. -/
theorem wit_TranslationMscAndFrameOperations :
    let s := fun (v : Word) => oneWith fun c => (c.setReg 1 v).setReg 2 1
    (s0.on g0 = [0, 1, 2, 3] ∧ (s0.startCl 0).p 1 = false ∧ (s0.curCl 0).lbuf = .idle ∧
      s0.storesDone s0.cur s0.active = true ∧ s0.translatedDone s0.nextId = true) ∧
    ((s 0xFFFF).on g0 = [0] ∧ NonePending (s 0xFFFF) g0 [3, 1, 2] ∧ 0xFFFF % 65536 + 1 ≤ 65536 ∧
      ((s 0xFFFF).xl ⟨0, 0xFFFF, false, false, false, 0, 0, 0⟩).isOk = true ∧ ((s 0).startCl 0).inFlight 3 = false) ∧
    (let frame := fun (va : Nat) =>
        va % 65536 = 0 ∧ va / 2 ^ 40 = s0.cw.identity.toNat % 4096 ∧ va % 2 ^ 36 < 0xFFF000000
     frame 0xFFEFF0000 ∧ ¬frame 0xFFF000000 ∧ ¬frame 1 ∧ ¬frame (2 ^ 40)) := by
  refine ⟨by decide, ⟨by decide, by unfold NonePending; decide, by decide⟩, by decide⟩

/-- LaunchAndTaskOperations: an address that is no multiple of 64; a mapped one whose queue is fed by tasks and one that is not; the
record to be read and come, for a user and a supervisor; a queue with one free slot; tasks with and without what they wait for;
a task that YIELD finds able, a free bank with and without an entry. -/
theorem wit_LaunchAndTaskOperations :
    let q : LQ := { LQ.reset with size := 4, fed := true, head := 1, tail := 16, base := 0x100000 }
    let s := fun (v : Word) => { oneWith (fun c => c.setReg 2 v) with lq := [(9, q)] }
    let got := (s 0x8000).modCurCl 0 fun c => { c with lbuf := .got (List.replicate 64 0), priv := false }
    let task := fun (k : Task) => bankWith fun b => { b with task := some k }
    let able := (coreWith fun x => { x with b1 := { x.b1 with occ := true, cl := x.b1.cl.map fun c => { c with st := .running } } })
    let e : TaskEnt := ⟨0, 0, 0, 0, 3, 0, 0, 0, false, 0, 0, 0⟩
    let entry := tileWith fun x => { x with ready := [e] }
    (NonePending (s 1) g0 [1, 2] ∧ (s 1).on g0 = [0] ∧ ((s 1).xl ⟨0, 0x8000, false, false, false, 0, 0, 0⟩).isOk = true) ∧
    ((tget LQ.reset (s 1).lq 0).size = 0 ∧ (tget LQ.reset (s 1).lq 9).fed = true ∧ ((s 1).curCl 0).lbuf = .idle) ∧
    ((got.curCl 0).lbuf = .got (List.replicate 64 0) ∧ (got.curCl 0).priv = false ∧ recSup (List.replicate 64 0) = false ∧
      recKind (List.replicate 64 0) = 0 ∧ recSup ((List.replicate 64 0).set 26 0xFF) = true ∧
      got.accessesDone got.cur got.active = true ∧ (q.tail + 2 ^ 28 - q.head) % 2 ^ 28 < 2 ^ q.size) ∧
    (taken s0 .uni (s0.on g0).length = some true ∧ (s0.curBank.task).isSome = true ∧
      (∀ k, (task { Task.reset with early := true, deps := [5] }).curBank.task = some k → k.early = true →
        ¬∀ l ∈ k.deps, (task { Task.reset with early := true, deps := [5] }).triggered l = true)) ∧
    (s0.curBank.joined = true ∧ (s0.startCl 0).p 2 = false ∧ (oneWith id).curBank.joined = false ∧
      (oneWith id).active = [(oneWith id).cur.cl] ∧ s0.mayPost 0 = true ∧
      ({ s0 with keys := [⟨7, 65535, []⟩] } : State).mayPost 7 = false) ∧
    ((able.curCore.bank (1 - able.cur.bank)).able = true ∧ (s0.curCore.bank (1 - s0.cur.bank)).able = false ∧
      (s0.curCore.bank (1 - s0.cur.bank)).occ = false ∧ s0.bestEntry 0 0 = none ∧ entry.bestEntry 0 0 = some e) := by
  refine ⟨⟨by unfold NonePending; decide, by decide⟩, by decide, by decide, ⟨by decide, by decide, ?_⟩, by decide, by decide⟩
  intro k hk _ h
  have : k = { Task.reset with early := true, deps := [5] } := by
    have : some k = some { Task.reset with early := true, deps := [5] } := hk.symm.trans (by decide)
    exact Option.some.inj this
  subst this
  exact absurd (h 5 (by decide)) (by decide)

/-- CueAnswerAndHintOperations: a handle seen live, one lost, one dark, an unbound company; a slot of a queue and addresses that
are none; every index that Table count 11 lists in the statement can be a scalar's value; hints with a short and a long wait. -/
theorem wit_CueAnswerAndHintOperations :
    let h := fun (st : Nat) => tileWith fun x => { x with handles := [(33, { Handle.reset with st := st })] }
    let b := fun (st : Nat) =>
      { (h st).modBank StreamId.zero (fun b => { b with task := some { Task.reset with cue := some 42 } }) with
        sm := { StageMgr.reset with playing := some 42 } }
    let q := (tileWith fun x => { x with fqbase := { x.fqbase with c0 := ⟨0x1000, 1⟩ } }).modBank StreamId.zero fun b =>
      { b with joined := false }
    ((b 2).curBank.task.bind (·.cue) = some 42 ∧ (b 2).sm.playing = some 42 ∧
      (tget Handle.reset (b 2).curTile.handles 33).st = 2 ∧ (tget Handle.reset (b 3).curTile.handles 33).st = 3 ∧
      s0.curBank.task.bind (·.cue) = none ∧ (b 0).active = [0, 1, 2, 3]) ∧
    (q.on g0 = [0] ∧ NonePending q g0 [1, 2] ∧ q.accessesDone q.cur q.active = true ∧
      q.slotQueue 0x1060 = some (0, 0) ∧ q.slotQueue 0x1080 = none ∧ (0x1060 : Word).toNat < 2 ^ 40) ∧
    (0x328 : Word).toNat % 2 ^ 16 = 0x328 ∧ ((oneWith fun c => c.setP 1 true).startCl 0).p 1 = true ∧
    (12499 : Word).toNat < 12500 ∧ 12500 ≤ (12500 : Word).toNat ∧ (31 : BitVec 5).toNat ∉ [0, 1, 2, 3, 7] := by
  refine ⟨by decide, ⟨by decide, by unfold NonePending; decide, by decide⟩, by decide⟩

/-! ### Witnesses: engines -/

/-- A core whose ring at the LS offset holds one entry, enqueued long before. -/
def ringWith (off : Nat) (f : Core → Core) (w0 w3 w4 w5 : Nat) : State :=
  (tileWith fun x => { x with clk := { x.clk with base := 100 } }).modCore 0 0 fun x =>
    f { x with ls := mputs [] off ([w0, 0, 0, w3, w4, w5, 0, 0].flatMap (leBytes 8)),
               rings := Quad.all ⟨0, 1, 1⟩ }

/-- The entry that such a core's ring holds. -/
def slot (w0 w3 w4 w5 : Word) : Slot := ⟨w0, 0, 0, w3, w4, w5, 0⟩

/-- An entry enqueued long ago is the head of its ring, whatever the phase of the core's clock. -/
theorem headOf_eq {s : State} {g : Eng} {e : Slot} (hs : s.engHeld 0 0 g = false)
    (hh : (s.core 0 0).head g = some e) (h6 : e.w6.toNat + 2 ≤ (s.tile 0).clk.base) (hc : s.coStops 0 e.companyId = false) :
    s.headOf 0 0 g = some e := by
  have : e.w6.toNat + 2 ≤ s.cycles 0 := Nat.le_trans h6 (Nat.le_add_right _ _)
  simp [State.headOf, hs, hh, this, hc]

/-- UnitRangesAndSignals: numbers just past the units; a signal that is added up to 65,535 and one that would pass it. -/
theorem wit_UnitRangesAndSignals :
    let k : Sig := ⟨255, 15, 3, 1⟩
    let s := fun (v : Nat) => coreWith fun x => { x with sems := [(255, v)], sigs := { x.sigs with c2 := ⟨[k], false⟩ } }
    sigsOf ((s 65520).core 0 0) .courier = ⟨[k], false⟩ ∧
    tget 0 ((s 65520).core 0 0).sems k.sem.toNat + k.inc.toNat = 65535 ∧
    tget 0 ((s 65521).core 0 0).sems k.sem.toNat + k.inc.toNat = 65536 ∧ s0.route 0 cSEMOVF 1 false ≠ .drop := by
  decide

set_option maxRecDepth 8000 in
/-- MatrixEngine: a ring head whose wait is met and one whose is not; a window whose first slot is taken; an entry whose panels
allow it behind one whose do not; a running entry at its end, with readable and with bad sources; 2,048 products; the last
elements of a row. -/
theorem wit_MatrixEngine :
    let z : Slot := ⟨0x0020000000000000, 0, 0, 0, 0, 0, 0⟩
    let a : Slot := ⟨0x000000000000C446, 0, 0, 0, 0, 0, 0⟩
    let h := ringWith 0x1FC000 (fun x => { x with mwin := ⟨[⟨0, z⟩], 4, 0⟩ })
    let win := (coreWith (panels .ready)).modCore 0 0 fun x =>
      { x with mwin := ⟨[⟨0, a⟩, ⟨1, z⟩], 4, 0⟩, pstate := tset x.pstate 3 .busy }
    let run := coreWith fun x => { x with mwin := ⟨[⟨1, z⟩], 1, 0⟩ }
    ((h 0x0020000000000000 0 0 0).headOf 0 0 .matrix = some (slot 0x0020000000000000 0 0 0) ∧
      (slot 0x0020000000000000 0 0 0).wcnt = 0 ∧
      (h 0x0020001000000000 0 0 0).headOf 0 0 .matrix = some (slot 0x0020001000000000 0 0 0) ∧
      (slot 0x0020001000000000 0 0 0).wcnt = 1 ∧ tget 0 ((h 0x0020001000000000 0 0 0).core 0 0).sems 0 = 0) ∧
    (SlotFree ((h 0x0020000000000000 0 0 0).core 0 0) .matrix ∧
      SlotBusy { (h 0x0020000000000000 0 0 0).core 0 0 with lsUsed := 1 } .matrix) ∧
    (((win.core 0 0).matReady a = false ∧ matConflict a z = false ∧ (win.core 0 0).matReady z = true ∧
      win.coStops 0 0 = false ∧ (win.core 0 0).sigs.c0.held = false)) ∧
    ((run.core 0 0).mwin.remaining = 0 ∧
      ((run.core 0 0).mwin.ents.find? fun o => o.n == (run.core 0 0).mwin.running) = some ⟨1, z⟩ ∧ z.opcode = 2 ∧
      ({ s0 with bad := [.panel 0 0 0x8000] } : State).badPanel 0 0 1 64 false ≠ none ∧
      ({ s0 with bad := [.tag 0 0 0x800] } : State).badPanel 0 0 1 64 true ≠ none) ∧
    ((List.replicate 2048 (127 : Int)).length ≤ 2048 ∧ Ty.ofCode ((a.w0.extractLsb' 0 4)) = some .i8 ∧ Ty.wide .i8 = true ∧
      tyFmt .i8 = none ∧ tyWidth .i8 = 8 ∧ 511 < 4096 / tyWidth .i8) := by
  refine ⟨⟨headOf_eq (by decide) (by decide) (by decide) (by decide), by decide,
    headOf_eq (by decide) (by decide) (by decide) (by decide), by decide, by decide⟩, ⟨⟨by decide, by decide⟩,
    ⟨by decide, by decide⟩⟩, by decide, by decide, Nat.le_of_eq List.length_replicate, by decide⟩

set_option maxRecDepth 8000 in
/-- ProjectionUnit: VPINIT whose block passes and one whose block does not; its wait met and not; a VPROJ with columns left and
one with none. -/
theorem wit_ProjectionUnit :
    let s := fun (w0 : Nat) => ringWith 0x1FD000 id w0 0 0 0x1FFFC0
    let run := fun (g : Nat) => coreWith fun x =>
      { x with proj := { Proj.reset with busy := true, e := ⟨0x0110000000000000, 0, 0, 0, 0, 0, 0⟩, group := g,
                                         par := List.replicate 64 1 } }
    let e := slot 0x0100000000004000 0 0 0x1FFFC0
    let block := fun (n : Nat) =>
      ([0x3F800000, 0, n + 0x00010100, 32, 0].flatMap (leBytes 4) ++ List.replicate 44 0 : List Byte)
    ((s 0x0100000000004000).headOf 0 0 .proj = some e ∧ e.wcnt = 0 ∧ e.opcode = 0x10 ∧ e.w5.toNat % 64 = 0 ∧
      e.w5.toNat + 64 ≤ 0x200000 ∧
      ((s 0x0100000000004000).core 0 0).proj.busy = false ∧ ((s 0x0100000000004000).core 0 0).proj.wait = 0 ∧
      ((s 0x0100000000004000).restored 0 0 fun v => v.proj.isSome) = none ∧
      ((s 0x0100000000004000).core 0 0).panelIn e.pd [.empty, .ready] = true ∧ s0.badLs 0 0 0x1FFFC0 64 = []) ∧
    ((s 0x0100001000004000).headOf 0 0 .proj = some (slot 0x0100001000004000 0 0 0x1FFFC0) ∧
      (slot 0x0100001000004000 0 0 0x1FFFC0).wcnt = 1 ∧ tget 0 ((s 0x0100001000004000).core 0 0).sems 0 = 0) ∧
    (projCheck e (block 32) (initDesc (block 32)) (initDesc (block 32)) = none ∧
      projCheck e (block 33) (initDesc (block 33)) (initDesc (block 33)) = some 2) ∧
    ((((run 0).core 0 0).projRuns = true ∧ ((run 0).core 0 0).projDone = false ∧ ((run 0).core 0 0).proj.e.opcode = 0x11) ∧
      (((run (2 ^ 27)).core 0 0).projDone = true ∧ (run (2 ^ 27)).reqs = [] ∧ (run 0).projStops 0 ((run 0).core 0 0).proj.e = false)) ∧
    (SlotFree ((s 0x0100000000004000).core 0 0) .proj ∧
      ((s 0x0100000000004000).core 0 0).lsUsed &&& lsBanks 0x1FFFC0 64 = 0) := by
  refine ⟨⟨headOf_eq (by decide) (by decide) (by decide) (by decide), by decide⟩,
    ⟨headOf_eq (by decide) (by decide) (by decide) (by decide), by decide⟩, by decide, by decide,
    ⟨⟨by decide, by decide⟩, by decide⟩⟩

set_option maxRecDepth 8000 in
/-- CourierEngine: an entry with a count of zero and one with panels that allow it and that do not; a CPYZ at its first part,
with its banks free and used, and at its end; a CPYMM whose ranges touch. -/
theorem wit_CourierEngine :
    let s := fun (n : Nat) => ringWith 0x1FE000 id 0x0200000000000000 0x4000000000000000 0 n
    let p := ringWith 0x1FE000 (panels .busy) 0x0200000000000000 0x4000000000000000 0 512
    let run := fun (i : Nat) (used : BitVec 32) (op b : Word) => coreWith fun x =>
      { x with lsUsed := used,
               cour := { Cour.reset with busy := true, progress := i,
                                         e := ⟨op, 0, 0, 0x4000000000000000 + 0x1FBF80, 0x4000000000000000 + b, 128, 0⟩ } }
    let z : Word := 0x0250000000000000
    let e := fun (n : Word) => slot 0x0200000000000000 0x4000000000000000 0 n
    ((s 0).headOf 0 0 .courier = some (e 0) ∧ (e 0).courEmpty = true ∧ (e 0).wcnt = 0 ∧
      (s 512).headOf 0 0 .courier = some (e 512) ∧ (e 512).courEmpty = false ∧ (e 512).wcnt = 0 ∧
      (∀ x ∈ (e 512).run, ((s 512).core 0 0).panelIn x (e 512).runStates.1 = true) ∧
      p.headOf 0 0 .courier = some (e 512) ∧ (∃ x ∈ (e 512).run, (p.core 0 0).panelIn x (e 512).runStates.1 = false) ∧
      (s 0).restored 0 0 (fun v => v.cour.isSome) = none) ∧
    (((run 0 0 z 0).core 0 0).cour.e.opcode = 0x25 ∧ ((run 0 0 z 0).core 0 0).cour.e.w3.toNat = 2 ^ 62 + 0x1FBF80 ∧
      0x1FBF80 + 128 ≤ 0x1FC000 ∧ ((run 0 0 z 0).core 0 0).cour.e.w5.toNat % 2 ^ 40 = 128 ∧
      ((run 0 0 z 0).core 0 0).lsUsed &&& lsBanks 0x1FBF80 64 = 0 ∧
      ((run 0 (-1) z 0).core 0 0).lsUsed &&& lsBanks 0x1FBF80 64 ≠ 0 ∧
      (0x1FBF80 + 128 - 1) / 64 + 1 - 0x1FBF80 / 64 = 2) ∧
    (((run 0 0 0x0220000000000000 0x1FC000).core 0 0).cour.e.opcode = 0x22 ∧
      ((run 0 0 0x0220000000000000 0x1FC000).core 0 0).cour.e.w4.toNat = 2 ^ 62 + 0x1FC000 ∧ 0x1FC000 + 128 ≤ 0x200000 ∧
      0x1FBF80 + 128 ≤ 0x1FC000) ∧
    (∀ y m, (run 0 0 z 0).badLs 0 0 y m = []) ∧ (run 2 0 z 0).reqs = [] ∧ (run 0 0 z 0).coStops 0 0 = false ∧
    (run 0 0 z 0).projWants 0 0 = 0 ∧ (SlotFree ((s 0).core 0 0) .courier ∧ SlotBusy { (s 0).core 0 0 with lsUsed := 1 } .courier) ∧
    (((s 0).core 0 0).cour.acts = [] ∧ (((s 0).core 0 0).lsEng.get (engIdx .courier)).given = false) := by
  refine ⟨⟨headOf_eq (by decide) (by decide) (by decide) (by decide), by decide, by decide,
    headOf_eq (by decide) (by decide) (by decide) (by decide), by decide, by decide, by decide,
    headOf_eq (by decide) (by decide) (by decide) (by decide), by decide, by decide⟩, by decide, by decide, fun _ _ => rfl,
    by decide, by decide, by decide, ⟨⟨by decide, by decide⟩, ⟨by decide, by decide⟩⟩, by decide⟩

/-- PageCopies: a copy whose line has not come, with room to ask and without, and one whose first and whose last line has; a
migration at its first line, at its last one, at its switch with and without a step under way in its frame, and at its
arrival. -/
theorem wit_PageCopies :
    let cow := fun (w : Cow) (rs : List Req) =>
      { coreWith fun x => { x with cour := { x.cour with cow := [w] } } with reqs := rs }
    let w := fun (asked line : Nat) => (⟨0x10, 0x100020, 0x8008, asked, line⟩ : Cow)
    let came := fun (who : Who) (a : Nat) =>
      reqAt 0 who (.read 64) (.hbm a) .engine (.reply (List.replicate 64 0) false false)
    let line := fun (n : Nat) => came (.engine 0 0 .courier 2) (0x10 * 65536 + n * 64)
    let m : Mig := ⟨0x10, 0x20, true, false, 1024, 1023, 1, 0x8008, some (0, 0), 0, 0, 0, 0⟩
    let mig := fun (m : Mig) (rs : List Req) => { tileWith fun x => { x with migs := [(79, m)] } with reqs := rs }
    let last := came (.engine 0 0 .courier 1) (0x10 * 65536 + 1023 * 64)
    let at' := reqAt 0 (.stream (onCl s0.cur 0)) (.atom .add .i64 1 0) (.hbm (0x10 * 65536)) (.atom 1) .unit
    (((cow (w 15 0) []).core 0 0).cour.cow = [w 15 0] ∧ (cow (w 15 0) []).bad = [] ∧
      (cow (w 15 0) []).lineCome (.engine 0 0 .courier 2) (0x10 * 65536 + 0 * 64) = none ∧ (w 15 0).asked < (w 15 0).line + 16 ∧
      (w 16 0).line + 16 ≤ (w 16 0).asked) ∧
    ((cow (w 1024 1022) [line 1022]).lineCome (.engine 0 0 .courier 2) (0x10 * 65536 + 1022 * 64) = some (line 1022) ∧
      (cow (w 1024 1023) [line 1023]).lineCome (.engine 0 0 .courier 2) (0x10 * 65536 + 1023 * 64) = some (line 1023) ∧
      0x8008 % 8 = 0 ∧ paTile (0x100020 * 65536) ≠ paTile 0x8008) ∧
    (∀ n, ((cow (w 15 0) []).tile n).migs = []) ∧ PlainLine (cow (w 1024 1023) [line 1023]) (0x8008 / 64 * 64) ∧
    PlainLine (cow (w 1024 1022) [line 1022]) (0x100020 * 65536 + 1022 * 64) ∧
    ((mig m []).migAt 0 79 = some m ∧ (mig m []).migGoes m = true ∧ m.who = .engine 0 0 .courier 1 ∧
      (mig m [last]).lineCome m.who (m.f * 65536 + m.line * 64) = some last ∧
      (mig { m with asked := 1023 } []).lineCome m.who (m.f * 65536 + m.line * 64) = none ∧
      (mig { m with line := 1024 } []).migAt 0 79 = some { m with line := 1024 } ∧ (mig m []).stepInFrame m.f = false ∧
      (mig m [at']).stepInFrame m.f = true ∧ (mig { m with phase := 2 } []).migAt 0 79 = some { m with phase := 2 } ∧
      (∀ r ∈ (mig m [last]).reqs, r.inFrame m.f = false) ∧ (mig m []).refused = [] ∧
      (m.f2 * 1024 + m.line) ∈ ({ mig m [] with refused := [0x83FF] } : State).refused) := by
  refine ⟨by decide, by decide, ?_, ⟨by decide, by decide, by decide, by decide, by decide⟩,
    ⟨by decide, by decide, by decide, by decide, by decide⟩, by decide⟩
  intro n
  rcases n with _ | n
  · decide
  · rfl

/-! ### Witnesses: port engine and memory units -/

/-- An entry of a handle's queues. -/
def pent (kind cnt : Nat) (addr : Word) : PEnt :=
  { id := 7, kind, core := 0, bank := 0, cl := 0, company := 0, priv := true, cue := some 42, hold := false, relay := false,
    sync := false, cyc := 0, addr, cnt, desc := [], fired := false, acked := 0, sentAll := false, nans := 0, headTick := none,
    asked := false, start := 0, waits := false, fin := none }

/-- A handle's queues on tile 0, and the handle's state. -/
def queues (q : HQ) (st : Nat) : State :=
  { tileWith (fun x => { x with hq := [(63, q)], handles := [(63, { Handle.reset with st := st })] }) with
    sm := { StageMgr.reset with playing := some 42 } }

/-- PortSending: a SEND whose wait is met and one whose is not, a queue with one free place and a full one; an entry without
hold on a dark and on a live handle; one with hold, on a dark handle and on a live one whose far end has room; one that is all
acknowledged. -/
theorem wit_PortSending :
    let e := fun (w0 : Word) => slot w0 0x4000000000000000 512 0
    let s := fun (w0 : Nat) => ringWith 0x1FF000 id w0 0x4000000000000000 512 0
    let a : Word := 0x4000000000000000
    let q := fun (e : PEnt) => queues { HQ.reset with send := [e] }
    let soft := pent 0 512 a
    let held := { pent 0 512 a with hold := true, headTick := some 0 }
    let h : Handle := { Handle.reset with st := 2, port := 3, far := 0x0014, dark := 1000 }
    let live := { tileWith (fun x => { x with hq := [(63, { HQ.reset with send := [held], prog := 256 })], handles := [(63, h)] })
        with
      sm := { StageMgr.reset with playing := some 42 }, circuits := [⟨63, 0x0003, 0x0014, false, false, false, 0⟩] }
    let live := live.modTile 1 fun x => { x with hq := [(63, { HQ.reset with recv := [pent 3 256 a] })] }
    let acked := { held with sentAll := true, acked := 512 }
    ((s 0x030000000007E000).headOf 0 0 .port = some (e 0x030000000007E000) ∧ (e 0x030000000007E000).wcnt = 0 ∧
      ((s 0x030000000007E000).tile 0).ends = [] ∧ ((s 0x030000000007E000).tile 0).portOrd = [] ∧
      (e 0x030000000007E000).opcode = 0x30 ∧ (e 0x030000000007E000).w4.toNat % 2 ^ 40 ≠ 0) ∧
    ((s 0x030000100007E000).headOf 0 0 .port = some (e 0x030000100007E000) ∧ (e 0x030000100007E000).wcnt = 1 ∧
      tget 0 ((s 0x030000100007E000).core 0 0).sems 0 = 0) ∧
    (SlotFree ((s 0x030000000007E000).core 0 0) .port ∧ SlotBusy { (s 0).core 0 0 with lsUsed := 1 } .port) ∧
    ((tget HQ.reset ((s 0).tile 0).hq 63).send.length < 32 ∧
      (List.replicate 32 (pent 0 1 0)).length = 32) ∧
    ((tget HQ.reset ((q soft 2).tile 0).hq 63).send = [soft] ∧ soft.hold = false ∧ soft.asked = false ∧
      (tget Handle.reset ((q soft 2).tile 0).handles 63).st = 2 ∧ soft.cue = (q soft 2).sm.playing ∧
      (tget Handle.reset ((q soft 1).tile 0).handles 63).st ≠ 2 ∧ (q soft 2).coStops 0 0 = false ∧ (q soft 2).blocks = [] ∧
      (q soft 2).engHeld 0 0 .port = false ∧ 2 ^ 62 ≤ soft.addr.toNat ∧ soft.addr.toNat < 2 ^ 63) ∧
    ((tget HQ.reset (live.tile 0).hq 63).send = [held] ∧ (tget HQ.reset (live.tile 0).hq 63).prog = 256 ∧
      live.badLs 0 0 (0 + 256) 256 = [] ∧ live.farEnd 0 63 = .tile 1 63 [] false ∧ live.heldAt 1 63 = false ∧
      256 ≤ live.recvRoom 1 63 ∧ live.timesLeft [(0, 3)] false = true ∧ live.beforeBreak h false = true) ∧
    ((tget HQ.reset ((q acked 2).tile 0).hq 63).send = [acked] ∧ (q acked 2).acks = [] ∧ acked.cnt ≤ acked.acked ∧
      acked.waits = false ∧ acked.fin = none) := by
  refine ⟨⟨headOf_eq (by decide) (by decide) (by decide) (by decide), by decide⟩,
    ⟨headOf_eq (by decide) (by decide) (by decide) (by decide), by decide⟩, ⟨⟨by decide, by decide⟩, ⟨by decide, by decide⟩⟩,
    by decide, by decide, by decide, by decide⟩

/-- A block on handle 63 of tile 0, `put` of its bytes stored. -/
def blk (kind : Nat) (data : List Byte) (dst : Word) (put : Nat) : Block :=
  { Block.blank with id := 3, handle := 63, data, kind, src := some (1, 2, 7), dst, ctr := 511, inc := 1, priv := true, put }

/-- PortDelivery: a block that ends a RECV at the end of the LS's data, one that does not, and one all of whose bytes are stored;
an acknowledgement; a packet for the end of the TSM's data, before and after its write; a fired entry with and without room; an
armed slot and a work entry before and at their timeouts. -/
theorem wit_PortDelivery :
    let b := blk 0 [1, 2, 3, 4] 0
    let s := fun (n put : Nat) =>
      { queues { HQ.reset with recv := [pent 3 n (0x4000000000000000 + 0x1FBFFC)] } 2 with blocks := [b put] }
    let k : Ack := ⟨15, 15, 63, 7, 4, 0⟩
    let p := fun (put : Nat) => { s0 with blocks := [blk 1 [1, 2, 3, 4] (0x8000000000000000 + 0x3FFFFFC) put] }
    let f : Fired := ⟨pent 1 0 0, 63, 0, 0⟩
    let a : Armed := ⟨0, 0, 0x1000, 0, 0, 0, 0, true, none, 0, 5⟩
    let w := fun (t : Nat) => { tileWith (fun x => { x with execq := [f], armed := [(9, a)] }) with tick := t }
    let e := { pent 1 0 0 with headTick := some 0, desc := [0, 0, 0, 0x500000000, 0, 0, 0, 0] }
    ((s 4 0).blocks = [b 0] ∧ (tget HQ.reset ((s 4 0).tile 0).hq 63).recv = [pent 3 4 (0x4000000000000000 + 0x1FBFFC)] ∧
      (tget HQ.reset ((s 4 0).tile 0).hq 63).rsusp = false ∧
      (pent 3 4 (0x4000000000000000 + 0x1FBFFC)).addr.toNat = 2 ^ 62 + 0x1FBFFC ∧ 0x1FBFFC + 0 + 4 ≤ 0x1FC000 ∧
      min (b 0).data.length (4 - 0) = 4 ∧ 4 ≤ 0 + min (b 0).data.length (4 - 0) ∧ 0 + min (b 0).data.length (5 - 0) < 5 ∧
      (s 4 0).badLs 0 0 0x1FBFFC 4 = [] ∧ (b 0).due ≤ (s 4 0).quantum) ∧
    ((b 4).data.length ≤ (b 4).put ∧ (s 4 4).reqs = []) ∧
    (k.tile < 16 ∧ k.handle < 64 ∧ k.at_ = k.tile ∧ ({ s0 with acks := [k] } : State).acks = [k] ∧ k.due ≤ s0.quantum ∧
      s0.blocks = []) ∧
    ((0x8000000000000000 + 0x3FFFFFC : Word).toNat = 2 ^ 63 + 0x3FFFFFC ∧ 0x3FFFFFC + 0 + 4 ≤ 0x4000000 ∧
      (0x3FFFFFC + 0) % 64 + 4 ≤ 64 ∧ ((p 0).tile 0).armed = [] ∧ (p 4).reqs = []) ∧
    (((w 4).tile 0).execq = [f] ∧ (tget HQ.reset ((w 4).tile 0).hq 63).send.length < 32 ∧ (w 4).engHeld 0 0 .port = false ∧
      ((w 4).tile 0).armed.find? (fun e => e.1 == 9) = some (9, a) ∧ (w 4).tick < a.tick + a.timeout ∧
      a.tick + a.timeout ≤ (w 5).tick ∧ e.timeout = 5 ∧ e.w 6 = 0) := by
  decide

/-- TsmAndHomeUnits: the last word of the TSM, read, written and changed, and a bank in use; a posted write of the home tile; a
read at its home; an atomic at its unit; a queued write that is due. -/
theorem wit_TsmAndHomeUnits :
    let i := onCl s0.cur 0
    let r := fun (op : MemOp) => reqAt 0 (.stream i) op (.tsm 0 0x3FFFFF8) (.atom 1) .wait
    let s := fun (op : MemOp) => { s0 with reqs := [r op] }
    let w := reqAt 0 (.stream i) (.write [1, 2]) (.hbm 0x803E) .none .wait
    let rd := reqAt 0 (.stream i) (.read 8) (.hbm 0x8038) .fill .home
    let at' := reqAt 0 (.stream i) (.atom .add .i64 1 0) (.hbm 0x8038) (.atom 1) .unit
    let q : WEnt := ⟨0x8000, [1], 0, 0⟩
    let c := tileWith fun x => { x with wq := [q] }
    ((s (.read 8)).tsmReady 0 511 (r (.read 8)) = true ∧ (s (.write [1, 2, 3, 4, 5, 6, 7, 8])).tsmReady 0 511
        (r (.write [1, 2, 3, 4, 5, 6, 7, 8])) = true ∧ (s (.atom .cas .i64 1 2)).tsmReady 0 511 (r (.atom .cas .i64 1 2)) = true ∧
      0x3FFFFF8 + (r (.read 8)).op.size ≤ 0x4000000 ∧ s0.bad = [] ∧ ((s (.read 8)).tile 0).bankUsed.contains 511 = false ∧
      ((tileWith fun x => { x with bankUsed := [511] }).tile 0).bankUsed.contains 511 = true) ∧
    (0x803E % 64 + w.op.size ≤ 64 ∧ w.from = paTile 0x803E ∧ w.due ≤ s0.quantum ∧ w.comb = false ∧
      0x8038 % 64 + at'.op.size ≤ 64 ∧ rd.alloc = false ∧ at'.cell = none ∧
      (s0.tile 0).wq = [] ∧ (s0.tile 0).calNext = none ∧ (s0.tile 0).msc = []) ∧
    PlainLine { s0 with reqs := [w] } (0x803E / 64 * 64) ∧ PlainLine { s0 with reqs := [at'] } (0x8038 / 64 * 64) ∧
    PlainLine { s0 with reqs := [rd] } (0x8038 / 64 * 64) ∧
    ((c.tile (paTile q.addr)).wq = [q] ∧ q.due ≤ c.quantum ∧ c.reqs = [] ∧ (c.tile (paTile q.addr)).calNext = none) ∧
    s0.tick % 6400 = 0 := by
  refine ⟨by decide, by decide, ⟨by decide, by decide, by decide, by decide, by decide⟩,
    ⟨by decide, by decide, by decide, by decide, by decide⟩, ⟨by decide, by decide, by decide, by decide, by decide⟩,
    by decide, by decide⟩

/-- Combining: a request that an open entry takes and one that finds none; an entry of one slip and of two; one sent, one tick
before its timeout and at it, with a requester that times out; one whose reply has come. -/
theorem wit_Combining :
    let r := { reqAt 5 (.stream (onCl s0.cur 0)) (.atom .add .i64 1 0) (.hbm 0x8000) (.atom 1) (.router 0) with comb := true, input := 6 }
    let e : CEnt := ⟨false, false, .i64, .core, .plain, 0, 0x8000, 1, 0, [⟨4, 0, 0⟩], 0, 0⟩
    let m := reqAt 6 (.router 0) (.atom .add .i64 2 0) (.hbm 0x8000) (.comb 0 1023) (.reply [1, 2, 3, 4, 5, 6, 7, 8] false false)
    let two := { e with sent := true, merged := 6, slips := [⟨4, 0, 0⟩, ⟨5, 0, 1⟩] }
    let s := fun (e : CEnt) (t : Nat) (rs : List Req) => { tileWith (fun x => { x with comb := [(1023, e)] }) with tick := t, reqs := rs }
    ((s e 0 [r]).findReq r.id = some r ∧ r.due ≤ (s e 0 [r]).quantum ∧
      (((s e 0 [r]).tile 0).comb.find? fun z => z.2.takes r ((s e 0 [r]).fabric r.loc)) = some (1023, e) ∧
      (({ s0 with reqs := [r] } : State).tile 0).comb = [] ∧ r.stage = .router 0 ∧ (s e 0 [r]).bad = []) ∧
    ((((s e 0 []).tile 0).comb.find? fun z => z.1 == 1023) = some (1023, e) ∧ e.slips = [⟨4, 0, 0⟩] ∧ e.sent = false ∧
      (s e 0 [{ r with id := 4 }]).findReq 4 = some { r with id := 4 } ∧
      (s e 0 [{ r with id := 4 }]).canLeave { r with id := 4 } 0 = true ∧
      (let far := { r with id := 4, loc := .hbm 0x1000008000 }
       { s e 0 [far] with lasers := { s0.lasers with failed := [0] } }.canLeave far 0 = false)) ∧
    (two.sent = true ∧ (s two 131071 []).tick < two.sentTick + 2 ^ 17 ∧ two.sentTick + 2 ^ 17 ≤ (s two 131072 []).tick ∧
      (s two 131072 []).mergedReply 0 1023 = none) ∧
    (let q := { r with id := 5 }
     (s two 131072 [q]).mergedReply 0 1023 = none ∧ (s two 131072 [q]).findReq 5 = some q ∧ q.dst = .atom 1 ∧ q.comb = true ∧
      q.drop = false ∧ q.tick + 2 ^ 17 ≤ (s two 131072 [q]).tick) ∧
    ((s two 0 [m]).mergedReply 0 1023 = some (m, 0x0807060504030201, false, false) ∧ two.merged = m.id ∧ two.nextSlip = 0 ∧
      (s two 0 [m]).bad = [] ∧ (s two 0 [m]).findReq 4 = none ∧ 4 ≠ m.id) := by
  decide

/-- FrameTable: an idle and a busy entry; counts at 0 and 65,535 and just outside; a free, a used and a busy frame; an empty, a
full and another list; a host step before release, one that names no frame, one that can be made and one on a busy frame, and
an access that a shootdown waits for. -/
theorem wit_FrameTable :
    let r := reqAt 0 (.stream (onCl s0.cur 0)) (.frame 1 0xFFFFFF 1) (.hbm 0xF00000000000) (.frame 1) .home
    let ent := fun (v : Nat) => { s0 with hbm := mputs s0.hbm (frameEntAddr 16) (leBytes 8 v) }
    let v := fun (v : Nat) => leNat (bytesAt (ent v).hbm (frameEntAddr 16) 8)
    (r.due ≤ s0.quantum ∧ 0xFFFFFF < 2 ^ 24) ∧
    (v 0x1FFFF / 2 ^ 17 % 2 = 0 ∧ v 0x1FFFF / 2 ^ 18 % 4 = 0 ∧ v 0x20000 / 2 ^ 17 % 2 = 1 ∧ v 0xC0000 / 2 ^ 18 % 4 = 3 ∧
      v 0xFFFE % 65536 + 1 = 65535 ∧ v 0xFFFF % 65536 + 1 = 65536 ∧
      ((v 0 % 65536 : Nat) : Int) + ((-1 : BitVec 16)).toInt < 0) ∧
    (v 0 % 65536 = 0 ∧ v 0 / 2 ^ 20 % 2 = 0 ∧ v 0 / 2 ^ 17 % 2 = 0 ∧ v 1 % 65536 ≠ 0 ∧ v 0x100000 / 2 ^ 20 % 2 = 1 ∧
      (s0.tile 15).freeCount = 0 ∧ ((tileWith fun x => { x with freeCount := 2 ^ 20 }).tile 0).freeCount = 2 ^ 20) ∧
    (let q := reqAt 0 (.stream (onCl s0.cur 0)) (.read 8) (.hbm 0x100000) .fill .home
     q.id < 1 ∧ q.inFrame 16 = true ∧ q.inFrame 17 = false ∧ s0.frameArg 5 0x100000 = some 16) ∧
    (State.reset.cw.stage ≠ 8 ∧ s0.cw.stage = 8 ∧ (1 : Word).toNat % 65536 ≠ 0 ∧ s0.frameArg 1 0x100000 = some 16 ∧
      ((ent 0).frameStep 1 16 1).isSome = true ∧ (ent 0x20000).frameStep 1 16 1 = none ∧ s0.frameArg 4 16 = none) := by
  refine ⟨by decide, by decide, by decide, by decide, by decide, by decide, by decide, by decide, ?_, ?_, by decide⟩
  · rfl
  · rfl

/-- RepliesAndResults: the reply of a load, of a speculative load that was lost, of an atomic; an atomic one tick before its
timeout and at it; a result whose cycles are over, of each kind. -/
theorem wit_RepliesAndResults :
    let i := onCl s0.cur 3
    let l : LoadRec := ⟨3, 31, .i64, .virt, 0x8000, .plain, .core, true⟩
    let rep := fun (d : RDst) (bad : Bool) => reqAt 0 (.stream i) (.read 8) (.hbm 0x8000) d (.reply [1, 2, 3, 4, 5, 6, 7, 8] true bad)
    let s := fun (r : Req) (t : Nat) => { s0 with reqs := [r], tick := t }
    let a := { reqAt 0 (.stream i) (.atom .add .i64 1 0) (.hbm 0x8000) (.atom 31) .home with comb := true }
    let f := fun (d : FDst) => clsWith fun c => { c with flights := [⟨0, d, 1, 2⟩, ⟨1, .none, 0, 0⟩] }
    ((s (rep (.load l) false) 0).findReq 0 = some (rep (.load l) false) ∧ (rep (.load l) false).due ≤ s0.quantum ∧
      (rep (.spec l) true).drop = false ∧ (rep (.atom 31) false).stage = .reply [1, 2, 3, 4, 5, 6, 7, 8] true false) ∧
    ((s a 131071).tick < a.tick + 2 ^ 17 ∧ a.tick + 2 ^ 17 ≤ (s a 131072).tick ∧ a.comb = true) ∧
    (((f (.reg 31 1 true)).cl i).flights = [⟨0, .reg 31 1 true, 1, 2⟩, ⟨1, .none, 0, 0⟩] ∧
      ((f (.row 31 63 508 [1, 2, 3, 4])).cl i).flights = [⟨0, .row 31 63 508 [1, 2, 3, 4], 1, 2⟩, ⟨1, .none, 0, 0⟩] ∧
      (f .none).bad = []) := by
  decide


/-! ### Witnesses: scheduling -/

/-- A placed and started bank whose four streams have this state. -/
def bankAt (f : Cluster → Cluster) : Bank :=
  { Bank.reset with occ := true, started := true, cl := Bank.reset.cl.map fun c => f { c with st := .running } }

/-- A cluster that is parked, its record answered. -/
def answered (c : Cluster) : Cluster := { c with st := .parked, answered := true }

def parkedCl (c : Cluster) : Cluster := { c with st := .parked }

/-- BubblesAndExchanges: a foreground bank that stands beside one that can run, and beside one that cannot; an exchange in its last
cycle. -/
theorem wit_BubblesAndExchanges :
    let x := fun (f g : Cluster → Cluster) => { Core.reset with b0 := bankAt f, b1 := bankAt g }
    ((15 : BitVec 4) ≠ 0 ∧ (x parkedCl id).exch = 0 ∧ GivesWay ((x parkedCl id).bank 0) ∧ Able ((x parkedCl id).bank 1) ∧
      Able ((x parkedCl answered).bank 1)) ∧
    (¬Able ((x parkedCl parkedCl).bank 1) ∧ ¬GivesWay ((x id id).bank 0)) ∧
    stands { only 0 (fun c => { c with st := .joinWait }) (bankAt parkedCl) with joined := false, joins := [(7, ⟨true, 3, 1, 0⟩)] } 0 ∧
    ({ x parkedCl id with exch := 1 } : Core).exch = 1 := by
  have run : ∀ k, (bankAt id).cl.get k = { Cluster.reset with st := .running } := by decide
  have parked : ∀ k, (bankAt parkedCl).cl.get k = { Cluster.reset with st := .parked } := by decide
  have here : ∀ f, hasStream (bankAt f) 0 := fun f => by
    unfold hasStream
    exact if_pos rfl ▸ rfl
  refine ⟨⟨by decide, by decide, .inr fun k _ => ?_, ⟨rfl, 0, here _, .inl ⟨rfl, rfl⟩⟩, ⟨rfl, 0, here _, .inr ⟨rfl, rfl⟩⟩⟩, ⟨?_, ?_⟩,
    .inr ⟨by decide, (7, ⟨true, 3, 1, 0⟩), List.mem_singleton.mpr rfl, rfl, by decide, by unfold faulted; decide⟩, rfl⟩
  · show stands (bankAt parkedCl) k ∧ ¬mayRun ((bankAt parkedCl).cl.get k)
    exact ⟨.inl (.inl (by rw [parked])), by rw [parked]; unfold mayRun; decide⟩
  · rintro ⟨-, k, -, h⟩
    have h : mayRun ((bankAt parkedCl).cl.get k) := h
    rw [parked] at h
    revert h; unfold mayRun; decide
  · rintro (h | h)
    · exact absurd h (by decide)
    · exact (h 0 (here _)).2 (.inl ⟨rfl, rfl⟩)

/-- A ready entry of priority `p` and order `n`, and one that registers a continuation's task. -/
def ent (p n kind : Nat) : TaskEnt := ⟨1, 0, 0, kind, p, 0, n, 7, false, 0xFFFF, 0xFFF, 5⟩

/-- TaskScheduling: two entries of one core, one of higher priority and one of equal priority and lower order; a bank whose state is
loaded and one whose is not; an entry that ages; a registration and a post under a key with and without the other, at the limit. -/
theorem wit_TaskScheduling :
    let x : Core := { Core.reset with b0 := { bankAt id with started := false } }
    let s := { tileWith (fun y => { y with ready := [ent 1 0 0, ent 2 1 0, ent 2 2 0], cores := [(0, x)] }) with
                 launches := [⟨5, List.replicate 64 0, [], false, false⟩] }
    let k : KeyEnt := ⟨9, 0, [3]⟩
    let c : Cont := { tget Cont.reset [] 0 with key := some 9 }
    let reg := fun (n : Nat) => { s0 with regsPending := [⟨0, 0, 0, 4, []⟩], conts := [(4, c)], keys := [⟨9, n, []⟩] }
    let post := fun (k : KeyEnt) => { s0 with posts := [⟨0, 0, 0, 0, 9, []⟩], keys := [k] }
    (ent 2 1 0 ∈ (s.tile 0).ready ∧ (∀ f ∈ (s.tile 0).ready, f.core = 0 → f ≠ ent 2 1 0 → placedBefore (ent 2 1 0) f) ∧
      TakesTask (s.core 0 0) 1 ∧ (∀ f ∈ (s0.tile 0).ready, f.core ≠ 0)) ∧
    ((s.core 0 0).b0.occ = true ∧ (s.core 0 0).b0.started = false ∧ (s.core 0 0).b0.cl.c0.resumeAt ≤ s.quantum) ∧
    ((ent 1 0 0).tick < 65536 ∧ (65536 - (ent 1 0 0).tick) % 2 ^ 16 = 0) ∧
    ((tget Cont.reset (reg 0).conts 4).key = some 9 ∧ ((reg 0).keyEnt 9).pending = 0 ∧ ((reg 1).keyEnt 9).pending ≠ 0) ∧
    (((post k).keyEnt 9).waiters = [3] ∧ ((post ⟨9, 65534, []⟩).keyEnt 9).waiters = [] ∧
      ((post ⟨9, 65534, []⟩).keyEnt 9).pending < 65535 ∧ ((post ⟨9, 65535, []⟩).keyEnt 9).pending = 65535) := by
  refine ⟨⟨by decide, by unfold placedBefore; decide, .inr (by decide), by decide⟩, by decide, by decide, by decide, by decide⟩

/-- StreamsResume: the lower of two streams answered in the tick before resumes, with a TSM load of its own to be made again; a
stream that runs, and one answered in the present tick, do not. -/
theorem wit_StreamsResume :
    let l : LoadRec := ⟨1, 31, .i64, .tsm, 0x3FFFFF8, .plain, .core, false⟩
    let b := { only 3 answered (only 1 answered (bankAt id)) with joined := false, replay := [l] }
    let s := { coreWith (fun x => { x with b0 := b }) with tick := 1 }
    let i : StreamId := ⟨0, 0, 0, 1⟩
    Resumes s i ∧ (∀ k ∈ s.clsOf i, (s.cl (onCl i k)).hold.isPiece = false) ∧ (s.bank i).replay = [l] ∧ l.cl = i.cl ∧ l.d ≠ 0 ∧
      s.reqs = [] ∧ ¬Ready s (onCl i 2) ∧ ¬Ready { s with tick := 0 } i := by
  refine ⟨⟨by decide, by decide, ⟨by decide, by decide, by decide, by decide⟩, by decide, ?_⟩, by decide, by decide, by decide,
    by decide, by decide, ?_⟩
  · unfold Ready
    decide
  · unfold Ready
    decide

/-- The bytes of a launch record of this mask, flags and kind. -/
def rec64 (entry mask flags : Nat) : List Byte :=
  leBytes 8 entry ++ List.replicate 16 0 ++ leBytes 2 mask ++ leBytes 1 flags ++ List.replicate 37 0

/-- LaunchDistribution: heads that are refused, accepted with room and without, and of another kind; records with code 8, 3, 4 and 0. -/
theorem wit_LaunchDistribution :
    let r := rec64 0x40000 0x8001 0x10
    let h := fun (r : List Byte) (code : Nat) => (⟨r, [], code⟩ : HeadRec)
    let s := fun (h : HeadRec) => { s0 with lq := [(15, { LQ.reset with size := 12, head := 2 ^ 28 - 1, tail := 0, judged := some h, cbase := 0x8000 })] }
    let x := tget LQ.reset (s (h r 3)).lq 15
    let table := fun (n : Nat) => { (s (h r 0)) with
      hbm := mputs s0.hbm 0 (leBytes 8 1 ++ List.replicate 24 0 ++ leBytes 8 (n * 2 ^ 32 + 1) ++ List.replicate 24 0) }
    let read := fun (n : Nat) =>
      ((table n).modLq 15 fun z => { z with judged := some (h (r.set 8 0) 0) }).readTable r
    (x.size ≠ 0 ∧ x.head < 2 ^ 28 ∧ x.head ≠ x.tail ∧ x.judged = some (h r 3) ∧ x.cbase % 16 = 0) ∧
    PlainLine (s (h r 3)) ((0x8000 + 16 * ((2 ^ 28 - 1) % 2 ^ 12)) / 64 * 64) ∧
    (recEarly r = true ∧ recKind r = 0 ∧ (s (h r 0)).roomFor r [] = true ∧ recKind (rec64 0 1 0x38) = 1 ∧
      recEarly (rec64 0 1 0x38) = true) ∧
    (s (h r 0)).roomFor r [(1, 4097, 0, 0)] = false ∧
    ((read 256).2.1 = 0 ∧ taskCount (read 256).1 = 256 ∧ (read 256).2.2.roomFor r (read 256).1 = true ∧ (read 257).2.1 = 2) ∧
    (recKind (rec64 0 1 0x60) = 3 ∧ recSup (rec64 0 1 0x20) = false ∧ recKind (rec64 0 1 0x20) ≠ 0 ∧
      badRecord (rec64 0 0 0) = false ∧ recMask (rec64 0 0 0) = 0 ∧ badRecord (rec64 63 1 0) = false ∧
      recField (rec64 63 1 0) 0 8 % 64 ≠ 0) := by
  refine ⟨by decide, ⟨by decide, by decide, by decide, by decide, by decide⟩, by decide, by decide, by decide, by decide⟩

/-- PreemptionActs: a request for a launch with and without a company; a drain before and past its deadline; a save whose bank has
stopped; a restore whose header names the launch and one whose does not. -/
theorem wit_PreemptionActs :
    let p := fun (kind : Nat) => (⟨9, kind, rec64 0x8000 1 0x38, 0, []⟩ : PreRec)
    let c : Company := ⟨0, 0, 0, 0, [], [⟨0, false, false⟩], false, 0⟩
    let s := fun (p : PreRec) (cs : List Company) => { s0 with preRecs := [p], companies := cs }
    let q := fun (a : Nat) => (⟨9, 0, 0, a, 100, 0, false⟩ : Preempt)
    let d := fun (a t : Nat) => { s (p 1) [c] with preempts := [q a], tick := t }
    let stopped := (d 2 0).modBank StreamId.zero fun b => { b with cl := b.cl.map fun c => { c with st := .parked } }
    let area := fun (n : Nat) => { s (p 2) [{ c with saved := true }] with
      hbm := mputs (s0.hbm) 0x8000 (leBytes 4 n ++ leBytes 1 0x20),
      saved := [⟨0, 0, 3, 1, 0, { bankAt id with task := some Task.reset }⟩] }
    ((s (p 1) []).preRecs = [p 1] ∧ recTiles (p 1).recd = [0] ∧ recDep (p 1).recd 0 = 0 ∧ (s (p 1) []).companyOf 0 0 = none ∧
      (s (p 1) [c]).companyOf 0 0 = some c ∧ c.over = false) ∧
    ((d 0 100).contsOf 0 0 = [] ∧ (d 0 100).tick ≤ (q 0).deadline ∧ (q 0).deadline < (d 0 101).tick ∧
      (s (p 1) [{ c with lineages := [⟨0, true, false⟩] }]).companyOf 0 0 = some { c with lineages := [⟨0, true, false⟩] } ∧
      ({ c with lineages := [⟨0, true, false⟩] } : Company).over = true) ∧
    ((stopped.tile 0).cores.Pairwise (fun a b => a.1 < b.1) ∧ stopped.coBanks 0 0 = [StreamId.zero] ∧
      (stopped.bank StreamId.zero).moving = [] ∧ stopped.lostLoads StreamId.zero = [] ∧ stopped.coStopped 0 0 = true ∧ (stopped.core 0 0).b0.holds 0 = true) ∧
    (recField ((area 1).homeRead 0x8000 64) 0 4 ≠ 0 ∧ recField ((area 0).homeRead 0x8000 64) 0 4 = 0 ∧
      recField ((area 0).homeRead 0x8000 64) 4 1 / 16 % 4 = 2 ∧ (area 0).coSaved 0 0 = true ∧
      recField (p 2).recd 0 8 = 0x8000 ∧ (area 0).badHome 0x8000 64 = []) := by
  decide

/-! ### Witnesses: circuits, power, host and bring-up -/

/-- A sheet of one scene of 40 ticks, blackout 20, that joins port 5 of tile 15, its handle 63, to the last edge endpoint. -/
def sheet1 : List (Word × Word) := [(0x000000040000000F, 40), (0x0000000014000000, 40), (0x0014805700F53F01, 0), (8, 0)]

/-- Bytes of a sheet's image. -/
def image (es : List (Word × Word)) : List Byte := es.flatMap fun e => leBytes 8 e.1.toNat ++ leBytes 8 e.2.toNat

set_option maxRecDepth 8000 in
/-- CueSheets: an image that passes and one that does not, its id in use, the store with seven other sheets and with eight; starts
100 and 99 ticks ahead, changes and stops with and without a sheet in play; the sheet's scene at its start, its live tick, its
dark point, and the end of the rotation. -/
theorem wit_CueSheets :
    let v : Word := 0x0000010000008000
    let s := fun (n : Nat) => { s0 with hbm := mputs s0.hbm 0x8000 (image sheet1), cw := { s0.cw with cueLen := n } }
    let es := fun (n : Nat) => (List.range n).map fun i =>
      let word := fun (j : Nat) => BitVec.ofNat 64 (leNat (((s n).homeRead 0x8000 (16 * n)).drop (8 * j) |>.take 8))
      (word (2 * i), word (2 * i + 1))
    let sheets := fun (n : Nat) => (List.range n).map fun i => (⟨i + 2, sheet1⟩ : Sheet)
    let y : Scene := ⟨0, 20, 0, 40, false, [(0x0014805700F53F01, 0)]⟩
    let c : Circuit := ⟨63, 0x00F5, 0x8057, true, true, false, 20⟩
    let play := fun (t : Nat) => { s0 with sheets := [⟨1, sheet1⟩], tick := t, sm := { StageMgr.reset with playing := some 1 } }
    let lit := fun (t st : Nat) => { (play t).modTile 15 fun x => { x with handles := [(63, ⟨st, 5, true, 0x8057, 20, 0⟩)] } with
      circuits := [c], sm := { (play t).sm with scene := 0, sceneIdx := some 0, sceneLen := 40, blackout := 20 } }
    (v.toNat / 2 ^ 40 % 2 ^ 16 = 1 ∧ (s 4).cw.stage = 8 ∧ (s 4).badHome (v.toNat % 2 ^ 40) 64 = [] ∧ es 4 = sheet1 ∧ sheetCheck (es 4) 4 4096 = 0 ∧
      sheetCheck (es 3) 3 4096 = 1 ∧ sheetCheck (es 4) 4 3 = 1 ∧ (sheets 7).length < 8 ∧ 8 ≤ (sheets 8).length ∧
      (sheets 8).filter (fun x => x.id != 1) = sheets 8) ∧
    ((100 * 2 ^ 18 + 5 : Word).toNat / 2 ^ 18 = 100 ∧ (5 : Word).toNat / 4 % 2 ^ 16 = 1 ∧ s0.tick + 100 ≤ 100 ∧
      ¬s0.tick + 100 ≤ 99 ∧ s0.sm.playing = none ∧ s0.sm.pend = none ∧ (play 0).sm.playing ≠ none) ∧
    ((play 0).inPlay = some ⟨1, sheet1⟩ ∧ scenesOf sheet1 = [y] ∧ y.variant = false ∧ wf (0x0014805700F53F01 : Word) 0 4 = 1 ∧
      makeOf (0x0014805700F53F01, 0) = (63, 0x00F5, 0x8057, 20) ∧ endTile 0x00F5 = some (15, 5) ∧ endTile 0x8057 = none ∧
      (play 0).portMode 15 5 ≠ 3 ∧ (play 0).since (play 0).sm.rotStart = y.start ∧ (play 0).sm.sceneIdx = none ∧ (play 0).sm.forced = []) ∧
    ((lit 20 1).playedScene = some y ∧ (lit 20 1).since (lit 20 1).sm.sceneAt = 20 ∧ (lit 20 1).noLocks = [] ∧ ((lit 20 1).handle 15 63).st = 1 ∧ (lit 20 1).lasers = ⟨[], none, none, none⟩ ∧
      (lit 40 2).playedScene = some y ∧ ((lit 40 2).handle 15 63).st = 2 ∧ y.acts 6 = [] ∧
      Scene.acts { y with ents := [(0x0000000000000106, 0)] } 6 ≠ [] ∧
      ∀ z ∈ y.ents, wf z.1 0 4 ≠ 4 ∧ wf z.1 0 4 ≠ 5) ∧
    ((play 40).since (play 40).sm.rotStart = rotLen sheet1 ∧ (play 0).sm.stopping = false) := by
  refine ⟨by decide, by decide, by decide,
    ⟨by decide, by decide, by decide, by decide, by decide, by decide, by decide, by decide, by decide, fun z hz => ?_⟩, by decide⟩
  cases List.mem_singleton.mp hz
  decide

/-- PortsAndLasers: the eighth and the ninth lane of a port; a port that has failed; the four chiplets with the spare free, in use and
failed; a switch-over and a loss before and at their ticks. -/
theorem wit_PortsAndLasers :
    let x := fun (n m : Nat) => tileWith fun y => { y with ports := [(5, { Port.reset with mode := m, lanes := List.range n })] }
    let port := fun (n m : Nat) => tget Port.reset ((x n m).tile 0).ports 5
    let c : Circuit := ⟨63, 0x0005, 0x8057, true, true, false, 20⟩
    let l := fun (x : Lasers) (t : Nat) => { s0 with lasers := x, tick := t, losses := [(1000, some 95, 7)] }
    ((port 7 2).lanes.length + 1 ≤ 8 ∧ 8 < (port 8 2).lanes.length + 1 ∧ 17 ∉ (port 8 2).lanes ∧ (port 0 3).mode = 3 ∧
      endTile c.a = some (0, 5) ∧ endTile c.b = none ∧ (x 8 2).circuits = [] ∧ s0.route 0 cLANEERASE 3 false ≠ .drop ∧
      s0.route 12 cLASER 2 false ≠ .drop) ∧
    (3 ∉ s0.lasers.failed ∧ s0.lasers.spareFor = none ∧ 4 ∉ s0.lasers.failed ∧
      (l ⟨[0], some 0, some (0, 1000), none⟩ 0).lasers.spareFor ≠ none ∧ 4 ∈ (l ⟨[4], none, none, none⟩ 0).lasers.failed) ∧
    ((l ⟨[0], some 0, some (0, 1000), none⟩ 0).lasers.switching = some (0, 1000) ∧ 1000 ≤ (l ⟨[], none, none, none⟩ 1000).tick ∧
      (l ⟨[], none, none, none⟩ 999).tick < 1000 ∧ ∀ z ∈ s0.sm.lost, z.1 ≠ 95) := by
  decide

/-- Power: a regrant tick, no tile hot and one hot; floors within the budget; limits at and past their range. -/
theorem wit_Power :
    (s0.tick % 1000 = 0 ∧ ({ s0 with tick := 999 } : State).tick % 1000 ≠ 0 ∧ ∀ n < 16, (s0.tile n).hot = false) ∧
    ((tileWith fun x => { x with hot := true }).tile 0).hot = true ∧
    ((List.range 16).map fun n => pointWatt (s0.tile n).floor).sum ≤ s0.budget ∧ s0.cw.stage = 8 ∧
    ((s0.tile 15).floor ≤ 5 ∧ 5 ≤ (s0.tile 15).ceiling ∧ ¬6 ≤ 5) := by
  decide

/-- HostWindows: before release and after it; tails at the end of the queue's slots, past it and behind the last one; a line of
ordinary memory, and the first byte of the reserved region. -/
theorem wit_HostWindows :
    let x : LQ := { LQ.reset with size := 12, head := 2 ^ 28 - 1, tail := 5 }
    let ahead := fun (k : Nat) => (k + 2 ^ 28 - x.head) % 2 ^ 28
    (s0.cw.stage = 8 ∧ State.reset.cw.stage ≠ 8 ∧ (tget LQ.reset s0.lq 15).size = 0) ∧
    (x.size ≠ 0 ∧ x.fed = false ∧ ahead x.tail ≤ ahead 4095 ∧ ahead 4095 ≤ 2 ^ x.size ∧ ¬ahead 4096 ≤ 2 ^ x.size ∧
      ¬ahead x.tail ≤ ahead 4) ∧
    ((s0.tile 15).calNext.getD (s0.tile 15).cal).length = 32 ∧
    PlainLine s0 (0xFFEFFFFC0 / 64 * 64) ∧ 0xFFEFFFFC0 % 64 + ([1, 2] : List Byte).length ≤ 64 ∧
    (let rd := reqAt 7 .host (.read 2) (.hbm 0x8000) .host (.reply [1, 2] false false)
     let s := { s0 with cw := { s0.cw with reading := some (0x8000, 2) }, reqs := [rd] }
     s0.cw.reading = none ∧ s.cw.reading = some (0x8000, 2) ∧ rd.who = .host ∧ rd.cell = none ∧ rd.due ≤ s.quantum) ∧
    0xFFEFFFFC0 % 2 ^ 36 < 0xFFF000000 ∧ 0xFFF000000 ≤ 0xFFF000000 % 2 ^ 36 ∧ 0xFFF000000 + 64 ≤ 2 ^ 40 ∧
    2 ^ 40 < 2 ^ 40 - 1 + ([1, 2] : List Byte).length := by
  refine ⟨by decide, by decide, by decide, ⟨by decide, by decide, by decide, by decide, by decide⟩, by decide, by decide⟩

/-- FaultRecords: a record for the host with one slot free, none free and no ring; for the stage manager; for a queue with a free
slot and a full one; answers to the first record, to a later one, to one not there. -/
theorem wit_FaultRecords :
    let r := fun (d : Dest) => (⟨9, 15, 15, 3, 1, 3, 7, 5, 0x40000, 0x8000, 0, d, .none, false⟩ : FRec)
    let s := fun (d : Dest) (tail : Nat) => { s0 with records := [r d], tick := 1, cw := { s0.cw with fring := 0x1001, ftail := tail } }
    let q := fun (tail : Nat) => { (s (.queue 0 3) 0).modTile 0 fun x => { x with fqbase := { x.fqbase with c3 := ⟨0x8000, 1⟩ } } with
      hbm := mputs s0.hbm 0x8000 (leBytes 4 tail) }
    let g := (q 1).fqReg 0 3
    let hdr := fun (s : State) (o : Nat) => leNat (s.homeRead (0x8000 + o) 4)
    let held := fun (s : State) => (s.cw.ftail + 2 ^ 32 - s.cw.fhead) % 2 ^ 32
    let w := { clsWith answered with posted := [⟨.host 0, 0, 9, .stream StreamId.zero⟩], cw := { s0.cw with ftail := 2 } }
    ((s (.host 5) 1).records = [r (.host 5)] ∧ (s (.host 5) 1).cw.fring.toNat % 16 = 1 ∧ held (s (.host 5) 1) < 2 ^ 1 ∧ (r (.host 5)).tick ≠ (s (.host 5) 1).tick ∧
      2 ^ 1 ≤ held (s (.host 5) 2) ∧ s0.cw.fring.toNat % 16 = 0) ∧
    (g = ⟨0x8000, 1⟩ ∧ (q 1).homeRead (0x8000 + 16) 1 = [0] ∧ (hdr (q 1) 0 + 2 ^ 32 - hdr (q 1) 4) % 2 ^ 32 < 2 ^ 1 ∧
      2 ^ 1 ≤ (hdr (q 2) 0 + 2 ^ 32 - hdr (q 2) 4) % 2 ^ 32 ∧ (q 1).bad = []) ∧
    PlainLine (q 1) 0x8000 ∧ PlainLine (q 1) ((0x8000 + 64 + 32 * 1) / 64 * 64) ∧
    (w.cw.answered = [] ∧ (w.cl StreamId.zero).st = .parked ∧ w.cw.fhead = 0 ∧
      (1 + 2 ^ 32 - w.cw.fhead) % 2 ^ 32 < held w ∧ held w ≤ (2 + 2 ^ 32 - w.cw.fhead) % 2 ^ 32) := by
  refine ⟨by decide, by decide, ⟨by decide, by decide, by decide, by decide, by decide⟩,
    ⟨by decide, by decide, by decide, by decide, by decide⟩, by decide⟩

/-- BringUp: the first stage, the seventh with and without its Identity, the last; a failed stage; signatures left and none. -/
theorem wit_BringUp :
    let s := fun (n : Nat) (b : Bool) (f : Nat) => { State.reset with cw := { CtlWin.reset with stage := n, named := b, failCode := f } }
    ((s 0 false 0).cw.stage < 8 ∧ (s 6 true 0).cw.named = true ∧ (s 6 false 0).cw.named = false ∧ (s 3 false 3).cw.failCode ≠ 0 ∧
      8 ≤ s0.cw.stage) ∧
    (s0.cw.stage = 8 ∧ s0.rot.sigsLeft ≠ 0 ∧ ({ s0 with rot := { Rot.reset with sigsLeft := 0 } } : State).rot.sigsLeft = 0) := by
  decide

set_option maxRecDepth 8000 in
/-- Translation: the last address in range, and the first outside; roots, and entries of each level, of every kind that the clauses
name; a frame that is shared and one that is not. -/
theorem wit_Translation :
    let s := fun (e0 e1 e2 : Nat) =>
      { tileWith (fun x => { x with ptroot := 0x20000 }) with
        hbm := mputs (mputs (mputs [] 0x20000 (leBytes 8 e0)) 0x30000 (leBytes 8 e1)) 0x50008 (leBytes 8 e2) }
    let t := s 0x30001 0x50001 0x1000001F
    let x : XReq := ⟨0, 0x1FFFF, true, true, true, 0, 0, 0⟩
    let e2 := fun (s : State) => s.homeWord 0x50008
    (x.va < 2 ^ 55 ∧ (∀ e ∈ (t.tile 0).tlb ++ (t.core 0 0).tlb, e.kind ≠ 0) ∧ (t.tile 0).ptroot % 65536 = 0 ∧
      ((tileWith fun x => { x with ptroot := 8 }).tile 0).ptroot % 65536 ≠ 0) ∧
    (t.homeWord (0x20000 + 8 * (x.va / 2 ^ 42 % 8192)) = 0x30001 ∧ t.homeWord (0x30000 + 8 * (x.va / 2 ^ 29 % 8192)) = 0x50001 ∧
      t.homeWord (0x50000 + 8 * (x.va / 2 ^ 16 % 8192)) = 0x1000001F ∧ 0x1000001F / 2 ^ 16 % 2 ^ 36 * 65536 + x.va % 65536 = 0x1000FFFF ∧
      0x1000FFFF % 2 ^ 36 < 0xFFF000000 ∧ 0x1000FFFF / 2 ^ 40 = t.moduleId ∧ t.moduleExists t.moduleId = true) ∧
    (0x30001 % 4 = 1 ∧ 0x30001 / 4 % 2 ^ 14 = 0 ∧ 0x1000001F % 4 = 3 ∧ 0x1000001F / 256 % 256 = 0 ∧ 0x1000001F / 64 % 4 = 0 ∧
      0x1000001F / 8 % 2 = 1 ∧ 0x1000001F / 4 % 2 = 1 ∧ 0x1000001F / 16 % 2 = 1 ∧ 0x10000003 / 8 % 2 = 0 ∧ 0x1000000B / 4 % 2 = 0 ∧
      0x10000043 / 64 % 4 = 1) ∧
    (feShared (t.frameEnt 0x1000) = false ∧
      feShared (({ t with hbm := mputs t.hbm (frameEntAddr 0x1000) (leBytes 8 0x10002) } : State).frameEnt 0x1000) = true) ∧
    (t.xl x).isOk = true ∧ ((s 0 0 0).xl x).isOk = false ∧ e2 (s 0x30001 0x50001 2) % 2 = 0 ∧ t.bad = [] ∧
    ({ t with bad := [.hbm 0x20007] } : State).badHome (0x20000 + 8 * (x.va / 2 ^ 42 % 8192)) 8 = [.hbm 0x20007] := by
  refine ⟨by decide, by decide, by decide, by decide, by decide⟩

/-- MemoryLaws: a line of ordinary memory; at reset every memory is in canonical form. -/
theorem wit_MemoryLaws :
    PlainLine s0 (0x803E / 64 * 64) ∧ 0x803E % 64 + ([1, 2] : List Byte).length ≤ 64 ∧
      (s0.tile (paTile 0x803E)).msc.Pairwise (fun x y => x.1 < y.1) ∧ Memory.wf State.reset.hbm ∧
      s0.badHome 0x803E 2 = [] ∧ ({ s0 with bad := [.hbm 0x803E] } : State).badHome 0x803E 2 = [.hbm 0x803E] := by
  refine ⟨⟨by decide, by decide, by decide, by decide, by decide⟩, by decide⟩

/-- DecodeEncode and EncodeDecode: well-formed operations, their words, and what these decode to. -/
theorem wit_encoding :
    (Instr.add g0 3 1 2).wf = true ∧ encode (.add g0 3 1 2) = some 0x8000184400000000 ∧
      decodeWord 0x8000184400000000 = .ok (.add g0 3 1 2) ∧ encode (.br g0 .uni 0xFFFFFFFF) = some 0x9000FFFFFFFF0000 := by
  refine ⟨by decide, by decide, by rfl, by decide⟩

set_option maxRecDepth 8000 in
/-- StepRunsDecoded: the placed stream of log entry 5, whose word is `add s3, s1, s2`. -/
theorem wit_StepRunsDecoded :
    let s := State.reset.withFetchWord 64 0x8000184400000000
    let i := StreamId.zero
    let s1 : State := { s with turn := [], cur := i, iss := Issue.reset }
    let pc := (s.cl i).pc &&& ~~~(7 : Word)
    s.agenda = [] ∧ s.turn = [i] ∧ s1.mayIssue i = true ∧
      (∀ k ∈ s.clsOf i, (s.cl (onCl i k)).bubbles = 0 ∧ (s.cl (onCl i k)).hold = .none) ∧ (s.cl i).hold = .none ∧ pc = 0x40000 ∧
      (s1.xl ⟨0, 0x40000, false, true, s1.userLevel i, 0, 0, 0⟩).isOk = true ∧
      (∃ e ∈ (s.core 0 0).icache, e.1 = s.fabric (.hbm 0x40000) / 64 ∧ e.2.length = 64 ∧
        leNat (e.2.take 8) = 0x8000184400000000) ∧ s.bad = [] ∧
      (∀ k ∈ s.clsOf i, (s.cl (onCl i k)).after = none) ∧
      (Instr.add g0 3 1 2).supervisor = false ∧ opRank (.add g0 3 1 2) = 0 ∧ isSemOp (.add g0 3 1 2) = false ∧
      (0x40008 : Word).toNat % 64 ≠ 0 := by
  decide

/-- NothingRunsBeforeRelease: the machine after cold reset, whose first step is the start of a quantum. -/
theorem wit_NothingRunsBeforeRelease : PreRelease State.reset ∧ ∃ t, step State.reset = .next t :=
  ⟨⟨by decide, by decide, by decide, fun _ h => absurd h (by exact List.not_mem_nil)⟩, _, rfl⟩

/-! ### Single steps, their results worked by hand from the manual and its examples -/

/-- What a cluster has in flight. -/
def fly (t : State) (k : Fin 4) : List (FDst × BitVec 5) := (t.curCl k).flights.map fun f => (f.dst, f.flags)

/-- A lone stream whose scalars 1 and 2 hold these values. -/
def with12 (a b : Word) : State := oneWith fun c => (c.setReg 1 a).setReg 2 b

/-- R99: the sum wraps; a sum of addresses too. -/
theorem test_add_wraps : ∃ t, exec (.add g0 3 1 2) (with12 (-1) 1) = .next t ∧ fly t 0 = [(.reg 3 0 false, 0)] := ⟨_, rfl, by decide⟩

theorem test_sub_borrows : ∃ t, exec (.sub g0 3 1 2) (with12 1 2) = .next t ∧ fly t 0 = [(.reg 3 (-1) false, 0)] :=
  ⟨_, rfl, by decide⟩

/-- R92: the D bit of a source goes with the result. -/
theorem test_addi_carries_d :
    ∃ t, exec (.addi g0 5 4 8) (oneWith fun c => { c with dbits := 16 }) = .next t ∧ fly t 0 = [(.reg 5 8 true, 0)] :=
  ⟨_, rfl, by decide⟩

/-- A guard that is false leaves the stream as it was. -/
theorem test_add_guard_false : ∃ t, exec (.add g1 3 1 2) (with12 5 6) = .next t ∧ fly t 0 = [] := ⟨_, rfl, by decide⟩

/-- R106: MOVHI keeps the lower half. -/
theorem test_movhi : ∃ t, exec (.movhi g0 1 0x80000001) (with12 0xA00000005 0) = .next t ∧ fly t 0 = [(.reg 1 0x8000000100000005 false, 0)] :=
  ⟨_, rfl, by decide⟩

/-- The manual's example of a division: -7 by 2. -/
theorem test_div_truncates : ∃ t, exec (.div g0 3 1 2) (with12 (-7) 2) = .next t ∧ fly t 0 = [(.reg 3 (-3) false, 0)] :=
  ⟨_, rfl, by decide⟩

theorem test_divn : ∃ t, exec (.divn g0 3 1 2) (with12 (-7) 2) = .next t ∧ fly t 0 = [(.reg 3 0x7FFFFFFFFFFFFFFC false, 0)] :=
  ⟨_, rfl, by decide⟩

theorem test_rem_sign : ∃ t, exec (.rem g0 3 1 2) (with12 (-7) 2) = .next t ∧ fly t 0 = [(.reg 3 (-1) false, 0)] :=
  ⟨_, rfl, by decide⟩

theorem test_remn : ∃ t, exec (.remn g0 3 1 2) (with12 (-7) 2) = .next t ∧ fly t 0 = [(.reg 3 1 false, 0)] := ⟨_, rfl, by decide⟩

/-- `cmpi.lt q3, s7, -2` compares as signed numbers. -/
theorem test_cmpi_lt : ∃ t, exec (.cmpi g0 .lt 3 1 0xFFFFFFFE) (with12 (-3) 0) = .next t ∧ fly t 0 = [(.pred 3 true, 0)] :=
  ⟨_, rfl, by decide⟩

/-- `bfx s2, s3, 8, 12` takes bits 19-8. -/
theorem test_bfx : ∃ t, exec (.bfx g0 2 1 8 12) (with12 0xFFF4567F 0) = .next t ∧ fly t 0 = [(.reg 2 0x456 false, 0)] :=
  ⟨_, rfl, by decide⟩

/-- The manual's example of a conversion: -5.5 to an integer, toward zero and to nearest. -/
theorem test_sfcvt_rz :
    ∃ t, exec (.sfcvt g0 .f32_i32 .rz 2 1) (with12 0xC0B00000 0) = .next t ∧ fly t 0 = [(.reg 2 0xFFFFFFFFFFFFFFFB false, fNX)] :=
  ⟨_, rfl, by decide⟩

theorem test_sfcvt_rne :
    ∃ t, exec (.sfcvt g0 .f32_i32 .rne 2 1) (with12 0xC0B00000 0) = .next t ∧ fly t 0 = [(.reg 2 (-6) false, fNX)] :=
  ⟨_, rfl, by decide⟩

/-- 1.0 + (-1.0) is +0, and -0 when rounding down. -/
theorem test_sfadd_zero :
    ∃ t, exec (.sfadd g0 .rne 3 1 2) (with12 0x3F800000 0xBF800000) = .next t ∧ fly t 0 = [(.reg 3 0 false, 0)] := ⟨_, rfl, by decide⟩

theorem test_sfadd_rd :
    ∃ t, exec (.sfadd g0 .rd 3 1 2) (with12 0x3F800000 0xBF800000) = .next t ∧ fly t 0 = [(.reg 3 0x80000000 false, 0)] :=
  ⟨_, rfl, by decide⟩

/-- R41, R43: 300 and 500 as E4M3; 1 + 2^-8 as BF16 under each rounding; a draw from seed 1. -/
theorem test_conversions :
    convLane envRne .e4m3 .f32 0x43960000 = (0x79, fNX) ∧ convLane envRne .e4m3 .f32 0x43FA0000 = (0x7E, fOF ||| fNX) ∧
      (convLane envRne .bf16 .f32 0x3F808000).1 = 0x3F80 ∧ (convLane { envRne with rm := .rna } .bf16 .f32 0x3F808000).1 = 0x3F81 ∧
      (convLane { envRne with rm := .rz } .bf16 .f32 0x3F808000).1 = 0x3F80 ∧ srDraw 1 = 0x40822041 := by
  decide

/-- `cid s1, 0` gives each cluster its number; `cid s2, 2` the core's. -/
theorem test_cid :
    let s : State := { s0 with cur := ⟨5, 3, 0, 0⟩ }
    let s := s.modBank s.cur fun b => { b with occ := true, cl := b.cl.map fun c => { c with st := .running } }
    ∃ t, exec (.cid g0 1 .cluster) s = .next t ∧ fly t 3 = [(.reg 1 3 false, 0)] := ⟨_, rfl, by decide⟩

/-- A sum below zero traps: the semaphore, and bit 8. -/
theorem test_semadd_below_zero :
    ∃ t, exec (.semadd g0 5 4 1) (oneWith fun c => c.setReg 1 (-1)) = .next t ∧
      t.iss.res = .trap cSEMOVF 0 (-1) 0x104 := ⟨_, rfl, by decide⟩

/-- R123: guards 1, 1, 0, 1 branch under any and diverge under uni. -/
def q1101 : State := bankWith fun b => only 2 (fun c => { c with preds := 1 }) { b with cl := b.cl.map fun c => { c with preds := 5 } }

theorem test_br_any :
    ∃ t, exec (.br ⟨true, false, 2⟩ .any 2) q1101 = .next t ∧ (t.curCl 2).pc = 0x40080 ∧ t.iss.moved = true := ⟨_, rfl, by decide⟩

theorem test_br_uni_diverges :
    ∃ t, exec (.br ⟨true, false, 2⟩ .uni 2) q1101 = .next t ∧ t.iss.res = .trap cDIVERGE 0 0 0b1011 := ⟨_, rfl, by decide⟩

/-- The manual's example of a call: from 0x5010 to 0x5200, returning to 0x5040. -/
theorem test_call :
    let s := oneWith id
    ∃ t, exec (.call g0 .uni 8) { s with iss := { s.iss with addr := 0x5010, bundle := 0x5010 } } = .next t ∧
      (t.curCl 0).pc = 0x5200 ∧ (t.curCl 0).rstop = 1 ∧ (t.curCl 0).rstack.head? = some 0x5040 := ⟨_, rfl, by decide⟩

/-- The manual's example of a full return stack: its oldest entry goes to 0x9000. -/
theorem test_call_spills :
    let s := oneWith fun c => { c with rstop := 16, spillp := 0x9000, rstack := 0x1C0 :: List.replicate 15 0 }
    ∃ t, exec (.call g0 .uni 8) s = .next t ∧ (t.curCl 0).rstop = 16 ∧ (t.curCl 0).spillp = 0x9008 ∧
      t.reqs.map (fun r => (r.op, r.loc)) = [(.write (leBytes 8 0x1C0), .hbm 0x9000)] := ⟨_, rfl, by decide⟩

theorem test_ret_pops :
    ∃ t, exec (.ret g0 .uni) (oneWith fun c => { c with rstop := 1, rstack := 0x5040 :: List.replicate 15 0 }) = .next t ∧
      (t.curCl 0).pc = 0x5040 ∧ (t.curCl 0).rstop = 0 := ⟨_, rfl, by decide⟩

/-- R137: a count of zero skips the body. -/
theorem test_loopi_zero :
    ∃ t, exec (.loopi g0 2 0 3) (oneWith id) = .next t ∧ (t.curCl 0).pc = 0x40100 ∧ (t.curCl 0).lc.getD 2 7 = 0 ∧
      (t.curCl 0).le.getD 2 0 = 0x400C0 ∧ (t.curCl 0).lb.getD 2 0 = 0x40040 := ⟨_, rfl, by decide⟩

/-- R238: four accesses of one bank; the first cluster's is granted, and the bundle stalls. -/
theorem test_ld_bank_conflict :
    let s := clsWith fun c => c.setReg 2 0x100
    let s := (s.modCurCl 1 fun c => c.setReg 2 0x300).modCurCl 2 fun c => c.setReg 2 0x500
    ∃ t, exec (.ld g0 5 ⟨.i64, .ls, 2, 0, .plain, .core⟩) (s.modCurCl 3 fun c => c.setReg 2 0x700) = .next t ∧
      t.iss.res = .stall ∧ t.curCore.lsUsed = 0x10000 ∧ t.active.map (fun k => (t.curCl k).lsHeld) = [true, false, false, false] :=
  ⟨_, rfl, by decide⟩

/-- Byte order: the low byte of a stored word lies lowest; a signed byte is extended. -/
theorem test_st_little_endian :
    ∃ t, exec (.st g0 1 ⟨.n32, .ls, 2, 4, .plain, .core⟩) (with12 0x12345678 0x3C) = .next t ∧
      bytesAt t.curCore.ls 0x40 5 = [0x78, 0x56, 0x34, 0x12, 0] := ⟨_, rfl, by decide⟩

theorem test_ld_signed_byte :
    let s := (with12 0 0x40).modCore 0 0 fun x => { x with ls := mputs [] 0x41 [0x80] }
    ∃ t, exec (.ld g0 5 ⟨.i8, .ls, 2, 1, .plain, .core⟩) s = .next t ∧ fly t 0 = [(.reg 5 (-128) false, 0)] := ⟨_, rfl, by decide⟩

/-- The manual's example of an LDM: six registers from 0x3FFE8, three before the boundary. -/
theorem test_ldm_first_piece :
    ∃ t, exec (.ldm g0 8 5 .virt 2 0) (with12 0 0x3FFE8) = .next t ∧ (t.curCl 0).hold.isPiece = true ∧ (t.curCl 0).xfer = 0 ∧
      t.reqs.map (·.loc) = [.hbm 0x3FFE8, .hbm 0x3FFF0, .hbm 0x3FFF8] := ⟨_, rfl, by decide⟩

/-- An atomic asks for the old value; the word is pending. -/
theorem test_aadd_pends :
    ∃ t, exec (.aadd g0 7 ⟨.i64, .virt, 2, 64, .plain, .core⟩ 1 true) (with12 5 0x8000) = .next t ∧ (t.curCl 0).p 7 = true ∧
      t.reqs.map (fun r => (r.op, r.loc, r.comb)) = [(.atom .add .i64 5 0, .hbm 0x8040, true)] := ⟨_, rfl, by decide⟩

/-- R262: adding 2^-24 to 1.0 in a TSM word keeps 1.0. -/
theorem test_afadd_tie :
    let r := reqAt 0 (.stream s0.cur) (.atom .fadd .n32 0x33800000 0) (.tsm 0 0) (.atom 3) .wait
    ∃ t, exec (.tsmBankStep 0 0) { s0.modTile 0 (fun x => { x with tsm := mputs [] 0 (leBytes 4 0x3F800000) }) with reqs := [r] } =
        .next t ∧ leNat (bytesAt (t.tile 0).tsm 0 4) = 0x3F800000 ∧ tget 0 (t.tile 0).bankFlags 0 = fNX := ⟨_, rfl, by decide⟩

set_option maxRecDepth 8000 in
/-- The manual's example of a row sum: 2^24, 1, 1, 1 add up pairwise. -/
theorem test_vrsum_tree :
    let s := ready1.modCore 0 0 fun x => { x with panels := mputs [] (panAddr 3 0) ([0x4B800000, 0x3F800000, 0x3F800000, 0x3F800000].flatMap (leBytes 4)) }
    ∃ t, exec (.vrsum g0 .f32 .rne 5 ⟨3, .imm 0⟩) s = .next t ∧ fly t 0 = [(.reg 5 0x4B800001 false, fNX)] := ⟨_, rfl, by decide⟩

/-- VINS writes one lane, the last of 128. -/
theorem test_vins_lane :
    ∃ t, exec (.vins g0 .i32 ⟨6, .imm 0⟩ 1 2) (ready1.modCurCl 0 fun c => (c.setReg 1 9).setReg 2 127) = .next t ∧
      fly t 0 = [(.row 6 0 508 [9, 0, 0, 0], 0)] := ⟨_, rfl, by decide⟩

set_option maxRecDepth 8000 in
/-- R49: 2^24 and 31 ones add exactly before the one rounding; integer elements wrap and set OF. -/
theorem test_mma_group :
    mmaElem 0 (List.replicate 32 (fmtBF16.read 0x3F80)) (fmtBF16.read 0x4B80 :: List.replicate 31 (fmtBF16.read 0x3F80)) =
        (0x4B800010, fNX) ∧
      mmaIntElem (2 ^ 31 - 101) [100, 2] [2, 0] = (2 ^ 32 - 2147483549, fOF) := by
  decide

/-- An entry takes the next slot of its engine's ring. -/
theorem test_mma_enqueues :
    ∃ t, exec (.mma g0 ⟨0, 0, 17, 1, false, false, .core⟩ 1 2 4 .i8)
        (coreWith fun x => { x with rings := { x.rings with c0 := ⟨0, 63, 63⟩ }, b0 := { x.b0 with joined := false } }) = .next t ∧
      t.curCore.rings.c0 = ⟨0, 0, 64⟩ := ⟨_, rfl, by decide⟩

/-- The manual's example of the estimator (R327). -/
theorem test_cost_estimate :
    let b : Bank := { Bank.reset with done := 30, total := 100, cycles := 60000 }
    b.rem = some 140000 ∧ ceilDiv (100 * 140000) 1250 = 11200 ∧ ceilDiv 1065472 40960 + 4 = 31 := by
  decide

/-- The manual's example of queue 2: tails of 20 and 12 are accepted, 27 and 11 refused. -/
theorem test_host_tail :
    let s := { s0 with lq := [(2, { LQ.reset with size := 4, head := 10, tail := 12 })] }
    let after := fun (v : Word) => match exec (.hostTailWrite 2 v) s with
      | .next t => some ((tget LQ.reset t.lq 2).tail, (tget LQ.reset t.lq 2).overrun)
      | _ => none
    [20, 27, 11, 12].map after = [some (20, false), some (12, true), some (12, true), some (12, false)] := by
  decide

set_option maxRecDepth 8000 in
/-- The placed word runs: after the step its sum is in flight and the stream is past it. -/
theorem test_step_add :
    ∃ t, step (State.reset.withFetchWord 64 0x8000184400000000) = .next t ∧ (t.cl StreamId.zero).pc = 0x40008 ∧
      (fly t 3).map (·.1) = [.reg 3 0 false] := ⟨_, rfl, by decide⟩

set_option maxRecDepth 8000 in
/-- A word of no operation traps. -/
theorem test_step_illop :
    ∃ t, step (State.reset.withFetchWord 64 0x8FF0000000000000) = .next t ∧ (t.cl StreamId.zero).st = .parked := ⟨_, rfl, by decide⟩

end Sys2Proof.Tests
end

section
/-!
PROOFS. Placement, aging and continuations (R30, R312, R314-R316, R323): which entry a core places and in which bank, what the
bank of a new task holds, and what a key of the continuation store keeps.
-/

namespace Sys2Proof.Placing

open Sys2Proof Sys2Proof.Machine Sys2Proof.Safety Sys2Proof.Laws

/-! ### The five rows -/

theorem exec_taskPlacement (t c : Nat) (s : State) : exec (.taskPlacement t c) s = execTaskPlacement t c s := rfl

theorem exec_taskStart (t c b : Nat) (s : State) : exec (.taskStart t c b) s = execTaskStart t c b s := rfl

theorem exec_taskAging (s : State) : exec .taskAging s = execTaskAging s := rfl

theorem exec_continuationRegistration (s : State) :
    exec .continuationRegistration s = execContinuationRegistration s := rfl

theorem exec_postApply (s : State) : exec .postApply s = execPostApply s := rfl

/-! ### Banks that can run, and the bank that is free -/

theorem mem_streams (b : Bank) (k : Fin 4) : k ∈ b.streams ↔ hasStream b k := by
  have all : k ∈ cls4 := by revert k; decide
  unfold Bank.streams hasStream
  split <;> simp [all]

theorem cluster_able_iff (c : Cluster) : c.able = true ↔ mayRun c := by
  simp [Cluster.able, mayRun]

theorem bank_able_iff (b : Bank) : b.able = true ↔ Able b := by
  simp [Bank.able, Able, mem_streams, cluster_able_iff]

theorem freeBank_of_takesTask {x : Core} {b : Nat} (h : TakesTask x b) : x.freeBank = some b := by
  unfold Core.freeBank
  rcases h with ⟨rfl, free, other⟩ | ⟨rfl, busy, free⟩
  · have := mt (bank_able_iff _).mp other
    simp [free, this]
  · simp [busy, free]

theorem freeBank_eq_none {x : Core} (h0 : x.b0.occ = true) (h1 : x.b1.occ = true) : x.freeBank = none := by
  have occ (b : Nat) : (x.bank b).occ = true := by
    unfold Core.bank
    split <;> assumption
  simp [Core.freeBank, occ]

/-- The bank that takes a task is one of the core's two. -/
theorem takesTask_lt {x : Core} {b : Nat} (h : TakesTask x b) : b < 2 := by
  rcases h with ⟨rfl, -⟩ | ⟨rfl, -⟩ <;> omega

/-! ### The first entry of a core -/

theorem before_iff (a b : TaskEnt) : a.before b = true ↔ placedBefore a b := by
  unfold TaskEnt.before placedBefore
  by_cases hp : a.prio = b.prio
  · by_cases ht : a.tick = b.tick <;> simp [hp, ht]
  · simp [hp, Ne.symm hp]

theorem placedBefore_asymm {a b : TaskEnt} (h : placedBefore a b) : ¬placedBefore b a := by
  unfold placedBefore at *
  omega

/-- The better of the entry found so far and the next one of the list. -/
def earlier (m : Option TaskEnt) (e : TaskEnt) : Option TaskEnt :=
  match m with
  | none => some e
  | some b => if e.before b then some e else some b

theorem earlier_of_placedBefore {e f : TaskEnt} (h : placedBefore e f) : earlier (some e) f = some e := by
  have : f.before e = false := by simpa using mt (before_iff f e).mp (placedBefore_asymm h)
  simp [earlier, this]

/-- An entry that is placed before every other one is taken as soon as the search meets it. -/
theorem earlier_first {e : TaskEnt} {m : Option TaskEnt} (h : ∀ f ∈ m, f ≠ e → placedBefore e f) :
    earlier m e = some e := by
  cases m with
  | none => rfl
  | some f =>
    by_cases hf : f = e
    · simp [earlier, hf]
    · have := (before_iff e f).mpr (h f rfl hf)
      simp [earlier, this]

/-- What has been found is one of the entries looked at. -/
theorem earlier_mem {m : Option TaskEnt} {e f : TaskEnt} (h : f ∈ earlier m e) : f ∈ m ∨ f = e := by
  cases m with
  | none => exact .inr (Option.some.inj h).symm
  | some b =>
    by_cases hb : e.before b = true
    · have found : earlier (some b) e = some e := if_pos hb
      exact .inr (Option.some.inj (found.symm.trans h)).symm
    · have found : earlier (some b) e = some b := if_neg hb
      exact .inl (found.symm.trans h)

/-- Once found, an entry that is placed before all that follow stays. -/
theorem foldl_earlier_keeps {e : TaskEnt} (l : List TaskEnt) (h : ∀ f ∈ l, f ≠ e → placedBefore e f) :
    l.foldl earlier (some e) = some e := by
  induction l with
  | nil => rfl
  | cons f l ih =>
    have step : earlier (some e) f = some e := by
      by_cases hf : f = e
      · exact hf ▸ earlier_first (by simp)
      · exact earlier_of_placedBefore (h f List.mem_cons_self hf)
    rw [List.foldl_cons, step]
    exact ih fun g hg => h g (List.mem_cons_of_mem f hg)

/-- The search finds the entry that is placed before every other one of the list. -/
theorem foldl_earlier_first {e : TaskEnt} (l : List TaskEnt) (m : Option TaskEnt) (he : e ∈ l)
    (hl : ∀ f ∈ l, f ≠ e → placedBefore e f) (hm : ∀ f ∈ m, f ≠ e → placedBefore e f) :
    l.foldl earlier m = some e := by
  induction l generalizing m with
  | nil => exact absurd he List.not_mem_nil
  | cons g l ih =>
    have tail : ∀ f ∈ l, f ≠ e → placedBefore e f := fun f hf => hl f (List.mem_cons_of_mem g hf)
    rw [List.foldl_cons]
    rcases List.mem_cons.mp he with rfl | he
    · rw [earlier_first hm]
      exact foldl_earlier_keeps l tail
    · refine ih _ he tail fun f hf => ?_
      rcases earlier_mem hf with hf | rfl
      · exact hm f hf
      · exact hl f List.mem_cons_self

/-- An entry of a core that is not passed over. -/
def waitsHere (s : State) (t c : Nat) (e : TaskEnt) : Bool :=
  e.core == c && !(e.kind == 1 && s.coSaved e.launch t) && !s.coStops t e.company

theorem bestEntry_eq (s : State) (t c : Nat) :
    s.bestEntry t c = ((s.tile t).ready.filter (waitsHere s t c)).foldl earlier none := rfl

theorem bestEntry_eq_none {s : State} {t c : Nat} (h : ∀ f ∈ (s.tile t).ready, f.core ≠ c) : s.bestEntry t c = none := by
  have : (s.tile t).ready.filter (waitsHere s t c) = [] := by
    rw [List.filter_eq_nil_iff]
    intro f hf
    simp [waitsHere, h f hf]
  rw [bestEntry_eq, this]
  rfl

theorem coStops_eq_false {s : State} (h : s.companies.all (fun o => o.preempt == 0) = true) (t id : Nat) :
    s.coStops t id = false := by
  simp only [List.all_eq_true, beq_iff_eq] at h
  simp only [State.coStops, List.any_eq_false]
  intro o ho
  simp [h o ho]

theorem bestEntry_eq_some {s : State} {t c : Nat} {e : TaskEnt} (he : e ∈ (s.tile t).ready) (hc : e.core = c)
    (hk : e.kind = 0) (hs : s.companies.all (fun o => o.preempt == 0) = true)
    (first : ∀ f ∈ (s.tile t).ready, f.core = c → f ≠ e → placedBefore e f) : s.bestEntry t c = some e := by
  have here : waitsHere s t c e = true := by simp [waitsHere, hc, hk, coStops_eq_false hs]
  rw [bestEntry_eq]
  refine foldl_earlier_first _ _ (List.mem_filter.mpr ⟨he, here⟩) (fun f hf => ?_) (by simp)
  obtain ⟨hf, hw⟩ := List.mem_filter.mp hf
  have : f.core = c := by
    simp only [waitsHere, Bool.and_eq_true, beq_iff_eq] at hw
    exact hw.1.1
  exact first f hf this

/-! ### The bank of a new task -/

theorem reg_setReg (c : Cluster) (r d : Reg) (v : Word) (hd : d ≠ 0) :
    (c.setReg d v).reg r = if r = d then v else c.reg r := by
  have set : c.setReg d v = { c with regs := tset c.regs d.toNat v } := if_neg (by simpa using hd)
  rw [set]
  unfold Cluster.reg
  by_cases hr : r = d
  · subst hr
    rw [if_neg (by simpa using hd), if_pos rfl, tget_tset_same]
  · rw [tget_tset_ne _ _ _ fun h => hr (BitVec.eq_of_toNat_eq h), if_neg hr]

theorem startCluster_reg (l : Launch) (d c k : Nat) (r : Reg) :
    (startCluster l d c k).reg r =
      if r = 1 then BitVec.ofNat 64 (recField l.recd 16 8) else if r = 2 then BitVec.ofNat 64 d
      else if r = 3 then BitVec.ofNat 64 c else if r = 4 then BitVec.ofNat 64 l.id else 0 := by
  have fresh : Cluster.reset.reg r = 0 := by simp [Cluster.reg, Cluster.reset]
  have given : (startCluster l d c k).reg r =
      ((((Cluster.reset.setReg 1 (BitVec.ofNat 64 (recField l.recd 16 8))).setReg 2 (BitVec.ofNat 64 d)).setReg 3
        (BitVec.ofNat 64 c)).setReg 4 (BitVec.ofNat 64 l.id)).reg r := rfl
  have read : (startCluster l d c k).reg r =
      if r = 4 then BitVec.ofNat 64 l.id else if r = 3 then BitVec.ofNat 64 c
      else if r = 2 then BitVec.ofNat 64 d else if r = 1 then BitVec.ofNat 64 (recField l.recd 16 8) else 0 := by
    rw [given, reg_setReg _ _ _ _ (by decide), reg_setReg _ _ _ _ (by decide), reg_setReg _ _ _ _ (by decide),
      reg_setReg _ _ _ _ (by decide), fresh]
  rw [read]
  -- The four indices differ, so the order of the tests does not matter.
  by_cases h1 : r = 1
  · rw [h1]
    rfl
  by_cases h2 : r = 2
  · rw [h2]
    rfl
  by_cases h3 : r = 3
  · rw [h3]
    rfl
  simp only [h1, h2, h3, if_false]

@[simp] theorem quadOf_get {α : Type} (f : Nat → α) (k : Fin 4) : (quadOf f).get k = f k.val := by
  match k with
  | 0 | 1 | 2 | 3 => rfl

/-- A cluster of a new task as its launch record gives it (Table launch 5). -/
structure StartsAs (l : Launch) (e : TaskEnt) (k : Fin 4) (q : Cluster) : Prop where
  pc : q.pc = BitVec.ofNat 64 (recField l.recd 0 8)
  st : q.st = .running
  priv : q.priv = recSup l.recd
  srseed : q.srseed = BitVec.ofNat 64 (l.id * 2 ^ 32 + e.dIdx * 2 ^ 16 + e.cIdx * 16 + k.val)
  reg : ∀ r, q.reg r =
    if r = 1 then BitVec.ofNat 64 (recField l.recd 16 8) else if r = 2 then BitVec.ofNat 64 e.dIdx
    else if r = 3 then BitVec.ofNat 64 e.cIdx else if r = 4 then BitVec.ofNat 64 l.id else 0

theorem startCluster_startsAs (l : Launch) (e : TaskEnt) (k : Fin 4) :
    StartsAs l e k (startCluster l e.dIdx e.cIdx k.val) :=
  ⟨rfl, rfl, rfl, rfl, startCluster_reg l e.dIdx e.cIdx k.val⟩

/-- Neither the loop levels, which the company keeps, nor the time of the placement are among these. -/
theorem StartsAs.resumeAt {l : Launch} {e : TaskEnt} {k : Fin 4} {q : Cluster} {levels : List Level}
    (h : StartsAs { l with levels } e k q) (due : Nat) : StartsAs l e k { q with resumeAt := due } :=
  ⟨h.pc, h.st, h.priv, h.srseed, h.reg⟩

/-! ### Placing an entry -/

/-- The state that an entry has left. -/
def without (s : State) (t : Nat) (e : TaskEnt) : State :=
  s.modTile t fun x => { x with ready := x.ready.erase e }

/-- A bank whose state is loaded at a later quantum. -/
def loading (k : Bank) (due : Nat) : Bank :=
  { k with started := false, cl := k.cl.map fun q => { q with resumeAt := due } }

theorem placeEntry_of_entryBank {s s' : State} {t c b : Nat} {e : TaskEnt} {k : Bank}
    (h : (without s t e).entryBank t c b e = some (k, s')) :
    s.placeEntry t c b e =
      s'.later.2.modCore t c fun x => x.modBank b fun _ => loading k s'.later.1 := by
  unfold State.placeEntry
  rw [show s.modTile t (fun x => { x with ready := x.ready.erase e }) = without s t e from rfl]
  simp only [h]
  rfl

/-- The levels with which a new task's bank is made: its company's, else those of its launch. -/
def levelsOf (s : State) (t : Nat) (l : Launch) : List Level :=
  ((s.companyOf l.id t).map (·.levels)).getD l.levels

/-- The bank that is made for a new task. -/
def newBank (s : State) (t : Nat) (l : Launch) (e : TaskEnt) : Bank :=
  { startBank { l with levels := levelsOf s t l } e with since := s.cycles t }

theorem entryBank_new {s : State} {e : TaskEnt} {l : Launch} (hk : e.kind = 0) (hs : s.launches = [l])
    (hl : l.id = e.launch) (t c b : Nat) :
    s.entryBank t c b e = some (newBank s t l e, s) := by
  unfold State.entryBank
  rw [hk]
  simp [State.newBank, newBank, levelsOf, hs, hl]

theorem loading_newBank_startsAs (s : State) (t : Nat) (l : Launch) (e : TaskEnt) (due : Nat) (k : Fin 4) :
    StartsAs l e k ((loading (newBank s t l e) due).cl.get k) := by
  have new : (loading (newBank s t l e) due).cl.get k =
      { startCluster { l with levels := levelsOf s t l } e.dIdx e.cIdx k.val with resumeAt := due } := by
    simp [loading, newBank, startBank]
  rw [new]
  exact (startCluster_startsAs _ e k).resumeAt due

/-! ### Tiles and cores after an update -/

theorem coreBecomes_modCore (s : State) (t c : Nat) (f : Core → Core) :
    CoreBecomes s (s.modCore t c f) t c (f (s.core t c)) := by
  refine ⟨rfl, fun n => ?_, fun n d => core_modCore s t c n d f⟩
  rw [tile_modCore]
  split
  · subst_vars; rfl
  · rfl

theorem foldl_modTile_tile (f : Tile → Tile) (s : State) (n m : Nat) :
    ((List.range m).foldl (fun s t => s.modTile t f) s).tile n = if n < m then f (s.tile n) else s.tile n := by
  induction m with
  | zero => rfl
  | succ m ih =>
    rw [List.range_succ, List.foldl_append, List.foldl_cons, List.foldl_nil, tile_modTile]
    by_cases h : n = m
    · subst h
      simp [ih]
    · have : n < m + 1 ↔ n < m := by omega
      simp [ih, h, this]

theorem tilesBecome_allTiles (s : State) (f : Tile → Tile) : TilesBecome s (s.allTiles f) fun _ => f := by
  unfold State.allTiles
  have rest := foldl_obs (fun u : State => { u with tiles := s.tiles }) (f := fun s t => s.modTile t f) (fun _ _ => rfl)
    (List.range 16) s
  exact ⟨rest, fun n hn => (foldl_modTile_tile f s n 16).trans (if_pos hn)⟩

/-! ### Keys of the continuation store -/

theorem keyEnt_key (s : State) (k : Word) : (s.keyEnt k).key = k := by
  unfold State.keyEnt
  cases h : s.keys.find? fun e => e.key == k with
  | none => rfl
  | some e => simpa using List.find?_some h

/-- The entry that was put reads back, and one without posts and waiters as one that is free. -/
theorem keyEnt_putKey_same (s : State) (e : KeyEnt) : (s.putKey e).keyEnt e.key = e := by
  have rest : (s.keys.filter fun x => x.key != e.key).find? (fun x => x.key == e.key) = none := by simp
  unfold State.keyEnt State.putKey
  by_cases h : (e.pending == 0 && e.waiters.isEmpty) = true
  · simp only [h, if_true, rest]
    obtain ⟨key, pending, waiters⟩ := e
    simp_all
  · simp [h, rest]

theorem keyEnt_putKey_ne (s : State) (e : KeyEnt) {j : Word} (hj : j ≠ e.key) : (s.putKey e).keyEnt j = s.keyEnt j := by
  have rest : (s.keys.filter fun x => x.key != e.key).find? (fun x => x.key == j) = s.keys.find? fun x => x.key == j := by
    rw [List.find?_filter]
    congr 1
    funext x
    by_cases hx : x.key = j <;> simp [hx, hj]
  have mine : [e].find? (fun x => x.key == j) = none := by simp [Ne.symm hj]
  unfold State.keyEnt State.putKey
  split
  · rw [rest]
  · simp only [List.find?_append, rest, mine, Option.or_none]

/-- What a put of a key's changed entry leaves and changes. -/
theorem keyEnt_putKey {s : State} {e : KeyEnt} {k : Word} (hk : e.key = k) :
    (∀ j, j ≠ k → (s.putKey e).keyEnt j = s.keyEnt j) ∧ (s.putKey e).keyEnt k = e := by
  subst hk
  exact ⟨fun _ => keyEnt_putKey_ne s e, keyEnt_putKey_same s e⟩

/-! ### Released continuations -/

/-- A continuation stands as the last ready entry of its core, at its company's priority, from the present tick on. -/
def Released (s u : State) (m : Nat) : Prop :=
  let c := tget Cont.reset s.conts m
  ∃ e, (u.tile c.tile).ready = (s.tile c.tile).ready ++ [e] ∧ e.kind = 1 ∧ e.cont = m ∧ e.core = c.core ∧
    e.prio = (c.compReg.extractLsb' 16 2).toNat ∧ e.tick = s.tick

theorem releaseCont_released (s : State) (m pos : Nat) (broken : Bool) : Released s (s.releaseCont m pos broken) m := by
  refine ⟨?entry, ?ready, ?fields⟩
  case ready =>
    simp only [State.releaseCont, State.takeTaskId, tile_modTile_same]
    rfl
  case fields => exact ⟨rfl, rfl, rfl, rfl, rfl⟩

theorem keyEnt_releaseCont (s : State) (m pos : Nat) (broken : Bool) (k : Word) :
    (s.releaseCont m pos broken).keyEnt k = s.keyEnt k := rfl

@[simp] theorem putKey_regsPending (s : State) (e : KeyEnt) : (s.putKey e).regsPending = s.regsPending := rfl

@[simp] theorem putKey_posts (s : State) (e : KeyEnt) : (s.putKey e).posts = s.posts := rfl

@[simp] theorem releaseCont_regsPending (s : State) (m pos : Nat) (broken : Bool) :
    (s.releaseCont m pos broken).regsPending = s.regsPending := rfl

@[simp] theorem releaseCont_posts (s : State) (m pos : Nat) (broken : Bool) :
    (s.releaseCont m pos broken).posts = s.posts := rfl

/-- What reads after a key has given up a waiter or a post to a continuation. -/
theorem putKey_releaseCont_reads (s : State) {e : KeyEnt} {k : Word} (hk : e.key = k) (m : Nat) :
    let u := (s.putKey e).releaseCont m 0 false
    (∀ j, j ≠ k → u.keyEnt j = s.keyEnt j) ∧ u.keyEnt k = e ∧ Released s u m := by
  obtain ⟨others, mine⟩ := keyEnt_putKey (s := s) hk
  exact ⟨fun j hj => (keyEnt_releaseCont ..).trans (others j hj), (keyEnt_releaseCont ..).trans mine,
    releaseCont_released (s.putKey e) m 0 false⟩

/-! ### The message that is next -/

theorem allPerformed_nil (s : State) : s.allPerformed [] = true := by simp [State.allPerformed]

/-- A registration has arrived, and the accesses before it have been performed. -/
def regDue (s : State) (r : RegMsg) : Bool := decide (r.tick ≤ s.tick) && s.allPerformed r.after

theorem nextReg_eq (s : State) :
    s.nextReg = firstBy (fun (r : RegMsg) => [r.tick, r.tile, r.core]) (s.regsPending.filter (regDue s)) := rfl

theorem nextReg_of_nil {s : State} (h : s.regsPending = []) : s.nextReg = none := by
  rw [nextReg_eq, h]
  rfl

theorem nextReg_of_singleton {s : State} {r : RegMsg} (h : s.regsPending = [r]) (tick : r.tick ≤ s.tick)
    (after : r.after = []) : s.nextReg = some r := by
  have due : regDue s r = true := by simp [regDue, tick, after, allPerformed_nil]
  rw [nextReg_eq, h, List.filter_cons_of_pos due]
  rfl

/-- A post has arrived, the accesses before it have been performed, and its key takes it. -/
def postDue (s : State) (p : PostMsg) : Bool :=
  decide (p.tick ≤ s.tick) && s.allPerformed p.after && s.takesPost p.key

theorem nextPost_eq (s : State) :
    s.nextPost = firstBy (fun (p : PostMsg) => [p.tile, p.core, p.cl]) (s.posts.filter (postDue s)) := rfl

theorem nextPost_of_nil {s : State} (h : s.posts = []) : s.nextPost = none := by
  rw [nextPost_eq, h]
  rfl

theorem nextPost_of_takes {s : State} {p : PostMsg} (h : s.posts = [p]) (tick : p.tick ≤ s.tick) (after : p.after = [])
    (takes : s.takesPost p.key = true) : s.nextPost = some p := by
  have due : postDue s p = true := by simp [postDue, tick, after, allPerformed_nil, takes]
  rw [nextPost_eq, h, List.filter_cons_of_pos due]
  rfl

theorem nextPost_of_not_takes {s : State} {p : PostMsg} (h : s.posts = [p]) (takes : s.takesPost p.key = false) :
    s.nextPost = none := by
  have stays : ¬postDue s p = true := by simp [postDue, takes]
  rw [nextPost_eq, h, List.filter_cons_of_neg stays]
  rfl

/-! ### The continuation store's two rows -/

/-- The state that a registration has left. -/
def applied (s : State) (r : RegMsg) : State := { s with regsPending := s.regsPending.erase r }

/-- The state that a post has left. -/
def posted (s : State) (p : PostMsg) : State := { s with posts := s.posts.erase p }

theorem registration_idle {s : State} (h : s.nextReg = none) : exec .continuationRegistration s = .next s := by
  simp only [exec_continuationRegistration, execContinuationRegistration, h]

theorem registration_applies {s : State} {r : RegMsg} (h : s.nextReg = some r) :
    exec .continuationRegistration s = .next ((applied s r).register r.num) := by
  simp only [exec_continuationRegistration, execContinuationRegistration, h, applied]

theorem postApply_idle {s : State} (h : s.nextPost = none) : exec .postApply s = .next s := by
  rw [exec_postApply, execPostApply]
  cases s.nextReg <;> simp only [h]

theorem register_waits {s : State} {n : Nat} {k : Word} (hk : (tget Cont.reset s.conts n).key = some k)
    (h : (s.keyEnt k).pending = 0) :
    s.register n = s.putKey { s.keyEnt k with waiters := (s.keyEnt k).waiters ++ [n] } := by
  simp [State.register, hk, h]

theorem register_releases {s : State} {n : Nat} {k : Word} (hk : (tget Cont.reset s.conts n).key = some k)
    (h : (s.keyEnt k).pending ≠ 0) :
    s.register n = (s.putKey { s.keyEnt k with pending := (s.keyEnt k).pending - 1 }).releaseCont n 0 false := by
  simp [State.register, hk, h]

theorem postApply_releases {s : State} {p : PostMsg} {n : Nat} {ws : List Nat} (hr : s.nextReg = none)
    (hp : s.nextPost = some p) (hw : (s.keyEnt p.key).waiters = n :: ws) :
    exec .postApply s =
      .next (((posted s p).putKey { s.keyEnt p.key with waiters := ws }).releaseCont n 0 false) := by
  simp only [exec_postApply, execPostApply, hr, hp]
  split
  next m ms h =>
    obtain ⟨rfl, rfl⟩ := List.cons.inj (h.symm.trans hw)
    rfl
  next h => exact absurd (hw.symm.trans h) (List.cons_ne_nil n ws)

theorem postApply_counts {s : State} {p : PostMsg} (hr : s.nextReg = none) (hp : s.nextPost = some p)
    (hw : (s.keyEnt p.key).waiters = []) :
    exec .postApply s =
      .next ((posted s p).putKey { s.keyEnt p.key with pending := (s.keyEnt p.key).pending + 1 }) := by
  simp only [exec_postApply, execPostApply, hr, hp]
  split
  next m ws h => exact absurd (h.symm.trans hw) (List.cons_ne_nil m ws)
  next => rfl

theorem takesPost_of_waiters {s : State} {k : Word} {n : Nat} {ws : List Nat} (h : (s.keyEnt k).waiters = n :: ws) :
    s.takesPost k = true := by
  simp [State.takesPost, h]

theorem takesPost_of_room {s : State} {k : Word} (h : (s.keyEnt k).pending < 65535) (room : s.keys.length < 4096) :
    s.takesPost k = true := by
  simp [State.takesPost, h, room]

theorem takesPost_of_full {s : State} {k : Word} (hw : (s.keyEnt k).waiters = []) (h : (s.keyEnt k).pending = 65535) :
    s.takesPost k = false := by
  simp [State.takesPost, hw, h]

/-! ### Placement and start -/

theorem taskPlacement_idle {s : State} {t c : Nat} (ht : t < 16) (hc : c < 16)
    (h : (∀ f ∈ (s.tile t).ready, f.core ≠ c) ∨ ((s.core t c).b0.occ = true ∧ (s.core t c).b1.occ = true)) :
    exec (.taskPlacement t c) s = .next s := by
  rw [exec_taskPlacement, execTaskPlacement, if_neg (by simp [u16, ht, hc])]
  rcases h with noEntry | ⟨h0, h1⟩
  · rw [bestEntry_eq_none noEntry]
    cases (s.core t c).freeBank <;> rfl
  · rw [freeBank_eq_none h0 h1]

theorem taskPlacement_places {s : State} {t c b : Nat} {e : TaskEnt} (ht : t < 16) (hc : c < 16)
    (hb : (s.core t c).freeBank = some b) (he : s.bestEntry t c = some e) :
    exec (.taskPlacement t c) s = .next (s.placeEntry t c b e) := by
  rw [exec_taskPlacement, execTaskPlacement, if_neg (by simp [u16, ht, hc]), hb, he]

theorem placeEntry_new {s : State} {e : TaskEnt} {l : Launch} (hk : e.kind = 0) (hs : s.launches = [l])
    (hl : l.id = e.launch) (t c b : Nat) :
    s.placeEntry t c b e =
      (without s t e).later.2.modCore t c fun x => x.modBank b fun _ =>
        loading (newBank (without s t e) t l e) (without s t e).later.1 :=
  placeEntry_of_entryBank (entryBank_new (s := without s t e) hk hs hl t c b)

theorem core_without (s : State) (t c : Nat) (e : TaskEnt) : (without s t e).core t c = s.core t c := by
  rw [without, core_modTile, if_pos rfl]
  rfl

/-- What a core and its tile read once a bank of the core is loading a task. -/
theorem placed_reads (s : State) (t c : Nat) {b : Nat} (hb : b < 2) (k : Bank) (e : TaskEnt) :
    let u := (without s t e).later.2.modCore t c fun x => x.modBank b fun _ => k
    (u.tile t).ready = (s.tile t).ready.erase e ∧ (u.core t c).bank (1 - b) = (s.core t c).bank (1 - b) ∧
      (u.core t c).fg = (s.core t c).fg ∧ (u.core t c).bank b = k := by
  intro u
  have core : u.core t c = (s.core t c).modBank b fun _ => k :=
    (core_modCore_same ..).trans (congrArg (Core.modBank · b fun _ => k) (core_without s t c e))
  refine ⟨?_, ?_, ?_, ?_⟩
  · have ready := congrArg Tile.ready (tile_modTile_same s t fun x => { x with ready := x.ready.erase e })
    exact (modCore_tile_ready ..).trans ready
  · rw [core, core_bank_modBank, if_neg (by omega)]
  · rw [core, core_modBank_fg]
  · rw [core, core_bank_modBank, if_pos Iff.rfl]

theorem taskStart_starts {s : State} {t c b : Nat} (ht : t < 16) (hc : c < 16) (hb : b < 2)
    (occ : ((s.core t c).bank b).occ = true) (new : ((s.core t c).bank b).started = false)
    (due : ((s.core t c).bank b).cl.c0.resumeAt ≤ s.quantum) :
    exec (.taskStart t c b) s = .next (s.modCore t c fun x => x.modBank b fun k =>
      { k with started := true, cl := k.cl.map fun q => { q with resumeAt := 0 } }) := by
  rw [exec_taskStart, execTaskStart, if_neg (by simp [u16, ht, hc, hb])]
  simp [occ, new, due]

theorem taskStart_idle {s : State} {t c b : Nat} (ht : t < 16) (hc : c < 16) (hb : b < 2)
    (h : ((s.core t c).bank b).occ = false ∨ s.quantum < ((s.core t c).bank b).cl.c0.resumeAt) :
    exec (.taskStart t c b) s = .next s := by
  rw [exec_taskStart, execTaskStart, if_neg (by simp [u16, ht, hc, hb])]
  rcases h with free | early
  · simp [free]
  · simp [Nat.not_le.mpr early]

/-- Aging as R30 words it: an entry that has stood ready for a multiple of 2^16 ticks gains a priority, to at most 3. -/
def aged (s : State) (f : TaskEnt) : TaskEnt :=
  if f.tick < s.tick ∧ (s.tick - f.tick) % 2 ^ 16 = 0 then { f with prio := min 3 (f.prio + 1) } else f

theorem taskAging_eq (s : State) :
    exec .taskAging s = .next (s.allTiles fun x => { x with ready := x.ready.map (aged s) }) := by
  have same : aged s = fun e : TaskEnt =>
      if (decide (e.tick < s.tick) && (s.tick - e.tick) % 65536 == 0) = true then
        { e with prio := min 3 (e.prio + 1) } else e := by
    funext e
    simp [aged]
  rw [same, exec_taskAging]
  rfl

/-! ### The clauses of the statement -/

/-- R314: the first entry of a core starts a new task in the core's free bank. -/
theorem taskPlacement_new {s : State} {t c b : Nat} {e : TaskEnt} {l : Launch} (ht : t < 16) (hc : c < 16)
    (he : e ∈ (s.tile t).ready) (hec : e.core = c) (hk : e.kind = 0) (hs : s.launches = [l]) (hl : l.id = e.launch)
    (running : s.companies.all (fun o => o.preempt == 0) = true)
    (first : ∀ f ∈ (s.tile t).ready, f.core = c → f ≠ e → placedBefore e f) (takes : TakesTask (s.core t c) b) :
    Steps (.taskPlacement t c) s fun u =>
      let n := (u.core t c).bank b
      (u.tile t).ready = (s.tile t).ready.erase e ∧ (u.core t c).bank (1 - b) = (s.core t c).bank (1 - b) ∧
        (u.core t c).fg = (s.core t c).fg ∧ n.occ = true ∧ n.started = false ∧ n.joined = true ∧
        n.taskid = BitVec.ofNat 32 e.taskid ∧ n.done = 0 ∧ ∀ k, StartsAs l e k (n.cl.get k) := by
  have step := taskPlacement_places ht hc (freeBank_of_takesTask takes) (bestEntry_eq_some he hec hk running first)
  rw [placeEntry_new hk hs hl t c b] at step
  obtain ⟨ready, other, fg, bank⟩ := placed_reads s t c (takesTask_lt takes)
    (loading (newBank (without s t e) t l e) (without s t e).later.1) e
  refine ⟨_, step, ready, other, fg, ?_⟩
  simp only [bank]
  exact ⟨rfl, rfl, rfl, rfl, rfl, loading_newBank_startsAs _ t l e _⟩

/-- R316: a registration without a pending post waits under its key. -/
theorem registration_waits {s : State} {r : RegMsg} {k : Word} (hr : s.regsPending = [r]) (tick : r.tick ≤ s.tick)
    (after : r.after = []) (hk : (tget Cont.reset s.conts r.num).key = some k) (noPost : (s.keyEnt k).pending = 0) :
    Steps .continuationRegistration s fun u => u.regsPending = [] ∧ (∀ j, j ≠ k → u.keyEnt j = s.keyEnt j) ∧
      u.keyEnt k = { s.keyEnt k with waiters := (s.keyEnt k).waiters ++ [r.num] } ∧ u.tiles = s.tiles := by
  have step := registration_applies (nextReg_of_singleton hr tick after)
  rw [register_waits (s := applied s r) hk noPost] at step
  obtain ⟨others, mine⟩ := keyEnt_putKey (s := applied s r)
    (e := { s.keyEnt k with waiters := (s.keyEnt k).waiters ++ [r.num] }) (keyEnt_key s k)
  exact ⟨_, step, by simp [applied, hr], others, mine, rfl⟩

/-- R316: a registration takes a pending post and is released. -/
theorem registration_releases {s : State} {r : RegMsg} {k : Word} (hr : s.regsPending = [r]) (tick : r.tick ≤ s.tick)
    (after : r.after = []) (hk : (tget Cont.reset s.conts r.num).key = some k) (hasPost : (s.keyEnt k).pending ≠ 0) :
    Steps .continuationRegistration s fun u => u.regsPending = [] ∧ (∀ j, j ≠ k → u.keyEnt j = s.keyEnt j) ∧
      u.keyEnt k = { s.keyEnt k with pending := (s.keyEnt k).pending - 1 } ∧ Released s u r.num := by
  have step := registration_applies (nextReg_of_singleton hr tick after)
  rw [register_releases (s := applied s r) hk hasPost] at step
  exact ⟨_, step, by simp [applied, hr], putKey_releaseCont_reads (applied s r)
    (e := { s.keyEnt k with pending := (s.keyEnt k).pending - 1 }) (keyEnt_key s k) r.num⟩

/-- R316, R323: a post releases the oldest waiter of its key. -/
theorem post_releases {s : State} {p : PostMsg} {n : Nat} {ws : List Nat} (hr : s.regsPending = []) (hp : s.posts = [p])
    (tick : p.tick ≤ s.tick) (after : p.after = []) (hw : (s.keyEnt p.key).waiters = n :: ws) :
    Steps .postApply s fun u => u.posts = [] ∧ (∀ j, j ≠ p.key → u.keyEnt j = s.keyEnt j) ∧
      u.keyEnt p.key = { s.keyEnt p.key with waiters := ws } ∧ Released s u n := by
  have step := postApply_releases (nextReg_of_nil hr) (nextPost_of_takes hp tick after (takesPost_of_waiters hw)) hw
  exact ⟨_, step, by simp [posted, hp], putKey_releaseCont_reads (posted s p)
    (e := { s.keyEnt p.key with waiters := ws }) (keyEnt_key s p.key) n⟩

/-- R316: a post without a waiter is counted under its key. -/
theorem post_counts {s : State} {p : PostMsg} (hr : s.regsPending = []) (hp : s.posts = [p]) (tick : p.tick ≤ s.tick)
    (after : p.after = []) (hw : (s.keyEnt p.key).waiters = []) (h : (s.keyEnt p.key).pending < 65535)
    (room : s.keys.length < 4096) :
    Steps .postApply s fun u => u.posts = [] ∧ (∀ j, j ≠ p.key → u.keyEnt j = s.keyEnt j) ∧
      u.keyEnt p.key = { s.keyEnt p.key with pending := (s.keyEnt p.key).pending + 1 } ∧ u.tiles = s.tiles := by
  have step := postApply_counts (nextReg_of_nil hr) (nextPost_of_takes hp tick after (takesPost_of_room h room)) hw
  obtain ⟨others, mine⟩ := keyEnt_putKey (s := posted s p)
    (e := { s.keyEnt p.key with pending := (s.keyEnt p.key).pending + 1 }) (keyEnt_key s p.key)
  exact ⟨_, step, by simp [posted, hp], others, mine, rfl⟩

/-- Settles O43: each clause is the rule of its row, for placement by the search for the first entry and the reads of the bank
that it loads, for the continuation store by the reads of a key whose entry has changed. -/
theorem taskScheduling : Obligations.TaskScheduling := by
  unfold Obligations.TaskScheduling
  refine ⟨fun s t c b e l ht hc => ⟨taskPlacement_idle ht hc, ?_, ?_, taskStart_idle ht hc, ?_⟩, fun s r p k n ws =>
    ⟨fun h => registration_idle (nextReg_of_nil h), ?_, fun h => postApply_idle (nextPost_of_nil h), ?_⟩⟩
  · intro he hec hk hs hl running first takes
    obtain ⟨u, step, ready, other, fg, occ, started, joined, taskid, done, cl⟩ :=
      taskPlacement_new ht hc he hec hk hs hl running first takes
    exact ⟨u, step, ready, other, fg, occ, started, joined, taskid, done, fun k =>
      ⟨(cl k).pc, (cl k).st, (cl k).priv, (cl k).srseed, (cl k).reg⟩⟩
  · intro hb occ new due
    exact ⟨_, taskStart_starts ht hc hb occ new due, coreBecomes_modCore ..⟩
  · exact ⟨_, taskAging_eq s, tilesBecome_allTiles ..⟩
  · exact fun hr tick after hk => ⟨registration_waits hr tick after hk, registration_releases hr tick after hk⟩
  · exact fun hr hp tick after => ⟨post_releases hr hp tick after, post_counts hr hp tick after, fun hw h =>
      postApply_idle (nextPost_of_not_takes hp (takesPost_of_full hw h))⟩

end Sys2Proof.Placing
end

section
/-!
PROOFS. The scalar sums, products, quotients and remainders (R91, R94, R99-R101): the shared forms of one and of two sources
give what their function gives, and the functions of the model are the integer arithmetic of the manual.
-/

namespace Sys2Proof.ScalarArith

open Sys2Proof Sys2Proof.Machine Sys2Proof.Safety Sys2Proof.Laws

/-! ### Each operation's form -/

section
variable (h : Hdr) (d a b : Reg) (s : State)

theorem exec_add : exec (.add h d a b) s = alu2 h 1 d a b (fun x y => x + y) s := rfl

theorem exec_sub : exec (.sub h d a b) s = alu2 h 1 d a b (fun x y => x - y) s := rfl

theorem exec_addi (imm : BitVec 32) :
    exec (.addi h d a imm) s = alu1 h d a (fun x => x + imm.signExtend 64) s := rfl

theorem exec_addsh (sh : BitVec 3) :
    exec (.addsh h d a b sh) s = alu2 h 1 d a b (fun x y => x + y <<< sh.toNat) s := rfl

theorem exec_mul : exec (.mul h d a b) s = alu2 h 3 d a b (fun x y => x * y) s := rfl

theorem exec_mulh :
    exec (.mulh h d a b) s = alu2 h 3 d a b (fun x y => BitVec.ofInt 64 (x.toInt * y.toInt / 2 ^ 64)) s := rfl

theorem exec_mulhn :
    exec (.mulhn h d a b) s = alu2 h 3 d a b (fun x y => BitVec.ofNat 64 (x.toNat * y.toNat / 2 ^ 64)) s := rfl

theorem exec_div : exec (.div h d a b) s = alu2 h 34 d a b divS s := rfl

theorem exec_divn : exec (.divn h d a b) s = alu2 h 34 d a b divU s := rfl

theorem exec_rem : exec (.rem h d a b) s = alu2 h 34 d a b remS s := rfl

theorem exec_remn : exec (.remn h d a b) s = alu2 h 34 d a b remU s := rfl

end

/-! ### The shared forms -/

/-- Fewer registers are to be free of pending results. -/
theorem nonePending_subset {s : State} {h : Hdr} {rs qs : List Reg} (hp : NonePending s h rs) (hq : qs ⊆ rs) :
    NonePending s h qs :=
  fun k hk r hr => hp k hk r (hq hr)

/-- An operation of the form of two sources gives what its function gives of them (R91). -/
theorem gives_alu2 {i : Instr} {s : State} {h : Hdr} {lat : Nat} {d a b : Reg} {f : Word → Word → Word}
    {v : Cluster → Word} (hp : NonePending s h [a, b, d]) (he : exec i s = alu2 h lat d a b f s)
    (hv : ∀ c : Cluster, f (c.reg a) (c.reg b) = v c) : Gives i s h lat d [a, b] v := by
  obtain rfl : (fun c : Cluster => f (c.reg a) (c.reg b)) = v := funext hv
  exact does_scalarOp he hp

/-- An operation of the form of one source gives, in the next cycle, what its function gives of it (R91). -/
theorem gives_alu1 {i : Instr} {s : State} {h : Hdr} {d a : Reg} {f : Word → Word} {v : Cluster → Word}
    (hp : NonePending s h [a, d]) (he : exec i s = alu1 h d a f s) (hv : ∀ c : Cluster, f (c.reg a) = v c) :
    Gives i s h 1 d [a] v := by
  obtain rfl : (fun c : Cluster => f (c.reg a)) = v := funext hv
  exact does_scalarOp he hp

/-! ### Sums, products, quotients and remainders of words as integers -/

theorem sub_eq_ofInt (x y : Word) : x - y = BitVec.ofInt 64 (x.toInt - y.toInt) := by
  rw [Int.sub_eq_add_neg, BitVec.ofInt_add, BitVec.ofInt_neg, BitVec.ofInt_toInt, BitVec.ofInt_toInt,
    BitVec.sub_eq_add_neg]

theorem add_signExtend_eq_ofInt (x : Word) (imm : BitVec 32) :
    x + imm.signExtend 64 = BitVec.ofInt 64 (x.toInt + imm.toInt) := by
  rw [BitVec.ofInt_add, BitVec.ofInt_toInt, BitVec.signExtend]

/-- A shift to the left is a multiplication by a power of two, modulo 2^64. -/
theorem add_shiftLeft_eq_ofNat (x y : Word) (n : Nat) : x + y <<< n = BitVec.ofNat 64 (x.toNat + y.toNat * 2 ^ n) := by
  apply BitVec.eq_of_toNat_eq
  rw [BitVec.toNat_add, BitVec.toNat_shiftLeft, Nat.shiftLeft_eq, BitVec.toNat_ofNat, Nat.add_mod_mod]

theorem mul_eq_ofNat (x y : Word) : x * y = BitVec.ofNat 64 (x.toNat * y.toNat) := by
  apply BitVec.eq_of_toNat_eq
  rw [BitVec.toNat_mul, BitVec.toNat_ofNat]

/-- Bits 127 to 64 of a signed product, as a quotient rounded down. -/
theorem ediv_eq_fdiv_two_pow (z : Int) : z / 2 ^ 64 = z.fdiv (2 ^ 64) :=
  (Int.fdiv_eq_ediv_of_nonneg z (by decide)).symm

/-- Division by zero gives all ones (Table scalar 6). -/
theorem ite_beq_zero_neg_one (y q : Word) :
    (if y == 0 then -1 else q) = if y = 0 then BitVec.allOnes 64 else q := by
  by_cases hy : y = 0
  · rw [if_pos hy, if_pos (beq_iff_eq.mpr hy)]
    exact BitVec.neg_one_eq_allOnes
  · rw [if_neg hy, if_neg (mt beq_iff_eq.mp hy)]

theorem divS_eq (x y : Word) :
    divS x y = if y = 0 then BitVec.allOnes 64 else BitVec.ofInt 64 (x.toInt.tdiv y.toInt) :=
  ite_beq_zero_neg_one y _

theorem divU_eq (x y : Word) :
    divU x y = if y = 0 then BitVec.allOnes 64 else BitVec.ofNat 64 (x.toNat / y.toNat) :=
  ite_beq_zero_neg_one y _

theorem remS_eq (x y : Word) : remS x y = if y = 0 then x else BitVec.ofInt 64 (x.toInt.tmod y.toInt) := by
  simp only [remS, beq_iff_eq]

theorem remU_eq (x y : Word) : remU x y = if y = 0 then x else BitVec.ofNat 64 (x.toNat % y.toNat) := by
  simp only [remU, beq_iff_eq]

/-- Settles O1: each operation has the shared form of one or of two sources, and its function is the integer arithmetic of
R99, R100 or R101. -/
theorem scalarArithmetic : Obligations.ScalarArithmetic := by
  unfold Obligations.ScalarArithmetic
  intro s h d a b imm sh free
  have free1 : NonePending s h [a, d] := nonePending_subset free (by simp)
  refine ⟨?add, ?sub, ?addi, ?addsh, ?mul, ?mulh, ?mulhn, ?div, ?divn, ?rem, ?remn⟩
  case add => exact gives_alu2 free (exec_add ..) fun _ => BitVec.add_def ..
  case sub => exact gives_alu2 free (exec_sub ..) fun _ => sub_eq_ofInt ..
  case addi => exact gives_alu1 free1 (exec_addi ..) fun _ => add_signExtend_eq_ofInt ..
  case addsh => exact gives_alu2 free (exec_addsh ..) fun _ => add_shiftLeft_eq_ofNat ..
  case mul => exact gives_alu2 free (exec_mul ..) fun _ => mul_eq_ofNat ..
  case mulh => exact gives_alu2 free (exec_mulh ..) fun _ => congrArg (BitVec.ofInt 64) (ediv_eq_fdiv_two_pow _)
  case mulhn => exact gives_alu2 free (exec_mulhn ..) fun _ => rfl
  case div => exact gives_alu2 free (exec_div ..) fun _ => divS_eq ..
  case divn => exact gives_alu2 free (exec_divn ..) fun _ => divU_eq ..
  case rem => exact gives_alu2 free (exec_rem ..) fun _ => remS_eq ..
  case remn => exact gives_alu2 free (exec_remn ..) fun _ => remU_eq ..

end Sys2Proof.ScalarArith
end

section
/-!
PROOFS. The combining table (R385-R394): what each of its four rows makes of the table of its tile, and that a request which
leaves a router changes no such table.
-/

namespace Sys2Proof.CombiningTable

open Sys2Proof Sys2Proof.Machine Sys2Proof.Safety Sys2Proof.Laws

/-! ### The five rows -/

theorem exec_combineArrival (id : Nat) (s : State) : exec (.combineArrival id) s = execCombineArrival id s := rfl

theorem exec_combinedSend (t n : Nat) (s : State) : exec (.combinedSend t n) s = execCombinedSend t n s := rfl

theorem exec_combinedReply (t n : Nat) (s : State) : exec (.combinedReply t n) s = execCombinedReply t n s := rfl

theorem exec_combiningEntryTimeout (t n : Nat) (s : State) :
    exec (.combiningEntryTimeout t n) s = execCombiningEntryTimeout t n s := rfl

theorem exec_atomicReplyTimeout (id : Nat) (s : State) :
    exec (.atomicReplyTimeout id) s = execAtomicReplyTimeout id s := rfl

/-! ### Updates that leave every combining table -/

/-- What a way out of a router leaves: the next request's number and every tile's combining table. -/
def combView (s : State) : Nat × (Nat → Tbl CEnt) := (s.nextId, fun t => (s.tile t).comb)

theorem comb_of_combView {s u : State} (h : combView u = combView s) (t : Nat) : (u.tile t).comb = (s.tile t).comb :=
  congrFun (congrArg Prod.snd h) t

theorem nextId_of_combView {s u : State} (h : combView u = combView s) : u.nextId = s.nextId := congrArg Prod.fst h

theorem combView_modTile (s : State) (t : Nat) {f : Tile → Tile} (hf : ∀ x, (f x).comb = x.comb) :
    combView (s.modTile t f) = combView s := by
  have comb (n : Nat) : ((s.modTile t f).tile n).comb = (s.tile n).comb := by
    rw [tile_modTile]
    split
    · subst_vars; exact hf _
    · rfl
  exact congrArg (Prod.mk s.nextId) (funext comb)

@[simp] theorem combView_modReq (s : State) (id : Nat) (f : Req → Req) : combView (s.modReq id f) = combView s := rfl

@[simp] theorem combView_delReq (s : State) (id : Nat) : combView (s.delReq id) = combView s := rfl

@[simp] theorem combView_later (s : State) : combView s.later.2 = combView s := rfl

@[simp] theorem combView_heal (s : State) (b : BadCell) : combView (s.heal b) = combView s := rfl

@[simp] theorem combView_raise (s : State) (priv : Bool) (r : FRec) : combView (s.raise priv r) = combView s := by
  unfold State.raise
  dsimp only
  split
  · exact combView_modTile _ _ fun _ => rfl
  · rfl

@[simp] theorem combView_answer (s : State) (r : Req) (bs : List Byte) (nv bad : Bool) :
    combView (s.answer r bs nv bad) = combView s := by
  unfold State.answer
  split <;> rfl

@[simp] theorem combView_answerLost (s : State) (r : Req) (b : BadCell) : combView (s.answerLost r b) = combView s := by
  simp [State.answerLost]

@[simp] theorem combView_notBefore (s : State) (id n : Nat) : combView (s.notBefore id n) = combView s := rfl

@[simp] theorem combView_standHome (s : State) (id : Nat) : combView (s.standHome id) = combView s := rfl

/-! ### The memory-side cache and the write queues leave them -/

@[simp] theorem combView_queueWrite (s : State) (a : Nat) (bs : List Byte) (owner : Nat) :
    combView (s.queueWrite a bs owner) = combView s := combView_modTile _ _ fun _ => rfl

@[simp] theorem combView_mscEvict (s : State) (t line owner : Nat) : combView (s.mscEvict t line owner) = combView s := by
  unfold State.mscEvict
  split
  · rfl
  · dsimp only
    split
    · rw [combView_queueWrite]
      exact combView_modTile _ _ fun _ => rfl
    · exact combView_modTile _ _ fun _ => rfl

@[simp] theorem combView_mscHit (s : State) (a : Nat) : combView (s.mscHit a) = combView s :=
  combView_modTile _ _ fun _ => rfl

@[simp] theorem combView_mscMiss (s : State) (a : Nat) : combView (s.mscMiss a) = combView s :=
  combView_modTile _ _ fun _ => rfl

@[simp] theorem combView_mscTouch (s : State) (a : Nat) (memside : Bool) :
    combView (s.mscTouch a memside).2 = combView s := by
  unfold State.mscTouch
  dsimp only
  split
  · exact combView_mscMiss ..
  · exact Eq.trans (combView_modTile _ _ fun _ => rfl) (combView_mscMiss ..)

theorem combView_evicts (t owner : Nat) (l : List (Nat × MscLine)) (s : State) :
    combView (l.foldl (fun s e => s.mscEvict t e.1 owner) s) = combView s :=
  foldl_obs combView (fun s e => combView_mscEvict s t e.1 owner) l s

@[simp] theorem combView_mscInsert (s : State) (t line : Nat) (data : List Byte) (owner ready : Nat) (counted : Bool) :
    combView (s.mscInsert t line data owner ready counted) = combView s := by
  unfold State.mscInsert
  dsimp only
  split
  · exact combView_modTile _ _ fun _ => rfl
  · split
    · exact combView_modTile _ _ fun _ => rfl
    · split
      · exact combView_modTile _ _ fun _ => rfl
      · refine Eq.trans (combView_modTile _ _ fun _ => rfl) ?_
        split
        · exact (combView_mscEvict ..).trans (combView_modTile _ _ fun _ => rfl)
        · exact (combView_evicts ..).trans ((combView_mscEvict ..).trans (combView_modTile _ _ fun _ => rfl))

@[simp] theorem combView_mscFill (s : State) (a owner ready : Nat) (counted : Bool) :
    combView (s.mscFill a owner ready counted) = combView s := by
  unfold State.mscFill
  dsimp only
  split
  · rfl
  · exact combView_mscInsert ..

@[simp] theorem combView_mscLose (s : State) (a : Nat) : combView (s.mscLose a).2 = combView s := by
  unfold State.mscLose
  split
  · rfl
  · exact combView_modTile _ _ fun _ => rfl

@[simp] theorem combView_mscScrub (s : State) (a n : Nat) : combView (s.mscScrub a n) = combView s := by
  refine foldl_obs combView (fun u b => ?_) s.bad s
  split
  · split
    · exact combView_modTile _ _ fun _ => rfl
    · rfl
  · rfl

@[simp] theorem combView_lineWrite (s : State) (a : Nat) (bs : List Byte) (owner : Nat) :
    combView (s.lineWrite a bs owner) = combView s := by
  unfold State.lineWrite
  dsimp only
  split
  · simp
  · split
    · exact combView_modTile _ _ fun _ => rfl
    · refine (foldl_obs combView (fun u e => ?_) _ _).trans (combView_modTile _ _ fun _ => rfl)
      split
      · rfl
      · exact combView_mscEvict ..

@[simp] theorem combView_mscRun (s : State) (op a n owner : Nat) : combView (s.mscRun op a n owner) = combView s := by
  unfold State.mscRun
  dsimp only
  split
  · rfl
  · refine foldl_obs combView (fun u e => ?_) _ _
    split
    · split
      · exact Eq.trans (combView_modTile _ _ fun _ => rfl) (combView_queueWrite ..)
      · rfl
    · exact combView_mscEvict ..
    · exact combView_modTile _ _ fun _ => rfl
    · exact combView_modTile _ _ fun _ => rfl

/-! ### A write at the home leaves them -/

@[simp] theorem combView_healWrite (s : State) (bad : List BadCell) (t c a : Nat) (bs : List Byte) :
    combView (s.healWrite bad t c a bs).2.2 = combView s := by
  refine foldl_obs (fun acc : Nat × List Byte × State => combView acc.2.2) (fun acc b => ?_) bad (a, bs, s)
  dsimp only
  split <;> simp

theorem combView_homePut (s : State) {put : State → Nat → List Byte → State}
    (hput : ∀ u a bs, combView (put u a bs) = combView u) (a : Nat) (bs : List Byte) (owner : Nat) :
    combView (s.homePut put a bs owner) = combView s := by
  have healed (bad : List BadCell) (t h : Nat) :
      combView ((s.mscScrub h bs.length).healWrite bad t 0 h bs).2.2 = combView s := by simp
  have pool (u : State) (m : Mem) : combView { u with pool := m } = combView u := rfl
  unfold State.homePut
  dsimp only
  split
  · exact (hput ..).trans (healed ..)
  · split
    · split
      · exact (pool ..).trans ((hput ..).trans (healed ..))
      · exact (hput ..).trans (healed ..)
    · refine (foldl_obs combView (fun u p => ?_) _ _).trans (healed ..)
      split
      · split
        · exact (pool ..).trans (hput ..)
        · exact (combView_lineWrite ..).trans (hput ..)
      · exact hput ..

@[simp] theorem combView_homeWrite (s : State) (a : Nat) (bs : List Byte) (owner : Nat) :
    combView (s.homeWrite a bs owner) = combView s := by
  refine combView_homePut s (fun u a bs => ?_) a bs owner
  exact foldl_obs combView (fun u p => combView_lineWrite u p.1 p.2 owner) (pieces 64 a bs) u

/-! ### A request that leaves a router leaves them -/

theorem combView_of_mscLose {s u : State} {h : Nat} {b : Option BadCell} (lost : s.mscLose h = (b, u)) :
    combView u = combView s := by
  rw [← combView_mscLose s h, lost]

theorem combView_readNow (s : State) (r : Req) (h n : Nat) : combView (s.readNow r h n) = combView s := by
  unfold State.readNow
  split
  next b u lost => exact (combView_answerLost ..).trans (combView_of_mscLose lost)
  next u lost =>
    split
    · exact (combView_answerLost ..).trans (combView_of_mscLose lost)
    · exact (combView_answer ..).trans (combView_of_mscLose lost)

theorem combView_arriveRead (s : State) (r : Req) (h n : Nat) : combView (s.arriveRead r h n) = combView s := by
  have filled (u : State) (alloc counted : Bool) (a owner ready : Nat) :
      combView (if alloc then u.mscFill a owner ready counted else u) = combView u := by
    split
    · exact combView_mscFill ..
    · rfl
  unfold State.arriveRead
  cases r.op == .pf <;> simp only [Bool.false_eq_true, if_false, if_true, Bool.true_and, Bool.false_and]
  case false =>
    split
    · simp [combView_readNow]
    · split <;> simp [filled]
  case true =>
    split
    · simp
    · split
      · simp
      · split
        · exact (combView_answer ..).trans ((filled ..).trans (by simp))
        · simp

theorem combView_arriveStep (s : State) (r : Req) (h : Nat) : combView (s.arriveStep r h) = combView s := by
  have looked (u : State) :
      combView (if r.memside then u else if (u.mscLine h).isSome then u.mscHit h else u.mscMiss h) = combView u := by
    split
    · rfl
    · split <;> simp
  unfold State.arriveStep
  dsimp only
  split
  next b u lost => simp [combView_of_mscLose lost, looked]
  next u lost => simp [combView_of_mscLose lost, looked]

theorem combView_arriveHome (s : State) (r : Req) (a : Nat) : combView (s.arriveHome r a) = combView s := by
  unfold State.arriveHome
  dsimp only
  split
  · rfl
  · split
    case h_1 => simp
    case h_2 => exact combView_arriveRead ..
    case h_3 => exact combView_arriveRead ..
    case h_4 => exact combView_arriveStep ..
    case h_5 => exact combView_arriveStep ..
    case h_6 => exact combView_arriveStep ..
    case h_7 => simp
    case h_8 => rfl
    case h_9 => exact combView_answer ..

theorem combView_modPort (s : State) (t p : Nat) (f : Port → Port) : combView (s.modPort t p f) = combView s :=
  combView_modTile _ _ fun _ => rfl

theorem combView_takeHop (s : State) (t : Nat) (h : Hop) : combView (s.takeHop t h) = combView s := by
  unfold State.takeHop
  split
  · exact (combView_modPort ..).trans (foldl_obs combView (fun u _ => combView_modPort u ..) _ s)
  · rfl

theorem combView_hop (s : State) (r : Req) (t : Nat) : combView (s.hop r t) = combView s := by
  have taken (h : Hop) : combView (s.takeHop t h).later.2 = combView s := combView_takeHop ..
  unfold State.hop
  dsimp only
  split
  · split
    · exact (combView_delReq ..).trans (taken _)
    · exact (combView_modReq ..).trans (taken _)
  · exact (combView_modReq ..).trans (taken _)

/-- A request that leaves a router, into its home or by a hop, changes no combining table. -/
theorem combView_leave (s : State) (r : Req) (t : Nat) : combView (s.leave r t) = combView s := by
  unfold State.leave
  split
  · rfl
  · split
    · split
      · exact combView_arriveHome ..
      · exact combView_hop ..
    · exact combView_hop ..

/-! ### Requests and entries that are found -/

/-- A filter that keeps the first match keeps it first. -/
theorem find?_filter_of_keeps {α : Type} {p q : α → Bool} {l : List α} {a : α} (h : l.find? p = some a)
    (hq : q a = true) : (l.filter q).find? p = some a := by
  rw [List.find?_filter]
  obtain ⟨hp, before, after, rfl, first⟩ := List.find?_eq_some_iff_append.mp h
  exact List.find?_eq_some_iff_append.mpr ⟨by simp [hp, hq], before, after, rfl, fun b hb => by simp [first b hb]⟩

/-- A narrower search finds the first match of a wider one when it takes it. -/
theorem find?_of_narrower {α : Type} {p q : α → Bool} {l : List α} {a : α} (h : l.find? p = some a) (hq : q a = true)
    (sub : ∀ b, q b = true → p b = true) : l.find? q = some a := by
  obtain ⟨-, before, after, rfl, first⟩ := List.find?_eq_some_iff_append.mp h
  refine List.find?_eq_some_iff_append.mpr ⟨hq, before, after, rfl, fun b hb => ?_⟩
  have := mt (sub b) (by simpa using first b hb)
  simpa using this

/-- No request of a number is left when it has been deleted. -/
theorem findReq_delReq (s : State) (id : Nat) : (s.delReq id).findReq id = none := by
  simp [State.findReq, State.delReq]

/-- What is found under a number whose requests have been changed is one of the changed ones. -/
theorem exists_of_findReq_modReq {s : State} {id : Nat} {f : Req → Req} {q : Req}
    (h : (s.modReq id f).findReq id = some q) : ∃ r, q = f r := by
  obtain ⟨r, -, rfl⟩ := List.mem_map.mp (List.mem_of_find?_eq_some h)
  have found := List.find?_some h
  by_cases hr : (r.id == id) = true
  · exact ⟨r, if_pos hr⟩
  · rw [if_neg hr] at found
    exact absurd found hr

/-! ### An entry that is written -/

/-- Entry `n` of a tile's table is written. -/
def putEntry (s : State) (t n : Nat) (e : CEnt) : State := s.modTile t fun x => { x with comb := tset x.comb n e }

theorem comb_putEntry (s : State) (t n : Nat) (e : CEnt) :
    ((putEntry s t n e).tile t).comb = tset (s.tile t).comb n e := by
  rw [putEntry, tile_modTile_same]

theorem entry_putEntry (s : State) (t n : Nat) (d e : CEnt) : tget d ((putEntry s t n e).tile t).comb n = e := by
  rw [comb_putEntry, tget_tset_same]

/-! ### A request arrives at a combining stage (R385, R387) -/

theorem atRouter_of_stage {r : Req} {t : Nat} (h : r.stage = .router t) : r.atRouter = some t := by
  simp only [Req.atRouter, h]

/-- The entry that a request with operand `b` has joined. -/
def joined (e : CEnt) (r : Req) (b : Word) : CEnt :=
  { e with slips := e.slips ++ [⟨r.id, r.input, e.acc⟩], acc := combAdd e.afadd e.sz e.acc b }

theorem combineArrival_joins {s : State} {t n : Nat} {r : Req} {e : CEnt} {op : AOp} {sz : Siz} {x y : Word}
    (hr : s.findReq r.id = some r) (stage : r.stage = .router t) (hop : r.op = .atom op sz x y) (due : r.due ≤ s.quantum)
    (bad : s.bad = []) (takes : (s.tile t).comb.find? (fun z => z.2.takes r (s.fabric r.loc)) = some (n, e)) :
    exec (.combineArrival r.id) s =
      .next ((putEntry s t n (joined e r x)).modReq r.id fun q => { q with stage := .slip t n }) := by
  simp only [exec_combineArrival, execCombineArrival, hr, atRouter_of_stage stage, hop, Nat.not_lt.mpr due, if_false, takes,
    bad, List.contains_nil, Bool.false_eq_true, joined, putEntry]

theorem combineArrival_opens {s : State} {t : Nat} {r : Req} {op : AOp} {sz : Siz} {x y : Word}
    (hr : s.findReq r.id = some r) (stage : r.stage = .router t) (hop : r.op = .atom op sz x y) (due : r.due ≤ s.quantum)
    (takes : (s.tile t).comb.find? (fun z => z.2.takes r (s.fabric r.loc)) = none) :
    exec (.combineArrival r.id) s = .next (s.combOpen t r op sz x) := by
  simp only [exec_combineArrival, execCombineArrival, hr, atRouter_of_stage stage, hop, Nat.not_lt.mpr due, if_false, takes]

/-- In an empty table entry 0 is opened. -/
theorem combOpen_of_empty {s : State} {t : Nat} (r : Req) (op : AOp) (sz : Siz) (b : Word) (empty : (s.tile t).comb = []) :
    ((s.combOpen t r op sz b).tile t).comb = [(0, s.openEntry t r op sz b)] := by
  have first : ((List.range 1024).find? fun n => !((s.tile t).comb.any fun e => e.1 == n)) = some 0 := by
    simp [empty, List.find?_range_eq_some]
  have opened : ((s.combOpen t r op sz b).tile t).comb =
      ((putEntry s.later.2 t 0 (s.openEntry t r op sz b)).tile t).comb := by
    unfold State.combOpen
    rw [first]
    rfl
  have before : (s.later.2.tile t).comb = [] := empty
  rw [opened, comb_putEntry, before]
  rfl

/-! ### An entry is sent (R388) -/

theorem comb_freeComb (s : State) (t n : Nat) : ∀ z ∈ ((s.freeComb t n).tile t).comb, z.1 ≠ n := by
  rw [State.freeComb, tile_modTile_same]
  intro z hz
  simpa using (List.mem_filter.mp hz).2

section
variable {s : State} {t n : Nat} {r : Req} {e : CEnt} {k : Slip} {ks : List Slip} (ht : t < 16) (hn : n < 1024)
  (he : (s.tile t).comb.find? (fun z => z.1 == n) = some (n, e)) (slips : e.slips = k :: ks)
  (hr : s.findReq k.req = some r) (opened : e.sent = false) (due : r.due ≤ s.quantum) (bad : s.bad = [])
include ht hn he slips hr opened due bad

theorem combinedSend_eq :
    exec (.combinedSend t n) s = .next (if s.canLeave r t then s.combSend t n e r else s) := by
  rw [exec_combinedSend, execCombinedSend, if_neg (by simp [u16, ht, hn])]
  simp only [he, slips, List.head?_cons, Option.bind_some, hr, opened, Nat.not_lt.mpr due]
  cases s.canLeave r t <;> simp [bad]

theorem combinedSend_stays (held : s.canLeave r t = false) : exec (.combinedSend t n) s = .next s := by
  rw [combinedSend_eq ht hn he slips hr opened due bad, held, if_neg Bool.false_ne_true]

theorem combinedSend_goes (leaves : s.canLeave r t = true) :
    exec (.combinedSend t n) s = .next (s.combSend t n e r) := by
  rw [combinedSend_eq ht hn he slips hr opened due bad, if_pos leaves]

end

/-- A single request goes on as itself, and its entry is free. -/
theorem combSend_single (s : State) (t n : Nat) {e : CEnt} (r : Req) {k : Slip} (slips : e.slips = [k]) :
    let u := s.combSend t n e r
    (∀ z ∈ (u.tile t).comb, z.1 ≠ n) ∧ u.nextId = s.nextId := by
  have kept : combView (s.combSend t n e r) = combView (s.freeComb t n) := by
    simp only [State.combSend, slips, combView_leave, combView_modReq]
  exact ⟨comb_of_combView kept t ▸ comb_freeComb s t n, (nextId_of_combView kept).trans rfl⟩

/-- The entry whose merged request bears the next number. -/
def merged (s : State) (e : CEnt) : CEnt := { e with sent := true, sentTick := s.tick, merged := s.nextId }

/-- Several requests go on as a new one, for which their entry waits. -/
theorem combSend_several (s : State) (t n : Nat) {e : CEnt} (r : Req) {k : Slip} {ks : List Slip}
    (slips : e.slips = k :: ks) (several : ks ≠ []) :
    let u := s.combSend t n e r
    u.nextId = s.nextId + 1 ∧ ∀ d, tget d (u.tile t).comb n = merged s e := by
  have kept : combView (s.combSend t n e r) =
      combView (putEntry { s with nextId := s.nextId + 1 } t n (merged s e)) := by
    unfold State.combSend
    split
    next one => exact absurd (List.cons.inj (slips.symm.trans one)).2 several
    next => exact combView_leave ..
  refine ⟨nextId_of_combView kept, fun d => ?_⟩
  rw [comb_of_combView kept t]
  exact entry_putEntry ..

/-! ### A sent entry times out (R393) -/

theorem entryTimeout_waits {s : State} {t n : Nat} {e : CEnt} (ht : t < 16) (hn : n < 1024)
    (he : (s.tile t).comb.find? (fun z => z.1 == n) = some (n, e)) (early : s.tick < e.sentTick + 2 ^ 17) :
    exec (.combiningEntryTimeout t n) s = .next s := by
  rw [exec_combiningEntryTimeout, execCombiningEntryTimeout, if_neg (by simp [u16, ht, hn])]
  simp only [he, early, decide_true, Bool.or_true, Bool.true_or, if_true]

/-- The state that a timed-out entry has left: the requests of it that have timed out themselves are forgotten. -/
def lapsed (s : State) (t n : Nat) : State :=
  { s.freeComb t n with reqs := s.reqs.filter fun q => !(q.drop && q.stage == .slip t n) }

theorem entryTimeout_frees {s : State} {t n : Nat} {e : CEnt} (ht : t < 16) (hn : n < 1024)
    (he : (s.tile t).comb.find? (fun z => z.1 == n) = some (n, e)) (sent : e.sent = true)
    (late : e.sentTick + 2 ^ 17 ≤ s.tick) (noReply : s.mergedReply t n = none) :
    exec (.combiningEntryTimeout t n) s = .next (lapsed s t n) := by
  rw [exec_combiningEntryTimeout, execCombiningEntryTimeout, if_neg (by simp [u16, ht, hn])]
  simp only [he, sent, noReply, Nat.not_lt.mpr late, decide_false, Bool.not_true, Option.isSome_none, Bool.or_self,
    Bool.false_eq_true, if_false]
  rfl

/-- A request that still waits is kept. -/
theorem findReq_lapsed {s : State} {id : Nat} {q : Req} (t n : Nat) (hq : s.findReq id = some q) (waits : q.drop = false) :
    (lapsed s t n).findReq id = some q :=
  find?_filter_of_keeps hq (by simp [waits])

/-! ### A requester times out (R392) -/

/-- A destination register with the deferred fault. -/
def faultReg (d : Reg) (c : Cluster) : Cluster := ((c.setReg d 0).setD d true).setP d false

theorem getLsbD_setBit {w : Nat} (x : BitVec w) {i : Nat} (b : Bool) (hi : i < w) : (setBit x i b).getLsbD i = b := by
  cases b <;> simp [setBit, hi]

theorem faultReg_reads {d : Reg} (hd : d ≠ 0) (c : Cluster) :
    (faultReg d c).reg d = 0 ∧ (faultReg d c).d d = true ∧ (faultReg d c).p d = false := by
  have value : (c.setReg d 0).reg d = 0 := (Placing.reg_setReg c d d 0 hd).trans (if_pos rfl)
  have setD (c : Cluster) : c.setD d true = { c with dbits := setBit c.dbits d.toNat true } := if_neg (by simpa using hd)
  have setP (c : Cluster) : c.setP d false = { c with pbits := setBit c.pbits d.toNat false } := if_neg (by simpa using hd)
  rw [faultReg, setP, setD]
  refine ⟨value, ?_, ?_⟩
  · rw [Cluster.d, Bool.and_eq_true, bne_iff_ne]
    exact ⟨hd, getLsbD_setBit _ _ d.isLt⟩
  · simp [Cluster.p, getLsbD_setBit _ _ d.isLt]

theorem atomicReplyTimeout_faults {s : State} {id : Nat} {q : Req} {i : StreamId} {d : Reg} (hq : s.findReq id = some q)
    (who : q.who = .stream i) (dst : q.dst = .atom d) (hd : d ≠ 0) (comb : q.comb = true) (waits : q.drop = false)
    (late : q.tick + 2 ^ 17 ≤ s.tick) :
    Steps (.atomicReplyTimeout id) s fun v => (v.cl i).reg d = 0 ∧ (v.cl i).d d = true ∧ (v.cl i).p d = false := by
  have step : ∃ u : State, exec (.atomicReplyTimeout id) s = .next (u.modCl i (faultReg d)) := by
    rw [exec_atomicReplyTimeout, execAtomicReplyTimeout, hq]
    simp only [who, dst, comb, waits, late, decide_true, Bool.not_false, Bool.and_self, if_true]
    exact ⟨_, rfl⟩
  obtain ⟨u, step⟩ := step
  refine ⟨_, step, ?_⟩
  simp only [cl_modCl_same]
  exact faultReg_reads hd _

/-! ### A reply is split (R391) -/

/-- The answer to a slip stands as the stage of whatever request of its number is left. -/
theorem stage_of_slipReply {s : State} {y : Slip} {bs : List Byte} {nv bad : Bool}
    (waits : ∀ q, s.findReq y.req = some q → q.drop = false) {q : Req}
    (hq : (s.slipReply y bs nv bad).findReq y.req = some q) : q.stage = .reply bs nv bad := by
  unfold State.slipReply at hq
  split at hq
  next none => exact absurd (none.symm.trans hq) (by simp)
  next r hr =>
    have id : r.id = y.req := by simpa using List.find?_some hr
    rw [waits r hr, Bool.false_and, if_neg Bool.false_ne_true, State.answer] at hq
    split at hq
    · rw [id, findReq_delReq] at hq
      cases hq
    · rw [id] at hq
      obtain ⟨r, rfl⟩ := exists_of_findReq_modReq hq
      rfl

theorem combinedReply_first {s : State} {t n : Nat} {r : Req} {e : CEnt} {k : Slip} {ks : List Slip} {v : Word}
    {nv bad : Bool} (ht : t < 16) (hn : n < 1024) (he : (s.tile t).comb.find? (fun z => z.1 == n) = some (n, e))
    (slips : e.slips = k :: ks) (sent : e.sent = true) (merged : e.merged = r.id)
    (reply : s.mergedReply t n = some (r, v, nv, bad)) (first : e.nextSlip = 0) (several : ks ≠ []) (noBad : s.bad = []) :
    exec (.combinedReply t n) s =
      .next (putEntry (s.slipReply k (leBytes (sizBytes e.sz) v.toNat) nv bad) t n { e with nextSlip := 1 }) := by
  have own : (s.tile t).comb.find? (fun z => z.1 == n && z.2.sent && z.2.merged == r.id) = some (n, e) :=
    find?_of_narrower he (by simp [sent, merged]) fun z hz => by
      simp only [Bool.and_eq_true] at hz
      exact hz.1.1
  rw [exec_combinedReply, execCombinedReply, if_neg (by simp [u16, ht, hn])]
  simp [reply, own, noBad, slips, first, several, CEnt.valueOf, putEntry]

/-- Settles O39: each clause is the rule of its row, and what a request changes when it leaves the router lies outside the
combining tables. -/
theorem combining : Obligations.Combining := by
  unfold Obligations.Combining
  intro s t n r e op sz x y k ks ht hn tab
  refine ⟨fun hr stage hop due bad => ⟨fun takes => ?join, fun empty => ?opens⟩, fun he slips =>
    ⟨fun hr opened due bad => ⟨fun held => ?held, fun leaves single => ?single, fun leaves several => ?several⟩,
      fun _ early => entryTimeout_waits ht hn he early, fun sent late noReply => ?timeout,
      fun v nv bad sent own reply first several noBad waits _ => ?reply⟩⟩
  case join => exact ⟨_, combineArrival_joins hr stage hop due bad takes, entry_putEntry ..⟩
  case opens =>
    have none : (tab s).find? (fun z => z.2.takes r (s.fabric r.loc)) = none := by rw [empty]; rfl
    exact ⟨_, combineArrival_opens hr stage hop due none, _, combOpen_of_empty r op sz x empty, rfl, rfl, rfl, rfl⟩
  case held => exact combinedSend_stays ht hn he slips hr opened due bad held
  case single =>
    subst single
    exact ⟨_, combinedSend_goes ht hn he slips hr opened due bad leaves, combSend_single s t n r slips⟩
  case several =>
    obtain ⟨next, entry⟩ := combSend_several s t n r slips several
    exact ⟨_, combinedSend_goes ht hn he slips hr opened due bad leaves, next, congrArg CEnt.sent (entry e),
      congrArg CEnt.merged (entry e)⟩
  case timeout =>
    exact ⟨_, entryTimeout_frees ht hn he sent late noReply, comb_freeComb s t n, rfl,
      fun l _ q i d hq who dst hd comb waits late =>
        atomicReplyTimeout_faults (findReq_lapsed t n hq waits) who dst hd comb waits late⟩
  case reply =>
    exact ⟨_, combinedReply_first ht hn he slips sent own reply first several noBad,
      congrArg CEnt.nextSlip (entry_putEntry ..), fun q hq => stage_of_slipReply waits hq⟩

end Sys2Proof.CombiningTable
end
